-- ==== Sys2Proof/Word.lean ====
section
/-! DEFINITION. The word types of the 3234: bytes of host memory and of the station links, and the 16-, 32- and
64-bit words of registers, request arguments and court time (spec/00_scope.md, Conventions). -/
namespace Sys2Proof

/-- One byte of host memory, or the 8-bit value of a link character. -/
abbrev Byte := BitVec 8

/-- A 16-bit field: host tag, request kind, HOST MARK code. -/
abbrev Word16 := BitVec 16

/-- A 32-bit register or request argument. -/
abbrev Word32 := BitVec 32

/-- A 64-bit address of host memory, boundary count or time-of-day. -/
abbrev Word64 := BitVec 64

end Sys2Proof
end

