-- ==== Sys2Proof/Syntax.lean ====
section
/-! DEFINITION. The commands of the 3234, one constructor per row of spec/opcode_table.json, with the operands the
row's rule gives it. A request row carries the request's arguments as R169 lays them out in the cell. -/
namespace Sys2Proof

/-- The two station links, Port A and Port B. -/
inductive PortId where
  | a
  | b
  deriving DecidableEq, Repr

/-- How a bus write of the part ended: acknowledged, or failed. -/
inductive WriteEnd where
  | done
  | failed
  deriving DecidableEq, Repr

/-- One step of the part: a register write, a reset, a supply event, a boundary, an event of a link, the end of a
bus access, a request taken by its owning block, or a completion. -/
inductive Instr where
  /-- CONTROL_START (R149): a CONTROL write with START set and RESET clear. -/
  | controlStart
  /-- SOFT_RESET (R150): a CONTROL write with RESET set. -/
  | softReset
  /-- FUNCTION_RESET (R150): a PCI Express link reset or a reset of the part's function. -/
  | functionReset
  /-- ATTENTION_WRITE (R160): the word written to ATTENTION. -/
  | attentionWrite (value : Word32)
  /-- ATTN_MASK_WRITE (R161): the word written to ATTN_MASK. -/
  | attnMaskWrite (value : Word32)
  /-- REGISTER_WRITE (R148): a write of one word to an offset of the window. -/
  | registerWrite (offset : Word32) (value : Word32)
  /-- POWER_ON_RESET (R19); `supplyLow`: the part leaves it with the supply below the warning level (R162). -/
  | powerOnReset (supplyLow : Bool)
  /-- BROWN_OUT (R166): the supply falls below the reset level. -/
  | brownOut
  /-- SUPPLY_WARNING (R163): the supply falls below the warning level. -/
  | supplyWarning
  /-- SUPPLY_RECOVERY (R164): the supply rises above the release level. -/
  | supplyRecovery
  /-- BOUNDARY (R22); the operands say whether each port's report handed at the boundary is taken before the close
  of its frame (R97 allows either order). -/
  | boundary (reportAFirst : Bool) (reportBFirst : Bool)
  /-- FRAME_SENT (R57): the tag character of FRAME has been sent. -/
  | frameSent (port : PortId)
  /-- POLL_SENT (R58): the lamp byte's stop bit has been sent. -/
  | pollSent (port : PortId)
  /-- REPLY_TIMEOUT (R60): 24 character times without a reply; `lineBusy`: a character has begun on the line, so
  the next poll waits until it is quiet. -/
  | replyTimeout (port : PortId) (lineBusy : Bool)
  /-- ROUND_DEADLINE (R65). -/
  | roundDeadline (port : PortId)
  /-- LINE_QUIET (R61): no start of a character for 2 character times. -/
  | lineQuiet (port : PortId)
  /-- CHARACTER_RECEIVED (R36): the 88 line samples from a falling edge; bit i is sample i. -/
  | characterReceived (port : PortId) (samples : BitVec 88)
  /-- LINE_STUCK (R42): the low run reaches 4,096. -/
  | lineStuck (port : PortId)
  /-- OVERCURRENT (R44). -/
  | overcurrent (port : PortId)
  /-- CELL_READ (R153): the 64 bytes that the read of the cell at the scan cursor returned. -/
  | cellRead (bytes : List Byte)
  /-- CELL_READ_FAILED (R156). -/
  | cellReadFailed
  /-- ARM_RECORD_READ (R5): the 92 bytes that the read of the arm record returned. -/
  | armRecordRead (bytes : List Byte)
  /-- ARM_RECORD_READ_FAILED (R156). -/
  | armRecordReadFailed
  /-- TAKEN_WRITE (R154): the TAKEN write of a long request ends. -/
  | takenWrite (how : WriteEnd)
  /-- RESULT_AREA_WRITE (R155): the first completion write ends. -/
  | resultAreaWrite (how : WriteEnd)
  /-- STATE_WORD_WRITE (R155): the second completion write ends. -/
  | stateWordWrite (how : WriteEnd)
  /-- REQUEST_REFUSED_KIND (R154): a request of a kind not in the table. -/
  | requestRefusedKind (kind : Word16)
  /-- ARM (R5, R6): the arm record's address. -/
  | arm (address : Word64)
  /-- DISARM (R7). -/
  | disarm
  /-- DISARM_FREE_WRITE (R7): a FREE write for DISARM ends. -/
  | disarmFreeWrite (how : WriteEnd)
  /-- OPEN_SITTING (R8). -/
  | openSitting (number : Word32) (recordAtOpen : Word32)
  /-- GO_ON_RECORD (R10). -/
  | goOnRecord
  /-- GO_OFF_RECORD (R10). -/
  | goOffRecord
  /-- CLOSE_SITTING (R13). -/
  | closeSitting
  /-- ABANDON_STAGED (R16). -/
  | abandonStaged
  /-- SET_CLOCK (R27): the new time-of-day. -/
  | setClock (time : Word64)
  /-- TRIM_FRAME (R29): the interval length asked for. -/
  | trimFrame (length : Word32)
  /-- PORT_CONTROL (R46): port, power field, divisor field (all ones for KEEP). -/
  | portControl (port : Word32) (power : Word32) (divisor : Word32)
  /-- PORT_SELF_TEST (R48). -/
  | portSelfTest (port : Word32)
  /-- READ_COUNTERS (R51): port and clear flag. -/
  | readCounters (port : Word32) (clear : Word32)
  /-- RELEASE_STATION (R78): the station index. -/
  | releaseStation (station : Word32)
  /-- SET_CHANNEL (R87): the channel and five fields, each all ones for KEEP. -/
  | setChannel (channel : Word32) (gain : Word32) (threshold : Word32) (attack : Word32) (hang : Word32) (inMix : Word32)
  /-- SET_PRIVACY (R90). -/
  | setPrivacy (channel : Word32) (flag : Word32)
  /-- SET_BAR (R91). -/
  | setBar (channel : Word32) (flag : Word32)
  /-- FLUSH (R146). -/
  | flush
  /-- HOST_MARK (R128): code, text length, text bytes. -/
  | hostMark (code : Word16) (length : Byte) (text : List Byte)
  /-- POOL_ENTRY_READ (R133): the 16 bytes that the read of the entry at the pool cursor returned. -/
  | poolEntryRead (bytes : List Byte)
  /-- POOL_READ_FAILED (R134). -/
  | poolReadFailed
  /-- STANDBY_WRITE (R133, R134). -/
  | standbyWrite (how : WriteEnd)
  /-- TAMPER_REWRITE (R133, R134). -/
  | tamperRewrite (how : WriteEnd)
  /-- HEAD_WRITE (R157). -/
  | headWrite (how : WriteEnd)
  /-- PANEL_WRITE (R159): the write of one panel entry ends. -/
  | panelWrite (how : WriteEnd)
  /-- WRITER_TURN (R135). -/
  | writerTurn
  /-- WRITING_WRITE (R136). -/
  | writingWrite (how : WriteEnd)
  /-- ITEM_WRITE_DONE (R137). -/
  | itemWriteDone
  /-- ITEM_WRITE_FAILED (R141). -/
  | itemWriteFailed
  /-- HEADER_WRITE (R139, R141). -/
  | headerWrite (how : WriteEnd)
  /-- CLOSED_WRITE (R139). -/
  | closedWrite (how : WriteEnd)
  /-- FAULTED_WRITE (R141). -/
  | faultedWrite (how : WriteEnd)
  /-- DRAIN_COMPLETE (R14). -/
  | drainComplete
  /-- ABANDON_COMPLETE (R16). -/
  | abandonComplete
  /-- FLUSH_COMPLETE (R146). -/
  | flushComplete
  /-- IDLE_INTERVAL_FLAG_CLEARED (R43): a sample of the line reads 0. -/
  | idleIntervalFlagCleared (port : PortId)
  /-- LOW_RUN_RESET (R42): a sample of the line reads 1. -/
  | lowRunReset (port : PortId)
  deriving DecidableEq, Repr

end Sys2Proof
end

