-- ==== Sys2Proof/Decode.lean ====
section
/-! DEFINITION. The command that a word spells by the table's bits. No row of spec/opcode_table.json gives bits
(every row's "fields" is empty and none has "fixed"), so no word spells a command. -/
namespace Sys2Proof

/-- The command whose bits are `w` in a word of `nbits` bits: none, since no row of the table gives bits. -/
def decodeTableWord (nbits w : Nat) : Option Instr :=
  match nbits, w with
  | _, _ => none

end Sys2Proof
end

