-- ==== Sys2Proof/Config.lean ====
section
/-! DEFINITION. The values the spec leaves open although the part goes on: uninterpreted constants, applied to the
count of values drawn so far (`State.draws`), so that no proof can rest on a number (assumptions 7 and 17). -/
namespace Sys2Proof

/-- FREE VALUE. The boundary count after 2⁶⁴ − 1: "no wrap is specified" (R22). Applied to the number of draws. -/
opaque Config.boundaryPastMax : Nat → Word64

/-- FREE VALUE. The sheets closed total after 4,294,967,295: R131 gives the range and no rule for its end.
Applied to the number of draws. -/
opaque Config.sheetsPastMax : Nat → Word32

/-- FREE VALUE. Whether the supply is still below the warning level when the part leaves the power-on reset of a brown-out
(R162, R166: BROWN_OUT says nothing of the supply after it). Applied to the number of draws. -/
opaque Config.supplyLowAfterBrownOut : Nat → Bool

end Sys2Proof
end

