-- ==== Sys2Proof/Machine/Bytes.lean ====
section
/-! DEFINITION. Byte order, signed fields, the bundle check and the 11-bit link character
(spec/00_scope.md Conventions; R34, R36, R55, R171). -/
namespace Sys2Proof.Machine

/-- The `n` bytes of `v`, least significant first (Conventions). -/
def leBytes : Nat → Nat → List Byte
  | 0, _ => []
  | n + 1, v => BitVec.ofNat 8 v :: leBytes n (v / 256)

/-- The number whose `n` bytes stand in `bs` from offset `off`, least significant first; a byte beyond the list
reads 0 (assumption 43). -/
def readLE (bs : List Byte) (off : Nat) : Nat → Nat
  | 0 => 0
  | n + 1 => (bs.getD off 0).toNat + 256 * readLE bs (off + 1) n

/-- The two bytes of a 16-bit signed value, low byte first (R167, R171). -/
def leSigned (v : Int) : List Byte := leBytes 2 (BitVec.ofInt 16 v).toNat

/-- The 16-bit signed value at offset `off` (R171). -/
def readSigned (bs : List Byte) (off : Nat) : Int := (BitVec.ofNat 16 (readLE bs off 2)).toInt

/-- `n` 16-bit signed samples from offset `off` (R171). -/
def readSamples (bs : List Byte) (off : Nat) : Nat → List Int
  | 0 => []
  | n + 1 => readSigned bs off :: readSamples bs (off + 2) n

/-- `n` bytes of 0. -/
def zeros (n : Nat) : List Byte := List.replicate n 0

/-- `bs` followed by bytes of 0 up to a length of `n`. -/
def padTo (n : Nat) (bs : List Byte) : List Byte := bs ++ zeros (n - bs.length)

/-- The next multiple of 4 at or above `n`. -/
def pad4 (n : Nat) : Nat := (n + 3) / 4 * 4

/-- 1 for yes, 0 for no. -/
def bit (b : Bool) : Nat := if b then 1 else 0

/-! ### The check of a bundle -/

/-- One shift of the CRC register: left one place, and 0x1021 combined in when the bit shifted out was 1 (R171). -/
def crcShift (r : BitVec 16) : BitVec 16 := if r.getLsbD 15 then (r <<< 1) ^^^ 0x1021#16 else r <<< 1

/-- `n` shifts. -/
def crcShifts : Nat → BitVec 16 → BitVec 16
  | 0, r => r
  | n + 1, r => crcShifts n (crcShift r)

/-- One byte taken into the register: combined into the high 8 bits, then shifted eight times (R171). -/
def crcByte (r : BitVec 16) (b : Byte) : BitVec 16 := crcShifts 8 (r ^^^ (b.setWidth 16 <<< 8))

/-- The check over `bs`: the register starts at all ones and is not inverted at the end (R55, R171). -/
def crc16 (bs : List Byte) : BitVec 16 := bs.foldl crcByte 0xFFFF#16

/-! ### Link characters -/

/-- A character event that the receiver hands over (R36). -/
inductive CharEvent where
  | control (v : Byte)
  | data (v : Byte)
  | framing
  deriving DecidableEq, Repr

/-- The 11 bits of a character, bit 0 sent first: start 0, the data bits least significant first, the mark bit,
stop 1 (R34). -/
def charBits (mark : Bool) (v : Byte) : BitVec 11 :=
  BitVec.ofNat 11 (v.toNat * 2 + bit mark * 512 + 1024)

/-- A control character as sent (R34, R171). -/
def controlChar (v : Byte) : BitVec 11 := charBits true v

/-- A data character as sent (R34). -/
def dataChar (v : Byte) : BitVec 11 := charBits false v

/-- The value that bit `k` of a character takes: the majority of its samples 3, 4 and 5 (R36). -/
def sampledBit (samples : BitVec 88) (k : Nat) : Bool :=
  let x := samples.getLsbD (8 * k + 3)
  let y := samples.getLsbD (8 * k + 4)
  let z := samples.getLsbD (8 * k + 5)
  (x && y) || (x && z) || (y && z)

/-- The 8-bit value of the sampled data bits, positions 2 to 9 of R34. -/
def sampledValue (samples : BitVec 88) : Byte :=
  BitVec.ofNat 8
    ((List.range 8).foldr (fun k v => bit (sampledBit samples (k + 1)) + 2 * v) 0)

/-- What the receiver makes of the samples from a falling edge (R36): nothing when the start bit takes the value 1,
a framing error when the stop bit takes 0, else a control or data character by the mark bit. -/
def receive (samples : BitVec 88) : Option CharEvent :=
  if sampledBit samples 0 then none
  else if !sampledBit samples 10 then some .framing
  else if sampledBit samples 9 then some (.control (sampledValue samples))
  else some (.data (sampledValue samples))

/-- The samples of a character that arrives undisturbed: each of its 11 bits read 8 times (R34, R36). -/
def cleanSamples (c : BitVec 11) : BitVec 88 :=
  BitVec.ofNat 88 ((List.range 11).foldr (fun k v => bit (c.getLsbD k) * 255 + 256 * v) 0)

/-- Control character values (R171). -/
def pollChar (a : Fin 8) : Byte := BitVec.ofNat 8 (0x80 + a.val)

/-- FRAME (R171). -/
def frameChar : Byte := 0xF0#8

/-- END (R171). -/
def endChar : Byte := 0xF1#8

/-- TEST (R171). -/
def testChar : Byte := 0xF5#8

/-- The address of a BUNDLE character, none for any other control value (R171). -/
def bundleAddress (v : Byte) : Option (Fin 8) :=
  if v.toNat / 8 = 18 then some (Fin.ofNat 8 v.toNat) else none

/-- Character k of the self-test stream after TEST: value k, mark bit k mod 2 (R49). -/
def testStreamEvent (k : Nat) : CharEvent :=
  if k % 2 = 1 then .control (BitVec.ofNat 8 k) else .data (BitVec.ofNat 8 k)

/-- The self-test stream: TEST and 256 characters (R49). -/
def testStream : List (BitVec 11) :=
  controlChar testChar :: (List.range 256).map fun k => charBits (k % 2 == 1) (BitVec.ofNat 8 k)

/-- One bit time in ticks at divisor D (R35). -/
def bitTicks (d : Nat) : Nat := 8 * (d + 1)

/-- One character time in ticks at divisor D (R35). -/
def charTicks (d : Nat) : Nat := 88 * (d + 1)

/-- The round deadline of an interval of `i` ticks, in ticks after its boundary (R24). -/
def roundDeadline (i : Nat) : Nat := 9 * i / 10

end Sys2Proof.Machine
end

