-- ==== Sys2Proof/Machine/State.lean ====
section
/-! DEFINITION. The state of the 3234 as plain data, block by block in the spec's order, and the state right after a
power-on reset. The four blocks a report passes through (Station Table, Channel Table, Frame Computation Unit, Bay
Manager) stand together with the Attention Unit they raise in `Path`, so that an operation on the audio path has the
rest of the part outside its type. -/
namespace Sys2Proof.Machine

/-- The part has no fault that stops it: every failed access, spoiled bundle or tripped port is a step with the
effect its rule gives. No constructor, so no meaning can raise one (safe). -/
inductive Fault where
  deriving DecidableEq, Repr

/-- Why a command has no meaning. -/
inductive Refusal where
  /-- Raised by an arm of `exec` whose command has no meaning yet; no arm of this model does (safe). -/
  | notModelled (mnemonic : String)
  deriving DecidableEq, Repr

/-! ### Attention and the Host Bus Interface (R148, R160) -/

/-- The ten attention causes, in the order of their bits (R148). -/
inductive Cause where
  | request | sheet | starving | economy | station | port | power | tamper | busFault | sitting
  deriving DecidableEq, Repr

/-- The Attention Unit (R160) and the count of interrupt messages sent (R161). It holds bits 0 to 9 of ATTENTION and ATTN_MASK
alone (DESIGN CHOICE, assumption 67). -/
structure Attention where
  pending : BitVec 10
  mask : BitVec 10
  messages : Nat
  deriving DecidableEq, Repr

/-- The Host Bus Interface beside the attention registers (R148). -/
structure Bus where
  dirLo : Word32
  dirHi : Word32
  busFaults : Nat
  deriving DecidableEq, Repr

/-! ### Frame Timer (R20) -/

/-- The Frame Timer (R20). -/
structure Timer where
  running : Bool
  boundary : Word64
  tick : Nat
  interval : Nat
  next : Nat
  tod : Word64
  rem : Nat
  clockSet : Option Word64
  deriving DecidableEq, Repr

/-! ### Marks, blocks and bays (R120, R124, R167, R168) -/

/-- Why a channel or mix frame is void; the codes of R167. -/
inductive VoidCause where
  | privacy | power | portDown | noStation | joining | noMic | noReply | check | late | noRoom | noSources
  deriving DecidableEq, Repr

/-- Why a sitting was closed (R14, R15). -/
inductive CloseReason where
  | request | limit
  deriving DecidableEq, Repr

/-- Who asked for privacy (R92). -/
inductive PrivacySource where
  | station | benchDesk | both
  deriving DecidableEq, Repr

/-- Why privacy ended (R92). -/
inductive PrivacyEndCause where
  | released | barred
  deriving DecidableEq, Repr

/-- What faulted a port (R52). -/
inductive PortFaultKind where
  | stuck | tripped
  deriving DecidableEq, Repr

/-- The kinds of mark with their payloads (R124, R168). -/
inductive MarkKind where
  | sittingOpen (number : Word32)
  | sittingClose (reason : CloseReason)
  | onRecord
  | offRecord
  | privacyBegin (channel : Fin 32) (source : PrivacySource)
  | privacyEnd (channel : Fin 32) (cause : PrivacyEndCause)
  | privacyRefused (channel : Fin 32)
  | barSet (channel : Fin 32)
  | barCleared (channel : Fin 32)
  | floorBegin (channel : Fin 32) (loudFrame : Nat)
  | floorEnd (channel : Fin 32) (loudFrame : Nat)
  | stationJoined (station : Fin 16) (unit : BitVec 24)
  | stationLost (station : Fin 16) (unit : BitVec 24)
  | stationReplaced (station : Fin 16) (old : BitVec 24) (new : BitVec 24)
  | stationDrift (channel : Fin 32) (slip : Int)
  | economyBegin (track : Fin 33)
  | economyEnd (track : Fin 33)
  | portFault (port : PortId) (kind : PortFaultKind)
  | portRestored (port : PortId)
  | powerDip (first : Nat) (last : Nat)
  | clockSet (old : Word64) (new : Word64)
  | trimSet (old : Nat) (new : Nat)
  | hostMark (code : Word16) (length : Byte) (text : List Byte)
  | marksWithheld (count : Nat)
  deriving DecidableEq, Repr

/-- A mark: its kind, frame and court time (R124). -/
structure Mark where
  kind : MarkKind
  frame : Nat
  time : Word64
  deriving DecidableEq, Repr

/-- A sample block of a channel track or of the mix (R167); `delivered` is n before any halving. -/
structure SampleBlock where
  track : Fin 33
  frame : Nat
  economy : Bool
  clip : Bool
  delivered : Nat
  contributors : Nat
  samples : List Int
  deriving DecidableEq, Repr

/-- A pending void run (R85, R98): OPEN while it takes frames, HELD when it was ended and found no room. -/
structure VoidRun where
  cause : VoidCause
  first : Nat
  length : Nat
  tail : Nat
  held : Bool
  deriving DecidableEq, Repr

/-- One admitted item of a bay (R120). -/
inductive Item where
  | sample (block : SampleBlock)
  | voidRun (track : Fin 33) (run : VoidRun)
  | mark (m : Mark)
  deriving DecidableEq, Repr

/-- One bay: size in units of 256 bytes, items oldest first, economy flag (R120). The fill is the sum of the items'
sizes. -/
structure Bay where
  units : Nat
  items : List Item
  economy : Bool
  deriving DecidableEq, Repr

/-- The Bay Manager (R120). -/
structure Bays where
  partition : Bool
  bay : Vector Bay 34
  withheld : Nat
  deriving DecidableEq, Repr

/-! ### Station Table (R70) -/

/-- The states of a station record (R70). -/
inductive StationState where
  | vacant | joining | present | missing | lost
  deriving DecidableEq, Repr

/-- Why a station is LOST (R70). -/
inductive LostCause where
  | misses | port
  deriving DecidableEq, Repr

/-- What a station record holds for one of its two microphones (R70): `button` is REQUEST when true. -/
structure Mic where
  button : Bool
  present : Bool
  slip : Int
  drift : Bool
  deriving DecidableEq, Repr

/-- A station record (R70). -/
structure Station where
  state : StationState
  unit : Option (BitVec 24)
  goodRun : Nat
  missRun : Nat
  lostCause : Option LostCause
  mics : Vector Mic 2
  deriving DecidableEq, Repr

/-! ### Channel Table (R85) -/

/-- The seven requested settings of a channel (R85). -/
structure Settings where
  gain : Nat
  threshold : Nat
  attack : Nat
  hang : Nat
  inMix : Bool
  privacy : Bool
  bar : Bool
  deriving DecidableEq, Repr

/-- A snapshot (R85, R88). -/
structure Snapshot where
  frame : Nat
  settings : Settings
  onRecord : Bool
  deriving DecidableEq, Repr

/-- The outcome of an on-record channel frame (R85). -/
inductive FrameOutcome where
  | sample
  | void (cause : VoidCause)
  deriving DecidableEq, Repr

/-- Lamp states (R94); `priv` is PRIVATE. -/
inductive Lamp where
  | off | live | priv
  deriving DecidableEq, Repr

/-- A channel record (R85); `settled` says whether the frame in computation has been settled, on or off the
record. -/
structure Channel where
  seated : Bool
  settings : Settings
  snapshots : List Snapshot
  outcome : Option FrameOutcome
  settled : Bool
  run : Option VoidRun
  privacy : Bool
  captured : Nat
  voids : Nat
  clips : Nat
  lamp : Lamp
  deriving DecidableEq, Repr

/-! ### Frame Computation Unit (R104) -/

/-- The floor detector of one channel (R104); `offLast`: the last frame stepped was off the record (R112). -/
structure Floor where
  speaking : Bool
  loudRun : Nat
  quietRun : Nat
  firstLoud : Option Nat
  lastLoud : Option Nat
  lastPeak : Nat
  offLast : Bool
  deriving DecidableEq, Repr

/-- The Frame Computation Unit (R104); `sums` has 64 positions. -/
structure Fcu where
  mixOn : Bool
  shift : Nat
  sums : Vector Int 64
  sumsFrame : Option Nat
  contributors : Nat
  mixClips : Nat
  mixRun : Option VoidRun
  floors : Vector Floor 32
  deriving DecidableEq, Repr

/-- The blocks a report passes through on its way into a bay, with the Attention Unit they raise. -/
structure Path where
  attn : Attention
  stations : Vector Station 16
  channels : Vector Channel 32
  fcu : Fcu
  bays : Bays
  deriving DecidableEq, Repr

/-! ### Sitting Controller (R1) -/

/-- The sitting states (R1). -/
inductive SittingState where
  | idle | armed | onRecord | offRecord | closing
  deriving DecidableEq, Repr

/-- A taken OPEN SITTING whose boundary has not come (R8). -/
structure Opening where
  number : Word32
  record : Bool
  deriving DecidableEq, Repr

/-- The close target (R1): `draining` is the close phase; `sheets` counts the sheets closed SITTING_CLOSED since the
taking of the close (R144). -/
structure CloseTarget where
  last : Nat
  reason : CloseReason
  cell : Option (Fin 16)
  draining : Bool
  sheets : Nat
  deriving DecidableEq, Repr

/-- The bytes discarded by ABANDON STAGED in the three classes of R129. -/
structure Discarded where
  channels : Nat
  mix : Nat
  marks : Nat
  deriving DecidableEq, Repr

/-- ABANDON STAGED in flight (R16): the cells it holds and, once the bays are emptied, the counts. -/
structure Abandon where
  cells : List (Fin 16)
  discarded : Option Discarded
  deriving DecidableEq, Repr

/-- The Sitting Controller (R1). `comp`, `cur`, `next` are the record flag window; ON is true. -/
structure Sitting where
  state : SittingState
  opening : Option Opening
  number : Word32
  openedAt : Word64
  comp : Bool
  cur : Bool
  next : Bool
  close : Option CloseTarget
  finalMark : Option Mark
  lastFrame : Option Nat
  abandon : Option Abandon
  deriving DecidableEq, Repr

/-! ### Link ports (R33, R56) -/

/-- Port states (R33). -/
inductive PortState where
  | disabled | starting | running | stuck | tripped | testing
  deriving DecidableEq, Repr

/-- The power field of a control pending (R33). -/
inductive PowerField where
  | keep | on | off | offThenOn
  deriving DecidableEq, Repr

/-- A control pending (R33, R46). -/
structure Control where
  power : PowerField
  divisor : Option Nat
  deriving DecidableEq, Repr

/-- A self-test in flight (R33, R49). -/
structure SelfTest where
  cell : Fin 16
  sent : Nat
  received : Nat
  pass : Nat
  mismatch : Nat
  leader : Bool
  deriving DecidableEq, Repr

/-- Round phases (R56). -/
inductive RoundPhase where
  | idle | framing | polling | awaiting | receiving | quieting | ended
  deriving DecidableEq, Repr

/-- The poll target (R56): an address and whether the poll is the PROBE. -/
structure Target where
  addr : Fin 8
  probe : Bool
  deriving DecidableEq, Repr

/-- Why a bundle is bad, in the order of R62. -/
inductive BadReason where
  | framing | leader | address | control | length | count | crc | tag | format
  deriving DecidableEq, Repr

/-- The reply buffer (R56): the address of the BUNDLE that led it, if one did, and the data characters. -/
structure Reply where
  leader : Option (Fin 8)
  data : List Byte
  deriving DecidableEq, Repr

/-- Round figures (R56). -/
structure Figures where
  listPolls : Nat
  good : Nat
  probe : Option (Fin 8)
  roundEnd : Nat
  deriving DecidableEq, Repr

/-- A Link Port (R33, R56). The fields from `remaining` on are the model's memory of the round in progress and
of the line. -/
structure Port where
  state : PortState
  divisor : Nat
  closed : Bool
  starting : Nat
  cooldown : Nat
  lowRun : Nat
  idleFlag : Bool
  control : Option Control
  selfTest : Option SelfTest
  framing : Nat
  check : Nat
  noReply : Nat
  lateCut : Nat
  stuck : Nat
  pollList : List (Fin 8)
  probeCursor : Fin 8
  phase : RoundPhase
  target : Option Target
  window : Nat
  reply : Option Reply
  fault : Option BadReason
  figures : Figures
  lastReason : Option BadReason
  /-- Addresses of the list not yet polled in this round. -/
  remaining : List (Fin 8)
  /-- The probe of this round has been made, or none will be. -/
  probeDone : Bool
  /-- The round deadline has passed (R65). -/
  deadlinePassed : Bool
  /-- The next poll waits until the line is quiet (R67). -/
  busy : Bool
  /-- The round began under the supply warning: no poll (R68). -/
  suppressed : Bool
  /-- Figures of the round of this interval, absent when it has none. -/
  current : Option Figures
  /-- The port was RUNNING after the work of the boundary that began this interval (R97). -/
  ranRound : Bool
  /-- The 11-bit characters of the transmission in progress (R34). -/
  sending : List (BitVec 11)
  /-- Ticks since the transmission began. -/
  txTicks : Nat
  /-- Ticks since the lamp byte ended. -/
  windowTicks : Nat
  /-- The line read 0 at the last sample that a command told of (R42). -/
  lineLow : Bool
  /-- Ticks of the bit time in progress that the line has read 0 (R42). -/
  lowTicks : Nat
  deriving DecidableEq, Repr

/-! ### Record Writer (R131) -/

/-- The arm record's part that the Writer holds (R131). -/
structure Arming where
  sheetSize : Nat
  ageLimit : Nat
  poolAddress : Word64
  poolCount : Nat
  deriving DecidableEq, Repr

/-- One element of the Free Sheet Queue (R131). -/
structure Queued where
  index : Fin 256
  address : Word64
  deriving DecidableEq, Repr

/-- An entry of the ownership map (R131). -/
inductive Owner where
  | notHeld
  | standby
  | writing (track : Fin 34)
  deriving DecidableEq, Repr

/-- Why a sheet is closed (R138), with FAULT for a sheet ended by a write error (R141). -/
inductive SheetReason where
  | full | age | flush | sittingClosed | power | fault
  deriving DecidableEq, Repr

/-- A close pending (R140). -/
structure PendingClose where
  reason : SheetReason
  drain : Nat
  deriving DecidableEq, Repr

/-- An open-sheet record (R131); `fullDue`: R137 has set a close due with reason FULL; `powerDue`: R143 has set one with
reason POWER. -/
structure OpenSheet where
  index : Fin 256
  address : Word64
  serial : Nat
  used : Nat
  blocks : Nat
  first : Option Nat
  last : Option Nat
  opened : Nat
  pend : Option PendingClose
  fullDue : Bool
  powerDue : Bool
  deriving DecidableEq, Repr

/-- The write of a turn that is under way (R135 to R141). -/
inductive TurnWrite where
  /-- The WRITING status write of a new sheet (R136). -/
  | writing (sheet : Queued)
  /-- The write of the bay's head item (R137). -/
  | item
  /-- The header write, with the bytes formed at its issue (R139, R141). -/
  | header (reason : SheetReason) (bytes : List Byte)
  /-- The CLOSED status write (R139). -/
  | closed (reason : SheetReason)
  /-- The FAULTED status write (R141). -/
  | faulted
  deriving DecidableEq, Repr

/-- The turn in progress (R131). -/
structure Turn where
  track : Fin 34
  write : TurnWrite
  deriving DecidableEq, Repr

/-- A sheet of a flush's set, known by pool index and serial (R146). -/
structure SheetId where
  index : Fin 256
  serial : Nat
  deriving DecidableEq, Repr

/-- A flush in flight (R146). -/
structure Flush where
  cells : List (Fin 16)
  remaining : Vector Nat 34
  sheets : List SheetId
  closed : Nat
  counted : Nat
  abandoned : Bool
  complete : Bool
  deriving DecidableEq, Repr

/-- The Record Writer (R131). -/
structure Writer where
  arming : Option Arming
  poolCursor : Fin 256
  queue : List Queued
  owner : Vector Owner 256
  sheets : Vector (Option OpenSheet) 34
  serials : Vector Nat 34
  lastServed : Fin 34
  turn : Option Turn
  starving : Vector Bool 34
  flush : Option Flush
  closedTotal : Nat
  deriving DecidableEq, Repr

/-! ### Directory Scanner (R151) -/

/-- Result codes (R169). -/
inductive ResultCode where
  | done | doneClamped | refusedState | refusedRange | refusedRoom | refusedKind | refusedCooldown | refusedBusy
  deriving DecidableEq, Repr

/-- A result code and its three result words. -/
structure Result where
  code : ResultCode
  w0 : Word32
  w1 : Word32
  w2 : Word32
  deriving DecidableEq, Repr

/-- A completion under way: whose it is and what it says. -/
structure Answer where
  kind : Word16
  tag : Word16
  result : Result
  deriving DecidableEq, Repr

/-- An entry of the held-cell set (R151); `due`: a scan that began after the owning block finished may complete it. -/
structure Held where
  cell : Fin 16
  kind : Word16
  tag : Word16
  result : Option Result
  due : Bool
  deriving DecidableEq, Repr

/-- The contents of an arm record (R169). -/
structure ArmRecord where
  seating : Word32
  mixOn : Bool
  shift : Nat
  age : Nat
  sheetSize : Nat
  poolCount : Nat
  poolAddress : Word64
  units : Vector Nat 34
  deriving DecidableEq, Repr

/-- What the scanner waits for (R152 to R159). -/
inductive ScanStep where
  /-- No scan in progress. -/
  | idle
  /-- The read of the cell at the cursor is under way. -/
  | cell
  /-- The request read from the cell, as the command its owning block takes. -/
  | taking (tag : Word16) (request : Instr)
  /-- The read of the arm record is under way. -/
  | armRead (tag : Word16) (address : Word64)
  /-- The arm record has been read and checked: `failure` is what R5's checks found. -/
  | armChecked (tag : Word16) (address : Word64) (record : ArmRecord) (failure : Option Result)
  /-- DISARM's FREE writes: the indices still to write, the oldest under way (R7). -/
  | freeing (tag : Word16) (left : List Queued) (freed : Nat) (failed : Nat)
  /-- The TAKEN write is under way. -/
  | takenWrite
  /-- The first completion write is under way, with its bytes (R155). -/
  | resultWrite (answer : Answer) (bytes : List Byte)
  /-- The second completion write is under way (R155). -/
  | stateWrite (answer : Answer)
  /-- The read of the pool entry at the pool cursor is under way; `count` entries have been read (R133). -/
  | poolRead (count : Nat)
  /-- The STANDBY write of an entry is under way (R133). -/
  | standby (entry : Queued) (count : Nat)
  /-- The rewrite of a disturbed entry is under way (R133). -/
  | tamper (index : Fin 256) (bytes : List Byte) (count : Nat)
  /-- The head write is under way (R157). -/
  | head (bytes : List Byte)
  /-- The write of a panel entry is under way: 0 … 31 channels, 32 … 47 stations, 48 and 49 ports (R159). -/
  | panel (entry : Fin 50) (bytes : List Byte)
  deriving DecidableEq, Repr

/-- The Directory Scanner (R151); `poolDue`: the pool scan is owed in this scan (R133). -/
structure Scanner where
  step : ScanStep
  cursor : Fin 16
  held : List Held
  poolDue : Bool
  deriving DecidableEq, Repr

/-! ### Supply Supervisor (R162) -/

/-- The Supply Supervisor (R162). -/
structure Supply where
  warning : Bool
  dipStart : Option Nat
  deriving DecidableEq, Repr

/-! ### The whole part -/

/-- The state of the part, the image of its writes into host memory, and the queue of waiting commands. -/
structure State where
  bus : Bus
  timer : Timer
  scan : Scanner
  sitting : Sitting
  portA : Port
  portB : Port
  path : Path
  writer : Writer
  supply : Supply
  /-- The bytes the part's acknowledged writes put into host memory, addresses strictly rising. -/
  hostMem : List Host.Cell
  /-- How many free values have been drawn (`Config`). -/
  draws : Nat
  /-- The commands that wait, first in first out. -/
  pending : List Instr
  deriving DecidableEq, Repr

/-! ### Reset values -/

/-- R160 after either reset; no message has been sent. -/
def Attention.reset : Attention := { pending := 0, mask := 0, messages := 0 }

/-- R148 after a power-on reset. -/
def Bus.reset : Bus := { dirLo := 0, dirHi := 0, busFaults := 0 }

/-- R20. -/
def Timer.reset : Timer :=
  { running := false, boundary := 0, tick := 0, interval := 393216, next := 393216, tod := 0, rem := 0,
    clockSet := none }

/-- R120. -/
def Bay.reset : Bay := { units := 0, items := [], economy := false }

/-- R120. -/
def Bays.reset : Bays := { partition := false, bay := Vector.replicate 34 Bay.reset, withheld := 0 }

/-- R70, one microphone. -/
def Mic.reset : Mic := { button := false, present := false, slip := 0, drift := false }

/-- R70. -/
def Station.reset : Station :=
  { state := .vacant, unit := none, goodRun := 0, missRun := 0, lostCause := none,
    mics := Vector.replicate 2 Mic.reset }

/-- R85, the seven requested settings. -/
def Settings.reset : Settings :=
  { gain := 4096, threshold := 1000, attack := 2, hang := 50, inMix := true, privacy := false, bar := false }

/-- R85. -/
def Channel.reset : Channel :=
  { seated := false, settings := Settings.reset, snapshots := [], outcome := none, settled := false, run := none,
    privacy := false, captured := 0, voids := 0, clips := 0, lamp := .off }

/-- R104, one channel. -/
def Floor.reset : Floor :=
  { speaking := false, loudRun := 0, quietRun := 0, firstLoud := none, lastLoud := none, lastPeak := 0,
    offLast := false }

/-- R104. -/
def Fcu.reset : Fcu :=
  { mixOn := false, shift := 2, sums := Vector.replicate 64 0, sumsFrame := none, contributors := 0, mixClips := 0,
    mixRun := none, floors := Vector.replicate 32 Floor.reset }

/-- R70, R85, R104, R120, R160. -/
def Path.reset : Path :=
  { attn := Attention.reset, stations := Vector.replicate 16 Station.reset,
    channels := Vector.replicate 32 Channel.reset, fcu := Fcu.reset, bays := Bays.reset }

/-- R1. -/
def Sitting.reset : Sitting :=
  { state := .idle, opening := none, number := 0, openedAt := 0, comp := false, cur := false, next := false,
    close := none, finalMark := none, lastFrame := none, abandon := none }

/-- R56, the round figures. -/
def Figures.reset : Figures := { listPolls := 0, good := 0, probe := none, roundEnd := 0 }

/-- R33 and R56. -/
def Port.reset : Port :=
  { state := .disabled, divisor := 0, closed := false, starting := 0, cooldown := 0, lowRun := 0, idleFlag := false,
    control := none, selfTest := none, framing := 0, check := 0, noReply := 0, lateCut := 0, stuck := 0,
    pollList := [], probeCursor := 7, phase := .idle, target := none, window := 0, reply := none, fault := none,
    figures := Figures.reset, lastReason := none, remaining := [], probeDone := false, deadlinePassed := false,
    busy := false, suppressed := false, current := none, ranRound := false, sending := [], txTicks := 0,
    windowTicks := 0, lineLow := false, lowTicks := 0 }

/-- R131. -/
def Writer.reset : Writer :=
  { arming := none, poolCursor := 0, queue := [], owner := Vector.replicate 256 .notHeld,
    sheets := Vector.replicate 34 none, serials := Vector.replicate 34 0, lastServed := 33, turn := none,
    starving := Vector.replicate 34 false, flush := none, closedTotal := 0 }

/-- R151. -/
def Scanner.reset : Scanner := { step := .idle, cursor := 0, held := [], poolDue := false }

/-- R162. -/
def Supply.reset : Supply := { warning := false, dipStart := none }

/-- The part right after a power-on reset: R1, R20, R33, R56, R70, R85, R104, R120, R131, R148, R151, R160, R162;
nothing written to host memory and no command waiting. -/
def State.reset : State :=
  { bus := Bus.reset, timer := Timer.reset, scan := Scanner.reset, sitting := Sitting.reset, portA := Port.reset,
    portB := Port.reset, path := Path.reset, writer := Writer.reset, supply := Supply.reset, hostMem := [],
    draws := 0, pending := [] }

end Sys2Proof.Machine
end

