-- ==== Sys2Proof/Machine/Ops.lean ====
section
/-! DEFINITION. The shared operations: host memory as the part has written it, attention, failed bus accesses, record
frames, and the admission of items and marks to the bays. -/
namespace Sys2Proof.Machine

/-! ### Host memory, as the part's acknowledged writes left it (assumption 9) -/

/-- One byte put at an address, keeping addresses strictly rising. -/
def memPut (a : Nat) (b : Byte) : List Host.Cell → List Host.Cell
  | [] => [(a, b)]
  | (x, c) :: rest =>
    if a < x then (a, b) :: (x, c) :: rest
    else if a = x then (a, b) :: rest
    else (x, c) :: memPut a b rest

/-- Bytes put at rising addresses from `a`; addresses are 64 bits wide (Conventions; assumption 10). -/
def memWrite (a : Word64) : List Byte → List Host.Cell → List Host.Cell
  | [], m => m
  | b :: rest, m => memWrite (a + 1) rest (memPut a.toNat b m)

/-- The byte the part last wrote at an address, if it has written one. -/
def memRead (a : Nat) : List Host.Cell → Option Byte
  | [] => none
  | (x, b) :: rest => if a = x then some b else memRead a rest

/-- The canonical form: addresses strictly rising. -/
def Memory.wf : List Host.Cell → Bool
  | [] => true
  | [_] => true
  | (x, _) :: (y, c) :: rest => decide (x < y) && Memory.wf ((y, c) :: rest)

/-! ### Attention (R160, R161) -/

/-- The bit position of a cause (R148). -/
def Cause.position : Cause → Nat
  | .request => 0 | .sheet => 1 | .starving => 2 | .economy => 3 | .station => 4
  | .port => 5 | .power => 6 | .tamper => 7 | .busFault => 8 | .sitting => 9

/-- The word with a cause's bit alone set (R148). -/
def Cause.mask (c : Cause) : BitVec 10 := 1#10 <<< c.position

/-- Pending causes and mask replaced; one message is sent when the set of masked pending causes goes from empty to
not empty (R161). -/
def Attention.update (a : Attention) (pending mask : BitVec 10) : Attention :=
  { pending := pending, mask := mask,
    messages := if a.pending &&& a.mask = 0 ∧ pending &&& mask ≠ 0 then a.messages + 1 else a.messages }

/-- A cause raised (R160). -/
def Attention.raise (a : Attention) (c : Cause) : Attention := a.update (a.pending ||| c.mask) a.mask

/-- A write of ATTENTION: each cause whose bit is 1 is cleared (R160); no clear sends a message (R161). -/
def Attention.clear (a : Attention) (w : Word32) : Attention :=
  { a with pending := a.pending &&& ~~~(w.setWidth 10) }

/-- A write of ATTN_MASK (R160, R161). -/
def Attention.setMask (a : Attention) (w : Word32) : Attention := a.update a.pending (w.setWidth 10)

/-- A cause raised from the audio path. -/
def Path.raise (p : Path) (c : Cause) : Path := { p with attn := p.attn.raise c }

/-- A cause raised. -/
def State.raise (s : State) (c : Cause) : State := { s with path := s.path.raise c }

/-- A failed read or write of host memory: the bus-fault count increases by one, stopping at its largest value, and
BUSFAULT is raised (R148, R156). -/
def State.accessFailed (s : State) : State :=
  { s with bus := { s.bus with busFaults := min 4294967295 (s.bus.busFaults + 1) },
           path := s.path.raise .busFault }

/-! ### The view of the sitting and of time that an operation on the audio path is given -/

/-- What a block reads beside its own state: boundary count, tick count, time-of-day, sitting, supply warning. -/
structure Ctx where
  boundary : Word64
  tick : Nat
  tod : Word64
  sitting : Sitting
  warning : Bool
  deriving DecidableEq, Repr

/-- The view as it stands. -/
def State.ctx (s : State) : Ctx :=
  { boundary := s.timer.boundary, tick := s.timer.tick, tod := s.timer.tod, sitting := s.sitting,
    warning := s.supply.warning }

/-- A sitting is open or closing: record frames are counted (R2). -/
def Sitting.counting (st : Sitting) : Bool :=
  match st.state with
  | .onRecord | .offRecord | .closing => true
  | .idle | .armed => false

/-- The sitting is in ON_RECORD or OFF_RECORD. -/
def Sitting.isOpen (st : Sitting) : Bool :=
  match st.state with
  | .onRecord | .offRecord => true
  | .idle | .armed | .closing => false

/-- The close phase is DRAINING (R14). -/
def Sitting.draining (st : Sitting) : Bool :=
  match st.state, st.close with
  | .closing, some t => t.draining
  | _, _ => false

/-- The current record frame at boundary count `b`: b − s while frames are counted, else 0 (R2). -/
def Sitting.frameAt (st : Sitting) (b : Word64) : Nat :=
  if st.counting then b.toNat - st.openedAt.toNat else 0

/-- The current record frame (R2). -/
def Ctx.frame (x : Ctx) : Nat := x.sitting.frameAt x.boundary

/-- The current record frame (R2). -/
def State.frame (s : State) : Nat := s.sitting.frameAt s.timer.boundary

/-- The frame in computation, polled by the round of the present interval: b − 1 − s, none before interval s + 1 and
outside a sitting (R2, R71). -/
def Ctx.polled (x : Ctx) : Option Nat :=
  if x.sitting.counting ∧ x.sitting.openedAt.toNat < x.boundary.toNat then
    some (x.boundary.toNat - 1 - x.sitting.openedAt.toNat)
  else none

/-- Frame `f` is not after the last frame of a closing sitting. -/
def Sitting.within (st : Sitting) (f : Nat) : Bool :=
  match st.close with
  | some t => decide (f ≤ t.last)
  | none => true

/-- The frame in computation up to the last frame of a closing sitting: none once that has closed (R163). -/
def Ctx.computed (x : Ctx) : Option Nat := x.polled.filter fun f => x.sitting.within f

/-- R17: whether a mark at frame `f` may be created. -/
def Sitting.marks (st : Sitting) (f : Nat) : Bool :=
  match st.state with
  | .onRecord | .offRecord => true
  | .closing =>
    match st.close with
    | some t => !t.draining && decide (f ≤ t.last)
    | none => false
  | .idle | .armed => false

/-! ### Sizes (R117, R124) -/

/-- A mark's bytes in bay 33 (R124). -/
def MarkKind.size : MarkKind → Nat
  | .onRecord | .offRecord => 16
  | .sittingOpen _ | .sittingClose _ | .privacyBegin _ _ | .privacyEnd _ _ | .privacyRefused _ | .barSet _
  | .barCleared _ | .stationJoined _ _ | .stationLost _ _ | .stationDrift _ _ | .economyBegin _ | .economyEnd _
  | .portFault _ _ | .portRestored _ | .marksWithheld _ => 20
  | .floorBegin _ _ | .floorEnd _ _ | .stationReplaced _ _ _ | .powerDip _ _ | .trimSet _ _ => 24
  | .clockSet _ _ => 32
  | .hostMark _ length _ => 16 + 4 * ((3 + length.toNat + 3) / 4)

/-- An item's bytes in its bay: a sample block by R117, a void run block 16, a mark by R124. -/
def Item.size : Item → Nat
  | .sample b => pad4 (16 + 2 * b.samples.length)
  | .voidRun _ _ => 16
  | .mark m => m.kind.size

/-- An item's frame (R137). -/
def Item.frame : Item → Nat
  | .sample b => b.frame
  | .voidRun _ r => r.first
  | .mark m => m.frame

/-! ### Bays (R121 to R123) -/

/-- The bytes of a list of items. -/
def itemsBytes (items : List Item) : Nat := (items.map Item.size).sum

/-- A bay's fill: every admitted item not yet released (R120). -/
def Bay.fill (b : Bay) : Nat := itemsBytes b.items

/-- A bay's capacity in bytes (R121). -/
def Bay.capacity (b : Bay) : Nat := b.units * 256

/-- R122: an item is admitted whole, at the end of the list, when it fits in the room left; else the bay is left as
it was. -/
def Bay.push (b : Bay) (i : Item) : Option Bay :=
  if b.fill + i.size ≤ b.capacity then some { b with items := b.items ++ [i] } else none

/-- Bay `t` replaced. -/
def Bays.set (bs : Bays) (t : Fin 34) (b : Bay) : Bays := { bs with bay := bs.bay.set t.val b t.isLt }

/-- R122 on bay `t`. -/
def Bays.push (bs : Bays) (t : Fin 34) (i : Item) : Option Bays := (bs.bay[t].push i).map (bs.set t)

/-- Every bay is empty. -/
def Bays.allEmpty (bs : Bays) : Bool := bs.bay.toList.all fun b => b.items.isEmpty

/-- The mark track's bay (R120). -/
def markTrack : Fin 34 := 33

/-- The track of a channel or of the mix among the 34. -/
def trackOf (t : Fin 33) : Fin 34 := t.castSucc

/-- The track of a channel among the 33 that hold sound. -/
def soundTrack (c : Fin 32) : Fin 33 := c.castSucc

/-- The mix's track. -/
def mixTrack : Fin 33 := 32

/-! ### Marks (R126, R127) -/

/-- The reserve class of R126. -/
def MarkKind.isReserve : MarkKind → Bool
  | .floorBegin _ _ | .floorEnd _ _ | .hostMark _ _ _ => true
  | _ => false

/-- The fill a mark of its class may reach (R126): three quarters of the bay for the reserve class. -/
def MarkKind.level (k : MarkKind) (b : Bay) : Nat := if k.isReserve then b.units * 192 else b.capacity

/-- A mark placed when its class's level holds it (R126): the flag change and opening classes, and the room test of
the others. -/
def Bays.place (bs : Bays) (m : Mark) : Option Bays :=
  if bs.bay[markTrack].fill + m.kind.size ≤ m.kind.level bs.bay[markTrack] then bs.push markTrack (.mark m) else none

/-- The withheld count increased by one, stopping at its largest value (R126). -/
def Bays.withhold (bs : Bays) : Bays := { bs with withheld := min 4294967295 (bs.withheld + 1) }

/-- R126 for the reserve and ordinary classes: placed, or withheld and counted. -/
def Bays.offer (bs : Bays) (m : Mark) : Bays := (bs.place m).getD bs.withhold

/-- A mark of frame `f` created now: offered to bay 33 where R17 allows it. -/
def Path.mark (x : Ctx) (k : MarkKind) (f : Nat) (p : Path) : Path :=
  if x.sitting.marks f then { p with bays := p.bays.offer { kind := k, frame := f, time := x.tod } } else p

/-- R127: after a release of bay 33, MARKS_WITHHELD is admitted when the count is not 0 and the fill is at most one
half; its frame is the current frame, or the last frame once that has passed. -/
def Bays.countMark (x : Ctx) (bs : Bays) : Bays :=
  if bs.withheld ≠ 0 ∧ bs.bay[markTrack].fill ≤ bs.bay[markTrack].units * 128 then
    let frame := match x.sitting.close with
      | some t => min x.frame t.last
      | none => x.frame
    match bs.place { kind := .marksWithheld bs.withheld, frame := frame, time := x.tod } with
    | some bs' => { bs' with withheld := 0 }
    | none => bs
  else bs

/-! ### Pending void runs (R98 to R100) -/

/-- The pending void run of a track (R85, R104). -/
def Path.runOf (p : Path) (t : Fin 33) : Option VoidRun :=
  if h : t.val < 32 then p.channels[t.val].run else p.fcu.mixRun

/-- Channel `c` replaced. -/
def Path.setChannel (p : Path) (c : Fin 32) (ch : Channel) : Path :=
  { p with channels := p.channels.set c.val ch c.isLt }

/-- The pending void run of a track replaced. -/
def Path.setRun (p : Path) (t : Fin 33) (r : Option VoidRun) : Path :=
  if h : t.val < 32 then p.setChannel ⟨t.val, h⟩ { p.channels[t.val] with run := r }
  else { p with fcu := { p.fcu with mixRun := r } }

/-- An item of a channel's or the mix's track offered to its bay (R122). -/
def Path.push (p : Path) (t : Fin 33) (i : Item) : Option Path :=
  (p.bays.push (trackOf t) i).map fun bs => { p with bays := bs }

/-- A run offered as a void run block: admitted and absent, or HELD as given (R99, R100). -/
def Path.offerRun (p : Path) (t : Fin 33) (r : VoidRun) : Path :=
  match p.push t (.voidRun t r) with
  | some p' => p'.setRun t none
  | none => p.setRun t (some { r with held := true })

/-- R99: an OPEN run is ended and offered at once; a HELD or absent run stays as it is. -/
def Path.endRun (p : Path) (t : Fin 33) : Path :=
  match p.runOf t with
  | some r => if r.held then p else p.offerRun t r
  | none => p

/-- R100: a HELD run is offered again at a release of its bay. -/
def Path.offerHeld (p : Path) (t : Fin 33) : Path :=
  match p.runOf t with
  | some r => if r.held then p.offerRun t r else p
  | none => p

/-- A new OPEN run of one frame (R98). -/
def VoidRun.start (c : VoidCause) (f : Nat) : VoidRun := { cause := c, first := f, length := 1, tail := 0, held := false }

/-- R98: a void frame `f` of cause `c` is taken into the track's run; the answer's second part is the cause the frame
counts with, NO_ROOM when it joins a HELD run's tail. -/
def Path.takeVoid (p : Path) (t : Fin 33) (c : VoidCause) (f : Nat) : Path × VoidCause :=
  match p.runOf t with
  | none => (p.setRun t (some (VoidRun.start c f)), c)
  | some r =>
    if r.held then (p.setRun t (some { r with tail := r.tail + 1 }), .noRoom)
    else if r.cause = c ∧ r.length < 65535 then
      let p' := p.setRun t (some { r with length := r.length + 1 })
      (if r.length + 1 = 65535 then p'.endRun t else p', c)
    else
      let p' := p.endRun t
      match p'.runOf t with
      | some r' => (p'.setRun t (some { r' with tail := r'.tail + 1 }), .noRoom)
      | none => (p'.setRun t (some (VoidRun.start c f)), c)

/-- A pending void run stands on some track. -/
def Path.anyRun (p : Path) : Bool := p.channels.toList.any (fun c => c.run.isSome) || p.fcu.mixRun.isSome

/-! ### The two ports -/

/-- The port named. -/
def State.port (s : State) : PortId → Port
  | .a => s.portA
  | .b => s.portB

/-- The port named, replaced. -/
def State.setPort (s : State) (p : PortId) (pt : Port) : State :=
  match p with
  | .a => { s with portA := pt }
  | .b => { s with portB := pt }

/-- The number of a port (R46). -/
def portNumber : PortId → Nat
  | .a => 0
  | .b => 1

/-- The station at an address of a port: port × 8 + address (Conventions). -/
def stationAt (p : PortId) (a : Fin 8) : Fin 16 :=
  ⟨portNumber p * 8 + a.val, by have := a.isLt; cases p <;> simp only [portNumber] <;> omega⟩

/-- The station of a channel (Conventions). -/
def stationOf (c : Fin 32) : Fin 16 := ⟨c.val / 2, by omega⟩

/-- The microphone of a channel (Conventions). -/
def micOf (c : Fin 32) : Fin 2 := ⟨c.val % 2, by omega⟩

/-- The channel of a station's microphone (Conventions). -/
def channelOf (k : Fin 16) (m : Fin 2) : Fin 32 := ⟨2 * k.val + m.val, by omega⟩

/-- The port of a channel (Conventions). -/
def portOf (c : Fin 32) : PortId := if c.val < 16 then .a else .b

end Sys2Proof.Machine
end

