-- ==== Sys2Proof/Machine/Flags.lean ====
section
/-! DEFINITION. The codes of states and results, the status summary word, and the reading of the register window
(R148, R158, R169, R170). -/
namespace Sys2Proof.Machine

/-- R170, bits 0 … 2 of the status summary word. -/
def SittingState.code : SittingState → Nat
  | .idle => 0 | .armed => 1 | .onRecord => 2 | .offRecord => 3 | .closing => 4

/-- R170, a port's state. -/
def PortState.code : PortState → Nat
  | .disabled => 0 | .starting => 1 | .running => 2 | .stuck => 3 | .tripped => 4 | .testing => 5

/-- R170, a station's state. -/
def StationState.code : StationState → Nat
  | .vacant => 0 | .joining => 1 | .present => 2 | .missing => 3 | .lost => 4

/-- R170, a station's lost cause; 0 when absent. -/
def LostCause.code : Option LostCause → Nat
  | none => 0
  | some .misses => 1
  | some .port => 2

/-- R170 and R171, a lamp state. -/
def Lamp.code : Lamp → Nat
  | .off => 0 | .live => 1 | .priv => 2

/-- R170, the last check reason of a port; 0 for none. -/
def BadReason.code : Option BadReason → Nat
  | none => 0
  | some .framing => 1 | some .leader => 2 | some .address => 3 | some .control => 4 | some .length => 5
  | some .count => 6 | some .crc => 7 | some .tag => 8 | some .format => 9

/-- R169, a result code. -/
def ResultCode.code : ResultCode → Nat
  | .done => 0 | .doneClamped => 1 | .refusedState => 16 | .refusedRange => 17 | .refusedRoom => 18
  | .refusedKind => 19 | .refusedCooldown => 20 | .refusedBusy => 21

/-- R155: whether a result code ends a cell DONE. -/
def ResultCode.isDone : ResultCode → Bool
  | .done | .doneClamped => true
  | .refusedState | .refusedRange | .refusedRoom | .refusedKind | .refusedCooldown | .refusedBusy => false

/-- R167, the cause of a void run block. -/
def VoidCause.code : VoidCause → Nat
  | .privacy => 1 | .power => 2 | .portDown => 3 | .noStation => 4 | .joining => 5 | .noMic => 6 | .noReply => 7
  | .check => 8 | .late => 9 | .noRoom => 10 | .noSources => 11

/-- R170, a sheet's close reason. -/
def SheetReason.code : SheetReason → Nat
  | .full => 1 | .age => 2 | .flush => 3 | .sittingClosed => 4 | .power => 5 | .fault => 6

/-- The record flag that the status summary word shows: the flag of the current frame in ON_RECORD and OFF_RECORD,
OFF in every other state (R158). -/
def Sitting.shownFlag (st : Sitting) : Bool := st.isOpen && st.cur

/-- Whether an economy flag of bays 0 … 32 is set (R158). -/
def Bays.anyEconomy (bs : Bays) : Bool := (List.finRange 33).any fun t => bs.bay[trackOf t].economy

/-- Whether the starving set holds a track (R158). -/
def Writer.anyStarving (w : Writer) : Bool := w.starving.toList.any id

/-- The status summary word as the part stands (R158, R170). -/
def statusWord (s : State) : Nat :=
  s.sitting.state.code + 8 * bit s.sitting.shownFlag + 16 * s.portA.state.code + 256 * s.portB.state.code
    + 4096 * bit s.writer.anyStarving + 8192 * bit s.path.bays.anyEconomy + 16384 * bit s.supply.warning
    + 32768 * bit s.timer.running

/-- A read of the register window at a byte offset (R148): an offset not listed reads 0. Bits 10 to 31 of ATTENTION and
ATTN_MASK, of which R148 says nothing, read 0 (DESIGN CHOICE, assumption 67). -/
def readRegister (s : State) (offset : Nat) : Word32 :=
  match offset with
  | 0x00 => 0x32340001#32
  | 0x04 => if s.timer.running then 0x100#32 else 0#32
  | 0x08 => s.bus.dirLo
  | 0x0C => s.bus.dirHi
  | 0x10 => s.path.attn.pending.setWidth 32
  | 0x14 => s.path.attn.mask.setWidth 32
  | _ => 0#32

/-- The Directory address formed from DIR_HI and DIR_LO (R149). -/
def Bus.directory (b : Bus) : Word64 := b.dirHi ++ b.dirLo

end Sys2Proof.Machine
end

