-- ==== Sys2Proof/Machine/Compute.lean ====
section
/-! DEFINITION. The exact integer arithmetic of the Frame Computation Unit: gain, saturation, peak, halving, mix
scaling (R106, R108, R114, R115, R117). -/
namespace Sys2Proof.Machine

/-- R106 step 2: floor((s × G + 2,048) / 4,096). -/
def roundedGain (gain : Nat) (s : Int) : Int := (s * gain + 2048) / 4096

/-- A value saturated to the 16-bit range (R106 step 3, R115). -/
def saturate (r : Int) : Int := if 32767 < r then 32767 else if r < -32768 then -32768 else r

/-- Whether saturation changes the value: a saturated sample (R106). -/
def saturates (r : Int) : Bool := decide (32767 < r) || decide (r < -32768)

/-- The gained samples of a frame (R106). -/
def gained (gain : Nat) (samples : List Int) : List Int := samples.map fun s => saturate (roundedGain gain s)

/-- How many samples of the frame saturated (R106, R107). -/
def saturatedCount (gain : Nat) (samples : List Int) : Nat :=
  (samples.filter fun s => saturates (roundedGain gain s)).length

/-- The peak: the largest magnitude among the gained samples (R108). -/
def peakOf (gainedSamples : List Int) : Nat := gainedSamples.foldl (fun m s => max m s.natAbs) 0

/-- The economy samples: each pair's mean rounded down, an odd last sample unchanged (R117). -/
def halve : List Int → List Int
  | x :: y :: rest => (x + y) / 2 :: halve rest
  | [x] => [x]
  | [] => []

/-- The scaled mix value of a sum at mix shift M, before saturation (R115). -/
def mixScale (shift : Nat) (m : Int) : Int :=
  if shift = 0 then m else (m + 2 ^ (shift - 1)) / 2 ^ shift

/-- The sums with one channel's contribution added: position i receives sample i up to 64; positions beyond the
channel's samples receive nothing (R114). -/
def addContribution (sums : Vector Int 64) (samples : List Int) : Vector Int 64 :=
  Vector.ofFn fun i => sums[i] + samples.getD i.val 0

/-- A count that stops at `limit` (R50, R101, R107, R148). -/
def countUpTo (limit n increase : Nat) : Nat := min limit (n + increase)

end Sys2Proof.Machine
end

