-- ==== Sys2Proof/WellFormed.lean ====
section
/-! DEFINITION. The checks that a command's operands are of the size their record has (R169), and that a register
write addresses a whole word (R148). Everything else an operand can say, a meaning answers. -/
namespace Sys2Proof

/-- A command is well-formed when the bytes of a read are as many as the record read, a HOST MARK's text is as long
as its length byte says (or as the cell's arguments hold, 37 bytes), and a register offset is word aligned. -/
def WellFormed : Instr → Bool
  | .cellRead bytes => bytes.length == 64
  | .armRecordRead bytes => bytes.length == 92
  | .poolEntryRead bytes => bytes.length == 16
  | .hostMark _ length text => text.length == min length.toNat 37
  | .registerWrite offset _ => offset.toNat % 4 == 0
  | .controlStart | .softReset | .functionReset | .attentionWrite _ | .attnMaskWrite _ | .powerOnReset _
  | .brownOut | .supplyWarning | .supplyRecovery | .boundary _ _ | .frameSent _ | .pollSent _
  | .replyTimeout _ _ | .roundDeadline _ | .lineQuiet _ | .characterReceived _ _ | .lineStuck _ | .overcurrent _
  | .cellReadFailed | .armRecordReadFailed | .takenWrite _ | .resultAreaWrite _ | .stateWordWrite _
  | .requestRefusedKind _ | .arm _ | .disarm | .disarmFreeWrite _ | .openSitting _ _ | .goOnRecord | .goOffRecord
  | .closeSitting | .abandonStaged | .setClock _ | .trimFrame _ | .portControl _ _ _ | .portSelfTest _
  | .readCounters _ _ | .releaseStation _ | .setChannel _ _ _ _ _ _ | .setPrivacy _ _ | .setBar _ _ | .flush
  | .poolReadFailed | .standbyWrite _ | .tamperRewrite _ | .headWrite _ | .panelWrite _ | .writerTurn
  | .writingWrite _ | .itemWriteDone | .itemWriteFailed | .headerWrite _ | .closedWrite _ | .faultedWrite _
  | .drainComplete | .abandonComplete | .flushComplete | .idleIntervalFlagCleared _ | .lowRunReset _ => true

end Sys2Proof
end

