-- ==== Sys2Proof/Machine/Operands.lean ====
section
/-! DEFINITION. What the part reads from outside: request cells, arm records, pool entries and bundles, with the
checks that their rules make (R5, R62, R169, R171). -/
namespace Sys2Proof.Machine

/-! ### Request cells (R154, R169) -/

/-- A request cell's 4-byte field at an offset. -/
def cellWord (bytes : List Byte) (off : Nat) : Word32 := BitVec.ofNat 32 (readLE bytes off 4)

/-- The state word of a cell (R169). -/
def cellState (bytes : List Byte) : Nat := readLE bytes 0 4

/-- The state word POSTED (R169). -/
def postedState : Nat := 1

/-- The host tag of a cell (R169). -/
def cellTag (bytes : List Byte) : Word16 := BitVec.ofNat 16 (readLE bytes 4 2)

/-- The request kind of a cell (R169). -/
def cellKind (bytes : List Byte) : Word16 := BitVec.ofNat 16 (readLE bytes 6 2)

/-- The request that a cell's kind and arguments name (R154, R169); a kind not in the table is refused as such. -/
def cellRequest (bytes : List Byte) : Instr :=
  let arg := cellWord bytes
  match (cellKind bytes).toNat with
  | 1 => .arm (BitVec.ofNat 64 (readLE bytes 8 8))
  | 2 => .disarm
  | 3 => .openSitting (arg 8) (arg 12)
  | 4 => .goOnRecord
  | 5 => .goOffRecord
  | 6 => .closeSitting
  | 7 => .abandonStaged
  | 16 => .setClock (BitVec.ofNat 64 (readLE bytes 8 8))
  | 17 => .trimFrame (arg 8)
  | 32 => .portControl (arg 8) (arg 12) (arg 16)
  | 33 => .portSelfTest (arg 8)
  | 34 => .readCounters (arg 8) (arg 12)
  | 48 => .releaseStation (arg 8)
  | 64 => .setChannel (arg 8) (arg 12) (arg 16) (arg 20) (arg 24) (arg 28)
  | 65 => .setPrivacy (arg 8) (arg 12)
  | 66 => .setBar (arg 8) (arg 12)
  | 80 => .flush
  | 81 =>
    let length : Byte := BitVec.ofNat 8 (readLE bytes 10 1)
    .hostMark (BitVec.ofNat 16 (readLE bytes 8 2)) length ((bytes.drop 11).take (min length.toNat 37))
  | _ => .requestRefusedKind (cellKind bytes)

/-- The kind code of a request (R169); 0 for a command that is no request. -/
def requestKind : Instr → Word16
  | .arm _ => 1 | .disarm => 2 | .openSitting _ _ => 3 | .goOnRecord => 4 | .goOffRecord => 5 | .closeSitting => 6
  | .abandonStaged => 7 | .setClock _ => 16 | .trimFrame _ => 17 | .portControl _ _ _ => 32 | .portSelfTest _ => 33
  | .readCounters _ _ => 34 | .releaseStation _ => 48 | .setChannel _ _ _ _ _ _ => 64 | .setPrivacy _ _ => 65
  | .setBar _ _ => 66 | .flush => 80 | .hostMark _ _ _ => 81 | .requestRefusedKind k => k
  | _ => 0

/-- A field of all ones stands for KEEP (R169). -/
def keepAll : Word32 := 0xFFFFFFFF#32

/-- The port that a request's port argument names (R46). -/
def portArg (w : Word32) : Option PortId :=
  match w.toNat with
  | 0 => some .a
  | 1 => some .b
  | _ => none

/-- The channel that a request's channel argument names (R87). -/
def channelArg (w : Word32) : Option (Fin 32) := if h : w.toNat < 32 then some ⟨w.toNat, h⟩ else none

/-- The station that a request's station argument names (R78). -/
def stationArg (w : Word32) : Option (Fin 16) := if h : w.toNat < 16 then some ⟨w.toNat, h⟩ else none

/-! ### Results -/

/-- A result with its three words. -/
def Result.mk3 (c : ResultCode) (a b d : Nat) : Result :=
  { code := c, w0 := BitVec.ofNat 32 a, w1 := BitVec.ofNat 32 b, w2 := BitVec.ofNat 32 d }

/-- A result whose rule gives no words: they are 0 (R154). -/
def Result.plain (c : ResultCode) : Result := Result.mk3 c 0 0 0

/-! ### The arm record (R5, R169) -/

/-- The arm record as its 92 bytes give it, nothing clamped (R169). -/
def ArmRecord.parse (bytes : List Byte) : ArmRecord :=
  { seating := BitVec.ofNat 32 (readLE bytes 0 4)
    mixOn := decide (readLE bytes 4 1 ≠ 0)
    shift := readLE bytes 5 1
    age := readLE bytes 6 2
    sheetSize := readLE bytes 8 4
    poolCount := readLE bytes 12 4
    poolAddress := BitVec.ofNat 64 (readLE bytes 16 8)
    units := Vector.ofFn fun t : Fin 34 => readLE bytes (24 + 2 * t.val) 2 }

/-- Whether the record seats a track: a channel by its member of the set, the mix by its flag, track 33 always
(R6). -/
def ArmRecord.seats (r : ArmRecord) (t : Fin 34) : Bool :=
  if t.val < 32 then r.seating.getLsbD t.val else if t.val = 32 then r.mixOn else true

/-- The bay sizes together, in units (R5). -/
def ArmRecord.total (r : ArmRecord) : Nat := r.units.toList.sum

/-- The age limit as taken (R5). -/
def ArmRecord.ageTaken (r : ArmRecord) : Nat := max 1 (min 255 r.age)

/-- The mix shift as taken (R5). -/
def ArmRecord.shiftTaken (r : ArmRecord) : Nat := min 5 r.shift

/-- Whether a value was clamped (R5). -/
def ArmRecord.clamped (r : ArmRecord) : Bool := decide (r.ageTaken ≠ r.age) || decide (r.shiftTaken ≠ r.shift)

/-- Check 4 of R5 fails on a track: a bay for a track that is not seated. -/
def ArmRecord.strayBay (r : ArmRecord) (t : Fin 34) : Bool := !r.seats t && decide (r.units[t] ≠ 0)

/-- Check 5 of R5 fails on a track: a seated channel's or the mix's bay below 4 units. -/
def ArmRecord.smallBay (r : ArmRecord) (t : Fin 34) : Bool :=
  decide (t.val < 33) && r.seats t && decide (r.units[t] < 4)

/-- A failed check of R5: its result, its number, its track and the total in bytes. -/
def ArmRecord.fails (r : ArmRecord) (c : ResultCode) (check track : Nat) : Option Result :=
  some (Result.mk3 c check track (r.total * 256))

/-- The checks of R5, the first that fails deciding the result; none when every check passes. -/
def ArmRecord.failure (r : ArmRecord) : Option Result :=
  if r.sheetSize < 4096 ∨ 65536 < r.sheetSize ∨ r.sheetSize % 4096 ≠ 0 then r.fails .refusedRange 1 0
  else if r.poolCount = 0 ∨ 256 < r.poolCount then r.fails .refusedRange 2 0
  else if r.poolAddress.toNat % 16 ≠ 0 then r.fails .refusedRange 3 0
  else
    match (List.finRange 34).find? r.strayBay with
    | some t => r.fails .refusedRange 4 t.val
    | none =>
      match (List.finRange 34).find? r.smallBay with
      | some t => r.fails .refusedRange 5 t.val
      | none =>
        if r.units[33] < 8 then r.fails .refusedRange 6 33
        else if 256 < r.total then r.fails .refusedRoom 7 0
        else none

/-- How many tracks the record seats, track 33 among them (R6). -/
def ArmRecord.seatedCount (r : ArmRecord) : Nat := ((List.finRange 34).filter r.seats).length

/-! ### Pool entries (R169) -/

/-- A pool entry as read (R169). -/
structure PoolEntry where
  address : Word64
  status : Nat
  track : Nat
  serial : Nat
  deriving DecidableEq, Repr

/-- The entry in 16 bytes (R169). -/
def PoolEntry.parse (bytes : List Byte) : PoolEntry :=
  { address := BitVec.ofNat 64 (readLE bytes 0 8), status := readLE bytes 8 1, track := readLE bytes 9 1,
    serial := readLE bytes 10 2 }

/-- The address of a pool entry in host memory (R169). -/
def Arming.entry (a : Arming) (i : Fin 256) : Word64 := a.poolAddress + BitVec.ofNat 64 (16 * i.val)

/-- The address of a pool entry's status word (R169). -/
def Arming.status (a : Arming) (i : Fin 256) : Word64 := a.entry i + 8#64

/-! ### Bundles (R54, R62, R171) -/

/-- A bundle's items (R54): per microphone, `privacy` the button's request and `present` the microphone. -/
structure Bundle where
  unit : BitVec 24
  tag : Byte
  privacy : Vector Bool 2
  present : Vector Bool 2
  samples : Vector (List Int) 2
  deriving DecidableEq, Repr

/-- n₀ or n₁ as the data characters give it (R171). -/
def bundleCount (data : List Byte) (m : Fin 2) : Nat := readLE data (5 + m.val) 1

/-- The items of a bundle's data characters (R171). -/
def Bundle.parse (data : List Byte) : Bundle :=
  let n0 := bundleCount data 0
  let n1 := bundleCount data 1
  let status : Byte := data.getD 4 0
  { unit := BitVec.ofNat 24 (readLE data 0 3), tag := data.getD 3 0,
    privacy := #v[status.getLsbD 0, status.getLsbD 1], present := #v[status.getLsbD 2, status.getLsbD 3],
    samples := #v[readSamples data 7 n0, readSamples data (7 + 2 * n0) n1] }

/-- Checks 5 to 9 of R62 on the data characters of a reply that END ended, for the frame tag of the round. -/
def bundleFault (data : List Byte) (tag : Byte) : Option BadReason :=
  let n0 := bundleCount data 0
  let n1 := bundleCount data 1
  if data.length < 9 ∨ data.length ≠ 7 + 2 * (n0 + n1) + 2 then some .length
  else if n0 < 60 ∨ 68 < n0 ∨ n1 < 60 ∨ 68 < n1 then some .count
  else if (crc16 (data.take (data.length - 2))).toNat ≠ readLE data (data.length - 2) 2 then some .crc
  else if data.getD 3 0 ≠ tag then some .tag
  else if (data.getD 4 0).toNat / 16 ≠ 0 then some .format
  else none

/-- The data characters of a bundle before its check, as a station sends them (R54, R171). -/
def Bundle.body (b : Bundle) : List Byte :=
  leBytes 3 b.unit.toNat ++ [b.tag]
    ++ leBytes 1 (bit b.privacy[0] + 2 * bit b.privacy[1] + 4 * bit b.present[0] + 8 * bit b.present[1])
    ++ leBytes 1 b.samples[0].length ++ leBytes 1 b.samples[1].length
    ++ b.samples[0].flatMap leSigned ++ b.samples[1].flatMap leSigned

/-- The data characters of a bundle with its check, low byte first (R54, R55). -/
def Bundle.encode (b : Bundle) : List Byte := b.body ++ leBytes 2 (crc16 b.body).toNat

/-- A bundle that a station may send: 60 … 68 samples of 16 bits per microphone (R54). -/
def Bundle.wf (b : Bundle) : Bool :=
  (List.finRange 2).all fun m =>
    decide (60 ≤ b.samples[m].length) && decide (b.samples[m].length ≤ 68)
      && b.samples[m].all fun v => decide (-32768 ≤ v) && decide (v ≤ 32767)

/-! ### A cell as the host writes it (R169) -/

/-- The argument bytes of a request, from offset 8 of its cell (R169); none for a command that is no request of the
table. -/
def requestArguments : Instr → Option (List Byte)
  | .arm a => some (leBytes 8 a.toNat)
  | .disarm | .goOnRecord | .goOffRecord | .closeSitting | .abandonStaged | .flush => some []
  | .openSitting n r => some (leBytes 4 n.toNat ++ leBytes 4 r.toNat)
  | .setClock v => some (leBytes 8 v.toNat)
  | .trimFrame n => some (leBytes 4 n.toNat)
  | .portControl p w d => some (leBytes 4 p.toNat ++ leBytes 4 w.toNat ++ leBytes 4 d.toNat)
  | .portSelfTest p => some (leBytes 4 p.toNat)
  | .readCounters p c => some (leBytes 4 p.toNat ++ leBytes 4 c.toNat)
  | .releaseStation k => some (leBytes 4 k.toNat)
  | .setChannel c g t a h m =>
    some (leBytes 4 c.toNat ++ leBytes 4 g.toNat ++ leBytes 4 t.toNat ++ leBytes 4 a.toNat ++ leBytes 4 h.toNat
      ++ leBytes 4 m.toNat)
  | .setPrivacy c f | .setBar c f => some (leBytes 4 c.toNat ++ leBytes 4 f.toNat)
  | .hostMark code length text => some (leBytes 2 code.toNat ++ leBytes 1 length.toNat ++ text)
  | _ => none

/-- A POSTED cell of 64 bytes with a tag and a request of the table (R169). -/
def postedCell (tag : Word16) (i : Instr) : Option (List Byte) :=
  (requestArguments i).map fun args =>
    padTo 64 (leBytes 4 postedState ++ leBytes 2 tag.toNat ++ leBytes 2 (requestKind i).toNat ++ args)

end Sys2Proof.Machine
end

