-- ==== Sys2Proof/Machine/Channels.lean ====
section
/-! DEFINITION. The Channel Table and the Frame Computation Unit: snapshots, privacy, the settling and the close of a
frame, the floor detector, the economy test, the offer of a block, the mix (R88 to R101, R104 to R119). -/
namespace Sys2Proof.Machine

/-- A report of a call to the Station Table (spec/04_polling_and_bundles.md 4.5, R71). -/
inductive Report where
  | good (bundle : Bundle)
  | bad
  | noReply
  | late
  | notRunning
  | supply
  deriving DecidableEq, Repr

/-- How a frame comes to be settled: by a report (R95), or at its close (R97), where `ran` says that the channel's
port was RUNNING after the work of the boundary that began the polling interval. -/
inductive Settling where
  | report (r : Report)
  | close (ran : Bool)
  deriving DecidableEq, Repr

/-! ### Snapshots (R88) -/

/-- The snapshot of frame `f`, if the channel holds one. -/
def Channel.snapshot (ch : Channel) (f : Nat) : Option Snapshot := ch.snapshots.find? fun sn => decide (sn.frame = f)

/-- R88 on one channel: the snapshot of frame `f` beside that of frame f − 1; no other is held. -/
def Channel.takeSnapshot (ch : Channel) (f : Nat) (onRecord : Bool) : Channel :=
  let kept := (ch.snapshots.find? fun sn => decide (sn.frame + 1 = f)).toList
  { ch with snapshots := kept ++ [{ frame := f, settings := ch.settings, onRecord := onRecord }] }

/-- The bar of the snapshot of the frame before `f`; frame 0 is compared with a clear bar (R91). -/
def Channel.barBefore (ch : Channel) (f : Nat) : Bool :=
  match ch.snapshots.find? fun sn => decide (sn.frame + 1 = f) with
  | some sn => sn.settings.bar
  | none => false

/-- R88 and R91 on channel `c` at the boundary that begins frame `f`. -/
def Path.snapshotChannel (x : Ctx) (f : Nat) (onRecord : Bool) (p : Path) (c : Fin 32) : Path :=
  let ch := p.channels[c]
  let before := ch.barBefore f
  let p' := p.setChannel c (ch.takeSnapshot f onRecord)
  if ch.seated ∧ before = false ∧ ch.settings.bar then p'.mark x (.barSet c) f
  else if ch.seated ∧ before ∧ ch.settings.bar = false then p'.mark x (.barCleared c) f
  else p'

/-- R88 on every channel, in ascending channel order, and so the order of their bar marks, which the spec leaves open
(DESIGN CHOICE, assumption 50). -/
def Path.takeSnapshots (x : Ctx) (f : Nat) (onRecord : Bool) (p : Path) : Path :=
  (List.finRange 32).foldl (Path.snapshotChannel x f onRecord) p

/-! ### The floor detector (R109 to R113) -/

/-- What a step or a forced end of the detector has to mark. -/
inductive FloorNews where
  | begun (loudFrame : Nat)
  | ended (loudFrame : Nat)
  deriving DecidableEq, Repr

/-- The detector QUIET with both runs 0 and both loud frames absent. -/
def Floor.quiet (fl : Floor) : Floor :=
  { fl with speaking := false, loudRun := 0, quietRun := 0, firstLoud := none, lastLoud := none }

/-- R110 and R111: one step for frame `f` with the settings of its snapshot. -/
def Floor.step (fl : Floor) (set : Settings) (f : Nat) (loud : Bool) : Floor × Option FloorNews :=
  if fl.speaking then
    if loud then ({ fl with quietRun := 0, lastLoud := some f }, none)
    else if set.hang < fl.quietRun + 1 then (fl.quiet, fl.lastLoud.map .ended)
    else ({ fl with quietRun := fl.quietRun + 1 }, none)
  else if loud then
    let first := if fl.loudRun = 0 then some f else fl.firstLoud
    if set.attack ≤ fl.loudRun + 1 then
      ({ fl with speaking := true, loudRun := 0, quietRun := 0, firstLoud := first, lastLoud := some f },
        first.map .begun)
    else ({ fl with loudRun := fl.loudRun + 1, firstLoud := first }, none)
  else ({ fl with loudRun := 0, firstLoud := none }, none)

/-- R112, a forced end. -/
def Floor.force (fl : Floor) : Floor × Option FloorNews :=
  if fl.speaking then (fl.quiet, fl.lastLoud.map .ended)
  else ({ fl with loudRun := 0, firstLoud := none }, none)

/-- Channel `c`'s detector replaced. -/
def Path.setFloor (p : Path) (c : Fin 32) (fl : Floor) : Path :=
  { p with fcu := { p.fcu with floors := p.fcu.floors.set c.val fl c.isLt } }

/-- R113: the mark of a transition, made only where it acts on an on-record frame; its frame is the loud frame. -/
def Path.floorMark (x : Ctx) (c : Fin 32) (onRecord : Bool) (news : Option FloorNews) (p : Path) : Path :=
  match onRecord, news with
  | true, some (.begun f) => p.mark x (.floorBegin c f) f
  | true, some (.ended f) => p.mark x (.floorEnd c f) f
  | _, _ => p

/-- R112 on channel `c`. -/
def Path.forceFloor (x : Ctx) (onRecord : Bool) (p : Path) (c : Fin 32) : Path :=
  let r := p.fcu.floors[c].force
  (p.setFloor c r.1).floorMark x c onRecord r.2

/-- R109 on channel `c` for frame `f`: the step, with the last peak of R108. -/
def Path.stepFloor (x : Ctx) (c : Fin 32) (f : Nat) (sn : Snapshot) (loud : Bool) (peak : Nat) (p : Path) : Path :=
  let r := p.fcu.floors[c].step sn.settings f loud
  (p.setFloor c { r.1 with lastPeak := peak, offLast := !sn.onRecord }).floorMark x c sn.onRecord r.2

/-- R112: the first on-record frame after an off-record one resets the detector without a mark. -/
def Path.resumeFloor (c : Fin 32) (sn : Snapshot) (p : Path) : Path :=
  let fl := p.fcu.floors[c]
  if sn.onRecord ∧ fl.offLast then p.setFloor c fl.quiet else p

/-! ### Blocks (R117 to R119) -/

/-- R118: the economy test at an offer of a block of frame `f` to track `t`; the answer's second part says that the
block is offered in economy. -/
def Path.economyTest (x : Ctx) (t : Fin 33) (f : Nat) (p : Path) : Path × Bool :=
  let b := p.bays.bay[trackOf t]
  let change (flag : Bool) : Path := { p with bays := p.bays.set (trackOf t) { b with economy := flag } }
  if b.economy then
    if b.fill ≤ b.units * 64 then ((change false).mark x (.economyEnd t) f, false) else (p, true)
  else if b.units * 192 ≤ b.fill then (((change true).mark x (.economyBegin t) f).raise .economy, true)
  else (p, false)

/-- A sample block of gained samples, full or halved (R117). -/
def blockOf (t : Fin 33) (f : Nat) (economy clip : Bool) (contributors : Nat) (samples : List Int) : SampleBlock :=
  { track := t, frame := f, economy := economy, clip := clip, delivered := samples.length,
    contributors := contributors, samples := if economy then halve samples else samples }

/-- R118 and R119: a block offered; the answer's second part says that it was admitted. -/
def Path.offerBlock (x : Ctx) (t : Fin 33) (f : Nat) (clip : Bool) (contributors : Nat) (samples : List Int)
    (p : Path) : Path × Bool :=
  let r := p.economyTest x t f
  match r.1.push t (.sample (blockOf t f r.2 clip contributors samples)) with
  | some p' => (p', true)
  | none => (r.1, false)

/-! ### Settling (R89, R92, R95, R96, R98, R101) -/

/-- The button part of R89: of the frame's good bundle, else of the station record. -/
def buttonPart (how : Settling) (mic : Mic) (m : Fin 2) : Bool :=
  match how with
  | .report (.good b) => b.privacy[m]
  | _ => mic.button

/-- The causes of R95 and R97 from POWER onward; none for SAMPLE. -/
def causeOf (warning : Bool) (how : Settling) (st : Station) (m : Fin 2) : Option VoidCause :=
  match how with
  | .report r =>
    if r = .supply ∨ warning then some .power
    else if r = .notRunning then some .portDown
    else if st.state = .vacant ∨ st.state = .lost then some .noStation
    else if st.state = .joining then some .joining
    else if st.mics[m].present = false then some .noMic
    else
      match r with
      | .noReply => some .noReply
      | .bad => some .check
      | .late => some .late
      | .good _ | .notRunning | .supply => none
  | .close ran =>
    if warning then some .power
    else if ran = false then some .portDown
    else if st.state = .vacant ∨ st.state = .lost then some .noStation
    else if st.state = .joining then some .joining
    else some .late

/-- The samples that a report delivers for a microphone. -/
def deliveredBy (how : Settling) (m : Fin 2) : List Int :=
  match how with
  | .report (.good b) => b.samples[m]
  | _ => []

/-- R96: an off-record frame is handed for activity alone with a good bundle, a PRESENT record and a present
microphone. -/
def activityOf (how : Settling) (st : Station) (m : Fin 2) : Bool :=
  match how with
  | .report (.good _) => decide (st.state = .present) && st.mics[m].present
  | _ => false

/-- R101: an on-record frame counted as void, with the cause it counts with as its outcome. -/
def Channel.countVoid (ch : Channel) (cause : VoidCause) : Channel :=
  { ch with voids := min 4294967295 (ch.voids + 1), outcome := some (.void cause) }

/-- R101 and R107: an on-record frame counted as captured, with its saturated samples. -/
def Channel.countSample (ch : Channel) (saturated : Nat) : Channel :=
  { ch with captured := min 4294967295 (ch.captured + 1), clips := min 65535 (ch.clips + saturated),
            outcome := some .sample }

/-- R98 and R101: a void frame of an on-record channel frame. -/
def Path.voidFrame (c : Fin 32) (f : Nat) (cause : VoidCause) (p : Path) : Path :=
  let r := p.takeVoid (soundTrack c) cause f
  r.1.setChannel c (r.1.channels[c].countVoid r.2)

/-- R114: an admitted block's contribution to the mix accumulator. -/
def Fcu.contribute (u : Fcu) (f : Nat) (samples : List Int) : Fcu :=
  { u with sums := addContribution u.sums samples, sumsFrame := some f, contributors := u.contributors + 1 }

/-- R96, R116: a block is offered unless a HELD run remains on its track. -/
def Path.offerUnlessHeld (x : Ctx) (t : Fin 33) (f : Nat) (clip : Bool) (contributors : Nat) (samples : List Int)
    (p : Path) : Path × Bool :=
  if (p.runOf t).isSome then (p, false) else p.offerBlock x t f clip contributors samples

/-- R101, R107, R109, R114: what follows an admitted block of gained samples. -/
def Path.takeSample (x : Ctx) (c : Fin 32) (f : Nat) (sn : Snapshot) (gainedSamples : List Int) (saturated : Nat)
    (p : Path) : Path :=
  let peak := peakOf gainedSamples
  let p1 := p.setChannel c (p.channels[c].countSample saturated)
  let p2 := p1.stepFloor x c f sn (decide (sn.settings.threshold ≤ peak)) peak
  if sn.settings.inMix ∧ p2.fcu.mixOn then { p2 with fcu := p2.fcu.contribute f gainedSamples } else p2

/-- R105, R106, R118, R109, R114: an on-record frame settled SAMPLE. -/
def Path.sampleFrame (x : Ctx) (c : Fin 32) (f : Nat) (sn : Snapshot) (samples : List Int) (p : Path) : Path :=
  let g := gained sn.settings.gain samples
  let saturated := saturatedCount sn.settings.gain samples
  let offer := (p.endRun (soundTrack c)).offerUnlessHeld x (soundTrack c) f (decide (saturated ≠ 0)) 0 g
  if offer.2 then offer.1.takeSample x c f sn g saturated
  else (offer.1.voidFrame c f .noRoom).stepFloor x c f sn false (peakOf g)

/-- R92: the source of a privacy that begins. -/
def privacySource (button host : Bool) : PrivacySource :=
  match button, host with
  | true, true => .both
  | true, false => .station
  | false, _ => .benchDesk

/-- R89 and R92 on channel `c` for frame `f`: privacy determined, compared and marked, with the forced end of the
floor where it begins. -/
def Path.settlePrivacy (x : Ctx) (c : Fin 32) (f : Nat) (sn : Snapshot) (button : Bool) (p : Path) : Path :=
  let ch := p.channels[c]
  let asked := button || sn.settings.privacy
  let now := asked && !sn.settings.bar
  let before := ch.privacy && decide (f ≠ 0)
  let p1 := p.setChannel c { ch with privacy := now, settled := true }
  if now ∧ before = false then
    (p1.forceFloor x sn.onRecord c).mark x (.privacyBegin c (privacySource button sn.settings.privacy)) f
  else if now = false ∧ before then
    p1.mark x (.privacyEnd c (if asked ∧ sn.settings.bar then .barred else .released)) f
  else p1

/-- R95 to R98 and R105: frame `f` of channel `c` settled, for a seated channel that holds the frame's snapshot and
has not settled it. -/
def Path.settle (x : Ctx) (f : Nat) (how : Settling) (p : Path) (c : Fin 32) : Path :=
  let ch := p.channels[c]
  match ch.snapshot f with
  | none => p
  | some sn =>
    if ch.seated ∧ ch.settled = false ∧ x.sitting.within f then
      let st := p.stations[stationOf c]
      let m := micOf c
      let button := buttonPart how st.mics[m] m
      let p1 := (p.resumeFloor c sn).settlePrivacy x c f sn button
      let isPrivate := p1.channels[c].privacy
      if sn.onRecord then
        if isPrivate then (p1.voidFrame c f .privacy).stepFloor x c f sn false 0
        else
          match causeOf x.warning how st m with
          | some cause => (p1.voidFrame c f cause).stepFloor x c f sn false 0
          | none => p1.sampleFrame x c f sn (deliveredBy how m)
      else if isPrivate = false ∧ activityOf how st m then
        let peak := peakOf (gained sn.settings.gain (deliveredBy how m))
        p1.stepFloor x c f sn (decide (sn.settings.threshold ≤ peak)) peak
      else p1.stepFloor x c f sn false 0
    else p

/-- R93: a press of microphone `m`'s button on a seated channel whose snapshot of the frame is barred. -/
def Path.refusePress (x : Ctx) (f : Nat) (c : Fin 32) (before after : Bool) (p : Path) : Path :=
  let ch := p.channels[c]
  match ch.snapshot f with
  | some sn =>
    if ch.seated ∧ before = false ∧ after ∧ sn.settings.bar ∧ x.sitting.within f then
      p.mark x (.privacyRefused c) f
    else p
  | none => p

/-! ### The lamp (R94) -/

/-- R94, the lamp state of a channel at this moment. -/
def Path.lampNow (x : Ctx) (p : Path) (c : Fin 32) : Lamp :=
  let ch := p.channels[c]
  let button := p.stations[stationOf c].mics[micOf c].button
  let set := match ch.snapshot x.frame with
    | some sn => if x.sitting.counting then sn.settings else ch.settings
    | none => ch.settings
  if (button || set.privacy) && !set.bar then .priv
  else if ch.seated ∧ x.sitting.state = .onRecord then .live
  else .off

/-- R94: a channel's lamp state derived and held. -/
def Path.deriveLamp (x : Ctx) (p : Path) (c : Fin 32) : Path :=
  p.setChannel c { p.channels[c] with lamp := p.lampNow x c }

/-! ### The mix (R114 to R116) -/

/-- The accumulator cleared (R115); the frame it then belongs to is set as the boundary goes on (`Fcu.belongTo`). -/
def Fcu.clearMix (u : Fcu) : Fcu := { u with sums := Vector.replicate 64 0, sumsFrame := none, contributors := 0 }

/-- R114: while mix on is yes the accumulator belongs to the frame in computation, else to none. -/
def Fcu.belongTo (u : Fcu) (computed : Option Nat) : Fcu :=
  { u with sumsFrame := if u.mixOn then computed else none }

/-- The 64 mix samples (R115). -/
def Fcu.mixSamples (u : Fcu) : List Int := u.sums.toList.map fun m => saturate (mixScale u.shift m)

/-- How many mix samples saturated (R115). -/
def Fcu.mixSaturated (u : Fcu) : Nat := (u.sums.toList.filter fun m => saturates (mixScale u.shift m)).length

/-- R116: what a finished mix frame becomes on track 32. -/
def Path.disposeMix (x : Ctx) (f : Nat) (p : Path) : Path :=
  if x.warning then (p.takeVoid mixTrack .power f).1
  else if p.fcu.contributors = 0 then (p.takeVoid mixTrack .noSources f).1
  else
    let saturated := p.fcu.mixSaturated
    let offer := (p.endRun mixTrack).offerUnlessHeld x mixTrack f (decide (saturated ≠ 0)) p.fcu.contributors
      p.fcu.mixSamples
    if offer.2 then
      { offer.1 with fcu := { offer.1.fcu with mixClips := min 65535 (offer.1.fcu.mixClips + saturated) } }
    else (offer.1.takeVoid mixTrack .noRoom f).1

/-- R115: the finish of the mix of frame `f`, and the accumulator cleared. -/
def Path.finishMix (x : Ctx) (f : Nat) (onRecord : Bool) (p : Path) : Path :=
  let p1 := if p.fcu.mixOn ∧ onRecord then p.disposeMix x f else p
  { p1 with fcu := p1.fcu.clearMix }

/-! ### The close of a frame (R97, R12, R14) -/

/-- R12: the end of an on-record stretch, or of the sitting, on channel `c`: the OPEN run is ended and the detector
forced. -/
def Path.endChannelStretch (x : Ctx) (onRecord : Bool) (p : Path) (c : Fin 32) : Path :=
  if p.channels[c].seated then (p.endRun (soundTrack c)).forceFloor x onRecord c else p

/-- What the close leaves of a channel: no outcome, and no snapshot of the closed frame (R97, R88). -/
def Channel.dropFrame (ch : Channel) (f : Nat) : Channel :=
  { ch with outcome := none, settled := false, snapshots := ch.snapshots.filter fun sn => decide (sn.frame ≠ f) }

/-- Every channel changed by `g`. -/
def Path.mapChannels (g : Channel → Channel) (p : Path) : Path := { p with channels := p.channels.map g }

/-- R97, R115, R12, R14: the close of frame `f`, whose flag is `onRecord`; `last` says that `f` is the last frame of
a closing sitting, `nextOn` is the flag of frame f + 1, and `ranA` and `ranB` whether the ports were RUNNING after
the work of boundary f + 1. The channels go in ascending order, in settling and in the end of a stretch, and the mix
is finished before the stretch is ended: the spec orders neither (DESIGN CHOICE, assumptions 50 and 51). -/
def Path.closeFrame (x : Ctx) (f : Nat) (onRecord nextOn last ranA ranB : Bool) (p : Path) : Path :=
  let ran (c : Fin 32) : Bool := match portOf c with
    | .a => ranA
    | .b => ranB
  let p1 := (List.finRange 32).foldl (fun q c => q.settle x f (.close (ran c)) c) p
  let p2 := p1.finishMix x f onRecord
  let p3 := if last || (onRecord && !nextOn) then
      ((List.finRange 32).foldl (Path.endChannelStretch x onRecord) p2).endRun mixTrack
    else p2
  p3.mapChannels fun ch => ch.dropFrame f

/-! ### The opening and the end of a sitting (R9, R88, R92) -/

/-- R9 on a channel record. -/
def Channel.opening (ch : Channel) : Channel :=
  { ch with clips := 0, captured := 0, voids := 0, run := none, outcome := none, settled := false }

/-- R9 on a floor detector. -/
def Floor.opening (fl : Floor) : Floor := { fl.quiet with offLast := false }

/-- R9 on a station record. -/
def Station.opening (st : Station) : Station :=
  { st with mics := st.mics.map fun m => { m with slip := 0, drift := false } }

/-- R9 on the blocks of the audio path. -/
def Path.opening (p : Path) : Path :=
  { p with
    stations := p.stations.map Station.opening
    channels := p.channels.map Channel.opening
    fcu := { p.fcu.clearMix with mixClips := 0, mixRun := none, floors := p.fcu.floors.map Floor.opening }
    bays := { p.bays with withheld := 0, bay := p.bays.bay.map fun b => { b with economy := false } } }

/-- R88 and R92: what the end of a sitting leaves of a channel. -/
def Channel.sittingEnded (ch : Channel) : Channel :=
  { ch with snapshots := [], privacy := false, outcome := none, settled := false }

/-- R88 and R92 on every channel. -/
def Path.sittingEnded (p : Path) : Path := p.mapChannels Channel.sittingEnded

end Sys2Proof.Machine
end

