-- ==== Sys2Proof/Machine/Stations.lean ====
section
/-! DEFINITION. The Station Table: how a report changes a station record, its marks and attention, and the hand-off to
the Channel Table (R71 to R82). -/
namespace Sys2Proof.Machine

/-- What a report has to mark (R82). -/
inductive StationNews where
  | joined (unit : BitVec 24)
  | lost (unit : BitVec 24)
  | replaced (old : BitVec 24) (new : BitVec 24)
  deriving DecidableEq, Repr

/-- Whether a report is a miss (spec/05_stations.md 5.2). -/
def Report.isMiss : Report → Bool
  | .bad | .noReply | .late => true
  | .good _ | .notRunning | .supply => false

/-- The record's unit number; a record outside VACANT holds one (R70). -/
def Station.unitNumber (st : Station) : BitVec 24 := st.unit.getD 0

/-- JOINING with good run 1 and miss run 0 under unit number `u` (R72, R76). -/
def Station.join (st : Station) (u : BitVec 24) : Station :=
  { st with state := .joining, unit := some u, goodRun := 1, missRun := 0, lostCause := none }

/-- Slip of both channels 0 and drift flags clear (R72, R76). -/
def Station.clearSlip (st : Station) : Station :=
  { st with mics := st.mics.map fun m => { m with slip := 0, drift := false } }

/-- R72: a good bundle of unit `u` from a PROBE. -/
def Station.probed (st : Station) (u : BitVec 24) : Station × Option StationNews :=
  match st.state with
  | .vacant => ((st.join u).clearSlip, some (.joined u))
  | .lost =>
    if st.unitNumber = u then (st.join u, some (.joined u))
    else ((st.join u).clearSlip, some (.replaced st.unitNumber u))
  | .joining | .present | .missing => (st, none)

/-- R73 to R76: a good bundle of unit `u` from a LIST poll. -/
def Station.listed (st : Station) (u : BitVec 24) : Station × Option StationNews :=
  match st.state with
  | .vacant | .lost => (st, none)
  | .joining | .present | .missing =>
    if st.unitNumber ≠ u then ((st.join u).clearSlip, some (.replaced st.unitNumber u))
    else if st.state = .joining then
      if st.goodRun + 1 < 8 then ({ st with goodRun := st.goodRun + 1, missRun := 0 }, none)
      else ({ st with state := .present, goodRun := 8, missRun := 0 }, none)
    else ({ st with state := .present, missRun := 0 }, none)

/-- R73, R75: a further miss of a JOINING or MISSING station, LOST at the twenty-fifth. -/
def Station.missAgain (st : Station) : Station × Option StationNews :=
  if st.missRun + 1 < 25 then ({ st with missRun := st.missRun + 1 }, none)
  else ({ st with state := .lost, goodRun := 0, missRun := 25, lostCause := some .misses },
    some (.lost st.unitNumber))

/-- R73 to R75: a miss. -/
def Station.missed (st : Station) : Station × Option StationNews :=
  match st.state with
  | .vacant | .lost => (st, none)
  | .joining => { st with goodRun := 0 }.missAgain
  | .present => ({ st with state := .missing, missRun := 1 }, none)
  | .missing => st.missAgain

/-- R72 to R76: a report applied to the record, before R79 and R80. -/
def Station.apply (st : Station) (probe : Bool) (r : Report) : Station × Option StationNews :=
  match r with
  | .good b => if probe then st.probed b.unit else st.listed b.unit
  | .bad | .noReply | .late => st.missed
  | .notRunning | .supply => (st, none)

/-- A slip within −32,767 … 32,767 (R80). -/
def clampSlip (n : Int) : Int := max (-32767) (min 32767 n)

/-- R79 to R81 on one microphone: button and presence taken, n − 64 added to the slip, the drift flag tested. -/
def Mic.take (mic : Mic) (button present : Bool) (n : Nat) : Mic :=
  let slip := clampSlip (mic.slip + ((n : Int) - 64))
  { button := button, present := present, slip := slip,
    drift := if mic.drift then decide (160 < slip.natAbs) else decide (320 < slip.natAbs) }

/-- R79 to R81: a good bundle's status and counts taken. -/
def Station.takeBundle (st : Station) (b : Bundle) : Station :=
  { st with mics := Vector.ofFn fun m => st.mics[m].take b.privacy[m] b.present[m] b.samples[m].length }

/-- Record `k` replaced. -/
def Path.setStation (p : Path) (k : Fin 16) (st : Station) : Path :=
  { p with stations := p.stations.set k.val st k.isLt }

/-- A station mark at the frame that the round polled, where there is one, and attention cause STATION (R82). -/
def Path.stationMark (x : Ctx) (polled : Option Nat) (k : MarkKind) (p : Path) : Path :=
  match polled with
  | some f => (p.mark x k f).raise .station
  | none => p.raise .station

/-- The mark kind of a piece of news (R82). -/
def StationNews.mark (k : Fin 16) : StationNews → MarkKind
  | .joined u => .stationJoined k u
  | .lost u => .stationLost k u
  | .replaced old new => .stationReplaced k old new

/-- R81: STATION_DRIFT for microphone `m` whose flag a bundle set. -/
def Path.driftMark (x : Ctx) (polled : Option Nat) (k : Fin 16) (flagBefore : Bool) (p : Path) (m : Fin 2) : Path :=
  let mic := p.stations[k].mics[m]
  if flagBefore = false ∧ mic.drift then p.stationMark x polled (.stationDrift (channelOf k m) mic.slip) else p

/-- A report's effect on the station record, with its marks and attention (R71 to R82). -/
def Path.recordReport (x : Ctx) (polled : Option Nat) (k : Fin 16) (probe : Bool) (r : Report) (p : Path) : Path :=
  let a := p.stations[k].apply probe r
  let p1 := match r with
    | .good b => p.setStation k (a.1.takeBundle b)
    | .bad | .noReply | .late | .notRunning | .supply => p.setStation k a.1
  let p2 := match a.2 with
    | some news => p1.stationMark x polled (news.mark k)
    | none => p1
  match r with
  | .good _ =>
    (p2.driftMark x polled k a.1.mics[0].drift 0).driftMark x polled k a.1.mics[1].drift 1
  | .bad | .noReply | .late | .notRunning | .supply => p2

/-- The hand-off to the Channel Table for one microphone: a press refused (R93), then the frame settled (R95). -/
def Path.handOff (x : Ctx) (f : Nat) (k : Fin 16) (r : Report) (before : Bool) (p : Path) (m : Fin 2) : Path :=
  let c := channelOf k m
  let p1 := match r with
    | .good b => p.refusePress x f c before b.privacy[m]
    | .bad | .noReply | .late | .notRunning | .supply => p
  p1.settle x f (.report r) c

/-- R71: a report on station `k` for the frame that its round polled. -/
def Path.report (x : Ctx) (polled : Option Nat) (k : Fin 16) (probe : Bool) (r : Report) (p : Path) : Path :=
  let before := p.stations[k]
  let p1 := p.recordReport x polled k probe r
  match polled with
  | some f =>
    (p1.handOff x f k r before.mics[0].button 0).handOff x f k r before.mics[1].button 1
  | none => p1

/-- R77 on one record. -/
def Station.portLost (st : Station) : Station :=
  match st.state with
  | .vacant => st
  | .joining | .present | .missing | .lost =>
    { st with state := .lost, lostCause := some .port, goodRun := 0, missRun := 0 }

/-- R77: every record of port `p` that is not VACANT is LOST with cause PORT. -/
def Path.portLost (path : Path) (p : PortId) : Path :=
  (List.finRange 8).foldl (fun q a => q.setStation (stationAt p a) q.stations[stationAt p a].portLost) path

/-- R78: a LOST record released. -/
def Station.release (st : Station) : Station :=
  { st with state := .vacant, unit := none, lostCause := none, goodRun := 0, missRun := 0,
            mics := st.mics.map fun m => { m with button := false, present := false } }

/-- A station that is called as LIST (R57). -/
def StationState.isListed : StationState → Bool
  | .joining | .present | .missing => true
  | .vacant | .lost => false

/-- The poll list of a port, in ascending order of address (R57). -/
def Path.pollList (path : Path) (p : PortId) : List (Fin 8) :=
  (List.finRange 8).filter fun a => path.stations[stationAt p a].state.isListed

/-- R59: an address that the probe of a round with the poll list `list` can go to: VACANT or LOST, and not in the list, so
that no station receives a second report in the round (R57, R71; assumption 62). -/
def Path.canProbe (path : Path) (p : PortId) (list : List (Fin 8)) (a : Fin 8) : Bool :=
  !path.stations[stationAt p a].state.isListed && !list.contains a

/-- R59: the first address after the cursor that the probe can go to, searching upward and wrapping. -/
def Path.probeAddress (path : Path) (p : PortId) (list : List (Fin 8)) (cursor : Fin 8) : Option (Fin 8) :=
  ((List.range 8).map fun i => Fin.ofNat 8 (cursor.val + 1 + i)).find? fun a => path.canProbe p list a

end Sys2Proof.Machine
end

