-- ==== Sys2Proof/Machine/Links.lean ====
section
/-! DEFINITION. A Link Port with the audio path it reports to: port states, the poll round, the reply, leaving RUNNING,
and the port's work at a boundary (R33 to R69). -/
namespace Sys2Proof.Machine

/-- A port and the audio path that it hands its reports to. -/
structure Link where
  port : Port
  path : Path
  deriving DecidableEq, Repr

/-! ### Port states and counters -/

/-- The power switch is CLOSED in STARTING, RUNNING and STUCK (R39). -/
def PortState.switchClosed : PortState → Bool
  | .starting | .running | .stuck => true
  | .disabled | .tripped | .testing => false

/-- A port state entered, its power switch set with it (R39). -/
def Port.enter (pt : Port) (st : PortState) : Port := { pt with state := st, closed := st.switchClosed }

/-- A 16-bit counter increased by one, stopping at 65,535 (R50). -/
def countEvent (n : Nat) : Nat := min 65535 (n + 1)

/-- A boundary's FRAME and its tag (R37). -/
def frameCharacters (boundary : Word64) : List (BitVec 11) :=
  [controlChar frameChar, dataChar (boundary.setWidth 8)]

/-- The lamp byte of two lamp states (R171). -/
def lampByte (l0 l1 : Lamp) : Byte := BitVec.ofNat 8 (l0.code + 4 * l1.code)

/-- STARTING entered with a count of 50 (R40). The idle interval flag, which the spec keeps in STUCK alone, is clear
outside it (DESIGN CHOICE, assumption 47), and the line is taken to read 1 (assumption 23). -/
def Port.start (pt : Port) : Port :=
  { pt.enter .starting with starting := 50, idleFlag := false, lineLow := false, lowTicks := 0 }

/-- DISABLED entered (R47). -/
def Port.disable (pt : Port) : Port := { pt.enter .disabled with starting := 0, idleFlag := false }

/-! ### Reports -/

/-- The time now in whole character times after the boundary (R56). -/
def Port.characterTime (pt : Port) (x : Ctx) : Nat := x.tick / charTicks pt.divisor

/-- The round's figures changed. -/
def Port.figure (pt : Port) (g : Figures → Figures) : Port := { pt with current := pt.current.map g }

/-- The round end moved to this moment: the last end of a call so far (R56). -/
def Port.markEnd (pt : Port) (x : Ctx) : Port := pt.figure fun g => { g with roundEnd := pt.characterTime x }

/-- A report handed to the Station Table for the station at an address (R63 to R66). -/
def Link.hand (x : Ctx) (p : PortId) (probe : Bool) (r : Report) (l : Link) (a : Fin 8) : Link :=
  { l with path := l.path.report x x.polled (stationAt p a) probe r }

/-- One report handed to several stations in ascending order of address, as the lists stand: the spec gives stations that
were not called no order (DESIGN CHOICE, assumption 49). -/
def Link.handAll (x : Ctx) (p : PortId) (r : Report) (as : List (Fin 8)) (l : Link) : Link :=
  as.foldl (Link.hand x p false r) l

/-- The report of a call handed for a LIST poll; a PROBE's is not (R60, R64, R66). -/
def Link.handListed (x : Ctx) (p : PortId) (r : Report) (l : Link) : Link :=
  match l.port.target with
  | some t => if t.probe then l else l.hand x p false r t.addr
  | none => l

/-! ### The course of a round (R57 to R59, R65, R68) -/

/-- R57: a round begins: FRAME and its tag are sent. The reply window count is 0 from here (DESIGN CHOICE, assumption
59). -/
def Port.beginRound (pt : Port) (x : Ctx) : Port :=
  { pt with
    phase := .framing, target := none, window := 0, reply := none, fault := none, remaining := pt.pollList,
    probeDone := false, deadlinePassed := false, busy := false, suppressed := x.warning,
    current := some Figures.reset, ranRound := true, sending := frameCharacters x.boundary, txTicks := 0,
    windowTicks := 0 }

/-- R58: POLL with the lamp byte is sent to an address, the lamp states taken at this moment, from which on the poll counts
as made (DESIGN CHOICE, assumption 60). The reply window count, which R56 leaves open outside AWAITING, goes back to 0 here
(DESIGN CHOICE, assumption 59). -/
def Link.sendPoll (x : Ctx) (p : PortId) (a : Fin 8) (probe : Bool) (l : Link) : Link :=
  let k := stationAt p a
  let path := (l.path.deriveLamp x (channelOf k 0)).deriveLamp x (channelOf k 1)
  let lamps := lampByte path.channels[channelOf k 0].lamp path.channels[channelOf k 1].lamp
  { path := path
    port := { l.port with
      phase := .polling, target := some { addr := a, probe := probe }, reply := none, fault := none, window := 0,
      sending := [controlChar (pollChar a), dataChar lamps], txTicks := 0 } }

/-- The round is over (R58). -/
def Port.endRound (pt : Port) (x : Ctx) : Port :=
  { pt.markEnd x with phase := .ended, target := none, remaining := [], probeDone := true }

/-- R59: the address of the probe that is still to be made in this round, none where it has been made or none is due. The
list of the round is passed over, a station that its LIST report has made LOST with it (DEDUCED, assumption 62). -/
def Link.probeDue (p : PortId) (l : Link) : Option (Fin 8) :=
  if l.port.probeDone then none else l.path.probeAddress p l.port.pollList l.port.probeCursor

/-- R58, R59: the next poll of the round, the probe after the list, or, when both are done, the round's end; a poll waits
while the line is busy, and none is made once the deadline has passed. The list polls made, the probe cursor and the end of
the list take a poll as its sending begins (DESIGN CHOICE, assumption 60). -/
def Link.nextPoll (x : Ctx) (p : PortId) (l : Link) : Link :=
  match l.port.remaining with
  | a :: rest =>
    if l.port.deadlinePassed ∨ l.port.busy then l
    else
      let l1 := l.sendPoll x p a false
      { l1 with port := { l1.port.figure (fun g => { g with listPolls := g.listPolls + 1 }) with remaining := rest } }
  | [] =>
    match l.probeDue p with
    | none => { l with port := l.port.endRound x }
    | some a =>
      if l.port.deadlinePassed ∨ l.port.busy then l
      else
        let l1 := l.sendPoll x p a true
        { l1 with port := { l1.port.figure (fun g => { g with probe := some a }) with
            probeCursor := a, probeDone := true } }

/-- A call is over: the target and the reply are gone, and the next poll may begin (R60, R61). After a deadline that
reported stations LATE the phase is then ENDED where no probe is due, else POLLING (DESIGN CHOICE, assumption 53). -/
def Link.endCall (x : Ctx) (p : PortId) (l : Link) : Link :=
  let pt := { l.port.markEnd x with phase := .polling, target := none, reply := none, fault := none }
  { l with port := pt }.nextPoll x p

/-- R65: the round deadline passes; every station not yet polled is reported LATE, and where there is one the round end is
this moment (DESIGN CHOICE, assumption 53). -/
def Link.deadline (x : Ctx) (p : PortId) (l : Link) : Link :=
  let late := l.port.remaining
  let l1 := { l with port := { l.port with deadlinePassed := true, remaining := [] } }
  if late = [] then l1
  else
    let l2 := l1.handAll x p .late late
    { l2 with port := l2.port.markEnd x }

/-- R68: no further poll is made under the supply warning; the stations not yet polled are reported. A call already
made goes on. With none the round is over now, also where the deadline had left nothing to report (DESIGN CHOICE,
assumption 48). -/
def Link.stopPolling (x : Ctx) (p : PortId) (l : Link) : Link :=
  let l1 := { l with port := { l.port with remaining := [], probeDone := true } }
  let l2 := l1.handAll x p .supply l.port.remaining
  if l2.port.target = none then { l2 with port := l2.port.endRound x } else l2

/-- R57, R68: the tag of FRAME has been sent in RUNNING: the list is taken and the round goes on, or ends under the
warning. -/
def Link.takeList (x : Ctx) (p : PortId) (l : Link) : Link :=
  let list := l.path.pollList p
  let l1 := { l with port := { l.port with sending := [], pollList := list, remaining := list, phase := .polling } }
  if l1.port.suppressed then l1.stopPolling x p
  else if l1.port.deadlinePassed then l1.deadline x p
  else l1.nextPoll x p

/-! ### The reply (R60 to R64, R67) -/

/-- The first fault of a reply in time stands (R61), also a LEADER or an ADDRESS that a framing error follows, where R62's
order could be read as giving FRAMING (DESIGN CHOICE, assumption 61). -/
def Port.withFault (pt : Port) (r : BadReason) : Port := { pt with fault := some (pt.fault.getD r) }

/-- R64: a bad bundle. -/
def Link.badBundle (x : Ctx) (p : PortId) (r : BadReason) (l : Link) : Link :=
  let l1 := { l with port := { l.port with check := countEvent l.port.check, lastReason := some r } }
  (l1.handListed x p .bad).endCall x p

/-- R63: a good bundle. -/
def Link.goodBundle (x : Ctx) (p : PortId) (t : Target) (b : Bundle) (l : Link) : Link :=
  let l1 := { l with port := l.port.figure fun g => { g with good := g.good + 1 } }
  (l1.hand x p t.probe (.good b) t.addr).endCall x p

/-- R62: a reply that END ended is checked. -/
def Link.finishReply (x : Ctx) (p : PortId) (l : Link) : Link :=
  let data := match l.port.reply with
    | some r => r.data
    | none => []
  match l.port.fault with
  | some r => l.badBundle x p r
  | none =>
    match bundleFault data (x.boundary.setWidth 8) with
    | some r => l.badBundle x p r
    | none =>
      match l.port.target with
      | some t => l.goodBundle x p t (Bundle.parse data)
      | none => l

/-- R61: the first character event of a reply. -/
def Link.firstEvent (x : Ctx) (p : PortId) (e : CharEvent) (l : Link) : Link :=
  let pt := { l.port with phase := .receiving, reply := some { leader := none, data := [] }, fault := none }
  match e with
  | .framing => { l with port := { pt with fault := some .framing, phase := .quieting } }
  | .data _ => { l with port := { pt with fault := some .leader } }
  | .control v =>
    match bundleAddress v with
    | some a =>
      { l with port := { pt with
          reply := some { leader := some a, data := [] },
          fault := if l.port.target.map Target.addr = some a then none else some .address } }
    | none =>
      let l1 := { l with port := { pt with fault := some .leader } }
      if v = endChar then l1.finishReply x p else l1

/-- R61: a later character event of a reply; a framing error after a LEADER or an ADDRESS leaves that fault as the first
(DESIGN CHOICE, assumption 61). -/
def Link.laterEvent (x : Ctx) (p : PortId) (e : CharEvent) (l : Link) : Link :=
  match e with
  | .framing => { l with port := { l.port.withFault .framing with phase := .quieting } }
  | .control v =>
    if v = endChar then l.finishReply x p
    else { l with port := { l.port.withFault .control with phase := .quieting } }
  | .data v =>
    match l.port.reply with
    | some r =>
      if r.data.length < 281 then { l with port := { l.port with reply := some { r with data := r.data ++ [v] } } }
      else { l with port := { l.port.withFault .length with phase := .quieting } }
    | none => { l with port := { l.port with reply := some { leader := none, data := [v] } } }

/-- R49: a character of the internal loopback compared with the one sent; it has been sent when it is received
(assumption 25). -/
def SelfTest.take (t : SelfTest) (e : CharEvent) : SelfTest :=
  let sent := max t.sent (t.received + 1)
  if t.received = 0 then { t with sent := sent, received := 1, leader := decide (e = .control testChar) }
  else if t.received ≤ 256 then
    if e = testStreamEvent (t.received - 1) then { t with sent := sent, received := t.received + 1, pass := t.pass + 1 }
    else { t with sent := sent, received := t.received + 1, mismatch := t.mismatch + 1 }
  else t

/-- R36, R60, R61, R67: a character event handed to the poll logic of a RUNNING port. -/
def Link.event (x : Ctx) (p : PortId) (e : CharEvent) (l : Link) : Link :=
  let l1 := if e = .framing then { l with port := { l.port with framing := countEvent l.port.framing } } else l
  match l.port.phase with
  | .awaiting => l1.firstEvent x p e
  | .receiving => l1.laterEvent x p e
  | .polling => { l1 with port := { l1.port with busy := true } }
  | .idle | .framing | .quieting | .ended => l1

/-- The receiver runs in RUNNING while the port is not transmitting (R36). -/
def Port.listening (pt : Port) : Bool := decide (pt.state = .running) && pt.sending.isEmpty

/-- R61, R67: no start of a character for 2 character times. In POLLING with the deadline passed nothing waits for it, and
the phase and the round end stay as they are (DESIGN CHOICE, assumption 53). -/
def Link.quiet (x : Ctx) (p : PortId) (l : Link) : Link :=
  match l.port.phase with
  | .receiving => l.badBundle x p (l.port.fault.getD .length)
  | .quieting => l.badBundle x p (l.port.fault.getD .length)
  | .polling =>
    if l.port.busy then
      let l1 := { l with port := { l.port with busy := false } }
      if l.port.deadlinePassed then l1 else l1.nextPoll x p
    else l
  | .idle | .framing | .awaiting | .ended => l

/-- R60: 24 character times with no reply begun. The reply window count stays at 24 until the next POLL or round begins,
which R56 leaves open (DESIGN CHOICE, assumption 59). -/
def Link.replyTimeout (x : Ctx) (p : PortId) (lineBusy : Bool) (l : Link) : Link :=
  let listed := match l.port.target with
    | some t => !t.probe
    | none => false
  let pt := { l.port with
    busy := lineBusy, window := 24, noReply := if listed then countEvent l.port.noReply else l.port.noReply }
  ({ l with port := pt }.handListed x p .noReply).endCall x p

/-! ### Leaving RUNNING (R41), STUCK and TRIPPED (R42, R44) -/

/-- The round has no call left to make or to end: the phase is ENDED, or POLLING after the deadline with no call under way,
the two in which a boundary too finds nothing to do (R66). That leaving RUNNING cuts the second no shorter than the first
is the model's (DESIGN CHOICE, assumption 54). -/
def Port.roundDone (pt : Port) : Bool :=
  decide (pt.phase = .ended) || (decide (pt.phase = .polling) && pt.deadlinePassed && decide (pt.target = none))

/-- R41: the round is stopped, every station that is not VACANT becomes LOST, and every station of the list not yet
reported is reported as not polled while RUNNING. A round that is done keeps its figures (R69); the round end of one cut
short is the moment of leaving (DESIGN CHOICE, assumption 54). The reply window count, which the spec leaves open outside
AWAITING, becomes 0 (DESIGN CHOICE, assumption 59). The state that follows is the caller's. -/
def Link.leaveRunning (x : Ctx) (p : PortId) (l : Link) : Link :=
  let called := match l.port.target with
    | some t => if t.probe then [] else [t.addr]
    | none => []
  let l1 := { l with path := l.path.portLost p }
  let l2 := l1.handAll x p .notRunning (called ++ l.port.remaining)
  { l2 with port := { (if l.port.roundDone then l2.port else l2.port.markEnd x) with
      phase := .idle, pollList := [], target := none, reply := none, fault := none, remaining := [],
      busy := false, sending := [], window := 0 } }

/-- R52: a mark of the port at the current frame, and attention cause PORT. -/
def Link.portMark (x : Ctx) (k : MarkKind) (l : Link) : Link :=
  { l with path := (l.path.mark x k x.frame).raise .port }

/-- R42: how many samples at the end of these 88 read 0 without a break; sample 87 is the last. -/
def lowTail (samples : BitVec 88) : Nat := if samples = 0 then 88 else 87 - samples.toNat.log2

/-- R42, R43: the samples of the line from a falling edge taken by the line supervisor: in RUNNING the low run is the whole
bit times that have read 0 since the last sample that read 1; in STUCK a sample that reads 0 clears the idle interval
flag. -/
def Port.sampled (pt : Port) (samples : BitVec 88) : Port :=
  let n := lowTail samples
  let p1 := { pt with lineLow := decide (0 < n) }
  match pt.state with
  | .running => { p1 with lowRun := n / 8, lowTicks := n % 8 * (pt.divisor + 1) }
  | .stuck => { p1 with idleFlag := pt.idleFlag && decide (samples = BitVec.allOnes 88) }
  | .disabled | .starting | .tripped | .testing => p1

/-- R42: a sample of the line that reads 1. -/
def Port.lineHigh (pt : Port) : Port :=
  if pt.state = .running then { pt with lowRun := 0, lineLow := false, lowTicks := 0 } else { pt with lineLow := false }

/-- R42, R43: one tick of the line supervisor on a line that reads 0: in RUNNING each whole bit time of them adds one to
the low run, and in STUCK the idle interval flag is cleared. -/
def Port.superviseTick (pt : Port) : Port :=
  if pt.lineLow then
    match pt.state with
    | .running =>
      if pt.lowTicks + 1 < bitTicks pt.divisor then { pt with lowTicks := pt.lowTicks + 1 }
      else { pt with lowTicks := 0, lowRun := min 4096 (pt.lowRun + 1) }
    | .stuck => { pt with idleFlag := false }
    | .disabled | .starting | .tripped | .testing => pt
  else pt

/-- R42: the low run has reached 4,096 in RUNNING. -/
def Port.lineStuck (pt : Port) : Bool := decide (pt.state = .running) && decide (4096 ≤ pt.lowRun)

/-- R42: the low run reaches 4,096. PORT_FAULT stands after the marks that the reports of R41 make at the same moment, an
order that R125 leaves open (DESIGN CHOICE, assumption 57). -/
def Link.stick (x : Ctx) (p : PortId) (l : Link) : Link :=
  let l1 := l.leaveRunning x p
  { l1 with port := { l1.port.enter .stuck with
      lowRun := 4096, stuck := countEvent l1.port.stuck, idleFlag := false } }.portMark x (.portFault p .stuck)

/-- R44: overcurrent. PORT_FAULT stands after the marks that the reports of R41 make at the same moment, an order that
R125 leaves open (DESIGN CHOICE, assumption 57). -/
def Link.trip (x : Ctx) (p : PortId) (l : Link) : Link :=
  let l1 := if l.port.state = .running then l.leaveRunning x p else l
  { l1 with port := { l1.port.enter .tripped with
      starting := 0, cooldown := 125, idleFlag := false, sending := [] } }.portMark x (.portFault p .tripped)

/-! ### The boundary (R45, R47, R40, R43, R49, R57, R66) -/

/-- Whether a control pending takes the port out of RUNNING (R47). -/
def Port.powerOffPending (pt : Port) : Bool :=
  match pt.control with
  | some c => decide (c.power = .off) || decide (c.power = .offThenOn)
  | none => false

/-- R66: the call that the boundary meets, by its phase. R66 gives the boundary as the round end "when a call was cut" and
says "nothing" for a PROBE in AWAITING: that this call, or a PROBE still being sent, counts as cut for the round end
alone is the model's (DESIGN CHOICE, assumption 58). -/
def Link.cutCall (x : Ctx) (p : PortId) (l : Link) : Link :=
  match l.port.phase with
  | .receiving =>
    let l1 := l.handListed x p .late
    { l1 with port := { l1.port.markEnd x with lateCut := countEvent l1.port.lateCut } }
  | .quieting =>
    let l1 := { l with port := { l.port with
      check := countEvent l.port.check, lastReason := some (l.port.fault.getD .length) } }
    let l2 := l1.handListed x p .bad
    { l2 with port := l2.port.markEnd x }
  | .awaiting =>
    let l1 := l.handListed x p .late
    { l1 with port := l1.port.markEnd x }
  | .polling =>
    if l.port.target = none then l
    else
      let l1 := l.handListed x p .late
      { l1 with port := l1.port.markEnd x }
  | .idle | .framing | .ended => l

/-- The end of the round that a boundary ends, `x` standing in the interval that ends: R41 where a pending power OFF
takes the port out of RUNNING, else R65 for what the deadline had not yet reported, and R66. -/
def Link.roundOver (x : Ctx) (p : PortId) (l : Link) : Link :=
  if l.port.state = .running then
    if l.port.powerOffPending then l.leaveRunning x p
    else (if l.port.deadlinePassed then l else l.deadline x p).cutCall x p
  else l

/-- The result that a self-test ends with at a boundary, for its cell (R49). -/
def Port.selfTestResult (pt : Port) : Option (Fin 16 × Result) :=
  match pt.state, pt.selfTest with
  | .testing, some t => some (t.cell, Result.mk3 .done t.pass t.mismatch (bit t.leader))
  | _, _ => none

/-- R49: the boundary ends a self-test. -/
def Port.endSelfTest (pt : Port) : Port :=
  match pt.state with
  | .testing => { pt.enter .disabled with selfTest := none, sending := [] }
  | .disabled | .starting | .running | .stuck | .tripped => pt

/-- The OFF of a control pending (R47). -/
def Port.applyOff (pt : Port) (c : Control) : Port :=
  match c.power with
  | .off | .offThenOn => if pt.state = .disabled then pt else pt.disable
  | .keep | .on => pt

/-- The divisor of a control pending, applied in DISABLED (R47). -/
def Port.applyDivisor (pt : Port) (c : Control) : Port :=
  match c.divisor with
  | some d => if pt.state = .disabled then { pt with divisor := d } else pt
  | none => pt

/-- Whether the ON of a control pending starts the port (R47). -/
def Port.startsOn (pt : Port) (c : Control) : Bool :=
  (decide (c.power = .on) || decide (c.power = .offThenOn)) && decide (pt.cooldown = 0)
    && (decide (pt.state = .disabled) || decide (pt.state = .tripped))

/-- R47: the control pending applied and removed; the answer's second part says that STARTING was entered. -/
def Port.applyControl (pt : Port) : Port × Bool :=
  match pt.control with
  | none => (pt, false)
  | some c =>
    let p1 := ({ pt with control := none }.applyOff c).applyDivisor c
    if p1.startsOn c then (p1.start, true) else (p1, false)

/-- R40, R43: the port's own boundary work; the answer's second part says that RUNNING was entered. A line that has read 0
up to the boundary has cleared the idle interval flag of the interval that ends (assumption 23). -/
def Port.ownWork (pt : Port) : Port × Bool :=
  match pt.state with
  | .starting =>
    if pt.starting ≤ 1 then ({ pt.enter .running with starting := 0, lowRun := 0, lowTicks := 0 }, true)
    else ({ pt with starting := pt.starting - 1 }, false)
  | .stuck => if pt.idleFlag && !pt.lineLow then (pt.start, false) else ({ pt with idleFlag := true }, false)
  | .disabled | .running | .tripped | .testing => (pt, false)

/-- R37, R57: what the port sends as the interval begins, the round begun in RUNNING. -/
def Port.beginInterval (pt : Port) (x : Ctx) : Port :=
  match pt.state with
  | .running => pt.beginRound x
  | .starting =>
    { pt with phase := .idle, current := none, ranRound := false, sending := frameCharacters x.boundary, txTicks := 0 }
  | .disabled | .stuck | .tripped | .testing =>
    { pt with phase := .idle, current := none, ranRound := false, sending := [], txTicks := 0 }

/-- The port's own part of its boundary work, `x` standing in the interval that begins: the self-test's end, the
cooldown, the control pending, R40 and R43, the figures latched; the answer's second part says that RUNNING was
entered. -/
def Port.boundaryWork (pt : Port) (x : Ctx) : Port × Bool :=
  let p1 := pt.endSelfTest
  let p2 := { p1 with cooldown := p1.cooldown - 1 }
  let c := p2.applyControl
  let w := if c.2 then (c.1, false) else c.1.ownWork
  let p3 := { w.1 with figures := w.1.current.getD Figures.reset }
  (p3.beginInterval x, w.2)

/-- The port's boundary work, with PORT_RESTORED at an entry into RUNNING (R52). -/
def Link.boundaryWork (x : Ctx) (p : PortId) (l : Link) : Link :=
  let r := l.port.boundaryWork x
  let l1 := { l with port := r.1 }
  if r.2 then l1.portMark x (.portRestored p) else l1

/-- The port and the path of a state. -/
def State.link (s : State) (p : PortId) : Link := { port := s.port p, path := s.path }

/-- A port and the path put back into a state. -/
def State.withLink (s : State) (p : PortId) (l : Link) : State := { s with path := l.path }.setPort p l.port

end Sys2Proof.Machine
end

