-- ==== Sys2Proof/Machine/Formats.lean ====
section
/-! DEFINITION. The bytes that the part writes into host memory: items, sheet headers, result areas, state words, pool
status words, the Directory head and the panels (R167 to R170). -/
namespace Sys2Proof.Machine

/-- All ones in 32 bits where a frame is absent (R170). -/
def frameOrOnes : Option Nat → Nat
  | some f => f
  | none => 4294967295

/-! ### Items (R167, R168) -/

/-- A sample block (R167). -/
def SampleBlock.bytes (b : SampleBlock) : List Byte :=
  let total := pad4 (16 + 2 * b.samples.length)
  padTo total
    (leBytes 1 1 ++ leBytes 1 (bit b.economy + 2 * bit b.clip) ++ leBytes 2 total ++ leBytes 4 b.frame
      ++ leBytes 1 b.track.val ++ leBytes 1 b.samples.length ++ leBytes 1 b.delivered ++ leBytes 1 b.contributors
      ++ zeros 4 ++ b.samples.flatMap leSigned)

/-- A void run block (R167). -/
def VoidRun.bytes (track : Fin 33) (r : VoidRun) : List Byte :=
  leBytes 1 2 ++ leBytes 1 r.cause.code ++ leBytes 2 16 ++ leBytes 4 r.first ++ leBytes 1 track.val ++ leBytes 1 0
    ++ leBytes 2 r.length ++ leBytes 4 r.tail

/-- A mark's kind code (R168). -/
def MarkKind.code : MarkKind → Nat
  | .sittingOpen _ => 1 | .sittingClose _ => 2 | .onRecord => 3 | .offRecord => 4 | .privacyBegin _ _ => 5
  | .privacyEnd _ _ => 6 | .privacyRefused _ => 7 | .barSet _ => 8 | .barCleared _ => 9 | .floorBegin _ _ => 10
  | .floorEnd _ _ => 11 | .stationJoined _ _ => 12 | .stationLost _ _ => 13 | .stationReplaced _ _ _ => 14
  | .stationDrift _ _ => 15 | .economyBegin _ => 16 | .economyEnd _ => 17 | .portFault _ _ => 18
  | .portRestored _ => 19 | .powerDip _ _ => 20 | .clockSet _ _ => 21 | .trimSet _ _ => 22 | .hostMark _ _ _ => 23
  | .marksWithheld _ => 24

/-- Close reason code of SITTING_CLOSE (R168). -/
def CloseReason.code : CloseReason → Nat
  | .request => 1 | .limit => 2

/-- Source code of PRIVACY_BEGIN (R168). -/
def PrivacySource.code : PrivacySource → Nat
  | .station => 1 | .benchDesk => 2 | .both => 3

/-- Cause code of PRIVACY_END (R168). -/
def PrivacyEndCause.code : PrivacyEndCause → Nat
  | .released => 1 | .barred => 2

/-- Kind code of PORT_FAULT (R168). -/
def PortFaultKind.code : PortFaultKind → Nat
  | .stuck => 1 | .tripped => 2

/-- A mark's payload, from offset 16, before padding (R168). The bytes between its fields, 17 … 19 of FLOOR_BEGIN and
FLOOR_END and 17 of STATION_DRIFT, to which R168 gives no value, are 0 (DESIGN CHOICE, assumption 64). -/
def MarkKind.payload : MarkKind → List Byte
  | .sittingOpen n => leBytes 4 n.toNat
  | .sittingClose r => leBytes 1 r.code
  | .onRecord | .offRecord => []
  | .privacyBegin c src => leBytes 1 c.val ++ leBytes 1 src.code
  | .privacyEnd c cause => leBytes 1 c.val ++ leBytes 1 cause.code
  | .privacyRefused c | .barSet c | .barCleared c => leBytes 1 c.val
  | .floorBegin c f | .floorEnd c f => leBytes 1 c.val ++ zeros 3 ++ leBytes 4 f
  | .stationJoined k u | .stationLost k u => leBytes 1 k.val ++ leBytes 3 u.toNat
  | .stationReplaced k old new => leBytes 1 k.val ++ leBytes 3 old.toNat ++ leBytes 3 new.toNat
  | .stationDrift c slip => leBytes 1 c.val ++ zeros 1 ++ leSigned slip
  | .economyBegin t | .economyEnd t => leBytes 1 t.val
  | .portFault p k => leBytes 1 (portNumber p) ++ leBytes 1 k.code
  | .portRestored p => leBytes 1 (portNumber p)
  | .powerDip first last => leBytes 4 first ++ leBytes 4 last
  | .clockSet old new => leBytes 8 old.toNat ++ leBytes 8 new.toNat
  | .trimSet old new => leBytes 4 old ++ leBytes 4 new
  | .hostMark code length text => leBytes 2 code.toNat ++ leBytes 1 length.toNat ++ text
  | .marksWithheld n => leBytes 4 n

/-- A mark (R168). -/
def Mark.bytes (m : Mark) : List Byte :=
  padTo m.kind.size
    (leBytes 1 3 ++ leBytes 1 m.kind.code ++ leBytes 2 m.kind.size ++ leBytes 4 m.frame ++ leBytes 8 m.time.toNat
      ++ m.kind.payload)

/-- An item as it is written into a sheet (R167, R168). -/
def Item.bytes : Item → List Byte
  | .sample b => b.bytes
  | .voidRun t r => r.bytes t
  | .mark m => m.bytes

/-! ### Sheets and the pool (R169, R170) -/

/-- The pool status codes of R169. -/
inductive PoolStatus where
  | free | standby | writing | closed | faulted
  deriving DecidableEq, Repr

/-- R169, a pool entry's status. -/
def PoolStatus.code : PoolStatus → Nat
  | .free => 1 | .standby => 2 | .writing => 3 | .closed => 4 | .faulted => 5

/-- The 4-byte status word of a pool entry (R169). -/
def statusBytes (p : PoolStatus) (track serial : Nat) : List Byte :=
  leBytes 1 p.code ++ leBytes 1 track ++ leBytes 2 serial

/-- A sheet header as it stands now (R139, R170). -/
def headerBytes (s : State) (t : Fin 34) (o : OpenSheet) (reason : SheetReason) (sheetSize : Nat) : List Byte :=
  leBytes 1 t.val ++ leBytes 1 reason.code ++ leBytes 2 o.serial ++ leBytes 4 s.sitting.number.toNat
    ++ leBytes 8 s.sitting.openedAt.toNat ++ leBytes 4 o.used ++ leBytes 4 o.blocks
    ++ leBytes 4 (frameOrOnes o.first) ++ leBytes 4 (frameOrOnes o.last) ++ leBytes 4 o.opened
    ++ leBytes 4 (frameOrOnes (s.sitting.close.map CloseTarget.last)) ++ leBytes 8 s.timer.tod.toNat
    ++ leBytes 4 (statusWord s) ++ leBytes 4 sheetSize ++ leBytes 2 o.index.val ++ zeros 6

/-! ### The request board (R155, R169) -/

/-- The first completion write, offsets 32 … 63 of the cell, as it stands now (R155, R169). -/
def resultBytes (s : State) (a : Answer) : List Byte :=
  leBytes 2 a.result.code.code ++ leBytes 2 a.tag.toNat ++ leBytes 4 a.result.w0.toNat ++ leBytes 4 a.result.w1.toNat
    ++ leBytes 4 a.result.w2.toNat ++ leBytes 8 s.timer.boundary.toNat ++ leBytes 4 (statusWord s) ++ zeros 4

/-- The state word TAKEN (R169). -/
def takenBytes : List Byte := leBytes 4 2

/-- The state word that ends a cell: DONE or REFUSED (R155, R169). -/
def stateBytes (a : Answer) : List Byte := leBytes 4 (if a.result.code.isDone then 3 else 4)

/-- The address of a cell in host memory (R169). -/
def Bus.cellAddress (b : Bus) (c : Fin 16) : Word64 := b.directory + BitVec.ofNat 64 (0x100 + 64 * c.val)

/-! ### The head and the panels (R157, R159, R170) -/

/-- The Directory head as it stands now: 64 bytes (R157, R170). -/
def headBytes (s : State) : List Byte :=
  leBytes 4 (statusWord s) ++ leBytes 4 s.frame ++ leBytes 8 s.timer.boundary.toNat ++ leBytes 8 s.timer.tod.toNat
    ++ leBytes 8 s.sitting.openedAt.toNat ++ leBytes 4 s.sitting.number.toNat
    ++ leBytes 4 (frameOrOnes s.sitting.lastFrame) ++ leBytes 4 s.timer.interval ++ leBytes 4 s.writer.queue.length
    ++ leBytes 4 s.writer.closedTotal ++ leBytes 4 s.path.fcu.mixClips ++ leBytes 4 s.bus.busFaults ++ zeros 4

/-- A channel panel entry: 16 bytes (R170). Bits 6 and 7 of byte 0, to which R170 gives no value, are 0 (DESIGN CHOICE,
assumption 65). -/
def channelPanel (s : State) (c : Fin 32) : List Byte :=
  let ch := s.path.channels[c]
  let fl := s.path.fcu.floors[c]
  let mic := s.path.stations[stationOf c].mics[micOf c]
  leBytes 1 (bit ch.seated + 2 * bit ch.privacy + 4 * bit ch.settings.privacy + 8 * bit ch.settings.bar
      + 16 * bit fl.speaking + 32 * bit mic.drift)
    ++ leBytes 1 ch.lamp.code ++ leBytes 2 fl.lastPeak ++ leBytes 2 ch.clips ++ leSigned mic.slip
    ++ leBytes 4 ch.captured ++ leBytes 4 ch.voids

/-- A unit number, 0 when absent (R170). -/
def unitOrZero : Option (BitVec 24) → Nat
  | some u => u.toNat
  | none => 0

/-- A station panel entry: 16 bytes (R170). Bits 4 … 7 of byte 8, to which R170 gives no value, are 0 (DESIGN CHOICE,
assumption 65). -/
def stationPanel (s : State) (k : Fin 16) : List Byte :=
  let st := s.path.stations[k]
  leBytes 1 st.state.code ++ leBytes 1 (LostCause.code st.lostCause) ++ leBytes 1 st.goodRun ++ leBytes 1 st.missRun
    ++ leBytes 3 (unitOrZero st.unit) ++ zeros 1
    ++ leBytes 1 (bit st.mics[0].button + 2 * bit st.mics[1].button + 4 * bit st.mics[0].present
      + 8 * bit st.mics[1].present)
    ++ zeros 7

/-- The probe address shown, 0xFF for none (R170). -/
def probeOrOnes : Option (Fin 8) → Nat
  | some a => a.val
  | none => 255

/-- A port panel entry: 64 bytes (R170). -/
def portPanel (s : State) (p : PortId) : List Byte :=
  let pt := s.port p
  leBytes 1 pt.state.code ++ leBytes 1 pt.divisor ++ leBytes 1 pt.starting ++ leBytes 1 pt.cooldown
    ++ leBytes 2 pt.framing ++ leBytes 2 pt.check ++ leBytes 2 pt.noReply ++ leBytes 2 pt.lateCut ++ leBytes 2 pt.stuck
    ++ leBytes 1 pt.figures.listPolls ++ leBytes 1 pt.figures.good ++ leBytes 1 (probeOrOnes pt.figures.probe)
    ++ leBytes 1 (BadReason.code pt.lastReason) ++ leBytes 2 pt.figures.roundEnd ++ zeros 44

/-- A panel entry as it stands now, in the order of R152: channels 0 … 31, stations 0 … 15, ports A and B. -/
def panelBytes (s : State) (e : Fin 50) : List Byte :=
  if h : e.val < 32 then channelPanel s ⟨e.val, h⟩
  else if h : e.val < 48 then stationPanel s ⟨e.val - 32, by omega⟩
  else portPanel s (if e.val = 48 then .a else .b)

/-- The offset of a panel entry in the Directory (R170). -/
def panelOffset (e : Fin 50) : Nat :=
  if e.val < 32 then 0x500 + 16 * e.val
  else if e.val < 48 then 0x700 + 16 * (e.val - 32)
  else 0x800 + 64 * (e.val - 48)

end Sys2Proof.Machine
end

