-- ==== Sys2Proof/Machine/Scanner.lean ====
section
/-! DEFINITION. The Directory Scanner: how a scan begins and goes from cell to cell, to the pool, the head and the
panels, and how a request is answered or held (R133, R151 to R159). -/
namespace Sys2Proof.Machine

/-! ### The held-cell set (R151, R153) -/

/-- The held entry of a cell, if the cell is in the set. -/
def Scanner.heldAt (sc : Scanner) (c : Fin 16) : Option Held := sc.held.find? fun h => decide (h.cell = c)

/-- The cell taken out of the set. -/
def Scanner.drop (sc : Scanner) (c : Fin 16) : Scanner :=
  { sc with held := sc.held.filter fun h => decide (h.cell ≠ c) }

/-- An entry put into the set in place of any of the same cell. -/
def Scanner.keep (sc : Scanner) (h : Held) : Scanner := { sc.drop h.cell with held := (sc.drop h.cell).held ++ [h] }

/-- The result that an owning block hands back for a held cell (R151). -/
def Scanner.finish (sc : Scanner) (c : Fin 16) (r : Result) : Scanner :=
  { sc with held := sc.held.map fun h => if h.cell = c then { h with result := some r } else h }

/-- One result handed back for several held cells. -/
def Scanner.finishAll (sc : Scanner) (cs : List (Fin 16)) (r : Result) : Scanner :=
  cs.foldl (fun sc c => sc.finish c r) sc

/-- Whether the board step does nothing at a cell: it is held and not yet due (R153). -/
def Scanner.passes (sc : Scanner) (c : Fin 16) : Bool :=
  match sc.heldAt c with
  | some h => !(h.due && h.result.isSome)
  | none => false

/-! ### The order of a scan (R152) -/

/-- Step 3: the head's write is issued with the values standing now (R157). -/
def State.startHead (s : State) : Scanner := { s.scan with step := .head (headBytes s) }

/-- A panel entry's write is issued with the values standing now (R159). -/
def State.startPanel (s : State) (e : Fin 50) : Scanner := { s.scan with step := .panel e (panelBytes s e) }

/-- The pool scan goes on after `count` entries read, or ends: the next entry is read while fewer than pool count
entries have been read and the queue holds fewer than 64 (R133). -/
def State.poolNext (s : State) (count : Nat) : Scanner :=
  match s.writer.arming with
  | some a =>
    if count < a.poolCount ∧ s.writer.queue.length < 64 then { s.scan with step := .poolRead count } else s.startHead
  | none => s.startHead

/-- Step 2, when R133 allows it: an arming was in force at the boundary that began the scan and still is. -/
def State.startPool (s : State) : Scanner := if s.scan.poolDue then s.poolNext 0 else s.startHead

/-- The completion of a cell begins: the result area is written with the values standing now (R155). -/
def State.startCompletion (s : State) (c : Fin 16) (a : Answer) : Scanner :=
  { s.scan with cursor := c, step := .resultWrite a (resultBytes s a) }

/-- Step 1 from cell `i` onward: the first cell that is not passed over is completed when it is held and due, else
read (R153); after cell 15 the pool scan. The cursor is the cell handled; where none is left it keeps the last one handled,
through the rest of the scan and until the next, or 0 where all were passed over, which R151 leaves open (DESIGN CHOICE,
assumption 66). -/
def State.boardFrom (s : State) (i : Nat) : Scanner :=
  match (List.finRange 16).find? fun c => decide (i ≤ c.val) && !s.scan.passes c with
  | none => s.startPool
  | some c =>
    match s.scan.heldAt c with
    | some h =>
      match h.result with
      | some r => s.startCompletion c { kind := h.kind, tag := h.tag, result := r }
      | none => s.startPool
    | none => { s.scan with cursor := c, step := .cell }

/-- The board step goes on after the cell at the cursor. -/
def State.nextCell (s : State) : State := { s with scan := s.boardFrom (s.scan.cursor.val + 1) }

/-- R151: a scan begins at a boundary that finds no scan in progress; the held cells whose result stands are due in
it. -/
def State.beginScan (s : State) : State :=
  let sc : Scanner :=
    { s.scan with
      cursor := 0, poolDue := s.writer.arming.isSome,
      held := s.scan.held.map fun h => { h with due := h.result.isSome } }
  { s with scan := if s.scan.step = .idle then { s with scan := sc }.boardFrom 0 else s.scan }

/-! ### Taking and answering (R154, R155) -/

/-- How an owning block answers a request (R154): at once, or held, with the result already standing when the block
has finished. -/
inductive Taken where
  | short (r : Result)
  | long (r : Option Result)
  deriving DecidableEq, Repr

/-- A short answer: the completion of the cell at the cursor begins at once (R154). -/
def State.answer (s : State) (tag kind : Word16) (r : Result) : State :=
  { s with scan := s.startCompletion s.scan.cursor { kind := kind, tag := tag, result := r } }

/-- A long answer: the cell at the cursor is held and TAKEN is written (R154). -/
def State.hold (s : State) (tag kind : Word16) (r : Option Result) : State :=
  { s with scan := { s.scan.keep { cell := s.scan.cursor, kind := kind, tag := tag, result := r, due := false } with
      step := .takenWrite } }

/-- A request of the table taken by its owning block (R154): it acts when it is the request that the scanner read
from the cell at its cursor, and on the state that stands then. -/
def State.take (s : State) (request : Instr) (owner : State → State × Taken) : State :=
  match s.scan.step with
  | .taking tag i =>
    if i = request then
      let r := owner s
      match r.2 with
      | .short res => r.1.answer tag (requestKind request) res
      | .long res => r.1.hold tag (requestKind request) res
    else s
  | _ => s

/-! ### Bus writes of the part (assumption 9) -/

/-- An acknowledged write of the part at an address of host memory. -/
def State.write (s : State) (a : Word64) (bytes : List Byte) : State :=
  { s with hostMem := memWrite a bytes s.hostMem }

/-- The end of a bus write: its bytes stand in host memory, or the failure is counted (R148, R156). -/
def State.writeEnds (s : State) (how : WriteEnd) (a : Word64) (bytes : List Byte) : State :=
  match how with
  | .done => s.write a bytes
  | .failed => s.accessFailed

end Sys2Proof.Machine
end

