-- ==== Sys2Proof/Machine/Writer.lean ====
section
/-! DEFINITION. The Record Writer: closes due, turns, the release of an item, the starving set, flushes, the discard of
ABANDON STAGED and the end of a sitting (R131 to R146, R14, R16, R123, R127, R129). -/
namespace Sys2Proof.Machine

/-- The open-sheet record of a track replaced. -/
def Writer.setSheet (w : Writer) (t : Fin 34) (o : Option OpenSheet) : Writer :=
  { w with sheets := w.sheets.set t.val o t.isLt }

/-- The ownership of a pool index replaced. -/
def Writer.setOwner (w : Writer) (i : Fin 256) (o : Owner) : Writer :=
  { w with owner := w.owner.set i.val o i.isLt }

/-- Where a sheet begins: its address with the low 6 bits taken as 0 (R132). -/
def sheetBase (a : Word64) : Word64 := a &&& ~~~63#64

/-- The room for items of a sheet (R137). -/
def Arming.room (a : Arming) : Nat := a.sheetSize - 64

/-! ### Closes due (R137, R140, R143, R144; assumption 27) -/

/-- The run of a track's owner; track 33 has none (R142). -/
def Path.runOfTrack (p : Path) (t : Fin 34) : Option VoidRun :=
  if h : t.val < 33 then p.runOf ⟨t.val, h⟩ else none

/-- The close due of a track's open sheet, with its reason: FULL, then a pending close whose drain point is 0, then POWER,
which DRAINING leaves to R144 (R137, R140, R143). -/
def State.closeDue (s : State) (t : Fin 34) : Option SheetReason :=
  match s.writer.sheets[t] with
  | none => none
  | some o =>
    if o.fullDue then some .full
    else
      match o.pend.filter fun p => decide (p.drain = 0) with
      | some p => some p.reason
      | none => if o.powerDue && !s.sitting.draining then some .power else none

/-- R143, R144: the close that falls due on a track's open sheet whose bay holds no item, where none is due: SITTING_CLOSED
in DRAINING once no run and no SITTING_CLOSE is held, POWER under the warning elsewhere. It stands until the sheet is
closed. -/
def State.setEmptyClose (s : State) (t : Fin 34) : State :=
  match s.writer.sheets[t] with
  | none => s
  | some o =>
    if s.path.bays.bay[t].items = [] ∧ s.closeDue t = none then
      if s.sitting.draining then
        if s.path.runOfTrack t = none ∧ (t.val < 33 ∨ s.sitting.finalMark = none) then
          { s with writer := s.writer.setSheet t (some { o with pend := some { reason := .sittingClosed, drain := 0 } }) }
        else s
      else if s.supply.warning then { s with writer := s.writer.setSheet t (some { o with powerDue := true }) }
      else s
    else s

/-- R143, R144 on every track. -/
def State.setEmptyCloses (s : State) : State := (List.finRange 34).foldl State.setEmptyClose s

/-! ### Turns (R135 to R137) -/

/-- R135: whether a track is ready for a turn. -/
def State.ready (s : State) (t : Fin 34) : Bool :=
  (s.closeDue t).isSome
    || (!s.path.bays.bay[t].items.isEmpty && (s.writer.sheets[t].isSome || !s.writer.queue.isEmpty))

/-- R135: the track that the next turn serves. -/
def State.nextTrack (s : State) : Option (Fin 34) :=
  if s.supply.warning ∧ s.writer.lastServed ≠ markTrack ∧ s.ready markTrack then some markTrack
  else ((List.range 34).map fun i => Fin.ofNat 34 (s.writer.lastServed.val + 1 + i)).find? s.ready

/-- The turn in progress replaced. -/
def State.setTurn (s : State) (t : Option Turn) : State := { s with writer := { s.writer with turn := t } }

/-- R139: the header's write is issued with the values standing now. -/
def State.startHeader (s : State) (t : Fin 34) (o : OpenSheet) (reason : SheetReason) : State :=
  let size := match s.writer.arming with
    | some a => a.sheetSize
    | none => 0
  s.setTurn (some { track := t, write := .header reason (headerBytes s t o reason size) })

/-- R137: the head item's write is begun when it fits the open sheet, else FULL becomes due; the turn ends when
nothing is written. -/
def State.startItem (s : State) (t : Fin 34) : State :=
  match s.writer.arming, s.writer.sheets[t], s.path.bays.bay[t].items with
  | some a, some o, i :: _ =>
    if o.used + i.size ≤ a.room then s.setTurn (some { track := t, write := .item })
    else { s with writer := { s.writer.setSheet t (some { o with fullDue := true }) with turn := none } }
  | _, _, _ => s.setTurn none

/-- R135, R136, R139: a turn for track `t` begins. -/
def State.serve (s : State) (t : Fin 34) : State :=
  let s1 := { s with writer := { s.writer with lastServed := t } }
  match s1.writer.sheets[t], s1.closeDue t with
  | some o, some reason => s1.startHeader t o reason
  | some _, none => s1.startItem t
  | none, _ =>
    match s1.writer.queue with
    | q :: rest => { s1 with writer := { s1.writer with queue := rest, turn := some { track := t, write := .writing q } } }
    | [] => s1

/-- R136: the open-sheet record of a sheet whose WRITING write is done. -/
def OpenSheet.start (q : Queued) (serial frame : Nat) : OpenSheet :=
  { index := q.index, address := q.address, serial := serial, used := 0, blocks := 0, first := none, last := none,
    opened := frame, pend := none, fullDue := false, powerDue := false }

/-- R136: a sheet opened for track `t`. -/
def Writer.opened (w : Writer) (t : Fin 34) (q : Queued) (frame : Nat) : Writer :=
  let w1 := (w.setOwner q.index (.writing t)).setSheet t (some (OpenSheet.start q w.serials[t] frame))
  { w1 with serials := w1.serials.set t.val ((w.serials[t] + 1) % 65536) t.isLt }

/-- R137, R140: the open-sheet record after an acknowledged item. -/
def OpenSheet.wrote (o : OpenSheet) (i : Item) : OpenSheet :=
  { o with
    used := o.used + i.size, blocks := o.blocks + 1, first := some (o.first.getD i.frame), last := some i.frame,
    pend := o.pend.map fun p => { p with drain := p.drain - 1 } }

/-- R146: a done write of a track lowers its remaining count. -/
def Flush.wrote (f : Flush) (t : Fin 34) : Flush :=
  { f with remaining := f.remaining.set t.val (f.remaining[t] - 1) t.isLt }

/-- R146: a sheet ended leaves the flush's set, counted when it was closed with reason FLUSH; a sheet whose CLOSED write
failed is handed here as ended by a fault and not counted (DESIGN CHOICE, assumption 52). -/
def Flush.ended (f : Flush) (o : OpenSheet) (reason : SheetReason) : Flush :=
  let id : SheetId := { index := o.index, serial := o.serial }
  { f with
    sheets := f.sheets.filter fun i => decide (i ≠ id)
    closed := if reason = .flush ∧ id ∈ f.sheets then f.closed + 1 else f.closed }

/-- R139, R141: a track's sheet ended: the map forgets its index, the record and any flush's hold on it are gone. -/
def Writer.sheetEnded (w : Writer) (t : Fin 34) (o : OpenSheet) (reason : SheetReason) : Writer :=
  { (w.setOwner o.index .notHeld).setSheet t none with flush := w.flush.map fun f => f.ended o reason }

/-! ### Release and what it hands on (R123, R100, R127, R14) -/

/-- R123: the oldest item of a bay released. -/
def Path.release (p : Path) (t : Fin 34) : Path :=
  { p with bays := p.bays.set t { p.bays.bay[t] with items := p.bays.bay[t].items.drop 1 } }

/-- R14: a held SITTING_CLOSE is admitted once the withheld count is 0 and it fits. -/
def State.offerFinal (s : State) : State :=
  match s.sitting.finalMark with
  | none => s
  | some m =>
    if s.path.bays.withheld = 0 then
      match s.path.bays.place m with
      | some bs =>
        { s with path := { s.path with bays := bs }, sitting := { s.sitting with finalMark := none } }
      | none => s
    else s

/-- R123: the release of a track's head item handed to the owner of work that waits for room. -/
def State.handRelease (s : State) (t : Fin 34) : State :=
  let p := s.path.release t
  if h : t.val < 33 then { s with path := p.offerHeld ⟨t.val, h⟩ }
  else { s with path := { p with bays := p.bays.countMark s.ctx } }.offerFinal

/-- R123, R143, R144: a release, and the close that it makes due where it leaves the bay empty. -/
def State.released (s : State) (t : Fin 34) : State := (s.handRelease t).setEmptyClose t

/-! ### Starvation (R145) -/

/-- The three conditions of R145. -/
def State.starves (s : State) (t : Fin 34) : Bool :=
  !s.path.bays.bay[t].items.isEmpty && s.writer.sheets[t].isNone && s.writer.queue.isEmpty

/-- R145: the starving set brought up to date, STARVING raised where a track enters it. -/
def State.refresh (s : State) : State :=
  let now : Vector Bool 34 := Vector.ofFn s.starves
  let entered := (List.finRange 34).any fun t => now[t] && !s.writer.starving[t]
  { s with
    writer := { s.writer with starving := now }
    path := if entered then s.path.raise .starving else s.path }

/-! ### ABANDON STAGED (R16, R129, R144) -/

/-- The bytes of a class of bays with 16 for each pending void run of theirs (R129). -/
def Path.stagedBytes (p : Path) (ts : List (Fin 33)) : Nat :=
  (ts.map fun t => p.bays.bay[trackOf t].fill + if (p.runOf t).isSome then 16 else 0).sum

/-- R129: what the discard counts. -/
def State.discardCounts (s : State) : Discarded :=
  { channels := s.path.stagedBytes ((List.finRange 32).map soundTrack)
    mix := s.path.stagedBytes [mixTrack]
    marks := s.path.bays.bay[markTrack].fill + if s.sitting.finalMark.isSome then 20 else 0 }

/-- R129: every bay and run emptied, the withheld count 0; economy flags and partition stand. -/
def Path.discardStaged (p : Path) : Path :=
  { p with
    channels := p.channels.map fun ch => { ch with run := none }
    fcu := { p.fcu with mixRun := none }
    bays := { p.bays with withheld := 0, bay := p.bays.bay.map fun b => { b with items := [] } } }

/-- R144: the sheet is due to be closed with reason SITTING_CLOSED, any other close removed. -/
def OpenSheet.abandoned (o : OpenSheet) : OpenSheet :=
  { o with pend := some { reason := .sittingClosed, drain := 0 }, fullDue := false, powerDue := false }

/-- R144, R146: every open sheet is due to be closed, every remaining count of a flush is 0. A flush that was complete
before the discard keeps its result, also for a FLUSH that joins it afterwards (DESIGN CHOICE, assumption 56). -/
def Writer.discardStaged (w : Writer) : Writer :=
  { w with
    sheets := w.sheets.map fun o => o.map OpenSheet.abandoned
    flush := w.flush.map fun f => { f with
      remaining := Vector.replicate 34 0, abandoned := f.abandoned || !f.complete } }

/-- R16, R129: the discard, once no write is in flight, while an abandon waits for it. -/
def State.discardIfWaiting (s : State) : State :=
  match s.sitting.abandon with
  | some { cells := cs, discarded := none } =>
    if s.writer.turn = none then
      { s with
        path := s.path.discardStaged
        writer := s.writer.discardStaged
        sitting := { s.sitting with
          finalMark := none, abandon := some { cells := cs, discarded := some s.discardCounts } } }
    else s
  | _ => s

/-- What follows the end of a turn: an abandon that waited discards, and the starving set is brought up to date. -/
def State.turnEnded (s : State) : State := (s.setTurn none).discardIfWaiting.refresh

/-! ### The end of a sitting (R14 to R16, R102, R163) -/

/-- R14, R16: the result words of a CLOSE cell. -/
def CloseTarget.result (t : CloseTarget) (discarded abandoned : Nat) : Result :=
  Result.mk3 .done t.last discarded (t.sheets % 65536 + 65536 * abandoned)

/-- No track has an open sheet. -/
def Writer.noSheet (w : Writer) : Bool := w.sheets.toList.all Option.isNone

/-- R14, R15: the close ends and the state becomes ARMED; the CLOSE cell gets its result, and a LIMIT close raises
SITTING. -/
def State.reachArmed (s : State) (t : CloseTarget) (discarded abandoned : Nat) : State :=
  { s with
    sitting := { s.sitting with state := .armed, close := none, finalMark := none, abandon := none }
    path := match t.reason with
      | .limit => s.path.sittingEnded.raise .sitting
      | .request => s.path.sittingEnded
    scan := match t.cell with
      | some c => s.scan.finish c (t.result discarded abandoned)
      | none => s.scan
    supply := { s.supply with dipStart := none } }

/-- R14: every condition of a complete drain. -/
def State.drained (s : State) : Bool :=
  s.sitting.draining && decide (s.sitting.abandon = none) && s.path.bays.allEmpty && !s.path.anyRun
    && decide (s.sitting.finalMark = none) && s.writer.noSheet && decide (s.writer.turn = none)

/-- R16: the discard is made and the last close is done. -/
def State.abandoned (s : State) : Bool :=
  match s.sitting.abandon with
  | some { cells := _, discarded := some _ } => s.writer.noSheet && decide (s.writer.turn = none)
  | _ => false

/-! ### FLUSH (R146) -/

/-- R146: every remaining count is 0 and the set is empty. -/
def Flush.emptied (f : Flush) : Bool := f.remaining.toList.all (fun n => decide (n = 0)) && f.sheets.isEmpty

/-- R146: the result of a flush's cells. -/
def Flush.result (f : Flush) : Result := Result.mk3 .done f.closed f.counted (bit f.abandoned)

/-- R146: whether FLUSH_COMPLETE is due; a flush that an abandon emptied completes with the abandon. -/
def Flush.due (f : Flush) : Bool := f.emptied && !f.complete && !f.abandoned

/-- R146: the flush completes and its cells await the next scan. -/
def State.completeFlush (s : State) (f : Flush) : State :=
  { s with
    writer := { s.writer with flush := some { f with complete := true } }
    scan := s.scan.finishAll f.cells f.result }

/-- R146: a completed cell leaves its flush; a flush without cells is gone. -/
def Writer.dropFlushCell (w : Writer) (c : Fin 16) : Writer :=
  match w.flush with
  | none => w
  | some f =>
    let cells := f.cells.filter fun d => decide (d ≠ c)
    { w with flush := if f.complete ∧ cells = [] then none else some { f with cells := cells } }

/-- R140: a close pending set on an open sheet: the first reason stays and the larger drain point. -/
def OpenSheet.setPend (o : OpenSheet) (reason : SheetReason) (drain : Nat) : OpenSheet :=
  { o with pend := match o.pend with
      | none => some { reason := reason, drain := drain }
      | some p => some { p with drain := max p.drain drain } }

end Sys2Proof.Machine
end

