-- ==== Sys2Proof/Machine/Boundary.lean ====
section
/-! DEFINITION. A frame boundary, block by block in the model's order (R22; assumption 4): the timer, the ends of the
rounds, the close of a frame, the sitting, the snapshots, the ports, the age closes, the scan. -/
namespace Sys2Proof.Machine

/-! ### The timer (R22, R23, R25, R28, R30, R31) -/

/-- R25: the units of 1/12,288 µs at a boundary. -/
def Timer.units (t : Timer) : Nat := t.rem + t.interval * 125

/-- R25: the time-of-day that a boundary gives without a clock set. -/
def Timer.ordinary (t : Timer) : Word64 := t.tod + BitVec.ofNat 64 (t.units / 12288)

/-- The boundary count after this one; past the largest value it is a free value (R22; assumption 7). -/
def nextBoundary (b : Word64) (draws : Nat) : Word64 :=
  if b = BitVec.allOnes 64 then Config.boundaryPastMax draws else b + 1

/-- R22, R23, R25, R28: the timer at a boundary. -/
def Timer.advance (t : Timer) (draws : Nat) : Timer :=
  { running := true
    boundary := nextBoundary t.boundary draws
    tick := 0
    interval := t.next
    next := t.next
    tod := t.clockSet.getD t.ordinary
    rem := if t.clockSet.isSome then 0 else t.units % 12288
    clockSet := none }

/-- R30, R28, R31: TRIM_SET, then CLOCK_SET, when the sitting was open before the boundary. -/
def Path.timerMarks (x : Ctx) (t : Timer) (p : Path) : Path :=
  if x.sitting.isOpen then
    let p1 := if t.next ≠ t.interval then p.mark x (.trimSet t.interval t.next) x.frame else p
    match t.clockSet with
    | some new => p1.mark x (.clockSet t.ordinary new) x.frame
    | none => p1
  else p

/-- The timer's part of a boundary. -/
def State.advanceTimer (s : State) : State :=
  let t := s.timer.advance s.draws
  { s with
    timer := t
    draws := if s.timer.boundary = BitVec.allOnes 64 then s.draws + 1 else s.draws
    path := s.path.timerMarks { s.ctx with boundary := t.boundary, tick := 0, tod := t.tod } s.timer }

/-! ### The ends of the rounds (R41, R65, R66, R97) -/

/-- The view of a report handed at a boundary: the ended interval's count and its last tick, the sitting as it stands
now, and the time of the interval that begins (R26, R71). -/
def State.endedCtx (s : State) (ended : Timer) : Ctx :=
  { s.ctx with boundary := ended.boundary, tick := ended.interval }

/-- The end of port `p`'s round, `ended` being the timer before the boundary. -/
def State.roundOver (s : State) (ended : Timer) (p : PortId) : State :=
  s.withLink p ((s.link p).roundOver (s.endedCtx ended) p)

/-- The ends of the rounds of the ports that `a` and `b` say, Port A's reports and their marks before Port B's, an order
that R125 leaves open (DESIGN CHOICE, assumption 55). -/
def State.roundsOver (s : State) (ended : Timer) (a b : Bool) : State :=
  let s1 := if a then s.roundOver ended .a else s
  if b then s1.roundOver ended .b else s1

/-! ### The close of a frame (R97, R14) -/

/-- The frame that the boundary just counted closes: b − 2 − s, up to the last frame of a closing sitting (R97). -/
def State.closingFrame (s : State) : Option Nat :=
  if s.sitting.counting ∧ s.sitting.openedAt.toNat + 2 ≤ s.timer.boundary.toNat then
    let f := s.timer.boundary.toNat - 2 - s.sitting.openedAt.toNat
    if s.sitting.within f then some f else none
  else none

/-- Whether `f` is the last frame of the sitting (R13). -/
def Sitting.isLast (st : Sitting) (f : Nat) : Bool :=
  match st.close with
  | some t => decide (t.last = f)
  | none => false

/-- R14: the close of the last frame is complete: the phase becomes DRAINING and SITTING_CLOSE is held. -/
def Sitting.startDrain (st : Sitting) (tod : Word64) : Sitting :=
  match st.close with
  | some t =>
    { st with
      close := some { t with draining := true }
      finalMark := some { kind := .sittingClose t.reason, frame := t.last, time := tod } }
  | none => st

/-- R97, R14: the frame that this boundary closes, if there is one. -/
def State.closeFrame (s : State) : State :=
  match s.closingFrame with
  | none => s
  | some f =>
    let last := s.sitting.isLast f
    let s1 := { s with
      path := s.path.closeFrame s.ctx f s.sitting.comp s.sitting.cur last s.portA.ranRound s.portB.ranRound }
    if last then { s1 with sitting := s1.sitting.startDrain s1.timer.tod }.offerFinal.setEmptyCloses else s1

/-! ### The sitting (R4, R9, R11, R15) -/

/-- The last record frame that the 24-hour limit allows (R15). -/
def limitFrame : Nat := 21599999

/-- The sitting state of a record flag (R4). -/
def stateOfFlag (on : Bool) : SittingState := if on then .onRecord else .offRecord

/-- The mark of a record flag (R11). -/
def markOfFlag (on : Bool) : MarkKind := if on then .onRecord else .offRecord

/-- R9: the controller at the opening boundary `b`. -/
def Sitting.opened (st : Sitting) (o : Opening) (b : Word64) : Sitting :=
  { state := stateOfFlag o.record, opening := none, number := o.number, openedAt := b, comp := o.record,
    cur := o.record, next := o.record, close := none, finalMark := none, lastFrame := none, abandon := st.abandon }

/-- R9: the opening boundary: the per-sitting counts, then SITTING_OPEN and the flag's mark at frame 0. -/
def State.openSitting (s : State) (o : Opening) : State :=
  let st := s.sitting.opened o s.timer.boundary
  let bays := s.path.opening.bays
  let mark (k : MarkKind) : Mark := { kind := k, frame := 0, time := s.timer.tod }
  let bays1 := bays.offer (mark (.sittingOpen o.number))
  let bays2 := bays1.offer (mark (markOfFlag o.record))
  { s with
    sitting := st
    path := { s.path.opening with bays := bays2 }
    writer := { s.writer with serials := Vector.replicate 34 0 }
    supply := { s.supply with dipStart := if s.supply.warning then some 0 else s.supply.dipStart } }

/-- R4, R11: the record flag window shifted; a changed flag waits while its mark does not fit. -/
def State.shiftFlag (s : State) : State :=
  let st := s.sitting
  let m : Mark := { kind := markOfFlag st.next, frame := s.frame, time := s.timer.tod }
  if st.next = st.cur then { s with sitting := { st with comp := st.cur, state := stateOfFlag st.cur } }
  else
    match s.path.bays.place m with
    | some bs =>
      { s with
        path := { s.path with bays := bs }
        sitting := { st with comp := st.cur, cur := st.next, state := stateOfFlag st.next } }
    | none => { s with sitting := { st with comp := st.cur, state := stateOfFlag st.cur } }

/-- R15: at the boundary that begins the last frame of the limit the sitting is closed with reason LIMIT. -/
def State.limitClose (s : State) : State :=
  if s.frame = limitFrame then
    { s with
      sitting := { s.sitting with
        state := .closing
        close := some { last := limitFrame, reason := .limit, cell := none, draining := false, sheets := 0 }
        lastFrame := some limitFrame }
      path := s.path.raise .sitting }
  else s

/-- The Sitting Controller's part of a boundary; in CLOSING the window takes no new flag (R4; assumption 37). -/
def State.moveSitting (s : State) : State :=
  match s.sitting.state with
  | .onRecord | .offRecord => s.shiftFlag.limitClose
  | .closing => { s with sitting := { s.sitting with comp := s.sitting.cur } }
  | .armed =>
    match s.sitting.opening with
    | some o => s.openSitting o
    | none => s
  | .idle => s

/-! ### Snapshots, ports, sheets, scan -/

/-- R88, R91: the snapshots of the frame that begins, up to the last frame. -/
def State.takeSnapshots (s : State) : State :=
  if s.sitting.counting ∧ s.sitting.within s.frame then
    { s with path := s.path.takeSnapshots s.ctx s.frame s.sitting.cur }
  else s

/-- R114: the accumulator belongs to the frame in computation of the interval that begins. -/
def State.ownMix (s : State) : State :=
  { s with path := { s.path with fcu := s.path.fcu.belongTo s.ctx.computed } }

/-- A port's boundary work (R40, R43, R45, R47, R49, R57). -/
def State.portWork (s : State) (p : PortId) : State :=
  let s1 := s.withLink p ((s.link p).boundaryWork s.ctx p)
  { s1 with scan := match (s.port p).selfTestResult with
      | some r => s1.scan.finish r.1 r.2
      | none => s1.scan }

/-- R142: the age close of track `t`, when it begins at this boundary: an OPEN run is ended, then a close pending is
set with the items in the bay as its drain point. -/
def State.ageClose (s : State) (t : Fin 34) : State :=
  match s.writer.arming, s.writer.sheets[t] with
  | some a, some o =>
    if o.pend = none ∧ a.ageLimit * 250 ≤ s.frame - o.opened then
      let p := if h : t.val < 33 then s.path.endRun ⟨t.val, h⟩ else s.path
      { s with
        path := p
        writer := s.writer.setSheet t (some (o.setPend .age p.bays.bay[t].items.length)) }
    else s
  | _, _ => s

/-- R142 on every track. -/
def State.ageCloses (s : State) : State := (List.finRange 34).foldl State.ageClose s

/-- What the blocks do as an interval begins: the ports, the age closes, the starving set, the scan. -/
def State.beginInterval (s : State) : State :=
  (((s.portWork .a).portWork .b).ageCloses.refresh).beginScan

/-- A boundary (R22), with the order in which each port's report at the boundary and the close of its frame are taken
(R97; assumption 5). -/
def State.boundary (s : State) (reportAFirst reportBFirst : Bool) : State :=
  ((((s.advanceTimer.roundsOver s.timer reportAFirst reportBFirst).closeFrame.roundsOver s.timer (!reportAFirst)
    (!reportBFirst)).moveSitting).takeSnapshots.ownMix).beginInterval

/-- Boundary 0 (R21): an accepted START begins interval 0 and leaves the time-of-day as it is. -/
def State.start (s : State) : State :=
  { s with timer := { s.timer with running := true, boundary := 0, tick := 0 } }.beginInterval

end Sys2Proof.Machine
end

