-- ==== Sys2Proof/Machine/HostBus.lean ====
section
/-! DEFINITION. The commands of the register window and the resets, and the supply (R19, R148 to R150, R160 to R166):
one definition per command, over the shared operations that stand before them. -/
namespace Sys2Proof.Machine

/-! ### Resets and the supply level (R19, R150, R162, R163, R166) -/

/-- R163: the dip start frame that an onset sets. -/
def State.dipStart (s : State) : Option Nat :=
  if s.sitting.counting ∧ s.sitting.draining = false then some (s.frame - 1) else none

/-- R68: the onset of the warning meets a port in the middle of its interval. -/
def Link.onset (x : Ctx) (p : PortId) (l : Link) : Link :=
  if l.port.state = .running then
    match l.port.phase with
    | .framing => { l with port := { l.port with suppressed := true } }
    | .polling | .awaiting | .receiving | .quieting => l.stopPolling x p
    | .idle | .ended => l
  else l

/-- R163: the onset of the supply warning: the flag, the closes that it makes due (R143), then the ports' reports, Port A
before Port B, an order that the spec leaves open (DESIGN CHOICE, assumption 49). -/
def State.onset (s : State) : State :=
  let s1 := { s with
    supply := { warning := true, dipStart := s.dipStart }, path := s.path.raise .power }.setEmptyCloses
  let s2 := s1.withLink .a ((s1.link .a).onset s1.ctx .a)
  (s2.withLink .b ((s2.link .b).onset s2.ctx .b)).refresh

/-- Every block at its reset values (R1, R20, R33, R56, R70, R85, R104, R120, R131, R151, R160, R162), the Directory
address and the supply level as given; host memory, the messages sent and the commands that wait stay. -/
def State.afterReset (s : State) (dirLo dirHi : Word32) (low : Bool) : State :=
  let s1 : State :=
    { State.reset with
      bus := { Bus.reset with dirLo := dirLo, dirHi := dirHi }
      path := { Path.reset with attn := { Attention.reset with messages := s.path.attn.messages } }
      hostMem := s.hostMem, draws := s.draws, pending := s.pending }
  if low then s1.onset else s1

/-- R150: a soft reset keeps the Directory address; a warning that stands is taken again at once (R162). -/
def State.softReset (s : State) : State := s.afterReset s.bus.dirLo s.bus.dirHi s.supply.warning

/-! ### CONTROL (R149) -/

/-- R149: whether the Directory address is accepted. -/
def Bus.directoryValid (b : Bus) : Bool := decide (b.directory ≠ 0) && decide (b.directory.toNat % 4096 = 0)

/-- R149: a START. -/
def State.startWritten (s : State) : State :=
  if s.timer.running then s
  else if s.bus.directoryValid then s.start
  else s.raise .busFault

/-- R149: a word written to CONTROL. -/
def State.controlWritten (s : State) (value : Word32) : State :=
  if value.getLsbD 1 then s.softReset
  else if value.getLsbD 0 then s.startWritten
  else s

/-! ### ATTENTION and ATTN_MASK (R160, R161) -/

/-- R160: a word written to ATTENTION. -/
def State.attentionWritten (s : State) (value : Word32) : State :=
  { s with path := { s.path with attn := s.path.attn.clear value } }

/-- R160, R161: a word written to ATTN_MASK. -/
def State.maskWritten (s : State) (value : Word32) : State :=
  { s with path := { s.path with attn := s.path.attn.setMask value } }

/-- R148: a write of one word to an offset of the register window. -/
def State.registerWritten (s : State) (offset value : Word32) : State :=
  match offset.toNat with
  | 0x04 => s.controlWritten value
  | 0x08 => if s.timer.running then s else { s with bus := { s.bus with dirLo := value } }
  | 0x0C => if s.timer.running then s else { s with bus := { s.bus with dirHi := value } }
  | 0x10 => s.attentionWritten value
  | 0x14 => s.maskWritten value
  | _ => s

/-! ### The commands -/

/-- CONTROL_START (R149). -/
def execControlStart (s : State) : Host.Outcome State Fault Refusal := .next s.startWritten

/-- SOFT_RESET (R150). -/
def execSoftReset (s : State) : Host.Outcome State Fault Refusal := .next s.softReset

/-- FUNCTION_RESET (R150): a soft reset caused by the link or the function. -/
def execFunctionReset (s : State) : Host.Outcome State Fault Refusal := .next s.softReset

/-- ATTENTION_WRITE (R160). -/
def execAttentionWrite (value : Word32) (s : State) : Host.Outcome State Fault Refusal :=
  .next (s.attentionWritten value)

/-- ATTN_MASK_WRITE (R161). -/
def execAttnMaskWrite (value : Word32) (s : State) : Host.Outcome State Fault Refusal := .next (s.maskWritten value)

/-- REGISTER_WRITE (R148). -/
def execRegisterWrite (offset value : Word32) (s : State) : Host.Outcome State Fault Refusal :=
  .next (s.registerWritten offset value)

/-- POWER_ON_RESET (R19): the Directory address becomes 0 (R148); the onset is taken at once when the part leaves the
reset with the supply below the warning level (R162). -/
def execPowerOnReset (supplyLow : Bool) (s : State) : Host.Outcome State Fault Refusal :=
  .next (s.afterReset 0 0 supplyLow)

/-- BROWN_OUT (R166): a power-on reset at once, which clears the warning flag; the onset is taken at once when the part
leaves that reset with the supply still below the warning level (R162), which is a free value (assumption 17). -/
def execBrownOut (s : State) : Host.Outcome State Fault Refusal :=
  .next ({ s with draws := s.draws + 1 }.afterReset 0 0 (Config.supplyLowAfterBrownOut s.draws))

/-- SUPPLY_WARNING (R162, R163): an onset with the flag clear; no effect with it set. -/
def execSupplyWarning (s : State) : Host.Outcome State Fault Refusal :=
  .next (if s.supply.warning then s else s.onset)

/-- R164: the last frame of a dip: the frame in computation, or the sitting's last frame when that is lower; none
where no frame is in computation or the dip would begin after it. -/
def State.dipEnd (s : State) (first : Nat) : Option Nat :=
  let last := match s.sitting.close with
    | some t => min (s.frame - 1) t.last
    | none => s.frame - 1
  if s.frame = 0 ∨ last < first then none else some last

/-- R164: recovery. -/
def State.recovered (s : State) : State :=
  let path := match s.supply.dipStart with
    | some first =>
      match s.dipEnd first with
      | some last => s.path.mark s.ctx (.powerDip first last) last
      | none => s.path
    | none => s.path
  { s with supply := { warning := false, dipStart := none }, path := path }

/-- SUPPLY_RECOVERY (R162, R164): recovery with the flag set; no effect with it clear. -/
def execSupplyRecovery (s : State) : Host.Outcome State Fault Refusal :=
  .next (if s.supply.warning then s.recovered.refresh else s)

end Sys2Proof.Machine
end

