-- ==== Sys2Proof/Machine/LinkEvents.lean ====
section
/-! DEFINITION. The boundary and the events of a station link: one definition per command (R22, R36, R42 to R44, R57 to
R67). An event that the port's state does not admit changes nothing (assumption 1). -/
namespace Sys2Proof.Machine

/-- An operation on a port and the audio path; the bays it fills may make a track starve (R145). -/
def State.onLink (s : State) (p : PortId) (g : Link → Link) : State := (s.withLink p (g (s.link p))).refresh

/-- The port is RUNNING and in the given phase. -/
def Port.inPhase (pt : Port) (ph : RoundPhase) : Bool := decide (pt.state = .running) && decide (pt.phase = ph)

/-- The round deadline has a meaning: a round is under way (R65). -/
def Port.inRound (pt : Port) : Bool :=
  decide (pt.state = .running) &&
    match pt.phase with
    | .framing | .polling | .awaiting | .receiving | .quieting => true
    | .idle | .ended => false

/-- R65 at the deadline: in FRAMING the list is not yet taken, and it is reported when it is. -/
def Link.deadlinePasses (x : Ctx) (p : PortId) (l : Link) : Link :=
  match l.port.phase with
  | .framing => { l with port := { l.port with deadlinePassed := true } }
  | .idle | .polling | .awaiting | .receiving | .quieting | .ended => l.deadline x p

/-- The line is released after the lamp byte and the reply window starts (R58). -/
def Port.release (pt : Port) : Port := { pt with sending := [], phase := .awaiting, window := 0, windowTicks := 0 }

/-- BOUNDARY (R22): the timer counts while running. -/
def execBoundary (reportAFirst reportBFirst : Bool) (s : State) : Host.Outcome State Fault Refusal :=
  .next (if s.timer.running then s.boundary reportAFirst reportBFirst else s)

/-- FRAME_SENT (R57): in RUNNING the list is taken; in STARTING the transmission is over (R40). -/
def execFrameSent (p : PortId) (s : State) : Host.Outcome State Fault Refusal :=
  .next
    (if (s.port p).inPhase .framing then s.onLink p (Link.takeList s.ctx p)
    else if (s.port p).state = .starting then s.setPort p { s.port p with sending := [] }
    else s)

/-- POLL_SENT (R58). -/
def execPollSent (p : PortId) (s : State) : Host.Outcome State Fault Refusal :=
  .next
    (if (s.port p).inPhase .polling ∧ (s.port p).target ≠ none then s.setPort p (s.port p).release else s)

/-- REPLY_TIMEOUT (R60). -/
def execReplyTimeout (p : PortId) (lineBusy : Bool) (s : State) : Host.Outcome State Fault Refusal :=
  .next (if (s.port p).inPhase .awaiting then s.onLink p (Link.replyTimeout s.ctx p lineBusy) else s)

/-- ROUND_DEADLINE (R65). -/
def execRoundDeadline (p : PortId) (s : State) : Host.Outcome State Fault Refusal :=
  .next
    (if (s.port p).inRound ∧ (s.port p).deadlinePassed = false then s.onLink p (Link.deadlinePasses s.ctx p) else s)

/-- LINE_QUIET (R61, R67), while the port does not transmit. -/
def execLineQuiet (p : PortId) (s : State) : Host.Outcome State Fault Refusal :=
  .next (if (s.port p).listening then s.onLink p (Link.quiet s.ctx p) else s)

/-- A character in TESTING, from the internal loopback (R49). -/
def Port.takeLoopback (pt : Port) (e : CharEvent) : Port := { pt with selfTest := pt.selfTest.map fun t => t.take e }

/-- The samples of the line from a falling edge: taken by the line supervisor (R42), and what the receiver makes of them
handed to the poll logic of a RUNNING port that is not transmitting (R36). -/
def State.lineSamples (s : State) (p : PortId) (samples : BitVec 88) : State :=
  let s1 := s.setPort p ((s.port p).sampled samples)
  match receive samples with
  | none => s1
  | some e => if (s.port p).listening then s1.onLink p (Link.event s.ctx p e) else s1

/-- The samples of the internal loopback of a TESTING port: what the receiver makes of them is taken by the self-test
(R36, R49). -/
def State.loopbackSamples (s : State) (p : PortId) (samples : BitVec 88) : State :=
  match receive samples with
  | none => s
  | some e => s.setPort p ((s.port p).takeLoopback e)

/-- CHARACTER_RECEIVED (R36): from the internal loopback in TESTING, from the line in every other state. -/
def execCharacterReceived (p : PortId) (samples : BitVec 88) (s : State) : Host.Outcome State Fault Refusal :=
  .next (if (s.port p).state = .testing then s.loopbackSamples p samples else s.lineSamples p samples)

/-- LINE_STUCK (R42): in RUNNING, the low run having reached 4,096. -/
def execLineStuck (p : PortId) (s : State) : Host.Outcome State Fault Refusal :=
  .next (if (s.port p).lineStuck then s.onLink p (Link.stick s.ctx p) else s)

/-- OVERCURRENT (R44), while the power switch is CLOSED: in STARTING, RUNNING and STUCK (R39). -/
def execOvercurrent (p : PortId) (s : State) : Host.Outcome State Fault Refusal :=
  .next (if (s.port p).state.switchClosed then s.onLink p (Link.trip s.ctx p) else s)

/-- IDLE_INTERVAL_FLAG_CLEARED (R43), in STUCK. -/
def execIdleIntervalFlagCleared (p : PortId) (s : State) : Host.Outcome State Fault Refusal :=
  .next (if (s.port p).state = .stuck then s.setPort p { s.port p with idleFlag := false } else s)

/-- LOW_RUN_RESET (R42): a sample of the line reads 1; it sets the low run to 0 in RUNNING. -/
def execLowRunReset (p : PortId) (s : State) : Host.Outcome State Fault Refusal :=
  .next (s.setPort p (s.port p).lineHigh)

end Sys2Proof.Machine
end

