-- ==== Sys2Proof/Machine/Requests.lean ====
section
/-! DEFINITION. The requests of the host: what each owning block checks, does and answers (R5 to R16, R27, R29, R46, R48,
R51, R78, R87, R90, R91, R128, R146), one definition per command. A request acts when it is the one that the scanner
read from the cell at its cursor (R154; assumption 11). -/
namespace Sys2Proof.Machine

/-- The two halves of a result word. -/
def halves (low high : Nat) : Nat := low + 65536 * high

/-! ### REQUEST_REFUSED_KIND -/

/-- REQUEST_REFUSED_KIND (R154). -/
def execRequestRefusedKind (kind : Word16) (s : State) : Host.Outcome State Fault Refusal :=
  .next (s.take (.requestRefusedKind kind) fun s => (s, .short (Result.plain .refusedKind)))

/-! ### ARM and DISARM (R5 to R7) -/

/-- R6, R104, R121, R131: an accepted arm record put in force. Every economy flag is clear from here, as R121 says, where
R118 has a flag that stands at the close of a sitting stay set until the next opening clears it (DESIGN CHOICE, assumption
68). With every bay empty no track starves (R145). -/
def State.putInForce (s : State) (r : ArmRecord) : State :=
  { s with
    sitting := { s.sitting with state := .armed }
    path := { s.path with
      channels := Vector.ofFn fun c : Fin 32 => { s.path.channels[c] with seated := r.seating.getLsbD c.val }
      fcu := { s.path.fcu with mixOn := r.mixOn, shift := r.shiftTaken }
      bays := { s.path.bays with
        partition := true
        bay := r.units.map fun n => { units := n, items := [], economy := false } } }
    writer := { s.writer with
      arming := some { sheetSize := r.sheetSize, ageLimit := r.ageTaken, poolAddress := r.poolAddress,
                       poolCount := r.poolCount }
      poolCursor := 0, queue := [], owner := Vector.replicate 256 .notHeld
      starving := Vector.replicate 34 false } }

/-- R6: the result of an accepted ARM. -/
def ArmRecord.accepted (r : ArmRecord) : Result :=
  Result.mk3 (if r.clamped then .doneClamped else .done) (r.total * 256) r.seatedCount (halves r.ageTaken r.shiftTaken)

/-- ARM (R5, R6): refused with nothing read outside IDLE; in IDLE it acts on the record that was read for it. -/
def execArm (address : Word64) (s : State) : Host.Outcome State Fault Refusal :=
  .next
    (match s.scan.step with
    | .taking tag i =>
      if i = .arm address ∧ s.sitting.state ≠ .idle then s.answer tag 1 (Result.plain .refusedState) else s
    | .armChecked tag a r failure =>
      if a = address then
        if s.sitting.state ≠ .idle then s.answer tag 1 (Result.plain .refusedState)
        else
          match failure with
          | some res => s.answer tag 1 res
          | none => (s.putInForce r).answer tag 1 r.accepted
      else s
    | _ => s)

/-- R7: the arming removed; the economy flags stand (R121). With every bay empty no track starves (R145). -/
def State.removeArming (s : State) : State :=
  { s with
    sitting := { s.sitting with state := .idle }
    path := { s.path with
      channels := s.path.channels.map fun ch => { ch with seated := false }
      fcu := { s.path.fcu with mixOn := false, shift := 2 }
      bays := { s.path.bays with
        partition := false
        bay := s.path.bays.bay.map fun b => { b with units := 0, items := [] } } }
    writer := { s.writer with
      arming := none, queue := [], owner := Vector.replicate 256 .notHeld, starving := Vector.replicate 34 false }
    scan := { s.scan with poolDue := false } }

/-- R7: the FREE writes go on, or DISARM completes once all have ended. -/
def State.freeNext (s : State) (tag : Word16) (left : List Queued) (freed failed : Nat) : State :=
  match left with
  | [] => s.removeArming.answer tag 2 (Result.mk3 .done freed failed 0)
  | q :: rest => { s with scan := { s.scan with step := .freeing tag (q :: rest) freed failed } }

/-- R7: the elements of the queue whose entry the map records as STANDBY, oldest first. -/
def Writer.standbyEntries (w : Writer) : List Queued := w.queue.filter fun q => decide (w.owner[q.index] = .standby)

/-- DISARM (R7): the FREE writes of the STANDBY entries begin, oldest first; with none the arming is removed at
once. -/
def execDisarm (s : State) : Host.Outcome State Fault Refusal :=
  .next
    (match s.scan.step with
    | .taking tag i =>
      if i = .disarm then
        if s.sitting.state = .armed ∧ s.sitting.opening = none then s.freeNext tag s.writer.standbyEntries 0 0
        else s.answer tag 2 (Result.plain .refusedState)
      else s
    | _ => s)

/-- DISARM_FREE_WRITE (R7). -/
def execDisarmFreeWrite (how : WriteEnd) (s : State) : Host.Outcome State Fault Refusal :=
  .next
    (match s.scan.step, s.writer.arming with
    | .freeing tag (q :: rest) freed failed, some a =>
      let s1 := s.writeEnds how (a.status q.index) (statusBytes .free 0 0)
      match how with
      | .done => s1.freeNext tag rest (freed + 1) failed
      | .failed => s1.freeNext tag rest freed (failed + 1)
    | _, _ => s)

/-! ### The sitting (R8, R10, R13, R16) -/

/-- R8: an opening pending recorded. -/
def State.recordOpening (s : State) (number record : Word32) : State × Taken :=
  if s.sitting.state = .armed ∧ s.sitting.opening = none then
    ({ s with sitting := { s.sitting with opening := some { number := number, record := decide (record ≠ 0) } } },
      .short (Result.mk3 .done number.toNat ((s.timer.boundary.toNat + 1) % 4294967296) 0))
  else (s, .short (Result.plain .refusedState))

/-- OPEN_SITTING (R8). -/
def execOpenSitting (number recordAtOpen : Word32) (s : State) : Host.Outcome State Fault Refusal :=
  .next (s.take (.openSitting number recordAtOpen) fun s => s.recordOpening number recordAtOpen)

/-- R10: the next flag written. -/
def State.askFlag (s : State) (on : Bool) : State × Taken :=
  if s.sitting.isOpen then
    ({ s with sitting := { s.sitting with next := on } }, .short (Result.mk3 .done (bit s.sitting.next) 0 0))
  else (s, .short (Result.plain .refusedState))

/-- GO_ON_RECORD (R10). -/
def execGoOnRecord (s : State) : Host.Outcome State Fault Refusal := .next (s.take .goOnRecord fun s => s.askFlag true)

/-- GO_OFF_RECORD (R10). -/
def execGoOffRecord (s : State) : Host.Outcome State Fault Refusal :=
  .next (s.take .goOffRecord fun s => s.askFlag false)

/-- R13: the current frame becomes the last frame. -/
def State.beginClose (s : State) : State × Taken :=
  if s.sitting.isOpen then
    ({ s with
        sitting := { s.sitting with
          state := .closing
          close := some { last := s.frame, reason := .request, cell := some s.scan.cursor, draining := false, sheets := 0 }
          lastFrame := some s.frame } },
      .long none)
  else (s, .short (Result.plain .refusedState))

/-- CLOSE_SITTING (R13). -/
def execCloseSitting (s : State) : Host.Outcome State Fault Refusal :=
  .next (s.take .closeSitting fun s => s.beginClose)

/-- R16: something of the sitting remains staged. -/
def State.staged (s : State) : Bool := !s.path.bays.allEmpty || s.path.anyRun || s.sitting.finalMark.isSome

/-- R16: the abandon taken; the discard is made at once when no sheet write is in flight. -/
def State.beginAbandon (s : State) : State × Taken :=
  if s.sitting.draining ∧ s.staged then
    let abandon : Abandon := match s.sitting.abandon with
      | some a => { a with cells := a.cells ++ [s.scan.cursor] }
      | none => { cells := [s.scan.cursor], discarded := none }
    ({ s with sitting := { s.sitting with abandon := some abandon } }.discardIfWaiting.refresh, .long none)
  else (s, .short (Result.plain .refusedState))

/-- ABANDON_STAGED (R16). -/
def execAbandonStaged (s : State) : Host.Outcome State Fault Refusal :=
  .next (s.take .abandonStaged fun s => s.beginAbandon)

/-! ### Court time and the interval (R27, R29) -/

/-- R27: a clock set pending recorded. -/
def State.pendClock (s : State) (time : Word64) : State × Taken :=
  ({ s with timer := { s.timer with clockSet := some time } },
    .short (Result.mk3 .done (s.timer.tod.toNat % 4294967296) (s.timer.tod.toNat / 4294967296)
      (bit s.timer.clockSet.isSome)))

/-- SET_CLOCK (R27). -/
def execSetClock (time : Word64) (s : State) : Host.Outcome State Fault Refusal :=
  .next (s.take (.setClock time) fun s => s.pendClock time)

/-- R29: an interval length as taken. -/
def trimTaken (length : Word32) : Nat := max 389284 (min 397148 length.toNat)

/-- R29: the next interval length written. -/
def State.trim (s : State) (length : Word32) : State × Taken :=
  let taken := trimTaken length
  ({ s with timer := { s.timer with next := taken } },
    .short (Result.mk3 (if taken = length.toNat then .done else .doneClamped) s.timer.next taken s.timer.interval))

/-- TRIM_FRAME (R29). -/
def execTrimFrame (length : Word32) (s : State) : Host.Outcome State Fault Refusal :=
  .next (s.take (.trimFrame length) fun s => s.trim length)

/-! ### The ports (R46, R48, R51) -/

/-- R46: the state of the port once its control pending has been applied. -/
def Port.projected (pt : Port) : PortState :=
  match pt.control with
  | none => pt.state
  | some c =>
    match c.power with
    | .keep => pt.state
    | .on => if pt.state = .disabled ∨ pt.state = .tripped then .starting else pt.state
    | .off => .disabled
    | .offThenOn => .starting

/-- R169: the power field of PORT CONTROL. -/
def powerArg (w : Word32) : Option PowerField :=
  match w.toNat with
  | 0 => some .keep
  | 1 => some .on
  | 2 => some .off
  | _ => none

/-- R169: the divisor field of PORT CONTROL: none where it fails check 1 of R46, else KEEP or a value. -/
def divisorArg (w : Word32) : Option (Option Nat) :=
  if w = keepAll then some none else if w.toNat ≤ 255 then some (some w.toNat) else none

/-- R46: the power field merged into the one pending. -/
def mergePower (pending asked : PowerField) : PowerField :=
  match asked with
  | .keep => pending
  | .off => .off
  | .offThenOn => .offThenOn
  | .on =>
    match pending with
    | .off | .offThenOn => .offThenOn
    | .keep | .on => .on

/-- R46: the control pending after an accepted request; both fields KEEP change nothing (assumption 16). -/
def Port.mergeControl (pt : Port) (power : PowerField) (divisor : Option Nat) : Port :=
  if power = .keep ∧ divisor = none then pt
  else
    let before : Control := pt.control.getD { power := .keep, divisor := none }
    { pt with control := some { power := mergePower before.power power, divisor := divisor.or before.divisor } }

/-- R46, checks 2 to 4 on fields that check 1 admits. -/
def Port.controlCheck (pt : Port) (power : PowerField) (divisor : Option Nat) : ResultCode :=
  if pt.state = .testing then .refusedBusy
  else if divisor.isSome ∧ pt.projected ≠ .disabled then .refusedState
  else if power = .on ∧ pt.cooldown ≠ 0 then .refusedCooldown
  else .done

/-- R46. -/
def State.control (s : State) (port power divisor : Word32) : State × Taken :=
  match portArg port with
  | none => (s, .short (Result.plain .refusedRange))
  | some p =>
    let pt := s.port p
    let words (c : ResultCode) : Taken := .short (Result.mk3 c pt.state.code pt.divisor pt.cooldown)
    match powerArg power, divisorArg divisor with
    | some pw, some d =>
      if pt.controlCheck pw d = .done then (s.setPort p (pt.mergeControl pw d), words .done)
      else (s, words (pt.controlCheck pw d))
    | _, _ => (s, words .refusedRange)

/-- PORT_CONTROL (R46). -/
def execPortControl (port power divisor : Word32) (s : State) : Host.Outcome State Fault Refusal :=
  .next (s.take (.portControl port power divisor) fun s => s.control port power divisor)

/-- R48, R49: TESTING entered and the test stream begun. -/
def Port.startSelfTest (pt : Port) (cell : Fin 16) : Port :=
  { pt.enter .testing with
    selfTest := some { cell := cell, sent := 0, received := 0, pass := 0, mismatch := 0, leader := false }
    sending := testStream, txTicks := 0 }

/-- R48. -/
def State.selfTest (s : State) (port : Word32) : State × Taken :=
  match portArg port with
  | none => (s, .short (Result.plain .refusedRange))
  | some p =>
    let pt := s.port p
    if pt.state = .testing then (s, .short (Result.plain .refusedBusy))
    else if pt.state = .disabled ∧ pt.control = none then (s.setPort p (pt.startSelfTest s.scan.cursor), .long none)
    else (s, .short (Result.plain .refusedState))

/-- PORT_SELF_TEST (R48). -/
def execPortSelfTest (port : Word32) (s : State) : Host.Outcome State Fault Refusal :=
  .next (s.take (.portSelfTest port) fun s => s.selfTest port)

/-- R50: the five counters set to 0. -/
def Port.clearCounters (pt : Port) : Port := { pt with framing := 0, check := 0, noReply := 0, lateCut := 0, stuck := 0 }

/-- R51. -/
def State.counters (s : State) (port clear : Word32) : State × Taken :=
  match portArg port with
  | none => (s, .short (Result.plain .refusedRange))
  | some p =>
    let pt := s.port p
    (if clear = 0 then s else s.setPort p pt.clearCounters,
      .short (Result.mk3 .done (halves pt.framing pt.check) (halves pt.noReply pt.lateCut) (halves pt.stuck pt.state.code)))

/-- READ_COUNTERS (R51). -/
def execReadCounters (port clear : Word32) (s : State) : Host.Outcome State Fault Refusal :=
  .next (s.take (.readCounters port clear) fun s => s.counters port clear)

/-! ### Stations and channels (R78, R87, R90, R91) -/

/-- R78. -/
def State.releaseAt (s : State) (station : Word32) : State × Taken :=
  match stationArg station with
  | none => (s, .short (Result.plain .refusedRange))
  | some k =>
    let st := s.path.stations[k]
    let words (c : ResultCode) : Taken :=
      .short (Result.mk3 c st.state.code (BitVec.toNat st.unitNumber) (LostCause.code st.lostCause))
    if st.state = .lost then ({ s with path := s.path.setStation k st.release }, words .done)
    else (s, words .refusedState)

/-- RELEASE_STATION (R78). -/
def execReleaseStation (station : Word32) (s : State) : Host.Outcome State Fault Refusal :=
  .next (s.take (.releaseStation station) fun s => s.releaseAt station)

/-- R87: a field's value as taken, with the present value for KEEP. -/
def fieldTaken (w : Word32) (present low high : Nat) : Nat := if w = keepAll then present else max low (min high w.toNat)

/-- R87: whether a field's value is clamped. -/
def fieldClamped (w : Word32) (low high : Nat) : Bool :=
  decide (w ≠ keepAll) && decide (max low (min high w.toNat) ≠ w.toNat)

/-- R87: the five fields written into the requested settings. -/
def Settings.write (t : Settings) (gain threshold attack hang inMix : Word32) : Settings :=
  { t with
    gain := fieldTaken gain t.gain 0 16383
    threshold := fieldTaken threshold t.threshold 0 32767
    attack := fieldTaken attack t.attack 1 8
    hang := fieldTaken hang t.hang 0 255
    inMix := if inMix = keepAll then t.inMix else decide (inMix ≠ 0) }

/-- R87: whether any field was clamped. -/
def anyClamped (gain threshold attack hang : Word32) : Bool :=
  fieldClamped gain 0 16383 || fieldClamped threshold 0 32767 || fieldClamped attack 1 8 || fieldClamped hang 0 255

/-- R87: the result words, the settings as they stood before the request. -/
def Channel.settingsWords (ch : Channel) (c : ResultCode) : Result :=
  let t := ch.settings
  Result.mk3 c (halves t.gain t.threshold) (t.attack + 256 * t.hang + 65536 * bit t.inMix)
    (bit t.privacy + 256 * bit t.bar + 65536 * bit ch.seated)

/-- The requested settings of a channel replaced. -/
def State.setSettings (s : State) (c : Fin 32) (t : Settings) : State :=
  { s with path := s.path.setChannel c { s.path.channels[c] with settings := t } }

/-- R87. -/
def State.writeSettings (s : State) (channel gain threshold attack hang inMix : Word32) : State × Taken :=
  match channelArg channel with
  | none => (s, .short (Result.plain .refusedRange))
  | some c =>
    let ch := s.path.channels[c]
    (s.setSettings c (ch.settings.write gain threshold attack hang inMix),
      .short (ch.settingsWords (if anyClamped gain threshold attack hang then .doneClamped else .done)))

/-- SET_CHANNEL (R87). -/
def execSetChannel (channel gain threshold attack hang inMix : Word32) (s : State) : Host.Outcome State Fault Refusal :=
  .next (s.take (.setChannel channel gain threshold attack hang inMix) fun s =>
    s.writeSettings channel gain threshold attack hang inMix)

/-- R90. -/
def State.writePrivacy (s : State) (channel flag : Word32) : State × Taken :=
  match channelArg channel with
  | none => (s, .short (Result.plain .refusedRange))
  | some c =>
    let t := s.path.channels[c].settings
    (s.setSettings c { t with privacy := decide (flag ≠ 0) }, .short (Result.mk3 .done (bit t.privacy) (bit t.bar) 0))

/-- SET_PRIVACY (R90). -/
def execSetPrivacy (channel flag : Word32) (s : State) : Host.Outcome State Fault Refusal :=
  .next (s.take (.setPrivacy channel flag) fun s => s.writePrivacy channel flag)

/-- R91. -/
def State.writeBar (s : State) (channel flag : Word32) : State × Taken :=
  match channelArg channel with
  | none => (s, .short (Result.plain .refusedRange))
  | some c =>
    let t := s.path.channels[c].settings
    (s.setSettings c { t with bar := decide (flag ≠ 0) }, .short (Result.mk3 .done (bit t.bar) (bit t.privacy) 0))

/-- SET_BAR (R91). -/
def execSetBar (channel flag : Word32) (s : State) : Host.Outcome State Fault Refusal :=
  .next (s.take (.setBar channel flag) fun s => s.writeBar channel flag)

/-! ### FLUSH and HOST MARK (R146, R128) -/

/-- R146: the open sheets of the tracks, by pool index and serial. -/
def Writer.openSheets (w : Writer) : List SheetId :=
  w.sheets.toList.filterMap fun o => o.map fun o => { index := o.index, serial := o.serial }

/-- R146: the items of each bay. -/
def Bays.itemCounts (bs : Bays) : Vector Nat 34 := bs.bay.map fun b => b.items.length

/-- R146: a flush created. -/
def State.createFlush (s : State) : State :=
  let counts := s.path.bays.itemCounts
  let sheets : Vector (Option OpenSheet) 34 :=
    Vector.ofFn fun t => s.writer.sheets[t].map fun o => o.setPend .flush counts[t]
  { s with writer := { s.writer with
      sheets := sheets
      flush := some { cells := [s.scan.cursor], remaining := counts, sheets := s.writer.openSheets, closed := 0,
                      counted := counts.toList.sum, abandoned := false, complete := false } } }

/-- R146. -/
def State.takeFlush (s : State) : State × Taken :=
  if s.sitting.counting then
    match s.writer.flush with
    | some f =>
      ({ s with writer := { s.writer with flush := some { f with cells := f.cells ++ [s.scan.cursor] } } },
        .long (if f.complete then some f.result else none))
    | none =>
      if s.path.bays.allEmpty ∧ s.writer.noSheet then (s, .short (Result.plain .done))
      else (s.createFlush, .long none)
  else (s, .short (Result.plain .refusedState))

/-- FLUSH (R146). -/
def execFlush (s : State) : Host.Outcome State Fault Refusal := .next (s.take .flush fun s => s.takeFlush)

/-- R128: a HOST_MARK created at the current frame and offered as a reserve mark. -/
def State.hostMark (s : State) (code : Word16) (length : Byte) (text : List Byte) : State × Taken :=
  if s.sitting.isOpen then
    if 32 < length.toNat then (s, .short (Result.plain .refusedRange))
    else
      let m : Mark := { kind := .hostMark code length text, frame := s.frame, time := s.timer.tod }
      let bays := s.path.bays.offer m
      ({ s with path := { s.path with bays := bays } }.refresh,
        .short (Result.mk3 .done s.frame (bit (s.path.bays.place m).isSome) bays.withheld))
  else (s, .short (Result.plain .refusedState))

/-- HOST_MARK (R128). -/
def execHostMark (code : Word16) (length : Byte) (text : List Byte) (s : State) : Host.Outcome State Fault Refusal :=
  .next (s.take (.hostMark code length text) fun s => s.hostMark code length text)

end Sys2Proof.Machine
end

