-- ==== Sys2Proof/Machine/ScanEvents.lean ====
section
/-! DEFINITION. The ends of the scanner's bus accesses: cells, the arm record, completions, the pool, the head and the
panels (R5, R132 to R134, R152 to R159), one definition per command. An end that is not of the access under way
changes nothing (assumption 1). -/
namespace Sys2Proof.Machine

/-! ### The request board -/

/-- CELL_READ (R153, R154): a POSTED request is taken; for an ARM in IDLE the arm record is read first (R5); any other
cell is passed over. -/
def execCellRead (bytes : List Byte) (s : State) : Host.Outcome State Fault Refusal :=
  .next
    (match s.scan.step with
    | .cell =>
      if cellState bytes = postedState then
        let step : ScanStep := match cellRequest bytes with
          | .arm a => if s.sitting.state = .idle then .armRead (cellTag bytes) a else .taking (cellTag bytes) (.arm a)
          | request => .taking (cellTag bytes) request
        { s with scan := { s.scan with step := step } }
      else s.nextCell
    | _ => s)

/-- R156: the board step stops at the cell and the scan goes on with the pool scan. -/
def State.boardStops (s : State) : State :=
  let s1 := s.accessFailed
  { s1 with scan := s1.startPool }

/-- CELL_READ_FAILED (R156). -/
def execCellReadFailed (s : State) : Host.Outcome State Fault Refusal :=
  .next
    (match s.scan.step with
    | .cell => s.boardStops
    | _ => s)

/-- ARM_RECORD_READ (R5): the whole record has been read and the checks are applied. -/
def execArmRecordRead (bytes : List Byte) (s : State) : Host.Outcome State Fault Refusal :=
  .next
    (match s.scan.step with
    | .armRead tag a =>
      let r := ArmRecord.parse bytes
      { s with scan := { s.scan with step := .armChecked tag a r r.failure } }
    | _ => s)

/-- ARM_RECORD_READ_FAILED (R5, R156): the ARM is not taken. -/
def execArmRecordReadFailed (s : State) : Host.Outcome State Fault Refusal :=
  .next
    (match s.scan.step with
    | .armRead _ _ => s.boardStops
    | _ => s)

/-- TAKEN_WRITE (R154, R156): the request stands taken and held whether or not the write was done. -/
def execTakenWrite (how : WriteEnd) (s : State) : Host.Outcome State Fault Refusal :=
  .next
    (match s.scan.step with
    | .takenWrite => (s.writeEnds how (s.bus.cellAddress s.scan.cursor) takenBytes).nextCell
    | _ => s)

/-- RESULT_AREA_WRITE (R155, R156): the state word follows a done write; after a failed one the result is lost and the
cell is held no longer. Either way the cell leaves its flush (R146). -/
def execResultAreaWrite (how : WriteEnd) (s : State) : Host.Outcome State Fault Refusal :=
  .next
    (match s.scan.step with
    | .resultWrite a bytes =>
      let s1 := s.writeEnds how (s.bus.cellAddress s.scan.cursor + 32) bytes
      let s2 := { s1 with writer := s1.writer.dropFlushCell s1.scan.cursor }
      match how with
      | .done => { s2 with scan := { s2.scan with step := .stateWrite a } }
      | .failed => { s2 with scan := s2.scan.drop s2.scan.cursor }.nextCell
    | _ => s)

/-- STATE_WORD_WRITE (R155, R156): REQUEST is raised after a done write; after a failed one the cell is kept held with
its result. -/
def execStateWordWrite (how : WriteEnd) (s : State) : Host.Outcome State Fault Refusal :=
  .next
    (match s.scan.step with
    | .stateWrite a =>
      let s1 := s.writeEnds how (s.bus.cellAddress s.scan.cursor) (stateBytes a)
      match how with
      | .done => ({ s1 with scan := s1.scan.drop s1.scan.cursor }.raise .request).nextCell
      | .failed =>
        let h : Held := { cell := s1.scan.cursor, kind := a.kind, tag := a.tag, result := some a.result, due := false }
        { s1 with scan := s1.scan.keep h }.nextCell
    | _ => s)

/-! ### The pool scan (R132 to R134) -/

/-- The entry after `i`, wrapping at the pool count (R133). -/
def Arming.nextEntry (a : Arming) (i : Fin 256) : Fin 256 :=
  if i.val + 1 < a.poolCount then Fin.ofNat 256 (i.val + 1) else 0

/-- Whether the Writer's own write to a pool entry is in flight (R133). -/
def Writer.writesEntry (w : Writer) (i : Fin 256) : Bool :=
  match w.turn with
  | none => false
  | some t =>
    let own : Bool := match w.sheets[t.track] with
      | some o => decide (o.index = i)
      | none => false
    match t.write with
    | .writing q => decide (q.index = i)
    | .closed _ | .faulted => own
    | .item | .header _ _ => false

/-- The status that the map holds for an entry (R133). -/
def Owner.status : Owner → Option PoolStatus
  | .notHeld => none
  | .standby => some .standby
  | .writing _ => some .writing

/-- The status word that the map gives a held entry (R133, R169). -/
def Writer.statusWordOf (w : Writer) (i : Fin 256) : List Byte :=
  match w.owner[i] with
  | .notHeld | .standby => statusBytes .standby 0 0
  | .writing t =>
    match w.sheets[t] with
    | some o => statusBytes .writing t.val o.serial
    | none => statusBytes .writing t.val 0

/-- POOL_ENTRY_READ (R133): the entry at the pool cursor is queued, passed over or rewritten; the cursor moves to the
entry after it. -/
def execPoolEntryRead (bytes : List Byte) (s : State) : Host.Outcome State Fault Refusal :=
  .next
    (match s.scan.step, s.writer.arming with
    | .poolRead count, some a =>
      let i := s.writer.poolCursor
      let e := PoolEntry.parse bytes
      let s1 := { s with writer := { s.writer with poolCursor := a.nextEntry i } }
      let pass : State := { s1 with scan := s1.poolNext (count + 1) }
      if s.writer.writesEntry i then pass
      else
        match s.writer.owner[i].status with
        | none =>
          if e.status = PoolStatus.free.code then
            { s1 with scan := { s1.scan with step := .standby { index := i, address := e.address } (count + 1) } }
          else pass
        | some st =>
          if e.status = st.code then pass
          else
            { s1 with scan := { s1.scan with step := .tamper i (s.writer.statusWordOf i) (count + 1) } }.raise .tamper
    | _, _ => s)

/-- POOL_READ_FAILED (R134): the scan stops with the cursor at the entry. -/
def execPoolReadFailed (s : State) : Host.Outcome State Fault Refusal :=
  .next
    (match s.scan.step with
    | .poolRead _ =>
      let s1 := s.accessFailed
      { s1 with scan := s1.startHead }
    | _ => s)

/-- R133: an entry whose STANDBY write is done is held and queued; the queue holds at most 64 (R131). -/
def Writer.enqueue (w : Writer) (q : Queued) : Writer :=
  { w.setOwner q.index .standby with queue := if w.queue.length < 64 then w.queue ++ [q] else w.queue }

/-- STANDBY_WRITE (R133, R134): the starving set follows the append (R145) before the scan goes on; after a failed write
the entry is not held and the scan stops. -/
def execStandbyWrite (how : WriteEnd) (s : State) : Host.Outcome State Fault Refusal :=
  .next
    (match s.scan.step, s.writer.arming with
    | .standby q count, some a =>
      let s1 := s.writeEnds how (a.status q.index) (statusBytes .standby 0 0)
      match how with
      | .done =>
        let s2 := { s1 with writer := s1.writer.enqueue q }.refresh
        { s2 with scan := s2.poolNext count }
      | .failed => { s1 with scan := s1.startHead }
    | _, _ => s)

/-- TAMPER_REWRITE (R133, R134): the scan goes on either way. -/
def execTamperRewrite (how : WriteEnd) (s : State) : Host.Outcome State Fault Refusal :=
  .next
    (match s.scan.step, s.writer.arming with
    | .tamper i bytes count, some a =>
      let s1 := s.writeEnds how (a.status i) bytes
      { s1 with scan := s1.poolNext count }
    | _, _ => s)

/-! ### The head and the panels (R157, R159) -/

/-- HEAD_WRITE (R157): the panels follow, done or failed. -/
def execHeadWrite (how : WriteEnd) (s : State) : Host.Outcome State Fault Refusal :=
  .next
    (match s.scan.step with
    | .head bytes =>
      let s1 := s.writeEnds how s.bus.directory bytes
      { s1 with scan := s1.startPanel 0 }
    | _ => s)

/-- PANEL_WRITE (R159, R151): the next entry follows, done or failed; the scan ends after the last. The entries of each panel
are written in ascending index, an order that R152 leaves open (DESIGN CHOICE, assumption 63). -/
def execPanelWrite (how : WriteEnd) (s : State) : Host.Outcome State Fault Refusal :=
  .next
    (match s.scan.step with
    | .panel e bytes =>
      let s1 := s.writeEnds how (s.bus.directory + BitVec.ofNat 64 (panelOffset e)) bytes
      { s1 with
        scan := if h : e.val + 1 < 50 then s1.startPanel ⟨e.val + 1, h⟩ else { s1.scan with step := .idle } }
    | _ => s)

end Sys2Proof.Machine
end

