-- ==== Sys2Proof/Machine/WriterEvents.lean ====
section
/-! DEFINITION. The Record Writer's turns and the completions of a drain, an abandon and a flush (R14, R16, R135 to R146),
one definition per command. An end that is not of the turn's write under way changes nothing (assumption 1). -/
namespace Sys2Proof.Machine

/-- WRITER_TURN (R135): with no turn in progress, a turn for the next ready track. -/
def execWriterTurn (s : State) : Host.Outcome State Fault Refusal :=
  .next
    (match s.writer.turn, s.nextTrack with
    | none, some t => (s.serve t).refresh
    | _, _ => s)

/-- R136: a WRITING write that failed: the entry is forgotten. -/
def State.openFailed (s : State) (q : Queued) : State :=
  { s.accessFailed with writer := s.writer.setOwner q.index .notHeld }.turnEnded

/-- WRITING_WRITE (R136): the sheet is opened and the turn goes on to the head item, or the turn ends. -/
def execWritingWrite (how : WriteEnd) (s : State) : Host.Outcome State Fault Refusal :=
  .next
    (match s.writer.turn, s.writer.arming with
    | some { track := t, write := .writing q }, some a =>
      match how with
      | .done =>
        let s1 := s.write (a.status q.index) (statusBytes .writing t.val s.writer.serials[t])
        let s2 := { s1 with writer := s1.writer.opened t q s.frame }.startItem t
        if s2.writer.turn = none then s2.turnEnded else s2.refresh
      | .failed => s.openFailed q
    | _, _ => s)

/-- R137, R146: the records after an acknowledged item of track `t`. -/
def Writer.itemWritten (w : Writer) (t : Fin 34) (o : OpenSheet) (i : Item) : Writer :=
  { w.setSheet t (some (o.wrote i)) with flush := w.flush.map fun f => f.wrote t }

/-- ITEM_WRITE_DONE (R137, R123): the item stands in the sheet and is released; the open-sheet record, a close pending
and a flush count it; work that waits for room is offered (R100, R127, R14). -/
def execItemWriteDone (s : State) : Host.Outcome State Fault Refusal :=
  .next
    (match s.writer.turn with
    | some { track := t, write := .item } =>
      match s.writer.sheets[t], s.path.bays.bay[t].items with
      | some o, i :: _ =>
        let s1 := s.write (sheetBase o.address + BitVec.ofNat 64 (64 + o.used)) i.bytes
        ({ s1 with writer := s1.writer.itemWritten t o i }.released t).turnEnded
      | _, _ => s.turnEnded
    | _ => s)

/-- ITEM_WRITE_FAILED (R141): the item stays, and the sheet is ended as FAULTED, its header first. -/
def execItemWriteFailed (s : State) : Host.Outcome State Fault Refusal :=
  .next
    (match s.writer.turn with
    | some { track := t, write := .item } =>
      match s.writer.sheets[t] with
      | some o => s.accessFailed.startHeader t o .fault
      | none => s.accessFailed.turnEnded
    | _ => s)

/-- HEADER_WRITE (R139, R141): CLOSED follows a done header. A failed one ends the sheet by R141, whose own header is
written next; after that header, done or failed, FAULTED follows (assumption 45). -/
def execHeaderWrite (how : WriteEnd) (s : State) : Host.Outcome State Fault Refusal :=
  .next
    (match s.writer.turn with
    | some { track := t, write := .header reason bytes } =>
      match s.writer.sheets[t] with
      | some o =>
        let s1 := s.writeEnds how (sheetBase o.address) bytes
        if reason = .fault then s1.setTurn (some { track := t, write := .faulted })
        else
          match how with
          | .done => s1.setTurn (some { track := t, write := .closed reason })
          | .failed => s1.startHeader t o .fault
      | none => s.turnEnded
    | _ => s)

/-- The sheets closed total one higher; past its range it is a free value (R131; assumption 7). -/
def State.countClosed (s : State) : State :=
  if s.writer.closedTotal < 4294967295 then
    { s with writer := { s.writer with closedTotal := s.writer.closedTotal + 1 } }
  else
    { s with writer := { s.writer with closedTotal := (Config.sheetsPastMax s.draws).toNat }, draws := s.draws + 1 }

/-- R144: a sheet closed with reason SITTING_CLOSED is counted for the CLOSE cell. -/
def Sitting.countSheet (st : Sitting) (reason : SheetReason) : Sitting :=
  { st with close := st.close.map fun t =>
      { t with sheets := if reason = .sittingClosed then t.sheets + 1 else t.sheets } }

/-- CLOSED_WRITE (R139): the record is removed and the map forgets the entry, done or failed; a done write counts the
sheet and raises SHEET. A failed one counts it nowhere, for a flush or a close either (DESIGN CHOICE, assumption 52). -/
def execClosedWrite (how : WriteEnd) (s : State) : Host.Outcome State Fault Refusal :=
  .next
    (match s.writer.turn, s.writer.arming with
    | some { track := t, write := .closed reason }, some a =>
      match s.writer.sheets[t] with
      | some o =>
        let s1 := s.writeEnds how (a.status o.index) (statusBytes .closed t.val o.serial)
        match how with
        | .done =>
          ({ s1.countClosed with
              writer := s1.countClosed.writer.sheetEnded t o reason
              sitting := s1.sitting.countSheet reason }.raise .sheet).turnEnded
        | .failed => { s1 with writer := s1.writer.sheetEnded t o .fault }.turnEnded
      | none => s.turnEnded
    | _, _ => s)

/-- FAULTED_WRITE (R141): the record is removed and the map forgets the entry, done or failed. -/
def execFaultedWrite (how : WriteEnd) (s : State) : Host.Outcome State Fault Refusal :=
  .next
    (match s.writer.turn, s.writer.arming with
    | some { track := t, write := .faulted }, some a =>
      match s.writer.sheets[t] with
      | some o =>
        let s1 := s.writeEnds how (a.status o.index) (statusBytes .faulted t.val o.serial)
        { s1 with writer := s1.writer.sheetEnded t o .fault }.turnEnded
      | none => s.turnEnded
    | _, _ => s)

/-- DRAIN_COMPLETE (R14): once every condition holds. -/
def execDrainComplete (s : State) : Host.Outcome State Fault Refusal :=
  .next
    (match s.sitting.close with
    | some t => if s.drained then (s.reachArmed t 0 0).refresh else s
    | none => s)

/-- R16, R146: what an abandon hands to its cells, and to a flush that it emptied. -/
def State.completeAbandon (s : State) (a : Abandon) (d : Discarded) (t : CloseTarget) : State :=
  let s1 := s.reachArmed t (d.channels + d.mix + d.marks) 1
  let s2 := { s1 with scan := s1.scan.finishAll a.cells (Result.mk3 .done d.channels d.mix d.marks) }
  match s2.writer.flush with
  | some f => if f.abandoned ∧ f.complete = false then s2.completeFlush f else s2
  | none => s2

/-- ABANDON_COMPLETE (R16): once the last close is done. -/
def execAbandonComplete (s : State) : Host.Outcome State Fault Refusal :=
  .next
    (match s.sitting.abandon, s.sitting.close with
    | some { cells := cs, discarded := some d }, some t =>
      if s.abandoned then (s.completeAbandon { cells := cs, discarded := some d } d t).refresh else s
    | _, _ => s)

/-- FLUSH_COMPLETE (R146): once the counts are 0 and the set is empty. -/
def execFlushComplete (s : State) : Host.Outcome State Fault Refusal :=
  .next
    (match s.writer.flush with
    | some f => if f.due then s.completeFlush f else s
    | none => s)

end Sys2Proof.Machine
end

