-- ==== Sys2Proof/Machine/Dispatch.lean ====
section
/-! DEFINITION. What each command does: one arm per row of the table, one meaning per arm. -/
namespace Sys2Proof.Machine

/-- The effect of a command on everything but the queue of waiting commands. -/
def exec (i : Instr) (s : State) : Host.Outcome State Fault Refusal :=
  match i with
  | .controlStart => Sys2Proof.Machine.execControlStart s
  | .softReset => Sys2Proof.Machine.execSoftReset s
  | .functionReset => Sys2Proof.Machine.execFunctionReset s
  | .attentionWrite value => Sys2Proof.Machine.execAttentionWrite value s
  | .attnMaskWrite value => Sys2Proof.Machine.execAttnMaskWrite value s
  | .registerWrite offset value => Sys2Proof.Machine.execRegisterWrite offset value s
  | .powerOnReset supplyLow => Sys2Proof.Machine.execPowerOnReset supplyLow s
  | .brownOut => Sys2Proof.Machine.execBrownOut s
  | .supplyWarning => Sys2Proof.Machine.execSupplyWarning s
  | .supplyRecovery => Sys2Proof.Machine.execSupplyRecovery s
  | .boundary reportAFirst reportBFirst => Sys2Proof.Machine.execBoundary reportAFirst reportBFirst s
  | .frameSent port => Sys2Proof.Machine.execFrameSent port s
  | .pollSent port => Sys2Proof.Machine.execPollSent port s
  | .replyTimeout port lineBusy => Sys2Proof.Machine.execReplyTimeout port lineBusy s
  | .roundDeadline port => Sys2Proof.Machine.execRoundDeadline port s
  | .lineQuiet port => Sys2Proof.Machine.execLineQuiet port s
  | .characterReceived port samples => Sys2Proof.Machine.execCharacterReceived port samples s
  | .lineStuck port => Sys2Proof.Machine.execLineStuck port s
  | .overcurrent port => Sys2Proof.Machine.execOvercurrent port s
  | .cellRead bytes => Sys2Proof.Machine.execCellRead bytes s
  | .cellReadFailed => Sys2Proof.Machine.execCellReadFailed s
  | .armRecordRead bytes => Sys2Proof.Machine.execArmRecordRead bytes s
  | .armRecordReadFailed => Sys2Proof.Machine.execArmRecordReadFailed s
  | .takenWrite how => Sys2Proof.Machine.execTakenWrite how s
  | .resultAreaWrite how => Sys2Proof.Machine.execResultAreaWrite how s
  | .stateWordWrite how => Sys2Proof.Machine.execStateWordWrite how s
  | .requestRefusedKind kind => Sys2Proof.Machine.execRequestRefusedKind kind s
  | .arm address => Sys2Proof.Machine.execArm address s
  | .disarm => Sys2Proof.Machine.execDisarm s
  | .disarmFreeWrite how => Sys2Proof.Machine.execDisarmFreeWrite how s
  | .openSitting number recordAtOpen => Sys2Proof.Machine.execOpenSitting number recordAtOpen s
  | .goOnRecord => Sys2Proof.Machine.execGoOnRecord s
  | .goOffRecord => Sys2Proof.Machine.execGoOffRecord s
  | .closeSitting => Sys2Proof.Machine.execCloseSitting s
  | .abandonStaged => Sys2Proof.Machine.execAbandonStaged s
  | .setClock time => Sys2Proof.Machine.execSetClock time s
  | .trimFrame length => Sys2Proof.Machine.execTrimFrame length s
  | .portControl port power divisor => Sys2Proof.Machine.execPortControl port power divisor s
  | .portSelfTest port => Sys2Proof.Machine.execPortSelfTest port s
  | .readCounters port clear => Sys2Proof.Machine.execReadCounters port clear s
  | .releaseStation station => Sys2Proof.Machine.execReleaseStation station s
  | .setChannel channel gain threshold attack hang inMix => Sys2Proof.Machine.execSetChannel channel gain threshold attack hang inMix s
  | .setPrivacy channel flag => Sys2Proof.Machine.execSetPrivacy channel flag s
  | .setBar channel flag => Sys2Proof.Machine.execSetBar channel flag s
  | .flush => Sys2Proof.Machine.execFlush s
  | .hostMark code length text => Sys2Proof.Machine.execHostMark code length text s
  | .poolEntryRead bytes => Sys2Proof.Machine.execPoolEntryRead bytes s
  | .poolReadFailed => Sys2Proof.Machine.execPoolReadFailed s
  | .standbyWrite how => Sys2Proof.Machine.execStandbyWrite how s
  | .tamperRewrite how => Sys2Proof.Machine.execTamperRewrite how s
  | .headWrite how => Sys2Proof.Machine.execHeadWrite how s
  | .panelWrite how => Sys2Proof.Machine.execPanelWrite how s
  | .writerTurn => Sys2Proof.Machine.execWriterTurn s
  | .writingWrite how => Sys2Proof.Machine.execWritingWrite how s
  | .itemWriteDone => Sys2Proof.Machine.execItemWriteDone s
  | .itemWriteFailed => Sys2Proof.Machine.execItemWriteFailed s
  | .headerWrite how => Sys2Proof.Machine.execHeaderWrite how s
  | .closedWrite how => Sys2Proof.Machine.execClosedWrite how s
  | .faultedWrite how => Sys2Proof.Machine.execFaultedWrite how s
  | .drainComplete => Sys2Proof.Machine.execDrainComplete s
  | .abandonComplete => Sys2Proof.Machine.execAbandonComplete s
  | .flushComplete => Sys2Proof.Machine.execFlushComplete s
  | .idleIntervalFlagCleared port => Sys2Proof.Machine.execIdleIntervalFlagCleared port s
  | .lowRunReset port => Sys2Proof.Machine.execLowRunReset port s

end Sys2Proof.Machine
end

