-- ==== Sys2Proof/Machine/Tick.lean ====
section
/-! DEFINITION. One tick of the reference clock, and the part's own commands that fall due at it (R20, R22, R34, R35, R49,
R57, R58, R60, R65, R135, R14, R16, R146; assumption 2). -/
namespace Sys2Proof.Machine

/-- A tick of a port's transmission and reply window; in TESTING the characters sent are counted (R33, R35, R49,
R60). -/
def Port.linkTick (pt : Port) : Port :=
  let tx := if pt.sending.isEmpty then pt.txTicks else pt.txTicks + 1
  let window := if pt.phase = .awaiting then pt.windowTicks + 1 else pt.windowTicks
  { pt with
    txTicks := tx
    windowTicks := window
    window := if pt.phase = .awaiting then min 24 (window / charTicks pt.divisor) else pt.window
    selfTest := pt.selfTest.map fun t => { t with sent := max t.sent (min 257 (tx / charTicks pt.divisor)) } }

/-- A tick of a port, its line supervisor among it (R42). -/
def Port.tick (pt : Port) : Port := pt.superviseTick.linkTick

/-- R49: the character of the self-test stream that has been sent into the loopback and not yet received, as the receiver
samples it. -/
def Port.loopedBack (pt : Port) : Option (BitVec 88) :=
  match pt.state, pt.selfTest with
  | .testing, some t => if t.received < t.sent then pt.sending[t.received]?.map cleanSamples else none
  | _, _ => none

/-- The commands of a port that are due at tick `n` of an interval of `i` ticks; a REPLY_TIMEOUT that a tick makes due finds
the line idle (assumption 19). -/
def Port.due (pt : Port) (p : PortId) (n i : Nat) : List Instr :=
  let sent := decide (2 * charTicks pt.divisor ≤ pt.txTicks) && !pt.sending.isEmpty
  (if sent && (pt.inPhase .framing || decide (pt.state = .starting)) then [.frameSent p] else [])
    ++ (if sent && pt.inPhase .polling then [.pollSent p] else [])
    ++ (if pt.inPhase .awaiting ∧ 24 * charTicks pt.divisor ≤ pt.windowTicks then [.replyTimeout p false] else [])
    ++ (if pt.inRound ∧ pt.deadlinePassed = false ∧ n = roundDeadline i then [.roundDeadline p] else [])
    ++ (if pt.lineStuck then [.lineStuck p] else [])
    ++ (pt.loopedBack.map (Instr.characterReceived p)).toList

/-- The commands of the Record Writer and of the completions that are due. -/
def State.writerDue (s : State) : List Instr :=
  (if s.writer.turn = none ∧ s.nextTrack.isSome then [.writerTurn] else [])
    ++ (if s.drained then [.drainComplete] else [])
    ++ (if s.abandoned then [.abandonComplete] else [])
    ++ (match s.writer.flush with
      | some f => if f.due then [.flushComplete] else []
      | none => [])

/-- A tick counted: the tick count stays below I, and where it would reach I a boundary is due instead (R20, R22). -/
def State.countTick (s : State) : State :=
  { s with
    timer := { s.timer with tick := min (s.timer.tick + 1) (s.timer.interval - 1) }
    portA := s.portA.tick
    portB := s.portB.tick }

/-- A tick with no command waiting: while the timer runs the tick is counted and what falls due waits in the queue;
while it does not the part idles. The boundary that a tick queues takes both ports' reports before the close of the
frame, one of the two orders that R97 allows (DESIGN CHOICE, assumption 46). -/
def State.idle (s : State) : State :=
  if s.timer.running then
    let s1 := s.countTick
    let n := s.timer.tick + 1
    { s1 with
      pending := s1.writerDue ++ s1.portA.due .a n s.timer.interval ++ s1.portB.due .b n s.timer.interval
        ++ (if s.timer.interval ≤ n then [.boundary true true] else []) }
  else s

end Sys2Proof.Machine
end

