-- ==== Sys2Proof/Safety.lean ====
section
/-! DEFINITION. What a safe part is: the ranges and relations of its state that the spec gives and that every step
keeps. -/
namespace Sys2Proof.Machine

/-- Every bay's fill is at most its size (R122). -/
def State.baysFit (s : State) : Prop := ∀ t : Fin 34, s.path.bays.bay[t].fill ≤ s.path.bays.bay[t].capacity

/-- A port's power switch is CLOSED exactly in STARTING, RUNNING and STUCK (R39). -/
def State.switchesRight (s : State) : Prop :=
  s.portA.closed = s.portA.state.switchClosed ∧ s.portB.closed = s.portB.state.switchClosed

/-- The ranges of the Frame Timer's items that R20 gives and no clock or trim can leave. -/
def State.timerInRange (s : State) : Prop :=
  (389284 ≤ s.timer.interval ∧ s.timer.interval ≤ 397148) ∧ (389284 ≤ s.timer.next ∧ s.timer.next ≤ 397148) ∧
    s.timer.tick < s.timer.interval ∧ s.timer.rem < 12288

/-- The Free Sheet Queue holds at most 64 indices (R131). -/
def State.queueFits (s : State) : Prop := s.writer.queue.length ≤ 64

/-- The starving set is the tracks of R145: the bay holds an item, no sheet is open and the queue is empty. -/
def State.starvingRight (s : State) : Prop :=
  ∀ t : Fin 34, s.writer.starving[t] = true ↔
    s.path.bays.bay[t].items ≠ [] ∧ s.writer.sheets[t] = none ∧ s.writer.queue = []

/-- The bytes of host memory that the part has written are in their canonical form (assumption 9). -/
def State.memoryOrdered (s : State) : Prop := Memory.wf s.hostMem = true

/-- The bus-fault count and the sheets closed total are in their ranges (R131, R148). -/
def State.countsInRange (s : State) : Prop := s.bus.busFaults ≤ 4294967295 ∧ s.writer.closedTotal ≤ 4294967295

/-- The five counters of a port and its counts are in their ranges (R33). -/
def Port.inRange (pt : Port) : Prop :=
  pt.framing ≤ 65535 ∧ pt.check ≤ 65535 ∧ pt.noReply ≤ 65535 ∧ pt.lateCut ≤ 65535 ∧ pt.stuck ≤ 65535 ∧
    pt.starting ≤ 50 ∧ pt.cooldown ≤ 125 ∧ pt.lowRun ≤ 4096 ∧ pt.window ≤ 24

/-- Both ports are in range. -/
def State.portsInRange (s : State) : Prop := s.portA.inRange ∧ s.portB.inRange

/-- A channel's requested settings are in their ranges (R85). -/
def Settings.inRange (t : Settings) : Prop :=
  t.gain ≤ 16383 ∧ t.threshold ≤ 32767 ∧ (1 ≤ t.attack ∧ t.attack ≤ 8) ∧ t.hang ≤ 255

/-- Every channel's requested settings are in range, and no channel holds more than two snapshots (R85). -/
def State.channelsInRange (s : State) : Prop :=
  ∀ c : Fin 32, s.path.channels[c].settings.inRange ∧ s.path.channels[c].snapshots.length ≤ 2

/-- A station record holds what R70 gives it in its state, and its slips are in their range. -/
def Station.inRange (st : Station) : Prop :=
  (match st.state with
    | .vacant => st.unit = none ∧ st.lostCause = none ∧ st.goodRun = 0 ∧ st.missRun = 0
    | .joining => st.unit ≠ none ∧ st.lostCause = none ∧ st.goodRun ≤ 7 ∧ st.missRun ≤ 24
    | .present => st.unit ≠ none ∧ st.lostCause = none ∧ st.goodRun = 8 ∧ st.missRun = 0
    | .missing => st.unit ≠ none ∧ st.lostCause = none ∧ st.goodRun = 8 ∧ 1 ≤ st.missRun ∧ st.missRun ≤ 24
    | .lost => st.unit ≠ none ∧ st.goodRun = 0 ∧
        ((st.lostCause = some .misses ∧ st.missRun = 25) ∨ (st.lostCause = some .port ∧ st.missRun = 0))) ∧
    ∀ m : Fin 2, -32767 ≤ st.mics[m].slip ∧ st.mics[m].slip ≤ 32767

/-- Every station record is in range (R70). -/
def State.stationsInRange (s : State) : Prop := ∀ k : Fin 16, s.path.stations[k].inRange

/-- The channel counts, the mix's clip count and the withheld count are in their ranges (R85, R104, R120). -/
def Path.tracksInRange (p : Path) : Prop :=
  (∀ c : Fin 32, p.channels[c].clips ≤ 65535 ∧ p.channels[c].captured ≤ 4294967295 ∧ p.channels[c].voids ≤ 4294967295) ∧
    p.fcu.mixClips ≤ 65535 ∧ p.bays.withheld ≤ 4294967295

/-- The counts of a state's tracks are in their ranges (R85, R104, R120). -/
def State.tracksInRange (s : State) : Prop := s.path.tracksInRange

/-- A void run's own cause covers 1 to 65,535 frames (R85, R98). -/
def VoidRun.inRange (r : VoidRun) : Prop := 1 ≤ r.length ∧ r.length ≤ 65535

/-- Every pending void run is in range (R85, R98). -/
def Path.runsInRange (p : Path) : Prop :=
  (∀ (c : Fin 32) (r : VoidRun), p.channels[c].run = some r → r.inRange) ∧ ∀ r, p.fcu.mixRun = some r → r.inRange

/-- Every pending void run of a state is in range (R85, R98). -/
def State.runsInRange (s : State) : Prop := s.path.runsInRange

/-- A step that stops: none does (see Fault and Refusal). -/
def State.goesOn (s : State) : Prop := ∃ t, step s = .next t

/-! ### What a step leaves as it was -/

/-- The bytes stand at rising addresses from `a`, and every other address reads as before. -/
def Stored (a : Word64) (bytes : List Byte) (before after : List Host.Cell) : Prop :=
  (∀ i b, bytes[i]? = some b → memRead (a + BitVec.ofNat 64 i).toNat after = some b) ∧
    ∀ x, (∀ i, i < bytes.length → x ≠ (a + BitVec.ofNat 64 i).toNat) → memRead x after = memRead x before

/-- A bus write of the part that ended: done, its bytes stand in host memory; failed, nothing of it is recorded, the
bus-fault count is one higher and BUSFAULT is raised (R148, R156). Nothing else of the bus and the path changed. -/
def WriteEnded (s t : State) (how : WriteEnd) (a : Word64) (bytes : List Byte) : Prop :=
  match how with
  | .done => Stored a bytes s.hostMem t.hostMem ∧ t.bus = s.bus ∧ t.path = s.path
  | .failed =>
    t.hostMem = s.hostMem ∧ t.bus = { s.bus with busFaults := min 4294967295 (s.bus.busFaults + 1) } ∧
      t.path = { s.path with attn := s.path.attn.raise .busFault }

/-- The scanner has begun to write a short answer into the cell at its cursor, the result area formed from the state as
it now stands (R154, R155). -/
def Answered (s t : State) (tag kind : Word16) (r : Result) : Prop :=
  let a : Answer := { kind := kind, tag := tag, result := r }
  t.scan = { s.scan with step := .resultWrite a (resultBytes t a) }

/-- The cell at the cursor is held for a long request and TAKEN is being written (R154). -/
def HeldFor (s t : State) (tag kind : Word16) (r : Option Result) : Prop :=
  let h : Held := { cell := s.scan.cursor, kind := kind, tag := tag, result := r, due := false }
  t.scan = { s.scan.keep h with step := .takenWrite }

/-- Only port `p`, the audio path and the starving set may have changed. -/
def OnlyLink (s t : State) (p : PortId) : Prop :=
  t = { s.setPort p (t.port p) with path := t.path, writer := { s.writer with starving := t.writer.starving } }

/-- A character from the line left port `p` as `q`, but for what the line supervisor counts (R42), and the path as it was,
but for attention. -/
def TookCharacter (s t : State) (p : PortId) (q : Port) : Prop :=
  OnlyLink s t p ∧ t.path = { s.path with attn := t.path.attn } ∧
    t.port p = { q with lowRun := (t.port p).lowRun, lineLow := (t.port p).lineLow, lowTicks := (t.port p).lowTicks }

/-- The address is VACANT or LOST and not in the poll list given, so that the probe can go to it (R59, R71). -/
def State.vacancy (s : State) (p : PortId) (list : List (Fin 8)) (a : Fin 8) : Prop :=
  (s.path.stations[stationAt p a].state = .vacant ∨ s.path.stations[stationAt p a].state = .lost) ∧ a ∉ list

/-- What a poll made, or none, leaves of the round's figures (R56, R58): the list polls made and the address probed. -/
def FiguresAre (s t : State) (p : PortId) (polls : Nat → Nat) (probe : Option (Fin 8) → Option (Fin 8)) : Prop :=
  (t.port p).current.map Figures.listPolls = (s.port p).current.map (fun g => polls g.listPolls) ∧
    (t.port p).current.map Figures.probe = (s.port p).current.map (fun g => probe g.probe)

/-- The round end of port `p` is this moment, in whole character times after the boundary (R56). -/
def RoundEndsNow (s t : State) (p : PortId) : Prop :=
  (t.port p).current.map Figures.roundEnd =
    (s.port p).current.map (fun _ => s.timer.tick / (88 * ((s.port p).divisor + 1)))

/-- How port `p` goes on where a call is over (R58, R59), `busy` saying that the line is. After the deadline, or on a busy
line, no call follows. Else the next station of the list is polled, which the round's figures count; after the list, the
first VACANT or LOST address after the probe cursor, searching upward and wrapping from 7 to 0, one that this round's list
made LOST passed over (R57, R71; assumption 62), and it is the probe of the figures; and with the probe made, or no such
address, the round is over and the cursor stays. The list of the round stands (R57). -/
def CallOver (s t : State) (p : PortId) (busy : Bool) : Prop :=
  (t.port p).pollList = (s.port p).pollList ∧
  ((s.port p).deadlinePassed = true ∨ busy = true →
    (t.port p).target = none ∧ (t.port p).probeCursor = (s.port p).probeCursor ∧ FiguresAre s t p id id) ∧
  ((s.port p).deadlinePassed = false → busy = false →
    (∀ a rest, (s.port p).remaining = a :: rest →
      (t.port p).phase = .polling ∧ (t.port p).target = some { addr := a, probe := false } ∧
        (t.port p).remaining = rest ∧ (t.port p).probeCursor = (s.port p).probeCursor ∧ FiguresAre s t p (· + 1) id) ∧
    ((s.port p).remaining = [] →
      ((s.port p).probeDone = true ∨ (∀ b, ¬t.vacancy p (s.port p).pollList b) →
        (t.port p).phase = .ended ∧ (t.port p).target = none ∧ (t.port p).probeCursor = (s.port p).probeCursor ∧
          FiguresAre s t p id id) ∧
      ((s.port p).probeDone = false → ∀ (n : Nat) (a : Fin 8), n < 8 →
        a.val = ((s.port p).probeCursor.val + 1 + n) % 8 → t.vacancy p (s.port p).pollList a →
        (∀ (j : Nat) (b : Fin 8), j < n → b.val = ((s.port p).probeCursor.val + 1 + j) % 8 →
          ¬t.vacancy p (s.port p).pollList b) →
        (t.port p).phase = .polling ∧ (t.port p).target = some { addr := a, probe := true } ∧
          (t.port p).probeCursor = a ∧ FiguresAre s t p id (fun _ => some a) ∧
          (t.port p).sending = [controlChar (pollChar a),
            dataChar (lampByte (t.path.lampNow s.ctx (channelOf (stationAt p a) 0))
              (t.path.lampNow s.ctx (channelOf (stationAt p a) 1)))])))

/-- The audio path of `t` is `q` but for lamp states, and every cause pending in `q` is pending. -/
def PathIs (t : State) (q : Path) : Prop :=
  t.path = { q with attn := t.path.attn, channels := t.path.channels } ∧
    (∀ c : Fin 32, t.path.channels[c] = { q.channels[c] with lamp := t.path.channels[c].lamp }) ∧
    ∀ i, q.attn.pending.getLsbD i = true → t.path.attn.pending.getLsbD i = true

/-- The path that one report for each of several stations of port `p` leaves, in their order (R71). -/
def State.pathAfter (s : State) (p : PortId) (stations : List (Fin 8)) (r : Report) : Path :=
  stations.foldl (fun q a => q.report s.ctx s.ctx.polled (stationAt p a) false r) s.path

/-- The first cause of R95's table, or of R97's list, that applies to an on-record frame: `asked` that
privacy is effective, `down` that no round was made, `st` the record, `last` the cause at the table's end, none for
SAMPLE. -/
def firstCause (asked warning down : Bool) (st : Station) (last : Option VoidCause) : Option VoidCause :=
  if asked then some .privacy
  else if warning then some .power
  else if down then some .portDown
  else if st.state = .vacant ∨ st.state = .lost then some .noStation
  else if st.state = .joining then some .joining
  else last

/-- The cause at the end of R95's table for the report of a call, after NO_MIC; none for SAMPLE. -/
def Report.lastCause : Report → Option VoidCause
  | .noReply => some .noReply
  | .bad => some .check
  | .late => some .late
  | .good _ | .notRunning | .supply => none

/-- R118: whether a block offered to the bay at that fill is offered in economy: the flag is clear and the fill at least three
quarters of the size, or it is set and the fill above one quarter. -/
def Bay.offersEconomy (b : Bay) (fill : Nat) : Bool :=
  if b.economy then decide (b.capacity < 4 * fill) else decide (3 * b.capacity ≤ 4 * fill)

/-- R117: the room that a block of `n` gained samples takes, full or in economy. -/
def blockRoom (economy : Bool) (n : Nat) : Nat := pad4 (16 + 2 * if economy then (n + 1) / 2 else n)

/-- The report `r` of a call was handed for station `a` of port `p`, `st` being its record after it (R71, R89, R95): each
on-record frame of its seated channels that was in computation and unsettled, with no run pending, is void with the first
cause of R95's table that applies; with none, a good bundle's frame is SAMPLE where its full block fits the bay, and
SAMPLE or NO_ROOM otherwise. -/
def Called (s t : State) (p : PortId) (a : Fin 8) (r : Report) (st : Station) : Prop :=
  ∀ (m : Fin 2) (c : Fin 32) (f : Nat) (sn : Snapshot) (bay : Bay) (cause : Option VoidCause),
    c = channelOf (stationAt p a) m → s.ctx.polled = some f → s.path.channels[c].snapshot f = some sn →
    sn.onRecord = true → s.path.channels[c].seated = true → s.path.channels[c].settled = false →
    s.path.channels[c].run = none → s.sitting.within f = true → s.path.bays.bay[trackOf (soundTrack c)] = bay →
    cause = firstCause ((st.mics[m].button || sn.settings.privacy) && !sn.settings.bar) s.supply.warning false st
      (if st.mics[m].present = false then some .noMic else r.lastCause) →
    t.path.channels[c].settled = true ∧
    (∀ k, cause = some k → t.path.channels[c].outcome = some (.void k)) ∧
    ∀ b, cause = none → r = .good b →
      (t.path.channels[c].outcome = some .sample ∨ t.path.channels[c].outcome = some (.void .noRoom)) ∧
      (bay.fill + pad4 (16 + 2 * b.samples[m].length) ≤ bay.capacity → t.path.channels[c].outcome = some .sample)

/-- A report without a bundle was handed for station `a` of port `p` (R71, R89, R95): each on-record frame of its seated
channels that was in computation and unsettled is void with the cause given, or with PRIVACY where the last button state
or the host asks and the bar is clear. -/
def Handed (s t : State) (p : PortId) (a : Fin 8) (cause : VoidCause) : Prop :=
  ∀ (m : Fin 2) (c : Fin 32) (f : Nat) (sn : Snapshot) (asked : Bool),
    c = channelOf (stationAt p a) m → s.ctx.polled = some f → s.path.channels[c].snapshot f = some sn →
    sn.onRecord = true → s.path.channels[c].seated = true → s.path.channels[c].settled = false →
    s.path.channels[c].run = none → s.sitting.within f = true →
    asked = ((s.path.stations[stationAt p a].mics[m].button || sn.settings.privacy) && !sn.settings.bar) →
    t.path.channels[c].settled = true ∧
      t.path.channels[c].outcome = some (.void (if asked then .privacy else cause))

/-- The Writer's own write to pool entry `i` is in flight: WRITING of a sheet to open, or CLOSED or FAULTED of an open
one (R133). -/
def State.writesEntry (s : State) (i : Fin 256) : Prop :=
  (∃ k q, s.writer.turn = some { track := k, write := .writing q } ∧ q.index = i) ∨
    ∃ (k : Fin 34) (o : OpenSheet), s.writer.sheets[k] = some o ∧ o.index = i ∧
      ((∃ r, s.writer.turn = some { track := k, write := .closed r }) ∨
        s.writer.turn = some { track := k, write := .faulted })

/-- The board step does nothing at a cell: it is held and its owning block has not finished before the scan began
(R153). -/
def Scanner.passedOver (sc : Scanner) (c : Fin 16) : Prop :=
  ∃ h, sc.heldAt c = some h ∧ (h.due = false ∨ h.result = none)

/-- The mark stands in bay 33, or no room of its class is left for it there (R126). -/
def Bays.tells (bs : Bays) (m : Mark) : Prop :=
  .mark m ∈ bs.bay[markTrack].items ∨ m.kind.level bs.bay[markTrack] < bs.bay[markTrack].fill + m.kind.size

/-- The bit of an attention cause in ATTENTION is 1. -/
def Raised (s : State) (c : Cause) : Prop := s.path.attn.pending.getLsbD c.position = true

/-- A request `c` that is answered at once: taken from the cell at the cursor it gives `s'`, the part with the
request's effect, and the completion of the cell with the result `r` begins (R154, R155). -/
def AnswersAtOnce (c : Instr) (s s' : State) (r : Result) : Prop :=
  ∀ tag, s.scan.step = .taking tag c →
    ∃ t, exec c s = .next t ∧ t = { s' with scan := t.scan } ∧ Answered s t tag (requestKind c) r

/-- A request `c` that is held: taken from the cell at the cursor it gives `s'`, the part with the request's effect,
and the cell is held, its result absent until the owning block has finished (R154). -/
def HeldLong (c : Instr) (s s' : State) (r : Option Result) : Prop :=
  ∀ tag, s.scan.step = .taking tag c →
    ∃ t, exec c s = .next t ∧ t = { s' with scan := t.scan } ∧ HeldFor s t tag (requestKind c) r

/-- The part right after a reset, from state `s` (R1, R19, R20, R33, R56, R70, R85, R104, R120, R131, R148, R150, R151,
R160, R162, R166): every block at its reset values, the Directory address as given; with the supply low the warning
stands and POWER is pending. Host memory, the messages already sent, the free values drawn and the commands that wait
are what they were. -/
def State.resetFrom (s : State) (dirLo dirHi : Word32) (low : Bool) : State :=
  { State.reset with
    bus := { dirLo := dirLo, dirHi := dirHi, busFaults := 0 }
    path := { State.reset.path with
      attn := { pending := if low then 0x40#10 else 0#10, mask := 0#10, messages := s.path.attn.messages } }
    supply := { warning := low, dipStart := none }
    hostMem := s.hostMem, draws := s.draws, pending := s.pending }

/-- The frames of channel `c` that its bay and its pending void run cover: one for a sample block, the length and the
tail of a run (R18, R99). -/
def Item.covers : Item → Nat
  | .sample _ => 1
  | .voidRun _ r => r.length + r.tail
  | .mark _ => 0

/-- The frames that a pending void run covers (R99). -/
def runCovers : Option VoidRun → Nat
  | some r => r.length + r.tail
  | none => 0

/-- The frames of channel `c` that stand in its bay or in its pending void run (R18). -/
def Path.covered (p : Path) (c : Fin 32) : Nat :=
  (p.bays.bay[trackOf (soundTrack c)].items.map Item.covers).sum + runCovers p.channels[c].run

/-- A run of boundaries, a next interval length written before each as TRIM FRAME writes it (R29). -/
def afterTrims : List Nat → State → State
  | [], s => s
  | n :: ns, s =>
    match exec (.boundary true true) { s with timer := { s.timer with next := n } } with
    | .next t => afterTrims ns t
    | .fault _ => s
    | .refused _ => s

/-- The arming, the partition, the seating, the queue and the ownership map are gone, and with every bay empty the starving
set (R145), the state is IDLE, and DISARM is being answered with the entries written FREE and those whose write failed
(R7). -/
def Disarmed (s t : State) (tag : Word16) (freed failed : Nat) : Prop :=
  t = { s with
    scan := t.scan, bus := t.bus, path := t.path, hostMem := t.hostMem
    sitting := { s.sitting with state := .idle }
    writer := { s.writer with
      arming := none, queue := [], owner := Vector.replicate 256 .notHeld, starving := Vector.replicate 34 false } } ∧
  t.path.stations = s.path.stations ∧ t.path.fcu = { s.path.fcu with mixOn := false, shift := 2 } ∧
  (∀ c : Fin 32, t.path.channels[c] = { s.path.channels[c] with seated := false }) ∧
  t.path.bays.partition = false ∧ t.path.bays.withheld = s.path.bays.withheld ∧
  (∀ k : Fin 34, t.path.bays.bay[k] = { s.path.bays.bay[k] with units := 0, items := [] }) ∧
  t.scan.poolDue = false ∧
  Answered { s with scan := { s.scan with poolDue := false } } t tag 2
    { code := .done, w0 := BitVec.ofNat 32 freed, w1 := BitVec.ofNat 32 failed, w2 := 0 }

/-- The bytes staged for the channels: the fill of bays 0 to 31, and 16 for each pending void run (R129). -/
def State.stagedChannels (s : State) : Nat :=
  ((List.finRange 32).map fun c =>
    s.path.bays.bay[trackOf (soundTrack c)].fill + (if s.path.channels[c].run.isSome then 16 else 0)).sum

/-- An abandon for the cells given has discarded everything staged: `u` is the part before it and `v` after (R16, R129, R144,
R146). Every bay and run is empty, the held SITTING_CLOSE is gone, the bytes stand counted in three classes, every open
sheet is due to be closed with reason SITTING_CLOSED and no other, and a flush waits for no item more. -/
def Discards (u v : State) (cells : List (Fin 16)) : Prop :=
  let counts : Discarded :=
    { channels := u.stagedChannels
      mix := u.path.bays.bay[trackOf mixTrack].fill + (if u.path.fcu.mixRun.isSome then 16 else 0)
      marks := u.path.bays.bay[markTrack].fill + (if u.sitting.finalMark.isSome then 20 else 0) }
  v = { u with
    scan := v.scan, path := v.path
    sitting := { u.sitting with
      finalMark := none, abandon := some { cells := cells, discarded := some counts } }
    writer := { u.writer with
      sheets := v.writer.sheets, starving := Vector.replicate 34 false
      flush := u.writer.flush.map fun f =>
        { f with remaining := Vector.replicate 34 0, abandoned := f.abandoned || !f.complete } } } ∧
  (∀ k : Fin 34, v.path.bays.bay[k] = { u.path.bays.bay[k] with items := [] }) ∧ v.path.bays.withheld = 0 ∧
  v.path.bays.partition = u.path.bays.partition ∧ v.path.stations = u.path.stations ∧
  v.path.fcu = { u.path.fcu with mixRun := none } ∧
  (∀ c : Fin 32, v.path.channels[c] = { u.path.channels[c] with run := none }) ∧
  ∀ k : Fin 34, v.writer.sheets[k] =
    u.writer.sheets[k].map fun o =>
      { o with pend := some { reason := .sittingClosed, drain := 0 }, fullDue := false, powerDue := false }

/-- At each offset given stand that many bytes of the value given, least significant first (Conventions). -/
def Fields (bytes : List Byte) (fields : List (Nat × Nat × Nat)) : Prop :=
  ∀ f ∈ fields, (bytes.drop f.1).take f.2.1 = leBytes f.2.1 f.2.2

/-- What stands where in a mark of each kind (R168): kind, total length, payload and padding, the text of a HOST_MARK
apart. The 0 between the fields of FLOOR_BEGIN, FLOOR_END and STATION_DRIFT is the model's (assumption 64). -/
def MarkKind.layout : MarkKind → List (Nat × Nat × Nat)
  | .sittingOpen n => [(1, 1, 1), (2, 2, 20), (16, 4, n.toNat)]
  | .sittingClose r => [(1, 1, 2), (2, 2, 20), (16, 1, if r = .request then 1 else 2), (17, 3, 0)]
  | .onRecord => [(1, 1, 3), (2, 2, 16)]
  | .offRecord => [(1, 1, 4), (2, 2, 16)]
  | .privacyBegin c src =>
    [(1, 1, 5), (2, 2, 20), (16, 1, c.val), (17, 1, if src = .station then 1 else if src = .benchDesk then 2 else 3),
      (18, 2, 0)]
  | .privacyEnd c cause => [(1, 1, 6), (2, 2, 20), (16, 1, c.val), (17, 1, if cause = .released then 1 else 2), (18, 2, 0)]
  | .privacyRefused c => [(1, 1, 7), (2, 2, 20), (16, 1, c.val), (17, 3, 0)]
  | .barSet c => [(1, 1, 8), (2, 2, 20), (16, 1, c.val), (17, 3, 0)]
  | .barCleared c => [(1, 1, 9), (2, 2, 20), (16, 1, c.val), (17, 3, 0)]
  | .floorBegin c f => [(1, 1, 10), (2, 2, 24), (16, 1, c.val), (17, 3, 0), (20, 4, f)]
  | .floorEnd c f => [(1, 1, 11), (2, 2, 24), (16, 1, c.val), (17, 3, 0), (20, 4, f)]
  | .stationJoined k u => [(1, 1, 12), (2, 2, 20), (16, 1, k.val), (17, 3, u.toNat)]
  | .stationLost k u => [(1, 1, 13), (2, 2, 20), (16, 1, k.val), (17, 3, u.toNat)]
  | .stationReplaced k old new =>
    [(1, 1, 14), (2, 2, 24), (16, 1, k.val), (17, 3, old.toNat), (20, 3, new.toNat), (23, 1, 0)]
  | .stationDrift c slip => [(1, 1, 15), (2, 2, 20), (16, 1, c.val), (17, 1, 0), (18, 2, (BitVec.ofInt 16 slip).toNat)]
  | .economyBegin t => [(1, 1, 16), (2, 2, 20), (16, 1, t.val), (17, 3, 0)]
  | .economyEnd t => [(1, 1, 17), (2, 2, 20), (16, 1, t.val), (17, 3, 0)]
  | .portFault p k => [(1, 1, 18), (2, 2, 20), (16, 1, portNumber p), (17, 1, if k = .stuck then 1 else 2), (18, 2, 0)]
  | .portRestored p => [(1, 1, 19), (2, 2, 20), (16, 1, portNumber p), (17, 3, 0)]
  | .powerDip first last => [(1, 1, 20), (2, 2, 24), (16, 4, first), (20, 4, last)]
  | .clockSet old new => [(1, 1, 21), (2, 2, 32), (16, 8, old.toNat), (24, 8, new.toNat)]
  | .trimSet old new => [(1, 1, 22), (2, 2, 24), (16, 4, old), (20, 4, new)]
  | .hostMark code length _ =>
    [(1, 1, 23), (2, 2, 16 + 4 * ((3 + length.toNat + 3) / 4)), (16, 2, code.toNat), (18, 1, length.toNat)]
  | .marksWithheld n => [(1, 1, 24), (2, 2, 20), (16, 4, n)]

/-- The condition that a check of R5 tests, by its number. -/
def ArmRecord.passes (r : ArmRecord) : Nat → Prop
  | 1 => 4096 ≤ r.sheetSize ∧ r.sheetSize ≤ 65536 ∧ r.sheetSize % 4096 = 0
  | 2 => 1 ≤ r.poolCount ∧ r.poolCount ≤ 256
  | 3 => r.poolAddress.toNat % 16 = 0
  | 4 => (∀ c : Fin 32, r.seating.getLsbD c.val = false → r.units[trackOf (soundTrack c)] = 0) ∧
      (r.mixOn = false → r.units[trackOf mixTrack] = 0)
  | 5 => (∀ c : Fin 32, r.seating.getLsbD c.val = true → 4 ≤ r.units[trackOf (soundTrack c)]) ∧
      (r.mixOn = true → 4 ≤ r.units[trackOf mixTrack])
  | 6 => 8 ≤ r.units[markTrack]
  | 7 => r.units.toList.sum ≤ 256
  | _ => True

/-- A track whose bay fails check 4 or check 5 of R5. -/
def ArmRecord.failsAt (r : ArmRecord) (check : Nat) (t : Fin 34) : Prop :=
  let seated := (∃ c : Fin 32, t = trackOf (soundTrack c) ∧ r.seating.getLsbD c.val = true) ∨
    (t = trackOf mixTrack ∧ r.mixOn = true)
  (check = 4 ∧ t ≠ markTrack ∧ ¬seated ∧ r.units[t] ≠ 0) ∨ (check = 5 ∧ seated ∧ r.units[t] < 4)

end Sys2Proof.Machine
end

