-- ==== Sys2Proof/Certificates/Slice0/Obligations.lean ====
section
/-! DEFINITION. The statements for the provers. Each formalises what the rules named in its docstring say a command or the
part does; where a clause is the model's choice, the docstring names the assumption log's entry. -/
open Sys2Proof Sys2Proof.Machine

/-! ### The part as a whole -/

/-- A step takes the command at the front of the queue and answers its effect, the rest still waiting (the model's
queue, assumption 2). -/
def Obligations.StepRunsTheCommandAtTheFront : Prop :=
  ∀ (c : Instr) (rest : List Instr) (s : State),
    s.pending = c :: rest → step s = exec c { s with pending := rest }

/-- On an empty queue a tick passes (R20, R22; the model's choice, assumption 2): the tick count goes up by one below I,
and at I the boundary is the last command queued, its order of reports and closes the model's (assumption 46); a stopped
part idles. Each transmission and reply window counts the tick (its line supervisor, see StuckAndTripped). What waits
then is exactly what the tick makes due, each once: ROUND_DEADLINE at tick floor(9 × I / 10) of a round (R24, R65);
REPLY_TIMEOUT after 24 character times of the reply window, with no character begun (R60; assumption 19); FRAME_SENT and
POLL_SENT after two character times of the transmission, a character being 88 × (D + 1) ticks (R35, R57, R58);
LINE_STUCK at a low run of 4,096 (R42); in TESTING the next character of the loopback, clean and at the tick that counts
it as sent (R49; the model's choice, assumption 25); WRITER_TURN with no turn and a ready track (R135); and
DRAIN_COMPLETE, ABANDON_COMPLETE and FLUSH_COMPLETE once their conditions hold (R14, R16, R146; assumption 34). -/
def Obligations.EmptyQueueCountsATick : Prop :=
  ∀ s : State, s.pending = [] →
    (s.timer.running = false → step s = .next s) ∧
    (s.timer.running = true → ∃ t, step s = .next t ∧
      t = { s with timer := { s.timer with tick := t.timer.tick }, portA := s.portA.tick, portB := s.portB.tick,
                   pending := t.pending } ∧
      (s.timer.tick + 1 < s.timer.interval →
        t.timer.tick = s.timer.tick + 1 ∧ Instr.boundary true true ∉ t.pending) ∧
      (s.timer.interval ≤ s.timer.tick + 1 →
        t.timer.tick = s.timer.interval - 1 ∧ t.pending.getLast? = some (.boundary true true)) ∧
      t.pending.Nodup ∧
      (∀ c ∈ t.pending,
        c ∈ [.writerTurn, .drainComplete, .abandonComplete, .flushComplete, .boundary true true] ∨
        (∃ p, c ∈ [.frameSent p, .pollSent p, .replyTimeout p false, .roundDeadline p, .lineStuck p]) ∨
        ∃ p x, c = .characterReceived p x) ∧
      (∀ (p : PortId) (pt : Port) (character sent : Nat), s.port p = pt → character = 88 * (pt.divisor + 1) →
        sent = (if pt.sending = [] then pt.txTicks else pt.txTicks + 1) →
        t.port p = { pt with
          txTicks := sent
          windowTicks := if pt.phase = .awaiting then pt.windowTicks + 1 else pt.windowTicks
          window := if pt.phase = .awaiting then min 24 ((pt.windowTicks + 1) / character) else pt.window
          selfTest := pt.selfTest.map fun g => { g with sent := max g.sent (min 257 (sent / character)) }
          lowRun := (t.port p).lowRun, lowTicks := (t.port p).lowTicks, idleFlag := (t.port p).idleFlag } ∧
        (.roundDeadline p ∈ t.pending ↔ pt.state = .running ∧ pt.phase ≠ .idle ∧ pt.phase ≠ .ended ∧
          pt.deadlinePassed = false ∧ s.timer.tick + 1 = 9 * s.timer.interval / 10) ∧
        (.replyTimeout p false ∈ t.pending ↔
          pt.state = .running ∧ pt.phase = .awaiting ∧ 24 * character ≤ pt.windowTicks + 1) ∧
        (.frameSent p ∈ t.pending ↔ pt.sending ≠ [] ∧ 2 * character ≤ sent ∧
          (pt.state = .starting ∨ (pt.state = .running ∧ pt.phase = .framing))) ∧
        (.pollSent p ∈ t.pending ↔ pt.sending ≠ [] ∧ 2 * character ≤ sent ∧ pt.state = .running ∧ pt.phase = .polling) ∧
        (.lineStuck p ∈ t.pending ↔ pt.state = .running ∧ 4096 ≤ (t.port p).lowRun) ∧
        ∀ x, .characterReceived p x ∈ t.pending ↔ pt.state = .testing ∧ ∃ g c, (t.port p).selfTest = some g ∧
          g.received < g.sent ∧ pt.sending[g.received]? = some c ∧ x = cleanSamples c) ∧
      (.writerTurn ∈ t.pending ↔ s.writer.turn = none ∧ ∃ k : Fin 34, s.ready k = true) ∧
      (.drainComplete ∈ t.pending ↔ s.sitting.draining = true ∧ s.sitting.abandon = none ∧
        s.sitting.finalMark = none ∧ s.writer.turn = none ∧ (∀ k : Fin 34, s.path.bays.bay[k].items = []) ∧
        (∀ k : Fin 34, s.writer.sheets[k] = none) ∧ ∀ k : Fin 33, s.path.runOf k = none) ∧
      (.abandonComplete ∈ t.pending ↔ s.writer.turn = none ∧ (∀ k : Fin 34, s.writer.sheets[k] = none) ∧
        ∃ cells d, s.sitting.abandon = some { cells := cells, discarded := some d }) ∧
      (.flushComplete ∈ t.pending ↔ ∃ f, s.writer.flush = some f ∧ f.sheets = [] ∧
        (∀ k : Fin 34, f.remaining[k] = 0) ∧ f.complete = false ∧ f.abandoned = false))

/-! ### Resets, the register window and attention -/

/-- SOFT_RESET, FUNCTION_RESET, POWER_ON_RESET and BROWN_OUT (R19, R148, R150, R162, R166): every block at its reset
values; a soft reset keeps the Directory address and a warning that stands; after a brown-out the warning stands as the
supply then is, a free value (assumption 17). -/
def Obligations.ResetsReturnEveryBlock : Prop :=
  ∀ s : State,
    exec .softReset s = .next (s.resetFrom s.bus.dirLo s.bus.dirHi s.supply.warning) ∧
    exec .functionReset s = .next (s.resetFrom s.bus.dirLo s.bus.dirHi s.supply.warning) ∧
    (∀ low, exec (.powerOnReset low) s = .next (s.resetFrom 0 0 low)) ∧
    ∃ low, exec .brownOut s = .next ({ s with draws := s.draws + 1 }.resetFrom 0 0 low)

/-- ATTENTION_WRITE and ATTN_MASK_WRITE, and any raise (R160, R161): a write of ATTENTION clears the causes whose bit is
1 and sends no message; a write of ATTN_MASK replaces the mask, keeps the pending causes, and sends one message when the
set of masked pending causes goes from empty to not empty; a raise makes its cause pending, keeps every other and the
mask, and sends one message when no masked cause was pending and the raised one is in the mask; the mask holds bits 0 to
9 of the word alone (assumption 67). REGISTER_WRITE and the reads of the window (R148): the address registers take a
word only while the part is stopped and read it back, IDENT and an offset not listed take nothing; that a word for
CONTROL, ATTENTION or ATTN_MASK acts as their own commands is assumption 40 (DEDUCED from R149, R160, R161). -/
def Obligations.RegisterWindowAndAttention : Prop :=
  ((∀ (s : State) (w : Word32),
    (∃ t, exec (.attentionWrite w) s = .next t ∧
      t = { s with path := { s.path with attn := { s.path.attn with pending := t.path.attn.pending } } } ∧
      ∀ c : Cause, Raised t c ↔ Raised s c ∧ w.getLsbD c.position = false) ∧
    ∃ t, exec (.attnMaskWrite w) s = .next t ∧
      t = { s with path := { s.path with attn := t.path.attn } } ∧
      t.path.attn.pending = s.path.attn.pending ∧ t.path.attn.mask = w.setWidth 10 ∧
      t.path.attn.messages = s.path.attn.messages +
        if s.path.attn.pending &&& s.path.attn.mask = 0 ∧ s.path.attn.pending &&& w.setWidth 10 ≠ 0 then 1 else 0) ∧
  ∀ (a : Attention) (c : Cause),
    (∀ d : Cause, (a.raise c).pending.getLsbD d.position = (a.pending.getLsbD d.position || decide (d = c))) ∧
    (a.raise c).mask = a.mask ∧
    (a.raise c).messages = a.messages +
      if a.pending &&& a.mask = 0 ∧ a.mask.getLsbD c.position = true then 1 else 0) ∧
  ∀ (s : State) (w : Word32),
    (s.timer.running = false →
      exec (.registerWrite 0x08 w) s = .next { s with bus := { s.bus with dirLo := w } } ∧
      exec (.registerWrite 0x0C w) s = .next { s with bus := { s.bus with dirHi := w } }) ∧
    (s.timer.running = true →
      exec (.registerWrite 0x08 w) s = .next s ∧ exec (.registerWrite 0x0C w) s = .next s) ∧
    exec (.registerWrite 0x04 w) s =
      (if w.getLsbD 1 then exec .softReset s else if w.getLsbD 0 then exec .controlStart s else .next s) ∧
    exec (.registerWrite 0x10 w) s = exec (.attentionWrite w) s ∧
    exec (.registerWrite 0x14 w) s = exec (.attnMaskWrite w) s ∧
    (∀ o : Word32, o ∉ [0x04#32, 0x08#32, 0x0C#32, 0x10#32, 0x14#32] → exec (.registerWrite o w) s = .next s) ∧
    readRegister s 0x00 = 0x32340001#32 ∧ (readRegister s 0x04).getLsbD 8 = s.timer.running ∧
    (∀ i, i ≠ 8 → (readRegister s 0x04).getLsbD i = false) ∧
    readRegister s 0x08 = s.bus.dirLo ∧ readRegister s 0x0C = s.bus.dirHi ∧
    (∀ c : Cause, (readRegister s 0x10).getLsbD c.position = s.path.attn.pending.getLsbD c.position) ∧
    (∀ c : Cause, (readRegister s 0x14).getLsbD c.position = s.path.attn.mask.getLsbD c.position) ∧
    ∀ n, n ∉ [0x00, 0x04, 0x08, 0x0C, 0x10, 0x14] → readRegister s n = 0

/-- CONTROL_START (R149, R21): with an address that is not 0 and is a multiple of 4,096 a stopped part starts at
boundary 0 and its first scan begins at cell 0; ports without power, stations and the sitting stay. Another address
raises BUSFAULT and starts nothing, and a running part is left as it is. -/
def Obligations.ControlStart : Prop :=
  ∀ s : State,
    (s.timer.running = true → exec .controlStart s = .next s) ∧
    (s.timer.running = false → (s.bus.directory = 0 ∨ s.bus.directory.toNat % 4096 ≠ 0) →
      exec .controlStart s = .next { s with path := { s.path with attn := s.path.attn.raise .busFault } }) ∧
    (s.timer.running = false → s.bus.directory ≠ 0 → s.bus.directory.toNat % 4096 = 0 →
      s.portA.state = .disabled → s.portA.control = none → s.portB.state = .disabled → s.portB.control = none →
      s.scan.step = .idle → s.scan.held = [] → (∀ t : Fin 34, s.writer.sheets[t] = none) →
      ∃ t, exec .controlStart s = .next t ∧
        t = { s with
          timer := { s.timer with running := true, boundary := 0, tick := 0 }
          scan := { s.scan with step := .cell, cursor := 0, poolDue := s.writer.arming.isSome }
          portA := t.portA, portB := t.portB
          path := { s.path with attn := t.path.attn }
          writer := { s.writer with starving := t.writer.starving } } ∧
        (∀ p, (t.port p).state = .disabled ∧ (t.port p).closed = (s.port p).closed ∧ (t.port p).sending = []))

/-! ### Supply -/

/-- SUPPLY_WARNING and SUPPLY_RECOVERY (R68, R143, R162 to R164): an onset sets the flag, raises POWER and takes the dip
start frame, no station record changes, and outside DRAINING each open sheet with an empty bay and no close due has one
due with reason POWER (before the reports of the onset, assumption 49). An onset part-way through the round of a RUNNING
port: no further poll and no probe is made, the probe cursor stays, a poll whose sending has begun (assumption 60) or a
reply under way goes on as it was, each station not yet called is handed the warning's report, so that its on-record
frames are POWER or PRIVACY, and with no call under way the round is over (its round end: assumptions 22 and 48); in
FRAMING the round is marked to make no poll. A recovery clears both and, in an open sitting whose dip has a frame,
offers POWER_DIP at the frame in computation, its last frame; in FINISHING the last frame is the sitting's where that is
lower, and there is none where the dip would begin after it (assumption 42); in DRAINING and outside a sitting none is
made. A warning while it stands and a recovery without one do nothing. -/
def Obligations.WarningAndRecovery : Prop :=
  ∀ s : State,
    (s.supply.warning = true → exec .supplyWarning s = .next s) ∧
    (s.supply.warning = false → exec .supplyRecovery s = .next s) ∧
    (s.supply.warning = false → ∃ t, exec .supplyWarning s = .next t ∧
      t = { s with
        supply := { warning := true
                    dipStart := if s.sitting.counting = true ∧ s.sitting.draining = false then some (s.frame - 1) else none }
        portA := t.portA, portB := t.portB, path := t.path
        writer := { s.writer with sheets := t.writer.sheets, starving := t.writer.starving } } ∧
      (s.sitting.draining = false → ∀ k : Fin 34, t.writer.sheets[k] =
        if s.path.bays.bay[k].items = [] ∧ s.closeDue k = none then
          s.writer.sheets[k].map fun o => { o with powerDue := true }
        else s.writer.sheets[k]) ∧
      Raised t .power ∧ t.path.stations = s.path.stations ∧
      ∀ p : PortId, (t.port p).state = (s.port p).state ∧ (t.port p).probeCursor = (s.port p).probeCursor ∧
        ((s.port p).state ≠ .running ∨ (s.port p).phase = .idle ∨ (s.port p).phase = .ended → t.port p = s.port p) ∧
        ((s.port p).state = .running → (s.port p).phase = .framing → t.port p = { s.port p with suppressed := true }) ∧
        ((s.port p).state = .running →
          (s.port p).phase = .polling ∨ (s.port p).phase = .awaiting ∨ (s.port p).phase = .receiving ∨
            (s.port p).phase = .quieting →
          ((s.port p).target ≠ none → t.port p = { s.port p with remaining := [], probeDone := true }) ∧
          ((s.port p).target = none → t.port p = { s.port p with
            remaining := [], probeDone := true, phase := .ended
            current := (s.port p).current.map fun g =>
              { g with roundEnd := s.timer.tick / (88 * ((s.port p).divisor + 1)) } }) ∧
          ∀ a ∈ (s.port p).remaining, Handed s t p a .power)) ∧
    (s.supply.warning = true → ∃ t, exec .supplyRecovery s = .next t ∧
      t = { s with
        supply := { warning := false, dipStart := none }
        path := { s.path with attn := t.path.attn, bays := t.path.bays }
        writer := { s.writer with starving := t.writer.starving } } ∧
      (s.supply.dipStart = none ∨ s.sitting.counting = false → t.path.bays = s.path.bays) ∧
      (∀ first, s.supply.dipStart = some first → s.sitting.isOpen = true → s.sitting.close = none →
        (s.frame = 0 ∨ s.frame - 1 < first → t.path.bays = s.path.bays) ∧
        (0 < s.frame → first ≤ s.frame - 1 →
          t.path.bays = s.path.bays.offer
            { kind := .powerDip first (s.frame - 1), frame := s.frame - 1, time := s.timer.tod })) ∧
      ∀ first last g, s.supply.dipStart = some first → s.sitting.state = .closing → s.sitting.close = some g →
        last = min (s.frame - 1) g.last →
        (s.frame = 0 ∨ last < first ∨ g.draining = true → t.path.bays = s.path.bays) ∧
        (0 < s.frame → first ≤ last → g.draining = false →
          t.path.bays = s.path.bays.offer { kind := .powerDip first last, frame := last, time := s.timer.tod }))

/-! ### Boundaries (R4, R9, R11, R14, R15, R22 to R28, R40 to R47, R49, R88) -/

/-- BOUNDARY, the timer's part (R22, R23, R25, R28): the count goes up by one, the next interval length becomes I, and
the time-of-day advances by the interval that ended or takes a pending clock set; the timer counts only while running,
and the bus, host memory, the arming, the queue and the ownership map stay, and at a boundary that opens no sitting the
warning and the dip start frame do (R163, R164). -/
def Obligations.BoundaryAdvancesCourtTime : Prop :=
  ∀ (s : State) (a b : Bool),
    (s.timer.running = false → exec (.boundary a b) s = .next s) ∧
    (s.timer.running = true → ∃ t, exec (.boundary a b) s = .next t ∧
      t.timer = { running := true, boundary := t.timer.boundary, tick := 0, interval := s.timer.next,
                  next := s.timer.next, tod := t.timer.tod, rem := t.timer.rem, clockSet := none } ∧
      (s.timer.boundary ≠ BitVec.allOnes 64 → t.timer.boundary = s.timer.boundary + 1) ∧
      (s.timer.clockSet = none →
        t.timer.tod = s.timer.tod + BitVec.ofNat 64 ((s.timer.rem + s.timer.interval * 125) / 12288) ∧
        t.timer.rem = (s.timer.rem + s.timer.interval * 125) % 12288) ∧
      (∀ v, s.timer.clockSet = some v → t.timer.tod = v ∧ t.timer.rem = 0) ∧
      t.bus = s.bus ∧ t.hostMem = s.hostMem ∧ t.supply.warning = s.supply.warning ∧
      (s.sitting.state ≠ .armed ∨ s.sitting.opening = none → t.supply = s.supply) ∧
      t.writer = { s.writer with
        sheets := t.writer.sheets, serials := t.writer.serials, starving := t.writer.starving })

/-- R25, over any run of boundaries and however the intervals are trimmed: the advances add up to
floor((R₀ + 125 × the ticks of the ended intervals) / 12,288), and the remainder is what is left. -/
def Obligations.CourtTimeDoesNotDrift : Prop :=
  ∀ (lengths : List Nat) (s : State),
    s.timer.running = true → s.timer.clockSet = none → s.timer.rem < 12288 →
    (afterTrims lengths s).timer.tod = s.timer.tod +
      BitVec.ofNat 64 ((s.timer.rem + 125 * (s.timer.interval :: lengths).dropLast.sum) / 12288) ∧
    (afterTrims lengths s).timer.rem = (s.timer.rem + 125 * (s.timer.interval :: lengths).dropLast.sum) % 12288

/-- BOUNDARY s (R9, R104, R163): the pending opening takes effect, the per-sitting counts start, the withheld mark count
among them, no run and no loud frame stands, the dip start frame is 0 where the warning stands, frame 0 is snapshot, and
SITTING_OPEN with the mark of the record-at-open flag heads the mark bay. -/
def Obligations.OpeningBoundary : Prop :=
  ∀ (s : State) (a b : Bool) (o : Opening),
    s.timer.running = true → s.timer.boundary ≠ BitVec.allOnes 64 → s.sitting.state = .armed →
    s.sitting.opening = some o → s.path.bays.bay[markTrack].items = [] → 8 ≤ s.path.bays.bay[markTrack].units →
    ∃ t, exec (.boundary a b) s = .next t ∧
      t.sitting = { state := if o.record then .onRecord else .offRecord, opening := none, number := o.number,
                    openedAt := s.timer.boundary + 1, comp := o.record, cur := o.record, next := o.record, close := none,
                    finalMark := none, lastFrame := none, abandon := s.sitting.abandon } ∧
      t.frame = 0 ∧
      (∀ c : Fin 32, t.path.channels[c].clips = 0 ∧ t.path.channels[c].captured = 0 ∧ t.path.channels[c].voids = 0 ∧
        t.path.channels[c].run = none ∧
        t.path.channels[c].snapshot 0 =
          some { frame := 0, settings := s.path.channels[c].settings, onRecord := o.record } ∧
        t.path.fcu.floors[c].speaking = false ∧ t.path.fcu.floors[c].loudRun = 0 ∧
        t.path.fcu.floors[c].quietRun = 0 ∧ t.path.fcu.floors[c].firstLoud = none ∧
        t.path.fcu.floors[c].lastLoud = none) ∧
      (∀ (k : Fin 16) (m : Fin 2), t.path.stations[k].mics[m].slip = 0 ∧ t.path.stations[k].mics[m].drift = false) ∧
      t.path.fcu.sums = Vector.replicate 64 0 ∧ t.path.fcu.contributors = 0 ∧ t.path.fcu.mixClips = 0 ∧
      t.path.fcu.mixRun = none ∧ t.path.bays.withheld = 0 ∧
      t.supply = { s.supply with dipStart := if s.supply.warning then some 0 else s.supply.dipStart } ∧
      (∀ k : Fin 33, t.path.bays.bay[trackOf k].economy = false) ∧ t.writer.serials = Vector.replicate 34 0 ∧
      t.path.bays.bay[markTrack].items.take 2 =
        [.mark { kind := .sittingOpen o.number, frame := 0, time := t.timer.tod },
         .mark { kind := if o.record then .onRecord else .offRecord, frame := 0, time := t.timer.tod }]

/-- BOUNDARY in an open sitting (R2, R4, R11, R15, R85, R88): the frame goes up by one and the flag window shifts; a
changed flag takes effect with its mark at that frame, and waits only where the mark's 16 bytes do not fit; the limit
frame closes the sitting with reason LIMIT. At any other frame the close target, the last frame and the held
SITTING_CLOSE stay as they were. Every channel takes the snapshot of the frame that begins and keeps none but that and
the one of the frame before. -/
def Obligations.RecordFlagAndSnapshotsAtABoundary : Prop :=
  (∀ (s : State) (a b : Bool),
    s.timer.running = true → s.timer.boundary ≠ BitVec.allOnes 64 → s.sitting.isOpen = true →
    s.sitting.openedAt.toNat ≤ s.timer.boundary.toNat →
    ∃ t, exec (.boundary a b) s = .next t ∧ t.frame = s.frame + 1 ∧
      t.sitting = { s.sitting with
        comp := s.sitting.cur, cur := t.sitting.cur, state := t.sitting.state, close := t.sitting.close,
        lastFrame := t.sitting.lastFrame, finalMark := t.sitting.finalMark } ∧
      (s.sitting.next = s.sitting.cur → t.sitting.cur = s.sitting.cur) ∧
      (s.sitting.next ≠ s.sitting.cur →
        (t.sitting.cur = s.sitting.next ∧
          .mark { kind := if s.sitting.next then .onRecord else .offRecord, frame := s.frame + 1, time := t.timer.tod } ∈
            t.path.bays.bay[markTrack].items) ∨
        (t.sitting.cur = s.sitting.cur ∧
          t.path.bays.bay[markTrack].capacity < t.path.bays.bay[markTrack].fill + 16)) ∧
      (s.frame + 1 ≠ 21599999 → t.sitting.state = if t.sitting.cur then .onRecord else .offRecord) ∧
      (s.frame + 1 = 21599999 → t.sitting.state = .closing ∧ t.sitting.lastFrame = some 21599999 ∧
        t.sitting.close =
          some { last := 21599999, reason := .limit, cell := none, draining := false, sheets := 0 } ∧
        Raised t .sitting) ∧
      (s.sitting.close = none → t.sitting.finalMark = s.sitting.finalMark ∧
        (s.frame + 1 ≠ 21599999 → t.sitting.close = none ∧ t.sitting.lastFrame = s.sitting.lastFrame))) ∧
  ∀ (s : State) (a b : Bool),
    s.timer.running = true → s.timer.boundary ≠ BitVec.allOnes 64 → s.sitting.isOpen = true →
    s.sitting.close = none → s.sitting.openedAt.toNat ≤ s.timer.boundary.toNat →
    ∃ t, exec (.boundary a b) s = .next t ∧
      ∀ c : Fin 32,
        t.path.channels[c].snapshot (s.frame + 1) =
          some { frame := s.frame + 1, settings := s.path.channels[c].settings, onRecord := t.sitting.cur } ∧
        t.path.channels[c].settings = s.path.channels[c].settings ∧
        t.path.channels[c].snapshots.length ≤ 2 ∧
        ∀ sn ∈ t.path.channels[c].snapshots, sn.frame = s.frame + 1 ∨ sn.frame = s.frame

/-- BOUNDARY c + 2 of a closing sitting with last frame c (R14): the phase becomes DRAINING and SITTING_CLOSE at frame c,
with the close's reason, is held or is already the last item of the mark bay. -/
def Obligations.LastFrameCloses : Prop :=
  ∀ (s : State) (a b : Bool) (g : CloseTarget),
    s.timer.running = true → s.timer.boundary ≠ BitVec.allOnes 64 → s.sitting.state = .closing →
    s.sitting.close = some g → g.draining = false →
    s.sitting.openedAt.toNat ≤ s.timer.boundary.toNat → s.frame = g.last + 1 →
    ∃ t, exec (.boundary a b) s = .next t ∧ t.sitting.state = .closing ∧ t.frame = g.last + 2 ∧
      t.sitting.close = some { g with draining := true } ∧
      (t.sitting.finalMark = some { kind := .sittingClose g.reason, frame := g.last, time := t.timer.tod } ∨
        (t.sitting.finalMark = none ∧
          t.path.bays.bay[markTrack].items.getLast? =
            some (.mark { kind := .sittingClose g.reason, frame := g.last, time := t.timer.tod })))

/-- A port at a boundary (R37, R39, R40, R43, R45, R47, R49, R57): the cooldown goes down by one, a control pending is
applied and removed, STARTING counts down to RUNNING with PORT_RESTORED (R52), a STUCK port starts again after an idle
interval, and not where the line still reads 0 (assumption 23), and a self-test ends; a port that drives the line sends
FRAME and the tag of the boundary. A power OFF takes any port to DISABLED, an ON starts a DISABLED or TRIPPED one
without cooldown and is dropped with it, an OFF then ON does both in turn, and a KEEP gives a DISABLED port the divisor
pending. The cell that waits for a self-test has its counts as its result (R49). A round begins with no call and no
deadline passed, and it makes no poll exactly when the supply warning stands (R68). R66: the boundary cuts a reply being
received and hands LATE for a LIST poll, counting one late cut; ends a QUIETING reply as a bad bundle; hands LATE for a
LIST poll in AWAITING or still being sent (assumption 21); hands LATE to the stations that no deadline has reported; and
latches the round's figures, with itself as the round end where a call was cut, a PROBE without a reply too (assumption
58), in whole character times rounded down (assumption 22). An on-record frame of a station so reported is void with
R95's first cause, LATE or, for the ended reply, CHECK at its end. At an opening boundary each slip then starts at 0
(R9). A power OFF from RUNNING acts by R41 instead: every station that is not VACANT is LOST with cause PORT, the round
is gone and no counter changes, and its figures are latched (R69): as they stood where it was ENDED or, after the
deadline, had no call under way, and else with the boundary as the round end (assumption 54). A port not RUNNING latches
the figures of the round that the interval had, or 0, 0, none and 0 (R56, R69). -/
def Obligations.PortAtABoundary : Prop :=
  (∀ (s : State) (a b : Bool) (p : PortId), s.timer.running = true →
    ∃ t, exec (.boundary a b) s = .next t ∧
      (t.port p).cooldown = (s.port p).cooldown - 1 ∧ (t.port p).control = none ∧
      ((∀ c, (s.port p).control = some c → c.power = .keep ∨ c.power = .on) →
        ((s.port p).state = .starting → 2 ≤ (s.port p).starting →
          (t.port p).state = .starting ∧ (t.port p).starting = (s.port p).starting - 1) ∧
        ((s.port p).state = .starting → (s.port p).starting = 1 →
          (t.port p).state = .running ∧ (t.port p).starting = 0 ∧ (t.port p).closed = true ∧ (t.port p).lowRun = 0 ∧
            (t.port p).phase = .framing ∧ Raised t .port) ∧
        ((s.port p).state = .stuck → (s.port p).idleFlag = false ∨ (s.port p).lineLow = true →
          (t.port p).state = .stuck ∧ (t.port p).idleFlag = true) ∧
        ((s.port p).state = .stuck → (s.port p).idleFlag = true → (s.port p).lineLow = false →
          (t.port p).state = .starting ∧ (t.port p).closed = true ∧ (t.port p).starting = 50) ∧
        ((s.port p).state = .running → (t.port p).state = .running ∧ (t.port p).phase = .framing)) ∧
      ((s.port p).control = none → (s.port p).state = .testing →
        (t.port p).state = .disabled ∧ (t.port p).closed = false ∧ (t.port p).selfTest = none) ∧
      (∀ g, (s.port p).state = .testing → (s.port p).selfTest = some g →
        (∀ q g', q ≠ p → (s.port q).state = .testing → (s.port q).selfTest = some g' → g'.cell ≠ g.cell) →
        ∀ h ∈ s.scan.held, h.cell = g.cell → ∃ u ∈ t.scan.held, u.cell = h.cell ∧ u.kind = h.kind ∧ u.tag = h.tag ∧
          u.result = some ⟨.done, BitVec.ofNat 32 g.pass, BitVec.ofNat 32 g.mismatch, if g.leader then 1 else 0⟩) ∧
      ((∀ c, (s.port p).control = some c → c.power = .keep) →
        ((s.port p).state = .disabled → (t.port p).state = .disabled ∧
          (t.port p).divisor = ((s.port p).control.bind Control.divisor).getD (s.port p).divisor) ∧
        ((s.port p).state = .tripped → (t.port p).state = .tripped)) ∧
      (∀ d, (s.port p).control = some { power := .off, divisor := d } →
        (t.port p).state = .disabled ∧ (t.port p).divisor = d.getD (s.port p).divisor) ∧
      (∀ d, (s.port p).control = some { power := .offThenOn, divisor := d } →
        (t.port p).divisor = d.getD (s.port p).divisor ∧
        (t.port p).state = if (s.port p).cooldown ≤ 1 then .starting else .disabled) ∧
      (∀ d, (s.port p).control = some { power := .on, divisor := d } →
        (s.port p).state = .disabled ∨ ((s.port p).state = .tripped ∧ d = none) →
        (t.port p).divisor = d.getD (s.port p).divisor ∧
        ((s.port p).cooldown ≤ 1 →
          (t.port p).state = .starting ∧ (t.port p).closed = true ∧ (t.port p).starting = 50) ∧
        (2 ≤ (s.port p).cooldown → (t.port p).state = (s.port p).state)) ∧
      ((t.port p).state = .starting ∨ (t.port p).state = .running →
        (t.port p).sending = [controlChar frameChar, dataChar (t.timer.boundary.setWidth 8)]) ∧
      ((t.port p).state = .running → (t.port p).suppressed = s.supply.warning ∧ (t.port p).deadlinePassed = false ∧
        (t.port p).busy = false ∧ (t.port p).probeDone = false ∧ (t.port p).target = none) ∧
      ((s.port p).state ≠ .running → (t.port p).figures = (s.port p).current.getD Figures.reset) ∧
      ∀ (roundEnd : Nat) (after : Station → Station), roundEnd = s.timer.interval / (88 * ((s.port p).divisor + 1)) →
        (s.sitting.state = .armed → s.sitting.opening ≠ none →
          after = fun st => { st with mics := st.mics.map fun m => { m with slip := 0, drift := false } }) →
        (s.sitting.state ≠ .armed ∨ s.sitting.opening = none → after = id) → (s.port p).state = .running →
        ((∀ c, (s.port p).control = some c → c.power = .keep ∨ c.power = .on) →
          (s.port p).deadlinePassed = true ∨ (s.port p).remaining = [] →
          ((t.port p).framing, (t.port p).noReply, (t.port p).stuck) =
            ((s.port p).framing, (s.port p).noReply, (s.port p).stuck) ∧
          (∀ g, (s.port p).target = some g →
            (s.port p).phase = .receiving ∨ (s.port p).phase = .quieting ∨ (s.port p).phase = .awaiting ∨
              (s.port p).phase = .polling →
            (t.port p).lateCut =
              (if (s.port p).phase = .receiving then min 65535 ((s.port p).lateCut + 1) else (s.port p).lateCut) ∧
            (t.port p).check =
              (if (s.port p).phase = .quieting then min 65535 ((s.port p).check + 1) else (s.port p).check) ∧
            (t.port p).lastReason = (if (s.port p).phase = .quieting then some ((s.port p).fault.getD .length)
              else (s.port p).lastReason) ∧
            (∀ fig, (s.port p).current = some fig → (t.port p).figures = { fig with roundEnd := roundEnd }) ∧
            ∀ i : Fin 8, t.path.stations[stationAt p i] = after
              (if i = g.addr ∧ g.probe = false then s.path.stations[stationAt p i].missed.1
              else s.path.stations[stationAt p i])) ∧
          ((s.port p).phase = .ended ∨ ((s.port p).phase = .polling ∧ (s.port p).target = none) →
            ((t.port p).lateCut, (t.port p).check, (t.port p).lastReason) =
              ((s.port p).lateCut, (s.port p).check, (s.port p).lastReason) ∧
            (t.port p).figures = (s.port p).current.getD Figures.reset ∧
            ∀ i : Fin 8, t.path.stations[stationAt p i] = after s.path.stations[stationAt p i])) ∧
        ((∃ c, (s.port p).control = some c ∧ (c.power = .off ∨ c.power = .offThenOn)) →
          (t.port p).phase = .idle ∧ (t.port p).pollList = [] ∧ (t.port p).target = none ∧ (t.port p).reply = none ∧
          (t.port p).probeCursor = (s.port p).probeCursor ∧ (t.port p).lastReason = (s.port p).lastReason ∧
          ((t.port p).framing, (t.port p).check, (t.port p).noReply, (t.port p).lateCut, (t.port p).stuck) =
            ((s.port p).framing, (s.port p).check, (s.port p).noReply, (s.port p).lateCut, (s.port p).stuck) ∧
          (∀ fig, (s.port p).current = some fig → (t.port p).figures =
            if (s.port p).phase = .ended ∨
                ((s.port p).phase = .polling ∧ (s.port p).deadlinePassed = true ∧ (s.port p).target = none)
            then fig else { fig with roundEnd := roundEnd }) ∧
          ∀ i : Fin 8, t.path.stations[stationAt p i] = after
            (if s.path.stations[stationAt p i].state = .vacant then s.path.stations[stationAt p i]
            else { s.path.stations[stationAt p i] with
              state := .lost, lostCause := some .port, goodRun := 0, missRun := 0 }))) ∧
  (∀ (s : State) (p : PortId) (first second : Bool) (a : Fin 8) (m : Fin 2) (c : Fin 32) (f : Nat) (sn : Snapshot)
      (st : Station) (asked : Bool) (last : Report) (cause : VoidCause),
    (p = .a → first = true) → (p = .b → second = true) → s.timer.running = true → (s.port p).state = .running →
    (∀ k, (s.port p).control = some k → k.power = .keep ∨ k.power = .on) →
    ((s.port p).deadlinePassed = false ∧ a ∈ (s.port p).remaining ∧ last = .late) ∨
      ((s.port p).target = some { addr := a, probe := false } ∧
        ((s.port p).deadlinePassed = true ∨ a ∉ (s.port p).remaining) ∧
        (((s.port p).phase = .quieting ∧ last = .bad) ∨
          (((s.port p).phase = .receiving ∨ (s.port p).phase = .awaiting ∨ (s.port p).phase = .polling) ∧
            last = .late))) →
    c = channelOf (stationAt p a) m → s.ctx.polled = some f → s.path.channels[c].snapshot f = some sn →
    sn.onRecord = true → s.path.channels[c].seated = true → s.path.channels[c].settled = false →
    s.path.channels[c].run = none → s.sitting.isOpen = true → s.sitting.close = none → s.sitting.cur = true →
    s.writer.sheets[trackOf (soundTrack c)] = none → st = s.path.stations[stationAt p a].missed.1 →
    asked = ((st.mics[m].button || sn.settings.privacy) && !sn.settings.bar) →
    some cause = firstCause asked s.supply.warning false st
      (if st.mics[m].present = false then some .noMic else last.lastCause) →
    ∃ t, exec (.boundary first second) s = .next t ∧
      t.path.channels[c].voids = min 4294967295 (s.path.channels[c].voids + 1) ∧
      t.path.channels[c].run = some { cause := cause, first := f, length := 1, tail := 0, held := false }) ∧
  ∀ (x : Ctx) (p : PortId) (l : Link),
    (l.port.state ≠ .starting → (l.boundaryWork x p).path = l.path) ∧
    (l.port.state = .starting → l.port.control = none →
      (2 ≤ l.port.starting → (l.boundaryWork x p).path = l.path) ∧
      (l.port.starting = 1 → (l.boundaryWork x p).path = { l.path with
        attn := l.path.attn.raise .port
        bays := if x.sitting.marks x.frame then
            l.path.bays.offer { kind := .portRestored p, frame := x.frame, time := x.tod }
          else l.path.bays }))

/-! ### Link events (R36, R41 to R44, R49, R50, R57 to R66, R77, R94) -/

/-- FRAME_SENT in a RUNNING port's FRAMING (R57 to R59, R94): the list is the stations in JOINING, PRESENT and MISSING
in ascending order; the first of them is polled with the lamp states of its two channels, or with an empty list the
first free address after the probe cursor, and the poll counts as made as its sending begins (assumption 60): the
round's figures count a LIST poll and hold the address of a PROBE (R56); nothing but the port, the lamp states and
attention changes. Under the supply warning (R68) the list is taken, no poll and no probe is made, each station of the
list is handed the warning's report, which leaves its record and makes an on-record frame of its channels POWER or
PRIVACY, and the round is ended. After the deadline (R65) no poll is made and each station of the list is handed LATE, a
miss, which makes an on-record frame of its channels void with the first cause of R95's table (R71, R95), and no other
record changes. That stations handed one report at one moment, the warning's or LATE, are handed it in ascending order
of address, and that their marks stand in that order, is the model's choice (assumption 49), as is the order of the
marks inside one report (assumption 6): R65, R68 and R71 order only calls made. -/
def Obligations.FrameSentTakesTheListAndPolls : Prop :=
  ∀ (s : State) (p : PortId),
    (s.port p).state = .running → (s.port p).phase = .framing →
    ∃ t, exec (.frameSent p) s = .next t ∧ OnlyLink s t p ∧
      (∀ a, a ∈ (t.port p).pollList ↔ (s.path.stations[stationAt p a]).state = .joining ∨
        (s.path.stations[stationAt p a]).state = .present ∨ (s.path.stations[stationAt p a]).state = .missing) ∧
      (t.port p).pollList.Pairwise (· < ·) ∧
      ((t.port p).framing, (t.port p).check, (t.port p).noReply, (t.port p).lateCut, (t.port p).stuck) =
        ((s.port p).framing, (s.port p).check, (s.port p).noReply, (s.port p).lateCut, (s.port p).stuck) ∧
      ((s.port p).suppressed = false → (s.port p).deadlinePassed = false → (s.port p).busy = false →
        (s.port p).probeDone = false →
        t.path.stations = s.path.stations ∧ t.path.bays = s.path.bays ∧ t.path.fcu = s.path.fcu ∧
        (∀ c : Fin 32, t.path.channels[c] = { s.path.channels[c] with lamp := t.path.channels[c].lamp }) ∧
        (∀ a probe, (t.port p).target = some { addr := a, probe := probe } →
          (t.port p).phase = .polling ∧
          (t.port p).sending = [controlChar (pollChar a),
            dataChar (lampByte (s.path.lampNow s.ctx (channelOf (stationAt p a) 0))
              (s.path.lampNow s.ctx (channelOf (stationAt p a) 1)))]) ∧
        (∀ a rest, (t.port p).pollList = a :: rest →
          (t.port p).target = some { addr := a, probe := false } ∧ (t.port p).remaining = rest ∧
            FiguresAre s t p (· + 1) id) ∧
        ((t.port p).pollList = [] → ∀ a : Fin 8, a = (s.port p).probeCursor + 1 →
          (t.port p).target = some { addr := a, probe := true } ∧ (t.port p).probeCursor = a ∧
            FiguresAre s t p id (fun _ => some a))) ∧
      ((s.port p).target = none → (s.port p).suppressed = true ∨ (s.port p).deadlinePassed = true →
        (t.port p).sending = [] ∧ (t.port p).target = none ∧ (t.port p).remaining = [] ∧
        (t.port p).probeCursor = (s.port p).probeCursor ∧ FiguresAre s t p id id) ∧
      ((s.port p).target = none → (s.port p).suppressed = true →
        (t.port p).phase = .ended ∧ t.path.stations = s.path.stations ∧
        PathIs t (s.pathAfter p (t.port p).pollList .supply) ∧
        ∀ a ∈ (t.port p).pollList, Handed s t p a .power) ∧
      ((s.port p).target = none → (s.port p).suppressed = false → (s.port p).deadlinePassed = true →
        (t.port p).phase = .polling ∧
        PathIs t (s.pathAfter p (t.port p).pollList .late) ∧
        (∀ a ∈ (t.port p).pollList, Called s t p a .late s.path.stations[stationAt p a].missed.1) ∧
        ∀ (q : PortId) (a : Fin 8), t.path.stations[stationAt q a] =
          if q = p ∧ a ∈ (t.port p).pollList then s.path.stations[stationAt q a].missed.1
          else s.path.stations[stationAt q a])

/-- FRAME_SENT in STARTING (R40), POLL_SENT (R58), IDLE_INTERVAL_FLAG_CLEARED (R43) and LOW_RUN_RESET (R42) change nothing
but their port: the transmission ends, the reply window opens at 0, the flag is clear, the low run is 0 and, outside
RUNNING, as it was (the line's level, assumption 23). The lamp state of a channel (R94): PRIVATE where the button or the
host asks and the bar is clear, else LIVE on a seated channel in ON_RECORD, else OFF; in a sitting the host part and the
bar are those of the current frame's snapshot. -/
def Obligations.EventsOfThePortAloneAndLamps : Prop :=
  (∀ (s : State) (p : PortId),
    ((s.port p).state = .starting → exec (.frameSent p) s = .next (s.setPort p { s.port p with sending := [] })) ∧
    ((s.port p).state = .running → (s.port p).phase = .polling → (s.port p).target ≠ none →
      exec (.pollSent p) s = .next (s.setPort p
        { s.port p with sending := [], phase := .awaiting, window := 0, windowTicks := 0 })) ∧
    ((s.port p).state = .stuck →
      exec (.idleIntervalFlagCleared p) s = .next (s.setPort p { s.port p with idleFlag := false })) ∧
    ((s.port p).state = .running → exec (.lowRunReset p) s =
      .next (s.setPort p { s.port p with lowRun := 0, lineLow := false, lowTicks := 0 })) ∧
    ((s.port p).state ≠ .running →
      exec (.lowRunReset p) s = .next (s.setPort p { s.port p with lineLow := false }))) ∧
  ∀ (x : Ctx) (path : Path) (c : Fin 32) (set : Settings),
    (∀ sn, x.sitting.counting = true → path.channels[c].snapshot x.frame = some sn → set = sn.settings) →
    (x.sitting.counting = false ∨ path.channels[c].snapshot x.frame = none → set = path.channels[c].settings) →
    path.lampNow x c =
      if (path.stations[stationOf c].mics[micOf c].button = true ∨ set.privacy = true) ∧ set.bar = false then .priv
      else if path.channels[c].seated = true ∧ x.sitting.state = .onRecord then .live
      else .off

/-- REPLY_TIMEOUT in AWAITING (R50, R60): a LIST poll counts one no-reply and its station is handed NO_REPLY, a miss; a
PROBE counts nothing and hands nothing. ROUND_DEADLINE with the list taken (R65): no further poll is made, every station
of the list not yet polled is handed LATE, a miss, no other station changes, a poll whose sending has begun goes on
(assumption 60), and where a station was reported the round end is now (assumption 53). That these stations are handed
LATE in ascending order of address, the first of those left first, and that their marks stand in that order, is the
model's choice (assumption 49): R71 orders only calls made. In FRAMING it is noted and no station is reported yet.
LINE_QUIET (R61, R64, R67): in RECEIVING or QUIETING the reply is a bad bundle, with its first fault or LENGTH as the
reason, one check error, and CHECK, a miss, handed for a LIST station; in POLLING with the line busy the next poll may
begin, and after the deadline the line is busy no more (assumption 53). Where a call is over the round end is now (R56),
the next of the list is polled, then the vacancy probe is made at the first VACANT or LOST address after the cursor, one
that this round's list made LOST passed over (assumption 62), or the round ends (R58, R59). Every round end is a number
of whole character times, rounded down by the model's choice (assumption 22). Each report leaves the path that its
record, marks and attention (ReportsMoveAStation) and then the settling of its two channels give (R71, R82), the order
of the marks inside it the model's (assumption 6), STATION raised with each loss, and an on-record frame takes the first
cause of R95's table. -/
def Obligations.CallsThatEndWithoutABundle : Prop :=
  (∀ (s : State) (p : PortId) (busy : Bool) (g : Target),
    (s.port p).state = .running → (s.port p).phase = .awaiting → (s.port p).target = some g →
    ∃ t, exec (.replyTimeout p busy) s = .next t ∧ OnlyLink s t p ∧
      ((t.port p).phase = .polling ∨ (t.port p).phase = .ended) ∧
      CallOver s t p busy ∧ RoundEndsNow s t p ∧
      (g.probe = true → (t.port p).noReply = (s.port p).noReply ∧ t.path.stations = s.path.stations ∧ PathIs t s.path) ∧
      (g.probe = false → (t.port p).noReply = min 65535 ((s.port p).noReply + 1) ∧
        PathIs t (s.path.report s.ctx s.ctx.polled (stationAt p g.addr) false .noReply) ∧
        Called s t p g.addr .noReply s.path.stations[stationAt p g.addr].missed.1 ∧
        (s.path.stations[stationAt p g.addr].missed.2 ≠ none → Raised t .station) ∧
        (∀ u : Fin 34, ∃ more, t.path.bays.bay[u].items =
          (s.path.recordReport s.ctx s.ctx.polled (stationAt p g.addr) false .noReply).bays.bay[u].items ++ more) ∧
        ∀ k : Fin 16, t.path.stations[k] =
          if k = stationAt p g.addr then s.path.stations[k].missed.1 else s.path.stations[k])) ∧
  (∀ (s : State) (p : PortId),
    (s.port p).inRound = true → (s.port p).phase = .framing → (s.port p).deadlinePassed = false →
    ∃ t, exec (.roundDeadline p) s = .next t ∧ OnlyLink s t p ∧
      t.port p = { s.port p with deadlinePassed := true } ∧ t.path = { s.path with attn := t.path.attn } ∧
      PathIs t s.path) ∧
  (∀ (s : State) (p : PortId),
    (s.port p).inRound = true → (s.port p).phase ≠ .framing → (s.port p).deadlinePassed = false →
    ∃ t, exec (.roundDeadline p) s = .next t ∧ OnlyLink s t p ∧
      t.port p = { s.port p with remaining := [], deadlinePassed := true, current := (t.port p).current } ∧
      FiguresAre s t p id id ∧ ((s.port p).remaining = [] → (t.port p).current = (s.port p).current) ∧
      ((s.port p).remaining ≠ [] → RoundEndsNow s t p) ∧
      PathIs t (s.pathAfter p (s.port p).remaining .late) ∧
      (∀ a ∈ (s.port p).remaining,
        Called s t p a .late s.path.stations[stationAt p a].missed.1 ∧
        (s.path.stations[stationAt p a].missed.2 ≠ none → Raised t .station)) ∧
      (∀ a rest, (s.port p).remaining = a :: rest → ∀ u : Fin 34, ∃ more, t.path.bays.bay[u].items =
        (s.path.recordReport s.ctx s.ctx.polled (stationAt p a) false .late).bays.bay[u].items ++ more) ∧
      ∀ (q : PortId) (a : Fin 8),
        (q = p → (s.port p).remaining.count a = 1 →
          t.path.stations[stationAt q a] = s.path.stations[stationAt q a].missed.1) ∧
        (q ≠ p ∨ a ∉ (s.port p).remaining → t.path.stations[stationAt q a] = s.path.stations[stationAt q a])) ∧
  ∀ (s : State) (p : PortId),
    (s.port p).state = .running → (s.port p).sending = [] →
    (∀ g, ((s.port p).phase = .receiving ∨ (s.port p).phase = .quieting) → (s.port p).target = some g →
      ∃ t, exec (.lineQuiet p) s = .next t ∧ OnlyLink s t p ∧
        (t.port p).check = min 65535 ((s.port p).check + 1) ∧
        (t.port p).lastReason = some ((s.port p).fault.getD .length) ∧
        ((t.port p).phase = .polling ∨ (t.port p).phase = .ended) ∧ CallOver s t p (s.port p).busy ∧
        RoundEndsNow s t p ∧ (g.probe = true → PathIs t s.path) ∧
        (g.probe = false → PathIs t (s.path.report s.ctx s.ctx.polled (stationAt p g.addr) false .bad) ∧
          Called s t p g.addr .bad s.path.stations[stationAt p g.addr].missed.1) ∧
        (g.probe = false → s.path.stations[stationAt p g.addr].missed.2 ≠ none → Raised t .station) ∧
        (g.probe = false → ∀ u : Fin 34, ∃ more, t.path.bays.bay[u].items =
          (s.path.recordReport s.ctx s.ctx.polled (stationAt p g.addr) false .bad).bays.bay[u].items ++ more) ∧
        ∀ k : Fin 16, t.path.stations[k] =
          if k = stationAt p g.addr ∧ g.probe = false then s.path.stations[k].missed.1 else s.path.stations[k]) ∧
    ((s.port p).phase = .polling → (s.port p).busy = true →
      ∃ t, exec (.lineQuiet p) s = .next t ∧ OnlyLink s t p ∧ (t.port p).busy = false ∧
        t.path.stations = s.path.stations ∧ PathIs t s.path ∧
        ((s.port p).deadlinePassed = false → CallOver s t p false) ∧
        ((s.port p).deadlinePassed = true → t.port p = { s.port p with busy := false }))

/-- CHARACTER_RECEIVED (R36, R42, R43, R49, R50, R60, R61, R67), one clause for each place a character can come to, END
in RECEIVING apart: what the port then holds, and that nothing else but the starving set changes. In TESTING the
self-test takes it. In AWAITING it begins the reply: a BUNDLE leads it; data, another control character and a framing
error are its first fault and are not stored, and an END makes a bad bundle at once (assumption 18), so that a LIST
station is handed CHECK, a miss, and an on-record frame of its channels takes the first cause of R95's table, and the
round goes on as at the end of any call (assumption 62), its round end in whole character times rounded down by the
model's choice (assumption 22) and the order of the report's marks the model's (assumption 6). In RECEIVING it is added
or is a fault, which leaves a first fault as it stands (assumption 61); in QUIETING, POLLING and ENDED it is dropped,
and in POLLING the next poll waits. Samples that make no character, and samples while the port does not listen, go to
the line supervisor alone: in RUNNING its low run is the whole bit times of 0 at their end (assumption 23), and in STUCK
one that reads 0 clears the idle interval flag (R43). -/
def Obligations.CharacterReceived : Prop :=
  ∀ (s : State) (p : PortId) (x : BitVec 88),
    (∀ g, (s.port p).state = .testing → (s.port p).selfTest = some g →
      (receive x = none → exec (.characterReceived p x) s = .next s) ∧
      ∀ e, receive x = some e →
        exec (.characterReceived p x) s = .next (s.setPort p { s.port p with selfTest := some (g.take e) })) ∧
    ((s.port p).state = .running → ∃ t, exec (.characterReceived p x) s = .next t ∧ OnlyLink s t p ∧
      ∀ n, n ≤ 11 → (n ≤ (t.port p).lowRun ↔ ∀ i, 88 - 8 * n ≤ i → i < 88 → x.getLsbD i = false)) ∧
    ((s.port p).state ≠ .testing →
      receive x = none ∨ (s.port p).state ≠ .running ∨ (s.port p).sending ≠ [] →
      ∃ t, exec (.characterReceived p x) s = .next t ∧ t = s.setPort p (t.port p) ∧
        TookCharacter s t p (if (s.port p).state = .stuck ∧ x ≠ BitVec.allOnes 88
          then { s.port p with idleFlag := false } else s.port p)) ∧
    ((s.port p).state = .running → (s.port p).sending = [] →
      ((s.port p).phase = .awaiting →
        (∀ v a g, receive x = some (.control v) → bundleAddress v = some a → (s.port p).target = some g →
          ∃ t, exec (.characterReceived p x) s = .next t ∧
            TookCharacter s t p { s.port p with
              phase := .receiving, reply := some { leader := some a, data := [] }
              fault := if a = g.addr then none else some .address }) ∧
        (∀ e, receive x = some e → (∃ v, e = .data v) ∨ (∃ v, e = .control v ∧ bundleAddress v = none ∧ v ≠ endChar) →
          ∃ t, exec (.characterReceived p x) s = .next t ∧
            TookCharacter s t p { s.port p with
              phase := .receiving, reply := some { leader := none, data := [] }, fault := some .leader }) ∧
        (receive x = some .framing → ∃ t, exec (.characterReceived p x) s = .next t ∧
          TookCharacter s t p { s.port p with
            framing := min 65535 ((s.port p).framing + 1), phase := .quieting
            reply := some { leader := none, data := [] }, fault := some .framing }) ∧
        (∀ g, receive x = some (.control endChar) → (s.port p).target = some g →
          ∃ t, exec (.characterReceived p x) s = .next t ∧ OnlyLink s t p ∧
            (t.port p).check = min 65535 ((s.port p).check + 1) ∧ (t.port p).lastReason = some .leader ∧
            ((t.port p).phase = .polling ∨ (t.port p).phase = .ended) ∧ CallOver s t p (s.port p).busy ∧
            RoundEndsNow s t p ∧ (g.probe = true → PathIs t s.path) ∧
            (g.probe = false → PathIs t (s.path.report s.ctx s.ctx.polled (stationAt p g.addr) false .bad) ∧
              Called s t p g.addr .bad s.path.stations[stationAt p g.addr].missed.1) ∧
            ∀ k : Fin 16, t.path.stations[k] =
              if k = stationAt p g.addr ∧ g.probe = false then s.path.stations[k].missed.1
              else s.path.stations[k])) ∧
      ((s.port p).phase = .receiving →
        (∀ v r, receive x = some (.data v) → (s.port p).reply = some r →
          ∃ t, exec (.characterReceived p x) s = .next t ∧
            TookCharacter s t p (if r.data.length < 281 then
                { s.port p with reply := some { r with data := r.data ++ [v] } }
              else { s.port p with fault := some ((s.port p).fault.getD .length), phase := .quieting })) ∧
        (∀ v, receive x = some (.control v) → v ≠ endChar → ∃ t, exec (.characterReceived p x) s = .next t ∧
          TookCharacter s t p { s.port p with
            fault := some ((s.port p).fault.getD .control), phase := .quieting }) ∧
        (receive x = some .framing → ∃ t, exec (.characterReceived p x) s = .next t ∧
          TookCharacter s t p { s.port p with
            framing := min 65535 ((s.port p).framing + 1)
            fault := some ((s.port p).fault.getD .framing), phase := .quieting })) ∧
      (∀ e, receive x = some e →
        (s.port p).phase = .quieting ∨ (s.port p).phase = .polling ∨ (s.port p).phase = .ended →
        ∃ t, exec (.characterReceived p x) s = .next t ∧
          TookCharacter s t p { s.port p with
            framing := if e = .framing then min 65535 ((s.port p).framing + 1) else (s.port p).framing
            busy := if (s.port p).phase = .polling then true else (s.port p).busy }))

/-- CHARACTER_RECEIVED with END in RECEIVING (R62 to R64, R71 to R76, R79, R80, R95): a reply with no fault of its own
whose data pass every check is a good bundle, applied to the station's record and counted; the fault that already stands
(R61: LEADER or ADDRESS, checks 2 and 3; assumption 61), or with none the first check that fails, makes it bad, a check
error with that reason, a miss of a LIST station, and no effect on a probed one. Either report leaves the path that its
record, marks and attention (ReportsMoveAStation) and then the settling of its two channels give: STATION is raised
where a station joins, is replaced or lost, or drifts, the bays hold first what the report made of the record, then what
it made of the frames (R71, R82), and an on-record frame of its channels takes the first cause of R95's table, CHECK at
the end of it for a bad bundle, and SAMPLE for a good one where its full block fits, or else NO_ROOM. Which check gives
the reason is said in BundlesReadBackAndAreChecked. The order of the marks inside a report is the model's (assumption
6). The round then goes on as at the end of any call (assumption 62), its round end in whole character times rounded
down by the model's choice (assumption 22). -/
def Obligations.FinishedReply : Prop :=
  ∀ (s : State) (p : PortId) (x : BitVec 88) (g : Target) (r : Reply),
    receive x = some (.control endChar) → (s.port p).state = .running → (s.port p).sending = [] →
    (s.port p).phase = .receiving → (s.port p).target = some g → (s.port p).reply = some r →
    ((s.port p).fault = none → bundleFault r.data (s.timer.boundary.setWidth 8) = none →
      ∃ t, exec (.characterReceived p x) s = .next t ∧ OnlyLink s t p ∧
        (t.port p).check = (s.port p).check ∧ ((t.port p).phase = .polling ∨ (t.port p).phase = .ended) ∧
        CallOver s t p (s.port p).busy ∧ RoundEndsNow s t p ∧
        (t.port p).current.map Figures.good = (s.port p).current.map (fun f => f.good + 1) ∧
        PathIs t (s.path.report s.ctx s.ctx.polled (stationAt p g.addr) g.probe (.good (Bundle.parse r.data))) ∧
        Called s t p g.addr (.good (Bundle.parse r.data))
          ((if g.probe then s.path.stations[stationAt p g.addr].probed (Bundle.parse r.data).unit
            else s.path.stations[stationAt p g.addr].listed (Bundle.parse r.data).unit).1.takeBundle
              (Bundle.parse r.data)) ∧
        ((if g.probe then s.path.stations[stationAt p g.addr].probed (Bundle.parse r.data).unit
            else s.path.stations[stationAt p g.addr].listed (Bundle.parse r.data).unit).2 ≠ none → Raised t .station) ∧
        (∀ m : Fin 2, t.path.stations[stationAt p g.addr].mics[m].drift = true →
          s.path.stations[stationAt p g.addr].mics[m].drift = false → Raised t .station) ∧
        (∀ u : Fin 34, ∃ more, t.path.bays.bay[u].items =
          (s.path.recordReport s.ctx s.ctx.polled (stationAt p g.addr) g.probe
            (.good (Bundle.parse r.data))).bays.bay[u].items ++ more) ∧
        ∀ k : Fin 16, t.path.stations[k] =
          if k = stationAt p g.addr then
            (if g.probe then s.path.stations[k].probed (Bundle.parse r.data).unit
              else s.path.stations[k].listed (Bundle.parse r.data).unit).1.takeBundle (Bundle.parse r.data)
          else s.path.stations[k]) ∧
    ∀ reason, (s.port p).fault = some reason ∨
        ((s.port p).fault = none ∧ bundleFault r.data (s.timer.boundary.setWidth 8) = some reason) →
      ∃ t, exec (.characterReceived p x) s = .next t ∧ OnlyLink s t p ∧
        (t.port p).check = min 65535 ((s.port p).check + 1) ∧ (t.port p).lastReason = some reason ∧
        ((t.port p).phase = .polling ∨ (t.port p).phase = .ended) ∧ CallOver s t p (s.port p).busy ∧
        RoundEndsNow s t p ∧ (g.probe = true → PathIs t s.path) ∧
        (g.probe = false → PathIs t (s.path.report s.ctx s.ctx.polled (stationAt p g.addr) false .bad) ∧
          Called s t p g.addr .bad s.path.stations[stationAt p g.addr].missed.1) ∧
        (g.probe = false → s.path.stations[stationAt p g.addr].missed.2 ≠ none → Raised t .station) ∧
        (g.probe = false → ∀ u : Fin 34, ∃ more, t.path.bays.bay[u].items =
          (s.path.recordReport s.ctx s.ctx.polled (stationAt p g.addr) false .bad).bays.bay[u].items ++ more) ∧
        ∀ k : Fin 16, t.path.stations[k] =
          if k = stationAt p g.addr ∧ g.probe = false then s.path.stations[k].missed.1 else s.path.stations[k]

/-- The low run, LINE_STUCK and OVERCURRENT (R39, R41 to R44, R50, R52, R77): in RUNNING each bit time of ticks on a
line at 0 adds one to the low run, and at 4,096 LINE_STUCK waits (assumption 23); in STUCK a tick on such a line clears
the idle interval flag. With a low run of 4,096 the port becomes STUCK with its switch closed, with a lower one
LINE_STUCK does nothing. An overcurrent makes it TRIPPED with its switch open and a cooldown of 125. Either makes
PORT_FAULT of its kind at the current frame, where R17 allows it, after what the round's end made (an order R125 leaves
open, assumption 57), and raises PORT; on leaving RUNNING every station of the port that is not VACANT is LOST with
cause PORT, and the stations of the other port stay. On leaving RUNNING, also by a power OFF at a boundary, each station
of the list not yet reported, the one under call with it, is reported as not polled while RUNNING: its on-record frames
are PORT_DOWN, or POWER under the warning, or PRIVACY (R41, R95). The port then has no call, reply or poll list, and
keeps its probe cursor, the figures latched and its last check reason (R69). The round's own figures, for the next
boundary to latch, are those it had where it was ENDED, or in POLLING after the deadline with no call under way
(assumption 54); of a round cut short the round end is this moment (assumption 54), in whole character times rounded
down (assumption 22). -/
def Obligations.StuckAndTripped : Prop :=
  ∀ (s : State) (p : PortId),
    (s.pending = [] → s.timer.running = true → (s.port p).lineLow = true → ∃ t, step s = .next t ∧
      ((s.port p).state = .stuck → (t.port p).state = .stuck ∧ (t.port p).idleFlag = false) ∧
      ((s.port p).state = .running →
        ((s.port p).lowTicks + 1 < 8 * ((s.port p).divisor + 1) →
          (t.port p).lowTicks = (s.port p).lowTicks + 1 ∧ (t.port p).lowRun = (s.port p).lowRun) ∧
        (8 * ((s.port p).divisor + 1) ≤ (s.port p).lowTicks + 1 →
          (t.port p).lowTicks = 0 ∧ (t.port p).lowRun = min 4096 ((s.port p).lowRun + 1)) ∧
        ((t.port p).lowRun = 4096 → .lineStuck p ∈ t.pending))) ∧
    ((s.port p).state ≠ .running ∨ (s.port p).lowRun < 4096 → exec (.lineStuck p) s = .next s) ∧
    ((s.port p).state = .running → (s.port p).lowRun = 4096 →
      ∃ t, exec (.lineStuck p) s = .next t ∧ OnlyLink s t p ∧ Raised t .port ∧
      (t.port p).state = .stuck ∧ (t.port p).closed = true ∧ (t.port p).idleFlag = false ∧
      (t.port p).stuck = min 65535 ((s.port p).stuck + 1) ∧ (t.port p).phase = .idle ∧ (t.port p).sending = []) ∧
    ((s.port p).state = .starting ∨ (s.port p).state = .running ∨ (s.port p).state = .stuck →
      ∃ t, exec (.overcurrent p) s = .next t ∧ OnlyLink s t p ∧ Raised t .port ∧
        (t.port p).state = .tripped ∧ (t.port p).closed = false ∧ (t.port p).cooldown = 125 ∧
        (t.port p).starting = 0 ∧ (t.port p).stuck = (s.port p).stuck ∧ (t.port p).sending = [] ∧
        ((s.port p).state ≠ .running → t.path.stations = s.path.stations ∧
          t.path.bays = if s.sitting.marks s.frame then
              s.path.bays.offer { kind := .portFault p .tripped, frame := s.frame, time := s.timer.tod }
            else s.path.bays)) ∧
    (∀ (c : Instr) (kind : PortFaultKind),
      (c = .lineStuck p ∧ kind = .stuck ∧ (s.port p).lowRun = 4096) ∨ (c = .overcurrent p ∧ kind = .tripped) →
      (s.port p).state = .running → ∃ t, exec c s = .next t ∧
      ((t.port p).phase = .idle ∧ (t.port p).pollList = [] ∧ (t.port p).target = none ∧ (t.port p).reply = none ∧
        (t.port p).probeCursor = (s.port p).probeCursor ∧ (t.port p).figures = (s.port p).figures ∧
        (t.port p).lastReason = (s.port p).lastReason ∧
        (t.port p).current =
          if (s.port p).phase = .ended ∨
              ((s.port p).phase = .polling ∧ (s.port p).deadlinePassed = true ∧ (s.port p).target = none)
          then (s.port p).current
          else (s.port p).current.map fun g =>
            { g with roundEnd := s.timer.tick / (88 * ((s.port p).divisor + 1)) }) ∧
      (∃ before : Bays, (∀ u : Fin 34, ∃ more, before.bay[u].items = s.path.bays.bay[u].items ++ more) ∧
        t.path.bays = if s.sitting.marks s.frame then
            before.offer { kind := .portFault p kind, frame := s.frame, time := s.timer.tod }
          else before) ∧
      (∀ a, a ∈ (s.port p).remaining ∨ (s.port p).target = some { addr := a, probe := false } →
        Handed s t p a (if s.supply.warning then .power else .portDown)) ∧
      ∀ (q : PortId) (a : Fin 8), t.path.stations[stationAt q a] =
        if q = p ∧ s.path.stations[stationAt q a].state ≠ .vacant then
          { s.path.stations[stationAt q a] with state := .lost, lostCause := some .port, goodRun := 0, missRun := 0 }
        else s.path.stations[stationAt q a]) ∧
    ∀ (first second : Bool), (p = .a → first = true) → (p = .b → second = true) → s.timer.running = true →
      (s.port p).state = .running →
      (∃ d, (s.port p).control = some { power := .off, divisor := d } ∨
        (s.port p).control = some { power := .offThenOn, divisor := d }) →
      ∃ t, exec (.boundary first second) s = .next t ∧
      ∀ (a : Fin 8) (m : Fin 2) (c : Fin 32) (f : Nat) (sn : Snapshot) (asked : Bool) (cause : VoidCause),
        a ∈ (s.port p).remaining ∨ (s.port p).target = some { addr := a, probe := false } →
        c = channelOf (stationAt p a) m → s.ctx.polled = some f → s.path.channels[c].snapshot f = some sn →
        sn.onRecord = true → s.path.channels[c].seated = true → s.path.channels[c].settled = false →
        s.path.channels[c].run = none → s.sitting.isOpen = true → s.sitting.close = none → s.sitting.cur = true →
        s.writer.sheets[trackOf (soundTrack c)] = none →
        asked = ((s.path.stations[stationAt p a].mics[m].button || sn.settings.privacy) && !sn.settings.bar) →
        cause = (if asked then .privacy else if s.supply.warning then .power else .portDown) →
        t.path.channels[c].run = some { cause := cause, first := f, length := 1, tail := 0, held := false }

/-! ### Characters, bundles, cells and records (R34, R36, R54, R55, R62, R117, R124, R154, R158, R167 to R171) -/

/-- A character is received whatever one sample of each bit's middle three reads wrong (R34, R36): where two of samples
3, 4 and 5 of every bit read the bit sent, the receiver hands over the control or data character sent. -/
def Obligations.CharactersSurviveOneWrongSampleABit : Prop :=
  ∀ (mark : Bool) (v : Byte) (x : BitVec 88),
    (∀ k, k < 11 → ∃ i ∈ [3, 4, 5], ∃ j ∈ [3, 4, 5], i ≠ j ∧
      x.getLsbD (8 * k + i) = (charBits mark v).getLsbD k ∧ x.getLsbD (8 * k + j) = (charBits mark v).getLsbD k) →
    receive x = some (if mark then .control v else .data v)

/-- The control characters, the lamp byte and the CRC-16 of the nine characters 1 to 9 (R171). A bundle that a station
may send is good, under the tag it carries, and reads back item for item (R54, R55, R171). Whatever the characters, a
reply is without a fault of R62's checks 5 to 9 exactly when its length is what its counts say, both counts lie in 60 to
68, its check agrees with the CRC-16 of what stands before it, its tag is the one asked for, and the four positions of
the status that are always 0 are 0. Of a reply with a fault the reason is the first of these that it fails, in R62's
order: LENGTH where the number is wrong, fewer than 9 with it, else COUNT, else CRC, else TAG, else FORMAT. -/
def Obligations.BundlesReadBackAndAreChecked : Prop :=
  (frameChar = 0xF0#8 ∧ endChar = 0xF1#8 ∧ testChar = 0xF5#8 ∧
    (∀ a : Fin 8, (pollChar a).toNat = 0x80 + a.val ∧ bundleAddress (BitVec.ofNat 8 (0x90 + a.val)) = some a) ∧
    (∀ v a, bundleAddress v = some a → v.toNat = 0x90 + a.val) ∧
    (∀ l m : Lamp, (lampByte l m).toNat = l.code + 4 * m.code) ∧
    crc16 [0x31#8, 0x32#8, 0x33#8, 0x34#8, 0x35#8, 0x36#8, 0x37#8, 0x38#8, 0x39#8] = 0x29B1#16) ∧
  (∀ b : Bundle, b.wf = true → bundleFault b.encode b.tag = none ∧ Bundle.parse b.encode = b) ∧
  (∀ (data : List Byte) (tag : Byte),
    bundleFault data tag = none ↔
      data.length = 9 + 2 * (bundleCount data 0 + bundleCount data 1) ∧
      (∀ m : Fin 2, 60 ≤ bundleCount data m ∧ bundleCount data m ≤ 68) ∧
      crc16 (data.take (data.length - 2)) = BitVec.ofNat 16 (readLE data (data.length - 2) 2) ∧
      data.getD 3 0 = tag ∧ (∀ i, 4 ≤ i → i < 8 → (data.getD 4 0).getLsbD i = false)) ∧
  ∀ (data : List Byte) (tag : Byte),
    (data.length < 9 ∨ data.length ≠ 9 + 2 * (bundleCount data 0 + bundleCount data 1) →
      bundleFault data tag = some .length) ∧
    (data.length = 9 + 2 * (bundleCount data 0 + bundleCount data 1) →
      ((∃ m : Fin 2, bundleCount data m < 60 ∨ 68 < bundleCount data m) → bundleFault data tag = some .count) ∧
      ((∀ m : Fin 2, 60 ≤ bundleCount data m ∧ bundleCount data m ≤ 68) →
        (crc16 (data.take (data.length - 2)) ≠ BitVec.ofNat 16 (readLE data (data.length - 2) 2) →
          bundleFault data tag = some .crc) ∧
        (crc16 (data.take (data.length - 2)) = BitVec.ofNat 16 (readLE data (data.length - 2) 2) →
          (data.getD 3 0 ≠ tag → bundleFault data tag = some .tag) ∧
          (data.getD 3 0 = tag → (∃ i, 4 ≤ i ∧ i < 8 ∧ (data.getD 4 0).getLsbD i = true) →
            bundleFault data tag = some .format))))

/-- A request cell as the host writes it is read as POSTED, with its tag and kind, and names the request written, every
argument at every value (R153, R154, R169); a text is taken up to the 37 bytes of the cell's arguments (assumption 44). -/
def Obligations.CellsReadBack : Prop :=
  ∀ (tag : Word16) (i : Instr) (cell : List Byte), WellFormed i = true → postedCell tag i = some cell →
    cell.length = 64 ∧ cellState cell = 1 ∧ cellTag cell = tag ∧ cellKind cell = requestKind i ∧ cellRequest cell = i

/-- Every item's bytes are as many as the room it takes in its bay, a multiple of 4 (R117, R124); a sample block, a void
run block and a mark of each kind hold their values at the layout's offsets, with 0 as padding (R167, R168); the bytes
between the fields of FLOOR_BEGIN, FLOOR_END and STATION_DRIFT (assumption 64) and the unlisted bits of the channel and
station panels' bytes of bits (assumption 65) are 0 by the model's choice. The status summary word gives each of its
fields back (R158, R170), and every record that the part writes has its layout's length and holds the part's values at
the layout's offsets: the result area (R155, R169), the Directory head (R157), the channel, station and port panel
entries (R159), the sheet header (R139, R170) and the status of a pool entry. The codes they carry are those of R167,
R169 and R170, one by one. -/
def Obligations.RecordsFillTheirLayouts : Prop :=
  (∀ i : Item,
    (∀ m code length text, i = .mark m → m.kind = .hostMark code length text → text.length = length.toNat) →
    i.bytes.length = i.size ∧ i.size % 4 = 0) ∧
  (∀ (b : SampleBlock) (total : Nat), total = (16 + 2 * b.samples.length + 3) / 4 * 4 →
    Fields (Item.sample b).bytes [(0, 1, 1), (1, 1, (if b.economy then 1 else 0) + (if b.clip then 2 else 0)),
      (2, 2, total), (4, 4, b.frame), (8, 1, b.track.val), (9, 1, b.samples.length), (10, 1, b.delivered),
      (11, 1, b.contributors), (12, 4, 0), (16 + 2 * b.samples.length, total - (16 + 2 * b.samples.length), 0)] ∧
    ∀ (i : Nat) (v : Int), b.samples[i]? = some v →
      Fields (Item.sample b).bytes [(16 + 2 * i, 2, (BitVec.ofInt 16 v).toNat)]) ∧
  (∀ (k : Fin 33) (r : VoidRun), Fields (Item.voidRun k r).bytes [(0, 1, 2), (1, 1, r.cause.code), (2, 2, 16),
    (4, 4, r.first), (8, 1, k.val), (9, 1, 0), (10, 2, r.length), (12, 4, r.tail)]) ∧
  [VoidCause.privacy, .power, .portDown, .noStation, .joining, .noMic, .noReply, .check, .late, .noRoom,
    .noSources].map VoidCause.code = [1, 2, 3, 4, 5, 6, 7, 8, 9, 10, 11] ∧
  ([ResultCode.done, .doneClamped, .refusedState, .refusedRange, .refusedRoom, .refusedKind, .refusedCooldown,
      .refusedBusy].map ResultCode.code = [0, 1, 16, 17, 18, 19, 20, 21] ∧
    [PoolStatus.free, .standby, .writing, .closed, .faulted].map PoolStatus.code = [1, 2, 3, 4, 5] ∧
    [SheetReason.full, .age, .flush, .sittingClosed, .power, .fault].map SheetReason.code = [1, 2, 3, 4, 5, 6] ∧
    [SittingState.idle, .armed, .onRecord, .offRecord, .closing].map SittingState.code = [0, 1, 2, 3, 4] ∧
    [PortState.disabled, .starting, .running, .stuck, .tripped, .testing].map PortState.code = [0, 1, 2, 3, 4, 5] ∧
    [StationState.vacant, .joining, .present, .missing, .lost].map StationState.code = [0, 1, 2, 3, 4] ∧
    [none, some LostCause.misses, some .port].map LostCause.code = [0, 1, 2] ∧
    [Lamp.off, .live, .priv].map Lamp.code = [0, 1, 2] ∧
    [none, some BadReason.framing, some .leader, some .address, some .control, some .length, some .count, some .crc,
      some .tag, some .format].map BadReason.code = [0, 1, 2, 3, 4, 5, 6, 7, 8, 9]) ∧
  (∀ m : Mark, Fields (Item.mark m).bytes ([(0, 1, 3), (4, 4, m.frame), (8, 8, m.time.toNat)] ++ m.kind.layout) ∧
    ∀ code length text, m.kind = .hostMark code length text → text.length = length.toNat →
      ∃ n, (Item.mark m).bytes.drop 19 = text ++ List.replicate n 0#8) ∧
  ∀ s : State,
    (statusWord s % 8 = s.sitting.state.code ∧ (statusWord s).testBit 3 = s.sitting.shownFlag ∧
      statusWord s / 16 % 16 = s.portA.state.code ∧ statusWord s / 256 % 16 = s.portB.state.code ∧
      (statusWord s).testBit 12 = s.writer.anyStarving ∧ (statusWord s).testBit 13 = s.path.bays.anyEconomy ∧
      (statusWord s).testBit 14 = s.supply.warning ∧ (statusWord s).testBit 15 = s.timer.running ∧
      statusWord s < 65536) ∧
    (∀ a, (resultBytes s a).length = 32 ∧ Fields (resultBytes s a) [(0, 2, a.result.code.code), (2, 2, a.tag.toNat),
      (4, 4, a.result.w0.toNat), (8, 4, a.result.w1.toNat), (12, 4, a.result.w2.toNat),
      (16, 8, s.timer.boundary.toNat), (24, 4, statusWord s), (28, 4, 0)]) ∧
    (headBytes s).length = 64 ∧
    Fields (headBytes s) [(0x00, 4, statusWord s), (0x04, 4, s.frame), (0x08, 8, s.timer.boundary.toNat),
      (0x10, 8, s.timer.tod.toNat), (0x18, 8, s.sitting.openedAt.toNat), (0x20, 4, s.sitting.number.toNat),
      (0x24, 4, s.sitting.lastFrame.getD 4294967295), (0x28, 4, s.timer.interval), (0x2C, 4, s.writer.queue.length),
      (0x30, 4, s.writer.closedTotal), (0x34, 4, s.path.fcu.mixClips), (0x38, 4, s.bus.busFaults), (0x3C, 4, 0)] ∧
    (∀ (t : Fin 34) (o : OpenSheet) (reason : SheetReason) (size : Nat),
      (headerBytes s t o reason size).length = 64 ∧
      Fields (headerBytes s t o reason size) [(0, 1, t.val), (1, 1, reason.code), (2, 2, o.serial),
        (4, 4, s.sitting.number.toNat), (8, 8, s.sitting.openedAt.toNat), (16, 4, o.used), (20, 4, o.blocks),
        (24, 4, o.first.getD 4294967295), (28, 4, o.last.getD 4294967295), (32, 4, o.opened),
        (36, 4, (s.sitting.close.map CloseTarget.last).getD 4294967295), (40, 8, s.timer.tod.toNat),
        (48, 4, statusWord s), (52, 4, size), (56, 2, o.index.val), (58, 6, 0)]) ∧
    (∀ e : Fin 50, (panelBytes s e).length = if e.val < 48 then 16 else 64) ∧
    (∀ (e : Fin 50) (c : Fin 32) (ch : Channel) (fl : Floor) (mic : Mic), e.val = c.val → s.path.channels[c] = ch →
      s.path.fcu.floors[c] = fl → s.path.stations[stationOf c].mics[micOf c] = mic →
      Fields (panelBytes s e) [(1, 1, ch.lamp.code), (2, 2, fl.lastPeak), (4, 2, ch.clips),
        (6, 2, (BitVec.ofInt 16 mic.slip).toNat), (8, 4, ch.captured), (12, 4, ch.voids)] ∧
      ∃ b, (panelBytes s e)[0]? = some b ∧ b.getLsbD 0 = ch.seated ∧ b.getLsbD 1 = ch.privacy ∧
        b.getLsbD 2 = ch.settings.privacy ∧ b.getLsbD 3 = ch.settings.bar ∧ b.getLsbD 4 = fl.speaking ∧
        b.getLsbD 5 = mic.drift ∧ b.toNat < 64) ∧
    (∀ (e : Fin 50) (k : Fin 16) (st : Station), e.val = 32 + k.val → s.path.stations[k] = st →
      Fields (panelBytes s e) [(0, 1, st.state.code), (1, 1, LostCause.code st.lostCause), (2, 1, st.goodRun),
        (3, 1, st.missRun), (4, 3, (st.unit.map BitVec.toNat).getD 0), (7, 1, 0), (9, 7, 0)] ∧
      ∃ b, (panelBytes s e)[8]? = some b ∧ b.getLsbD 0 = st.mics[0].button ∧ b.getLsbD 1 = st.mics[1].button ∧
        b.getLsbD 2 = st.mics[0].present ∧ b.getLsbD 3 = st.mics[1].present ∧ b.toNat < 16) ∧
    (∀ (e : Fin 50) (p : PortId) (pt : Port), e.val = 48 + portNumber p → s.port p = pt →
      Fields (panelBytes s e) [(0, 1, pt.state.code), (1, 1, pt.divisor), (2, 1, pt.starting), (3, 1, pt.cooldown),
        (4, 2, pt.framing), (6, 2, pt.check), (8, 2, pt.noReply), (10, 2, pt.lateCut), (12, 2, pt.stuck),
        (14, 1, pt.figures.listPolls), (15, 1, pt.figures.good), (16, 1, (pt.figures.probe.map Fin.val).getD 255),
        (17, 1, BadReason.code pt.lastReason), (18, 2, pt.figures.roundEnd), (20, 44, 0)]) ∧
    ∀ status track serial, (statusBytes status track serial).length = 4 ∧
      Fields (statusBytes status track serial) [(0, 1, status.code), (1, 1, track), (2, 2, serial)]

/-! ### Stations (R72 to R76, R79 to R82) -/

/-- Good bundles (R72 to R76): a PROBE makes a VACANT or LOST record JOINING; a LIST poll advances a JOINING one,
PRESENT at the eighth, brings a MISSING one back, and takes another unit number as a replacement. Misses (R73 to R75): a
PRESENT station is MISSING, a JOINING one loses its good run, the twenty-fifth consecutive one makes the record LOST
with cause MISSES. Slip and drift (R79 to R81): a count moves the slip by n − 64 within −32,767 to 32,767, the drift
flag is set above 320 in magnitude and cleared at 160 or below, button and presence are the bundle's. Marks (R82): a
report makes STATION_JOINED, STATION_REPLACED or STATION_LOST, then STATION_DRIFT of each microphone whose flag it set
(assumption 6), at the frame that the round polled where R17 allows a mark there, raises STATION where it makes one or
would, and changes no other record, channel or detector. The hand-off (R71, R93, R95): then, where the round polled a
frame, the frame of the first channel and then of the second is settled, after a press that the bar refuses. -/
def Obligations.ReportsMoveAStation : Prop :=
  (∀ (st : Station) (old u : BitVec 24),
    (st.state = .vacant → (st.probed u).2 = some (.joined u) ∧
      (st.probed u).1 = { state := .joining, unit := some u, goodRun := 1, missRun := 0, lostCause := none,
                          mics := st.mics.map fun m => { m with slip := 0, drift := false } }) ∧
    (st.state = .lost → st.unit = some u → (st.probed u).2 = some (.joined u) ∧
      (st.probed u).1 = { state := .joining, unit := some u, goodRun := 1, missRun := 0, lostCause := none,
                          mics := st.mics }) ∧
    (st.unit = some old → old ≠ u →
      (st.state = .lost → (st.probed u).2 = some (.replaced old u) ∧
        (st.probed u).1 = { state := .joining, unit := some u, goodRun := 1, missRun := 0, lostCause := none,
                            mics := st.mics.map fun m => { m with slip := 0, drift := false } }) ∧
      (st.state = .joining ∨ st.state = .present ∨ st.state = .missing → (st.listed u).2 = some (.replaced old u) ∧
        (st.listed u).1 = { state := .joining, unit := some u, goodRun := 1, missRun := 0, lostCause := none,
                            mics := st.mics.map fun m => { m with slip := 0, drift := false } })) ∧
    (st.unit = some u →
      (st.state = .joining → st.goodRun < 7 →
        st.listed u = ({ st with goodRun := st.goodRun + 1, missRun := 0 }, none)) ∧
      (st.state = .joining → st.goodRun = 7 →
        st.listed u = ({ st with state := .present, goodRun := 8, missRun := 0 }, none)) ∧
      (st.state = .present ∨ st.state = .missing →
        st.listed u = ({ st with state := .present, missRun := 0 }, none)))) ∧
  (∀ (st : Station) (u : BitVec 24),
    (st.state = .present → st.missed = ({ st with state := .missing, missRun := 1 }, none)) ∧
    (st.state = .joining → st.missRun < 24 →
      st.missed = ({ st with goodRun := 0, missRun := st.missRun + 1 }, none)) ∧
    (st.state = .missing → st.missRun < 24 → st.missed = ({ st with missRun := st.missRun + 1 }, none)) ∧
    (st.state = .joining ∨ st.state = .missing → st.missRun = 24 → st.unit = some u →
      st.missed = ({ st with state := .lost, goodRun := 0, missRun := 25, lostCause := some .misses }, some (.lost u))) ∧
    (st.state = .vacant ∨ st.state = .lost → st.missed = (st, none))) ∧
  (∀ (mic : Mic) (button present : Bool) (n : Nat),
    -32767 ≤ mic.slip → mic.slip ≤ 32767 → 60 ≤ n → n ≤ 68 →
    (mic.take button present n).button = button ∧ (mic.take button present n).present = present ∧
    (-32767 ≤ mic.slip + n - 64 → mic.slip + n - 64 ≤ 32767 →
      (mic.take button present n).slip = mic.slip + n - 64) ∧
    (32767 < mic.slip + n - 64 → (mic.take button present n).slip = 32767) ∧
    (mic.slip + n - 64 < -32767 → (mic.take button present n).slip = -32767) ∧
    (mic.drift = false → ((mic.take button present n).drift = true ↔
      320 < (mic.take button present n).slip ∨ (mic.take button present n).slip < -320)) ∧
    (mic.drift = true → ((mic.take button present n).drift = false ↔
      -160 ≤ (mic.take button present n).slip ∧ (mic.take button present n).slip ≤ 160))) ∧
  (∀ (x : Ctx) (k : Fin 16) (probe : Bool) (r : Report) (p : Path),
    p.report x none k probe r = p.recordReport x none k probe r ∧
    ∀ (f : Nat) (record one : Path) (press : Path → Fin 2 → Path), p.recordReport x (some f) k probe r = record →
      ((∀ b, r ≠ .good b) → press = fun q _ => q) →
      (∀ b, r = .good b → press = fun q m =>
        q.refusePress x f (channelOf k m) p.stations[k].mics[m].button b.privacy[m]) →
      (press record 0).settle x f (.report r) (channelOf k 0) = one →
      p.report x (some f) k probe r = (press one 1).settle x f (.report r) (channelOf k 1)) ∧
  ∀ (x : Ctx) (polled : Option Nat) (k : Fin 16) (probe : Bool) (r : Report) (p q : Path) (st : Station)
    (made : MarkKind → Bays → Bays), p.stations[k] = st → p.recordReport x polled k probe r = q →
    (∀ f, polled = some f → x.sitting.marks f = true →
      made = fun kind bs => bs.offer { kind := kind, frame := f, time := x.tod }) →
    (polled = none ∨ (∃ f, polled = some f ∧ x.sitting.marks f = false) → made = fun _ bs => bs) →
    q.channels = p.channels ∧ q.fcu = p.fcu ∧ (∀ j : Fin 16, j ≠ k → q.stations[j] = p.stations[j]) ∧
    (r = .notRunning ∨ r = .supply → q = p) ∧
    (r = .bad ∨ r = .noReply ∨ r = .late → q.stations[k] = st.missed.1 ∧
      (st.missed.2 = none → q.bays = p.bays ∧ q.attn = p.attn) ∧
      ∀ u, st.missed.2 = some (.lost u) → q.bays = made (.stationLost k u) p.bays ∧
        q.attn.pending.getLsbD Cause.station.position = true) ∧
    ∀ (b : Bundle) (took : Station × Option StationNews) (first : Bays → Bays) (drifted : Fin 2 → Bays → Bays),
      r = .good b → took = (if probe then st.probed b.unit else st.listed b.unit) →
      (took.2 = none → first = id) → (∀ u, took.2 = some (.joined u) → first = made (.stationJoined k u)) →
      (∀ old new, took.2 = some (.replaced old new) → first = made (.stationReplaced k old new)) →
      (∀ m : Fin 2, drifted m = if took.1.mics[m].drift = false ∧ (took.1.takeBundle b).mics[m].drift = true
        then made (.stationDrift (channelOf k m) (took.1.takeBundle b).mics[m].slip) else id) →
      q.stations[k] = took.1.takeBundle b ∧ q.bays = drifted 1 (drifted 0 (first p.bays)) ∧
      (took.2 ≠ none ∨ (∃ m : Fin 2, took.1.mics[m].drift = false ∧ (took.1.takeBundle b).mics[m].drift = true) →
        q.attn.pending.getLsbD Cause.station.position = true) ∧
      (took.2 = none → (∀ m : Fin 2, took.1.mics[m].drift = true ∨ (took.1.takeBundle b).mics[m].drift = false) →
        q.attn = p.attn)

/-! ### Channel frames, privacy and the Frame Computation (R18, R89, R92, R95 to R101, R106 to R118) -/

/-- R18, R98, R101: settling an on-record frame of a seated channel adds exactly one frame to what its bay and its pending
run cover, and one to its captured and void frames together; an off-record frame adds none, the other channels' cover
stays, and a frame settled is not settled again. -/
def Obligations.SettlingCoversAFrameOnce : Prop :=
  ∀ (x : Ctx) (f : Nat) (how : Settling) (p : Path) (c : Fin 32) (sn : Snapshot),
    p.channels[c].snapshot f = some sn → p.channels[c].seated = true → x.sitting.within f = true →
    (p.channels[c].settled = true → p.settle x f how c = p) ∧
    (p.channels[c].settled = false →
      (p.settle x f how c).channels[c].settled = true ∧
      (p.settle x f how c).covered c = p.covered c + (if sn.onRecord then 1 else 0) ∧
      (∀ d, d ≠ c → (p.settle x f how c).covered d = p.covered d) ∧
      (p.channels[c].captured < 4294967295 → p.channels[c].voids < 4294967295 →
        (p.settle x f how c).channels[c].captured + (p.settle x f how c).channels[c].voids =
          p.channels[c].captured + p.channels[c].voids + (if sn.onRecord then 1 else 0)))

/-- The outcome of an on-record frame of a seated channel with no pending run (R89, R95, R97): the first cause of R95's
table for a report, and of R97's list at the close; with none of them a good bundle's frame is offered in economy or
full as the economy test decides (R118), SAMPLE where that block fits, the halved one in economy, and NO_ROOM where it
does not: the frame then begins a run of that cause, and the bay keeps its items (R96, R98, R119, R122). A full block
that fits is SAMPLE either way. With a pending run (R98, R99): a void frame of the run's own cause lengthens an OPEN
run, which is ended and offered at 65,535; another cause ends it, a new run beginning with the frame where its block
fits; a HELD run, or one that becomes HELD, takes the frame into its tail as NO_ROOM; and a frame to be sampled ends an
OPEN run first and is offered after it, SAMPLE or NO_ROOM with a run of its own as above, or joins the tail where the
run is HELD. A frame settled SAMPLE (R105, R107, R108, R109, R117, R118): the block holds the gained samples, halved in
economy as the economy test decides, their number before any halving, and the clip flag where one saturated; the clip
count goes up by the saturated ones; and the detector steps with their peak, loud where it reaches the threshold. One
settled NO_ROOM for want of room keeps its peak for the panel and is not loud; any other has a peak of 0, and only a
SAMPLE is captured (R101). -/
def Obligations.OutcomeOfAnOnRecordFrame : Prop :=
  (∀ (x : Ctx) (f : Nat) (how : Settling) (p : Path) (c : Fin 32) (sn : Snapshot) (st : Station) (mic : Mic)
    (isPrivate : Bool),
    p.channels[c].snapshot f = some sn → sn.onRecord = true → p.channels[c].seated = true →
    p.channels[c].settled = false → x.sitting.within f = true → p.channels[c].run = none →
    p.stations[stationOf c] = st → st.mics[micOf c] = mic →
    isPrivate = ((buttonPart how mic (micOf c) || sn.settings.privacy) && !sn.settings.bar) →
    (p.settle x f how c).channels[c].privacy = isPrivate ∧
    (isPrivate = true → (p.settle x f how c).channels[c].outcome = some (.void .privacy)) ∧
    (isPrivate = false →
      (x.warning = true ∨ how = .report .supply →
        (p.settle x f how c).channels[c].outcome = some (.void .power)) ∧
      (x.warning = false → how = .report .notRunning ∨ how = .close false →
        (p.settle x f how c).channels[c].outcome = some (.void .portDown)) ∧
      (x.warning = false → how ≠ .report .supply → how ≠ .report .notRunning → how ≠ .close false →
        (st.state = .vacant ∨ st.state = .lost →
          (p.settle x f how c).channels[c].outcome = some (.void .noStation)) ∧
        (st.state = .joining → (p.settle x f how c).channels[c].outcome = some (.void .joining)) ∧
        (st.state = .present ∨ st.state = .missing →
          (how = .close true → (p.settle x f how c).channels[c].outcome = some (.void .late)) ∧
          (mic.present = false → how ≠ .close true →
            (p.settle x f how c).channels[c].outcome = some (.void .noMic)) ∧
          (mic.present = true →
            (how = .report .noReply → (p.settle x f how c).channels[c].outcome = some (.void .noReply)) ∧
            (how = .report .bad → (p.settle x f how c).channels[c].outcome = some (.void .check)) ∧
            (how = .report .late → (p.settle x f how c).channels[c].outcome = some (.void .late)) ∧
            ∀ b, how = .report (.good b) →
              ((p.settle x f how c).channels[c].outcome = some .sample ∨
                (p.settle x f how c).channels[c].outcome = some (.void .noRoom)) ∧
              (p.bays.bay[trackOf (soundTrack c)].fill + pad4 (16 + 2 * b.samples[micOf c].length) ≤
                  p.bays.bay[trackOf (soundTrack c)].capacity →
                (p.settle x f how c).channels[c].outcome = some .sample) ∧
              ∀ (bay : Bay) (e : Bool) (room : Nat), p.bays.bay[trackOf (soundTrack c)] = bay →
                e = bay.offersEconomy bay.fill → room = blockRoom e b.samples[micOf c].length →
                (bay.fill + room ≤ bay.capacity → (p.settle x f how c).channels[c].outcome = some .sample ∧
                  (p.settle x f how c).channels[c].run = none) ∧
                (bay.capacity < bay.fill + room →
                  (p.settle x f how c).channels[c].outcome = some (.void .noRoom) ∧
                  (p.settle x f how c).channels[c].run =
                    some { cause := .noRoom, first := f, length := 1, tail := 0, held := false } ∧
                  (p.settle x f how c).bays.bay[trackOf (soundTrack c)] = { bay with economy := e })))))) ∧
  (∀ (x : Ctx) (f : Nat) (how : Settling) (p q : Path) (c : Fin 32) (sn : Snapshot) (r : VoidRun) (ch : Channel)
    (bay after : Bay),
    p.channels[c].snapshot f = some sn → sn.onRecord = true → p.channels[c].seated = true →
    p.channels[c].settled = false → x.sitting.within f = true → p.channels[c].run = some r → p.settle x f how c = q →
    q.channels[c] = ch → p.bays.bay[trackOf (soundTrack c)] = bay → q.bays.bay[trackOf (soundTrack c)] = after →
    (∀ cause, cause ≠ .noRoom →
      ((p.setChannel c { p.channels[c] with run := none }).settle x f how c).channels[c].outcome = some (.void cause) →
      (r.held = true →
        ch.outcome = some (.void .noRoom) ∧ ch.run = some { r with tail := r.tail + 1 } ∧ after = bay) ∧
      (r.held = false → r.cause = cause → r.length < 65534 →
        ch.outcome = some (.void cause) ∧ ch.run = some { r with length := r.length + 1 } ∧ after = bay) ∧
      (r.held = false → r.cause = cause → r.length = 65534 → ch.outcome = some (.void cause) ∧
        (bay.fill + 16 ≤ bay.capacity → ch.run = none ∧
          after = { bay with items := bay.items ++ [.voidRun (soundTrack c) { r with length := 65535 }] }) ∧
        (bay.capacity < bay.fill + 16 →
          ch.run = some { r with length := 65535, held := true } ∧ after = bay)) ∧
      (r.held = false → r.cause ≠ cause →
        (bay.fill + 16 ≤ bay.capacity → ch.outcome = some (.void cause) ∧
          ch.run = some { cause := cause, first := f, length := 1, tail := 0, held := false } ∧
          after = { bay with items := bay.items ++ [.voidRun (soundTrack c) r] }) ∧
        (bay.capacity < bay.fill + 16 → ch.outcome = some (.void .noRoom) ∧
          ch.run = some { r with held := true, tail := r.tail + 1 } ∧ after = bay))) ∧
    ∀ (b : Bundle) (st : Station), how = .report (.good b) → x.warning = false → p.stations[stationOf c] = st →
      st.state = .present ∨ st.state = .missing → st.mics[micOf c].present = true →
      ((b.privacy[micOf c] || sn.settings.privacy) && !sn.settings.bar) = false →
      (r.held = true →
        ch.outcome = some (.void .noRoom) ∧ ch.run = some { r with tail := r.tail + 1 } ∧ after = bay) ∧
      (r.held = false → bay.capacity < bay.fill + 16 →
        ch.outcome = some (.void .noRoom) ∧ ch.run = some { r with held := true, tail := r.tail + 1 } ∧ after = bay) ∧
      (r.held = false → bay.fill + 16 + pad4 (16 + 2 * b.samples[micOf c].length) ≤ bay.capacity →
        ch.outcome = some .sample ∧ ch.run = none ∧
        ∃ block, after.items = bay.items ++ [.voidRun (soundTrack c) r, .sample block] ∧ block.frame = f ∧
          block.track = soundTrack c) ∧
      ∀ (e : Bool) (room : Nat), r.held = false → bay.fill + 16 ≤ bay.capacity →
        e = bay.offersEconomy (bay.fill + 16) → room = blockRoom e b.samples[micOf c].length →
        (bay.fill + 16 + room ≤ bay.capacity → ch.outcome = some .sample ∧ ch.run = none) ∧
        (bay.capacity < bay.fill + 16 + room → ch.outcome = some (.void .noRoom) ∧
          ch.run = some { cause := .noRoom, first := f, length := 1, tail := 0, held := false } ∧
          after = { bay with economy := e, items := bay.items ++ [.voidRun (soundTrack c) r] })) ∧
  ∀ (x : Ctx) (f : Nat) (how : Settling) (p q : Path) (c : Fin 32) (sn : Snapshot) (st : Station) (mic : Mic)
    (isPrivate : Bool) (old fl : Floor) (before ch : Channel) (bay after : Bay),
    p.channels[c] = before → before.snapshot f = some sn → sn.onRecord = true → before.seated = true →
    before.settled = false → x.sitting.within f = true → p.stations[stationOf c] = st → st.mics[micOf c] = mic →
    isPrivate = ((buttonPart how mic (micOf c) || sn.settings.privacy) && !sn.settings.bar) →
    p.fcu.floors[c] = old → fl = (if old.offLast then
      { old with speaking := false, loudRun := 0, quietRun := 0, firstLoud := none, lastLoud := none } else old) →
    p.settle x f how c = q → q.channels[c] = ch → p.bays.bay[trackOf (soundTrack c)] = bay →
    q.bays.bay[trackOf (soundTrack c)] = after →
    (ch.outcome ≠ some .sample → ch.clips = before.clips ∧ ch.captured = before.captured ∧
      ch.voids = min 4294967295 (before.voids + 1)) ∧
    (isPrivate = true → q.fcu.floors[c].lastPeak = 0) ∧
    (isPrivate = false → x.warning = true ∨ (∀ b, how ≠ .report (.good b)) ∨
        (st.state ≠ .present ∧ st.state ≠ .missing) ∨ mic.present = false →
      q.fcu.floors[c] = { (fl.step sn.settings f false).1 with lastPeak := 0, offLast := false }) ∧
    ∀ (b : Bundle) (g : List Int) (n : Nat), how = .report (.good b) → isPrivate = false → x.warning = false →
      st.state = .present ∨ st.state = .missing → mic.present = true →
      g = gained sn.settings.gain b.samples[micOf c] → n = saturatedCount sn.settings.gain b.samples[micOf c] →
      (ch.outcome = some .sample →
        after.items = bay.items ++ (before.run.map fun r => Item.voidRun (soundTrack c) r).toList ++
          [.sample { track := soundTrack c, frame := f, economy := after.economy, clip := decide (n ≠ 0)
                     delivered := b.samples[micOf c].length, contributors := 0
                     samples := if after.economy then halve g else g }] ∧
        (∀ fill, fill = bay.fill + (if before.run = none then 0 else 16) → (after.economy = true ↔
          (bay.economy = false ∧ 3 * bay.capacity ≤ 4 * fill) ∨ (bay.economy = true ∧ bay.capacity < 4 * fill))) ∧
        ch.clips = min 65535 (before.clips + n) ∧ ch.captured = min 4294967295 (before.captured + 1) ∧
        ch.voids = before.voids ∧
        q.fcu.floors[c] = { (fl.step sn.settings f (decide (sn.settings.threshold ≤ peakOf g))).1 with
          lastPeak := peakOf g, offLast := false }) ∧
      (ch.outcome = some (.void .noRoom) →
        q.fcu.floors[c] = { (fl.step sn.settings f false).1 with lastPeak := peakOf g, offLast := false })

/-- Privacy (R89, R90): where it is effective for a frame, nothing of the frame's samples is left: two bundles that differ
in samples, counts, unit and presence alone settle alike, no sample block enters any bay, and the mix accumulator and
the clip count stay. -/
def Obligations.PrivateSamplesReachNothing : Prop :=
  ∀ (x : Ctx) (f : Nat) (b b' : Bundle) (p : Path) (c : Fin 32) (sn : Snapshot),
    p.channels[c].snapshot f = some sn → (b.privacy[micOf c] = true ∨ sn.settings.privacy = true) →
    sn.settings.bar = false → b'.privacy = b.privacy →
    p.settle x f (.report (.good b)) c = p.settle x f (.report (.good b')) c ∧
    (∀ t : Fin 34, ((p.settle x f (.report (.good b)) c).bays.bay[t].items.filter fun i => i matches .sample _) =
      p.bays.bay[t].items.filter fun i => i matches .sample _) ∧
    (p.settle x f (.report (.good b)) c).fcu.sums = p.fcu.sums ∧
    (p.settle x f (.report (.good b)) c).channels[c].clips = p.channels[c].clips

/-- R106: the gained sample is floor((s × G + 2,048) / 4,096) saturated to 16 bits, product and sum lie in the ranges
the rule gives, a sample saturates exactly where the rounded value lies outside, and none does at a gain of 4,096 or
less. A frame is gained and its saturated samples counted sample by sample (R107), and its peak is the largest magnitude
among the gained ones (R108). -/
def Obligations.ChannelGain : Prop :=
  (∀ (g : Nat) (s : Int) (l : List Int),
    gained g (s :: l) = gained g [s] ++ gained g l ∧
    saturatedCount g (s :: l) = saturatedCount g [s] + saturatedCount g l ∧ gained g [] = [] ∧ saturatedCount g [] = 0) ∧
  (∀ l : List Int, (∀ s ∈ l, s.natAbs ≤ peakOf l) ∧ (l ≠ [] → ∃ s ∈ l, s.natAbs = peakOf l)) ∧
  ∀ (s : Int) (g : Nat) (r : Int), -32768 ≤ s → s ≤ 32767 → g ≤ 16383 →
    4096 * r ≤ s * g + 2048 → s * g + 2048 < 4096 * (r + 1) →
    -536838144 ≤ s * g ∧ s * g ≤ 536821761 ∧ s * g + 2048 < 2 ^ 31 ∧
    roundedGain g s = r ∧
    (-32768 ≤ r → r ≤ 32767 → gained g [s] = [r] ∧ saturatedCount g [s] = 0) ∧
    (32767 < r → gained g [s] = [32767] ∧ saturatedCount g [s] = 1) ∧
    (r < -32768 → gained g [s] = [-32768] ∧ saturatedCount g [s] = 1) ∧
    (g ≤ 4096 → -32768 ≤ r ∧ r ≤ 32767)

/-- R110 and R111: one step of the floor detector, in QUIET and in SPEAKING, for a loud frame and for one that is not, with
the attack and hang of the frame's snapshot; and the step of a channel, which makes FLOOR_BEGIN or FLOOR_END at the loud
frame where it acts on an on-record frame (R113) and R17 allows the mark. -/
def Obligations.FloorStep : Prop :=
  (∀ (fl : Floor) (set : Settings) (f first last : Nat),
    (fl.speaking = false →
      (fl.firstLoud = if fl.loudRun = 0 then fl.firstLoud else some first) →
      (fl.loudRun + 1 < set.attack →
        fl.step set f true = ({ fl with loudRun := fl.loudRun + 1,
                                        firstLoud := some (if fl.loudRun = 0 then f else first) }, none)) ∧
      (set.attack ≤ fl.loudRun + 1 →
        fl.step set f true = ({ fl with speaking := true, loudRun := 0, quietRun := 0, lastLoud := some f,
                                        firstLoud := some (if fl.loudRun = 0 then f else first) },
          some (.begun (if fl.loudRun = 0 then f else first)))) ∧
      fl.step set f false = ({ fl with loudRun := 0, firstLoud := none }, none)) ∧
    (fl.speaking = true → fl.lastLoud = some last →
      fl.step set f true = ({ fl with quietRun := 0, lastLoud := some f }, none) ∧
      (fl.quietRun + 1 ≤ set.hang →
        fl.step set f false = ({ fl with quietRun := fl.quietRun + 1 }, none)) ∧
      (set.hang < fl.quietRun + 1 →
        fl.step set f false = ({ fl with speaking := false, loudRun := 0, quietRun := 0, firstLoud := none,
                                         lastLoud := none }, some (.ended last))))) ∧
  ∀ (x : Ctx) (c : Fin 32) (f peak : Nat) (sn : Snapshot) (loud : Bool) (p q : Path) (fl : Floor)
    (news : Option FloorNews),
    p.fcu.floors[c].step sn.settings f loud = (fl, news) → p.stepFloor x c f sn loud peak = q →
    q.fcu.floors[c] = { fl with lastPeak := peak, offLast := !sn.onRecord } ∧
    (∀ d, d ≠ c → q.fcu.floors[d] = p.fcu.floors[d]) ∧ q.channels = p.channels ∧ q.stations = p.stations ∧
    (news = none ∨ sn.onRecord = false → q.bays = p.bays) ∧
    ∀ g, sn.onRecord = true → x.sitting.marks g = true →
      (news = some (.begun g) → q.bays = p.bays.offer { kind := .floorBegin c g, frame := g, time := x.tod }) ∧
      (news = some (.ended g) → q.bays = p.bays.offer { kind := .floorEnd c g, frame := g, time := x.tod })

/-- R114 to R117. An on-record frame settled SAMPLE adds its gained samples, up to 64, and one contributor to the mix where
in-mix and mix on are yes; nothing else a settling does touches the sums. A finished on-record mix frame, while mix on is
yes, is POWER under the warning, NO_SOURCES without a contributor, a tail frame of a HELD run, else a block of the 64 sums
divided by 2^M, an exact half rounded up, and saturated: admitted, after the OPEN run, where it fits, counting its
saturated samples, and NO_ROOM where not even half of it fits; the sums are then 0. An economy block of n samples
holds ceil(n / 2), the mean of each pair rounded down and an odd last one unchanged. -/
def Obligations.TheMixAndHalving : Prop :=
  (∀ (x : Ctx) (f : Nat) (how : Settling) (p q : Path) (c : Fin 32) (sn : Snapshot),
    p.channels[c].snapshot f = some sn → p.channels[c].seated = true → p.channels[c].settled = false →
    x.sitting.within f = true → p.settle x f how c = q →
    (∀ b, how = .report (.good b) → sn.onRecord = true → q.channels[c].outcome = some .sample →
      sn.settings.inMix = true → p.fcu.mixOn = true →
      q.fcu.contributors = p.fcu.contributors + 1 ∧
      ∀ k : Fin 64, q.fcu.sums[k] = p.fcu.sums[k] + (gained sn.settings.gain b.samples[micOf c]).getD k.val 0) ∧
    ((∀ b, how ≠ .report (.good b)) ∨ sn.onRecord = false ∨ q.channels[c].outcome ≠ some .sample ∨
        sn.settings.inMix = false ∨ p.fcu.mixOn = false →
      q.fcu.contributors = p.fcu.contributors ∧ q.fcu.sums = p.fcu.sums)) ∧
  (∀ (u : Fcu) (q : Fin 64 → Int), u.shift ≤ 5 →
    (∀ k : Fin 64, (2 : Int) ^ u.shift * 2 * q k ≤ 2 * u.sums[k] + (if u.shift = 0 then 0 else 2 ^ u.shift) ∧
      2 * u.sums[k] + (if u.shift = 0 then 0 else 2 ^ u.shift) < (2 : Int) ^ u.shift * 2 * (q k + 1)) →
    u.mixSamples.length = 64 ∧
    (∀ k : Fin 64, u.mixSamples[k.val]? =
      some (if 32767 < q k then 32767 else if q k < -32768 then -32768 else q k)) ∧
    u.mixSaturated = ((List.finRange 64).filter fun k => decide (32767 < q k ∨ q k < -32768)).length) ∧
  (∀ (x : Ctx) (f : Nat) (on : Bool) (p q : Path) (bay after : Bay), p.finishMix x f on = q →
    p.bays.bay[trackOf mixTrack] = bay → q.bays.bay[trackOf mixTrack] = after →
    let cleared (u : Fcu) : Fcu := { u with sums := Vector.replicate 64 0, sumsFrame := none, contributors := 0 }
    let block (e : Bool) : Item := .sample
      { track := mixTrack, frame := f, economy := e, clip := decide (p.fcu.mixSaturated ≠ 0), delivered := 64
        contributors := p.fcu.contributors, samples := if e then halve p.fcu.mixSamples else p.fcu.mixSamples }
    q.fcu = cleared { p.fcu with mixRun := q.fcu.mixRun, mixClips := q.fcu.mixClips } ∧
    q.channels = p.channels ∧ q.stations = p.stations ∧
    (on = false ∨ p.fcu.mixOn = false → q = { p with fcu := cleared p.fcu }) ∧
    (on = true → p.fcu.mixOn = true →
      (∀ cause, (x.warning = true ∧ cause = .power) ∨
          (x.warning = false ∧ p.fcu.contributors = 0 ∧ cause = .noSources) →
        q.fcu.mixClips = p.fcu.mixClips ∧
        (p.fcu.mixRun = none → q.bays = p.bays ∧
          q.fcu.mixRun = some { cause := cause, first := f, length := 1, tail := 0, held := false }) ∧
        ∀ r, p.fcu.mixRun = some r →
          (r.held = true → q.bays = p.bays ∧ q.fcu.mixRun = some { r with tail := r.tail + 1 }) ∧
          (r.held = false → r.cause = cause → r.length < 65534 →
            q.bays = p.bays ∧ q.fcu.mixRun = some { r with length := r.length + 1 }) ∧
          (r.held = false → r.cause ≠ cause →
            (bay.fill + 16 ≤ bay.capacity → after = { bay with items := bay.items ++ [.voidRun mixTrack r] } ∧
              q.fcu.mixRun = some { cause := cause, first := f, length := 1, tail := 0, held := false }) ∧
            (bay.capacity < bay.fill + 16 → after = bay ∧
              q.fcu.mixRun = some { r with held := true, tail := r.tail + 1 }))) ∧
      (x.warning = false → p.fcu.contributors ≠ 0 →
        (p.fcu.mixRun = none →
          (bay.fill + 144 ≤ bay.capacity → q.fcu.mixRun = none ∧
            q.fcu.mixClips = min 65535 (p.fcu.mixClips + p.fcu.mixSaturated) ∧
            after.items = bay.items ++ [block after.economy]) ∧
          (bay.capacity < bay.fill + 80 → q.fcu.mixClips = p.fcu.mixClips ∧ after.items = bay.items ∧
            q.fcu.mixRun = some { cause := .noRoom, first := f, length := 1, tail := 0, held := false })) ∧
        ∀ r, p.fcu.mixRun = some r →
          (r.held = true → q.fcu.mixClips = p.fcu.mixClips ∧ q.bays = p.bays ∧
            q.fcu.mixRun = some { r with tail := r.tail + 1 }) ∧
          (r.held = false → bay.fill + 160 ≤ bay.capacity → q.fcu.mixRun = none ∧
            q.fcu.mixClips = min 65535 (p.fcu.mixClips + p.fcu.mixSaturated) ∧
            after.items = bay.items ++ [.voidRun mixTrack r, block after.economy]) ∧
          (r.held = false → bay.capacity < bay.fill + 16 → q.fcu.mixClips = p.fcu.mixClips ∧ after = bay ∧
            q.fcu.mixRun = some { r with held := true, tail := r.tail + 1 })))) ∧
  ∀ (v : List Int),
    (halve v).length = (v.length + 1) / 2 ∧
    (∀ k, 2 * k + 1 < v.length → (halve v)[k]? = some ((v.getD (2 * k) 0 + v.getD (2 * k + 1) 0) / 2)) ∧
    (v.length % 2 = 1 → (halve v).getLast? = v.getLast?) ∧
    ((∀ s ∈ v, -32768 ≤ s ∧ s ≤ 32767) → ∀ s ∈ halve v, -32768 ≤ s ∧ s ≤ 32767)

/-- R118: the economy test at an offer to a track's bay: with the flag clear it is set, marked and ECONOMY raised at a fill
of three quarters or more; with it set it is cleared and marked at one quarter or less; else it stays. The block is
offered in economy exactly where the flag then stands. -/
def Obligations.EconomyTest : Prop :=
  ∀ (x : Ctx) (t : Fin 33) (f : Nat) (p : Path) (b : Bay), p.bays.bay[trackOf t] = b →
    (p.economyTest x t f).1.bays.bay[trackOf t] = { b with economy := (p.economyTest x t f).2 } ∧
    ((p.economyTest x t f).2 = true ↔
      (b.economy = false ∧ 3 * b.capacity ≤ 4 * b.fill) ∨ (b.economy = true ∧ b.capacity < 4 * b.fill)) ∧
    ((p.economyTest x t f).2 = b.economy → (p.economyTest x t f).1 = p) ∧
    (b.economy = false → (p.economyTest x t f).2 = true →
      (p.economyTest x t f).1.attn = p.attn.raise .economy ∧
      (x.sitting.marks f = true → (p.economyTest x t f).1.bays =
        ((p.bays.set (trackOf t) { b with economy := true }).offer
          { kind := .economyBegin t, frame := f, time := x.tod }))) ∧
    (b.economy = true → (p.economyTest x t f).2 = false → (p.economyTest x t f).1.attn = p.attn ∧
      (x.sitting.marks f = true → (p.economyTest x t f).1.bays =
        ((p.bays.set (trackOf t) { b with economy := false }).offer
          { kind := .economyEnd t, frame := f, time := x.tod })))

/-- The close of frame f (R88, R97, R115), at boundary f + 2 of a sitting and up to its last frame: every seated
channel's on-record frame that was not settled becomes a void frame of the first cause of R97's list, and a new run
begins with it where none is pending, unless an age close of the same boundary ends it (R142); BOUNDARY does so to the
channels of a port whose report does not come before the close (assumption 5). Then outcomes, settled marks, the
snapshots of f and the mix sums are gone, and no station changes. At the end of a stretch or of the sitting (R12, R14,
R112) each seated channel's OPEN run is offered, and is HELD where it does not fit, and its detector is forced: QUIET,
with FLOOR_END at the last loud frame of an on-record frame (R113), or that mark counted as withheld. -/
def Obligations.CloseOfAFrame : Prop :=
  (∀ (s : State) (a b last : Bool) (f : Nat), s.timer.running = true → s.timer.boundary ≠ BitVec.allOnes 64 →
    s.ctx.polled = some f → s.sitting.within f = true → (last = true ↔ ∃ g, s.sitting.close = some g ∧ g.last = f) →
    ∃ t, exec (.boundary a b) s = .next t ∧
      t.path.fcu.sums = Vector.replicate 64 0 ∧ t.path.fcu.contributors = 0 ∧
      ∀ (p : PortId) (i : Fin 8) (m : Fin 2) (c : Fin 32), c = channelOf (stationAt p i) m →
        t.path.channels[c].outcome = none ∧ t.path.channels[c].settled = false ∧
        t.path.channels[c].snapshot f = none ∧
        (s.path.channels[c].seated = true → last = true ∨ (s.sitting.comp = true ∧ s.sitting.cur = false) →
          t.path.fcu.floors[c].speaking = false ∧ t.path.fcu.floors[c].loudRun = 0 ∧
          t.path.fcu.floors[c].firstLoud = none ∧ ∀ r, t.path.channels[c].run = some r → r.held = true) ∧
        ∀ (sn : Snapshot) (st : Station) (asked : Bool) (cause : VoidCause),
          (s.port p).state ≠ .running ∨ (p = .a ∧ a = false) ∨ (p = .b ∧ b = false) →
          s.path.channels[c].snapshot f = some sn → sn.onRecord = true → s.path.channels[c].seated = true →
          s.path.channels[c].settled = false → s.path.stations[stationAt p i] = st →
          asked = ((st.mics[m].button || sn.settings.privacy) && !sn.settings.bar) →
          some cause = firstCause asked s.supply.warning (!(s.port p).ranRound) st (some .late) →
          t.path.channels[c].voids = min 4294967295 (s.path.channels[c].voids + 1) ∧
          t.path.channels[c].captured = s.path.channels[c].captured ∧ t.path.channels[c].privacy = asked ∧
          (last = false → s.sitting.comp = false ∨ s.sitting.cur = true → s.path.channels[c].run = none →
            s.writer.sheets[trackOf (soundTrack c)] = none →
            t.path.channels[c].run = some { cause := cause, first := f, length := 1, tail := 0, held := false })) ∧
  (∀ s : State, (s.sitting.counting = false ∨ s.timer.boundary.toNat < s.sitting.openedAt.toNat + 2 ∨
      (∃ g, s.sitting.close = some g ∧ g.last < s.timer.boundary.toNat - 2 - s.sitting.openedAt.toNat)) →
    s.closeFrame = s) ∧
  (∀ (s : State) (f : Nat), s.sitting.isOpen = true → s.sitting.close = none →
    s.timer.boundary.toNat = s.sitting.openedAt.toNat + f + 2 →
    s.closeFrame = { s with
      path := s.path.closeFrame s.ctx f s.sitting.comp s.sitting.cur false s.portA.ranRound s.portB.ranRound }) ∧
  ∀ (x : Ctx) (f : Nat) (on nextOn last ranA ranB ends : Bool) (p q : Path),
    p.closeFrame x f on nextOn last ranA ranB = q → (ends = true ↔ last = true ∨ (on = true ∧ nextOn = false)) →
    q.stations = p.stations ∧ q.fcu.sums = Vector.replicate 64 0 ∧ q.fcu.contributors = 0 ∧
    q.fcu.mixOn = p.fcu.mixOn ∧
    (ends = true → ∀ r, q.fcu.mixRun = some r → r.held = true) ∧
    ∀ c : Fin 32,
      q.channels[c].outcome = none ∧ q.channels[c].settled = false ∧
      q.channels[c].snapshots = (p.channels[c].snapshots.filter fun sn => sn.frame != f) ∧
      q.channels[c].seated = p.channels[c].seated ∧ q.channels[c].settings = p.channels[c].settings ∧
      (∀ (sn : Snapshot) (st : Station) (asked ran : Bool), p.channels[c].snapshot f = some sn →
        p.channels[c].seated = true → p.channels[c].settled = false → x.sitting.within f = true → sn.onRecord = true →
        p.stations[stationOf c] = st → ran = (if c.val < 16 then ranA else ranB) →
        asked = ((st.mics[micOf c].button || sn.settings.privacy) && !sn.settings.bar) →
        q.channels[c].voids = min 4294967295 (p.channels[c].voids + 1) ∧
        q.channels[c].captured = p.channels[c].captured ∧ q.channels[c].privacy = asked ∧
        (ends = false → p.channels[c].run = none →
          q.channels[c].run = some { first := f, length := 1, tail := 0, held := false,
                                     cause := if asked then .privacy
                                       else if x.warning then .power
                                       else if ran = false then .portDown
                                       else if st.state = .vacant ∨ st.state = .lost then .noStation
                                       else if st.state = .joining then .joining
                                       else .late })) ∧
      (p.channels[c].settled = true →
        q.channels[c].voids = p.channels[c].voids ∧ q.channels[c].captured = p.channels[c].captured ∧
        q.channels[c].privacy = p.channels[c].privacy ∧
        (ends = false → q.channels[c].run = p.channels[c].run ∧ q.fcu.floors[c] = p.fcu.floors[c])) ∧
      (ends = true → p.channels[c].seated = true →
        q.fcu.floors[c].speaking = false ∧ q.fcu.floors[c].loudRun = 0 ∧ q.fcu.floors[c].firstLoud = none ∧
        (∀ r, q.channels[c].run = some r → r.held = true) ∧
        (p.channels[c].settled = true →
          (∀ l, p.fcu.floors[c].speaking = true → p.fcu.floors[c].lastLoud = some l → on = true →
            x.sitting.marks l = true →
            .mark { kind := .floorEnd c l, frame := l, time := x.tod } ∈ q.bays.bay[markTrack].items ∨
              p.bays.withheld < q.bays.withheld ∨ q.bays.withheld = 4294967295) ∧
          ∀ (r : VoidRun) (bay : Bay), p.channels[c].run = some r → r.held = false →
            p.bays.bay[trackOf (soundTrack c)] = bay →
            (bay.fill + 16 ≤ bay.capacity → q.channels[c].run = none ∧ q.bays.bay[trackOf (soundTrack c)] =
              { bay with items := bay.items ++ [.voidRun (soundTrack c) r] }) ∧
            (bay.capacity < bay.fill + 16 → q.channels[c].run = some { r with held := true } ∧
              q.bays.bay[trackOf (soundTrack c)] = bay)))

/-- The marks of a boundary and of the settling of a frame, where R17 allows them; BOUNDARY leaves each of its own in
bay 33, or no room of its class was left there (R126). TRIM_SET and CLOCK_SET (R28, R30, R31) at the frame that begins,
in an open sitting. That TRIM_SET stands first, then CLOCK_SET, and both before every other mark of that boundary is the
model's choice (assumption 4): R28 and R125 leave their place open. BAR_SET and BAR_CLEARED (R91) where the bar of a
seated channel's snapshot differs from that of the frame before, a clear bar before frame 0; every channel that changed
has its mark, or it is withheld. PRIVACY_BEGIN with its source and PRIVACY_END with its cause (R92), the FLOOR_END of
privacy's forced end before it (assumption 6), and PRIVACY_REFUSED for a press under the bar (R93). -/
def Obligations.MarksOfABoundaryAndOfSettling : Prop :=
  (∀ (s : State) (a b : Bool), s.timer.running = true → s.timer.boundary ≠ BitVec.allOnes 64 →
    s.sitting.isOpen = true → s.sitting.close = none → s.sitting.openedAt.toNat ≤ s.timer.boundary.toNat →
    ∃ t, exec (.boundary a b) s = .next t ∧
      (∀ u : Fin 34, ∃ more, t.path.bays.bay[u].items = s.advanceTimer.path.bays.bay[u].items ++ more) ∧
      ∀ mark : MarkKind → Mark, mark = (fun k => { kind := k, frame := s.frame + 1, time := t.timer.tod }) →
        (s.timer.next ≠ s.timer.interval → t.path.bays.tells (mark (.trimSet s.timer.interval s.timer.next))) ∧
        (∀ new, s.timer.clockSet = some new → t.timer.tod = new ∧ t.path.bays.tells (mark (.clockSet
          (s.timer.tod + BitVec.ofNat 64 ((s.timer.rem + s.timer.interval * 125) / 12288)) new))) ∧
        ∀ (c : Fin 32) (sn : Snapshot) (bar : Bool), s.path.channels[c].snapshot s.frame = some sn →
          s.path.channels[c].seated = true → bar = s.path.channels[c].settings.bar → sn.settings.bar ≠ bar →
          t.path.bays.tells (mark (if bar then .barSet c else .barCleared c))) ∧
  (∀ (s : State) (a b : Bool) (o : Opening), s.timer.running = true → s.sitting.state = .armed →
    s.sitting.opening = some o → ∃ t, exec (.boundary a b) s = .next t ∧
      ∀ c : Fin 32, s.path.channels[c].seated = true → s.path.channels[c].settings.bar = true →
        t.path.bays.tells { kind := .barSet c, frame := 0, time := t.timer.tod }) ∧
  (∀ (s v : State), s.advanceTimer = v → s.timer.boundary ≠ BitVec.allOnes 64 →
    (s.sitting.isOpen = false → v.path = s.path) ∧
    (s.sitting.isOpen = true → s.sitting.openedAt.toNat ≤ s.timer.boundary.toNat →
      ∀ mark : MarkKind → Mark, mark = (fun k => { kind := k, frame := s.frame + 1, time := v.timer.tod }) →
      ∀ first : Bays, (s.timer.next = s.timer.interval → first = s.path.bays) →
        (s.timer.next ≠ s.timer.interval →
          first = s.path.bays.offer (mark (.trimSet s.timer.interval s.timer.next))) →
        (s.timer.clockSet = none → v.path = { s.path with bays := first }) ∧
        ∀ new, s.timer.clockSet = some new → v.timer.tod = new ∧ v.path = { s.path with bays := first.offer (mark (.clockSet
          (s.timer.tod + BitVec.ofNat 64 ((s.timer.rem + s.timer.interval * 125) / 12288)) new)) })) ∧
  (∀ (x : Ctx) (f : Nat) (on before bar : Bool) (p : Path) (c : Fin 32),
    (f = 0 ∧ before = false ∨ ∃ sn, 0 < f ∧ p.channels[c].snapshot (f - 1) = some sn ∧ before = sn.settings.bar) →
    p.channels[c].settings.bar = bar → x.sitting.marks f = true →
    (p.snapshotChannel x f on c).bays =
      if p.channels[c].seated = true ∧ before ≠ bar then
        p.bays.offer { kind := if bar then .barSet c else .barCleared c, frame := f, time := x.tod }
      else p.bays) ∧
  (∀ (x : Ctx) (f : Nat) (on before bar : Bool) (p : Path) (c : Fin 32),
    (f = 0 ∧ before = false ∨ ∃ sn, 0 < f ∧ p.channels[c].snapshot (f - 1) = some sn ∧ before = sn.settings.bar) →
    p.channels[c].settings.bar = bar → x.sitting.marks f = true → p.channels[c].seated = true → before ≠ bar →
    .mark { kind := if bar then .barSet c else .barCleared c, frame := f, time := x.tod } ∈
        (p.takeSnapshots x f on).bays.bay[markTrack].items ∨
      p.bays.withheld < (p.takeSnapshots x f on).bays.withheld ∨
      (p.takeSnapshots x f on).bays.withheld = 4294967295) ∧
  (∀ (x : Ctx) (c : Fin 32) (f : Nat) (sn : Snapshot) (button asked now before : Bool) (p q : Path),
    p.settlePrivacy x c f sn button = q → asked = (button || sn.settings.privacy) →
    now = (asked && !sn.settings.bar) → before = (p.channels[c].privacy && decide (f ≠ 0)) →
    x.sitting.marks f = true →
    (∀ d : Fin 32, q.channels[d] =
      if d = c then { p.channels[d] with privacy := now, settled := true } else p.channels[d]) ∧
    (now = before → q.bays = p.bays ∧ q.fcu = p.fcu) ∧
    (now = true → before = false →
      q.fcu.floors[c].speaking = false ∧ q.fcu.floors[c].loudRun = 0 ∧
      ∀ source : Bays → Bays,
        source = (fun bs => bs.offer
          { frame := f, time := x.tod
            kind := .privacyBegin c (if button = true ∧ sn.settings.privacy = true then .both
              else if button then .station else .benchDesk) }) →
        (∀ l, p.fcu.floors[c].speaking = true → p.fcu.floors[c].lastLoud = some l → sn.onRecord = true →
          x.sitting.marks l = true →
          q.bays = source (p.bays.offer { kind := .floorEnd c l, frame := l, time := x.tod })) ∧
        (p.fcu.floors[c].speaking = false ∨ sn.onRecord = false → q.bays = source p.bays)) ∧
    (now = false → before = true → q.fcu = p.fcu ∧ q.bays = p.bays.offer
      { frame := f, time := x.tod
        kind := .privacyEnd c (if asked = true ∧ sn.settings.bar = true then .barred else .released) })) ∧
  ∀ (x : Ctx) (f : Nat) (c : Fin 32) (before after : Bool) (p : Path) (sn : Snapshot),
    (p.channels[c].snapshot f = some sn → p.channels[c].seated = true → sn.settings.bar = true →
      before = false → after = true → x.sitting.within f = true → x.sitting.marks f = true →
      p.refusePress x f c before after =
        { p with bays := p.bays.offer { kind := .privacyRefused c, frame := f, time := x.tod } }) ∧
    (p.channels[c].snapshot f = none ∨ (p.channels[c].snapshot f = some sn ∧ sn.settings.bar = false) ∨
      p.channels[c].seated = false ∨ before = true ∨ after = false → p.refusePress x f c before after = p)

/-- R122 and R126: an item is admitted at the end of its bay's list exactly when its bytes fit the room left, and the other
bays stay. By class: a mark of the reserve class is admitted up to three quarters of bay 33, one of the ordinary class up
to the whole, and one not admitted is counted as withheld; a flag change (R11) is put off where its mark does not fit, the
count unchanged; a held SITTING_CLOSE (R14) is admitted once the count is 0 and it fits, and stays held till then. -/
def Obligations.AdmissionToABay : Prop :=
  (∀ (bs bs' : Bays) (t : Fin 34) (i : Item), bs.push t i = some bs' ↔
    bs.bay[t].fill + i.size ≤ bs.bay[t].capacity ∧
      bs' = bs.set t { bs.bay[t] with items := bs.bay[t].items ++ [i] }) ∧
  (∀ (bs : Bays) (t u : Fin 34) (b : Bay), (bs.set t b).bay[u] = if u = t then b else bs.bay[u]) ∧
  (∀ (bs : Bays) (m : Mark) (reserve : Bool),
    (reserve = true ↔ (∃ c f, m.kind = .floorBegin c f) ∨ (∃ c f, m.kind = .floorEnd c f) ∨
      ∃ code length text, m.kind = .hostMark code length text) →
    m.kind ≠ .onRecord → m.kind ≠ .offRecord → (∀ n, m.kind ≠ .sittingOpen n) → (∀ r, m.kind ≠ .sittingClose r) →
    (∀ n, m.kind ≠ .marksWithheld n) →
    (4 * (bs.bay[markTrack].fill + m.kind.size) ≤ (if reserve then 3 else 4) * bs.bay[markTrack].capacity →
      bs.offer m = bs.set markTrack { bs.bay[markTrack] with items := bs.bay[markTrack].items ++ [.mark m] }) ∧
    ((if reserve then 3 else 4) * bs.bay[markTrack].capacity < 4 * (bs.bay[markTrack].fill + m.kind.size) →
      bs.offer m = { bs with withheld := min 4294967295 (bs.withheld + 1) })) ∧
  (∀ (s : State) (bay : Bay) (m : Mark), s.path.bays.bay[markTrack] = bay → s.sitting.next ≠ s.sitting.cur →
    m = { kind := if s.sitting.next then .onRecord else .offRecord, frame := s.frame, time := s.timer.tod } →
    (bay.fill + 16 ≤ bay.capacity → s.shiftFlag = { s with
      path := { s.path with bays := s.path.bays.set markTrack { bay with items := bay.items ++ [.mark m] } }
      sitting := { s.sitting with comp := s.sitting.cur, cur := s.sitting.next
                                  state := if s.sitting.next then .onRecord else .offRecord } }) ∧
    (bay.capacity < bay.fill + 16 → s.shiftFlag = { s with
      sitting := { s.sitting with comp := s.sitting.cur
                                  state := if s.sitting.cur then .onRecord else .offRecord } })) ∧
  ∀ (s : State) (bay : Bay) (m : Mark) (reason : CloseReason), s.path.bays.bay[markTrack] = bay →
    s.sitting.finalMark = some m → m.kind = .sittingClose reason →
    (s.path.bays.withheld = 0 → bay.fill + 20 ≤ bay.capacity → s.offerFinal = { s with
      path := { s.path with bays := s.path.bays.set markTrack { bay with items := bay.items ++ [.mark m] } }
      sitting := { s.sitting with finalMark := none } }) ∧
    (s.path.bays.withheld ≠ 0 ∨ bay.capacity < bay.fill + 20 → s.offerFinal = s)

/-! ### Requests: arming and the sitting (R5 to R8, R10, R13, R16, R129) -/

/-- R5: an arm record passes exactly when each of the seven checks does; else the first that fails gives the code and, in
word 0, its number, with the lowest failing track in word 1 for checks 4, 5 and 6 and 0 for the others, and the total
of the bay sizes in bytes in word 2. -/
def Obligations.ArmRecordChecks : Prop :=
  ∀ r : ArmRecord,
    (r.failure = none ↔ ∀ k, 1 ≤ k → k ≤ 7 → r.passes k) ∧
    ∀ res, r.failure = some res → ∃ k, 1 ≤ k ∧ k ≤ 7 ∧ ¬r.passes k ∧ (∀ j, 1 ≤ j → j < k → r.passes j) ∧
      res.code = (if k = 7 then .refusedRoom else .refusedRange) ∧ res.w0 = BitVec.ofNat 32 k ∧
      res.w2 = BitVec.ofNat 32 (r.units.toList.sum * 256) ∧
      (k = 1 ∨ k = 2 ∨ k = 3 ∨ k = 7 → res.w1 = 0) ∧ (k = 6 → res.w1 = 33) ∧
      (k = 4 ∨ k = 5 → ∃ t : Fin 34, res.w1 = BitVec.ofNat 32 t.val ∧ r.failsAt k t ∧ ∀ u, u < t → ¬r.failsAt k u)

/-- ARM_RECORD_READ and ARM in IDLE (R5, R6): the record read is checked; one that passes puts the arming in force and
is answered DONE, or DONE_CLAMPED where a value was clamped, with the total of the bays, the seated tracks, and the age
limit and mix shift as taken; one that fails changes nothing but the answer. Outside IDLE an ARM is refused. Every bay
starts empty with its economy flag clear (R121), which for a flag left standing by an earlier sitting is the model's
choice between R121 and R118 (assumption 68); with no bay holding an item the starving set is empty (R145). -/
def Obligations.ArmPutsTheArmingInForce : Prop :=
  ∀ (s : State) (tag : Word16) (a : Word64),
    (s.sitting.state ≠ .idle →
      AnswersAtOnce (.arm a) s s { code := .refusedState, w0 := 0, w1 := 0, w2 := 0 }) ∧
    (∀ bytes, s.scan.step = .armRead tag a →
      exec (.armRecordRead bytes) s = .next { s with scan := { s.scan with
        step := .armChecked tag a (ArmRecord.parse bytes) (ArmRecord.parse bytes).failure } }) ∧
    ∀ (r : ArmRecord) (failure : Option Result), s.scan.step = .armChecked tag a r failure → s.sitting.state = .idle →
      ∃ t, exec (.arm a) s = .next t ∧
        (∀ res, failure = some res → t = { s with scan := t.scan } ∧ Answered s t tag 1 res) ∧
        (failure = none →
          t = { s with
            scan := t.scan
            sitting := { s.sitting with state := .armed }
            path := t.path
            writer := { s.writer with
              arming := some { sheetSize := r.sheetSize, ageLimit := max 1 (min 255 r.age),
                               poolAddress := r.poolAddress, poolCount := r.poolCount }
              poolCursor := 0, queue := [], owner := Vector.replicate 256 .notHeld
              starving := Vector.replicate 34 false } } ∧
          t.path.attn = s.path.attn ∧ t.path.stations = s.path.stations ∧
          t.path.fcu = { s.path.fcu with mixOn := r.mixOn, shift := min 5 r.shift } ∧
          (∀ c : Fin 32, t.path.channels[c] = { s.path.channels[c] with seated := r.seating.getLsbD c.val }) ∧
          t.path.bays.partition = true ∧ t.path.bays.withheld = s.path.bays.withheld ∧
          (∀ k : Fin 34, t.path.bays.bay[k] = { units := r.units[k], items := [], economy := false }) ∧
          Answered s t tag 1
            { code := if r.age = max 1 (min 255 r.age) ∧ r.shift = min 5 r.shift then .done else .doneClamped
              w0 := BitVec.ofNat 32 (r.units.toList.sum * 256)
              w1 := BitVec.ofNat 32 (((List.finRange 32).filter fun c => r.seating.getLsbD c.val).length
                + (if r.mixOn then 1 else 0) + 1)
              w2 := BitVec.ofNat 32 (max 1 (min 255 r.age) + 65536 * min 5 r.shift) })

/-- DISARM and DISARM_FREE_WRITE (R7): outside ARMED, or with an opening pending, it is refused. Taken, it writes FREE
into the entry of each STANDBY element, oldest first, done or failed; with no entry left the arming, the partition, the
queue, the map and the seating are removed, so that no track starves (R145), and it is answered with the entries written
and those whose write failed. -/
def Obligations.DisarmReturnsTheSheets : Prop :=
  ∀ (s : State) (tag : Word16),
    (s.sitting.state ≠ .armed ∨ s.sitting.opening ≠ none →
      AnswersAtOnce .disarm s s { code := .refusedState, w0 := 0, w1 := 0, w2 := 0 }) ∧
    (∀ left, s.scan.step = .taking tag .disarm → s.sitting.state = .armed → s.sitting.opening = none →
      s.writer.queue.filter (fun e => s.writer.owner[e.index] == .standby) = left →
      (left ≠ [] → exec .disarm s = .next { s with scan := { s.scan with step := .freeing tag left 0 0 } }) ∧
      (left = [] → ∃ t, exec .disarm s = .next t ∧ Disarmed s t tag 0 0 ∧ t.bus = s.bus ∧
        t.path.attn = s.path.attn ∧ t.hostMem = s.hostMem)) ∧
    ∀ arming q rest freed failed, s.writer.arming = some arming →
      s.scan.step = .freeing tag (q :: rest) freed failed → ∀ how, ∃ t freed' failed',
        exec (.disarmFreeWrite how) s = .next t ∧
        (how = .done → freed' = freed + 1 ∧ failed' = failed ∧
          Stored (arming.status q.index) (statusBytes .free 0 0) s.hostMem t.hostMem ∧ t.bus = s.bus ∧
          t.path.attn = s.path.attn) ∧
        (how = .failed → freed' = freed ∧ failed' = failed + 1 ∧ t.hostMem = s.hostMem ∧
          t.bus = { s.bus with busFaults := min 4294967295 (s.bus.busFaults + 1) } ∧
          t.path.attn = s.path.attn.raise .busFault) ∧
        (rest ≠ [] → t = { s with
          scan := { s.scan with step := .freeing tag rest freed' failed' }
          bus := t.bus, path := { s.path with attn := t.path.attn }, hostMem := t.hostMem }) ∧
        (rest = [] → Disarmed s t tag freed' failed')

/-- OPEN_SITTING (R8): in ARMED with none pending it records the opening and is answered at once with the number and the
boundary to come; in every other state it is refused. CLOSE_SITTING (R13): in ON_RECORD and OFF_RECORD the current frame
becomes the last, the state CLOSING with phase FINISHING, and the cell is held; elsewhere it is refused. -/
def Obligations.OpenAndCloseSitting : Prop :=
  (∀ (s : State) (number record : Word32),
    (s.sitting.state = .armed → s.sitting.opening = none →
      AnswersAtOnce (.openSitting number record) s
        { s with sitting := { s.sitting with opening := some { number := number, record := decide (record ≠ 0) } } }
        { code := .done, w0 := number, w1 := BitVec.ofNat 32 (s.timer.boundary.toNat + 1), w2 := 0 }) ∧
    (s.sitting.state ≠ .armed ∨ s.sitting.opening ≠ none →
      AnswersAtOnce (.openSitting number record) s s { code := .refusedState, w0 := 0, w1 := 0, w2 := 0 })) ∧
  ∀ s : State,
    (s.sitting.state = .onRecord ∨ s.sitting.state = .offRecord →
      HeldLong .closeSitting s
        { s with sitting := { s.sitting with
            state := .closing
            close := some { last := s.frame, reason := .request, cell := some s.scan.cursor, draining := false,
                            sheets := 0 }
            lastFrame := some s.frame } } none) ∧
    (s.sitting.state = .idle ∨ s.sitting.state = .armed ∨ s.sitting.state = .closing →
      AnswersAtOnce .closeSitting s s { code := .refusedState, w0 := 0, w1 := 0, w2 := 0 })

/-- GO_ON_RECORD and GO_OFF_RECORD (R10): in ON_RECORD and OFF_RECORD the next flag becomes the one asked and the answer
gives the one before; no mark is made; elsewhere they are refused and change nothing. -/
def Obligations.GoOnAndOffRecord : Prop :=
  ∀ (s : State) (on : Bool),
    (s.sitting.state = .onRecord ∨ s.sitting.state = .offRecord →
      AnswersAtOnce (if on then .goOnRecord else .goOffRecord) s { s with sitting := { s.sitting with next := on } }
        { code := .done, w0 := if s.sitting.next then 1 else 0, w1 := 0, w2 := 0 }) ∧
    (s.sitting.state = .idle ∨ s.sitting.state = .armed ∨ s.sitting.state = .closing →
      AnswersAtOnce (if on then .goOnRecord else .goOffRecord) s s { code := .refusedState, w0 := 0, w1 := 0, w2 := 0 })

/-- ABANDON_STAGED (R16, R129, R144): in DRAINING with something staged and no sheet write in flight the cell is held,
every bay and run is emptied, the held SITTING_CLOSE is gone, every open sheet is due to be closed with reason
SITTING_CLOSED and no other, and the bytes stand counted in three classes. With a write in flight the discard waits: the
command that ends the turn, done or failed, has the effect it has without an abandon, and then the discard is made of what
that left staged. A flush in flight waits for no item more, and one that was complete keeps its result (R146, assumption
56). With nothing staged, or outside DRAINING, it is refused. -/
def Obligations.AbandonStaged : Prop :=
  (∀ s : State,
    (s.sitting.draining = true → s.sitting.abandon = none → s.writer.turn = none →
      (∃ t : Fin 34, s.path.bays.bay[t].items ≠ []) ∨ (∃ c : Fin 32, s.path.channels[c].run ≠ none) ∨
        s.path.fcu.mixRun ≠ none ∨ s.sitting.finalMark ≠ none →
      ∀ tag, s.scan.step = .taking tag .abandonStaged → ∃ t, exec .abandonStaged s = .next t ∧
        HeldFor s t tag 7 none ∧ Discards s t [s.scan.cursor] ∧ t.path.attn = s.path.attn ∧
        ∀ k : Fin 34, (t.writer.sheets[k]).isSome → t.closeDue k = some .sittingClosed) ∧
    (s.sitting.draining = true → s.sitting.abandon = none → s.writer.turn ≠ none →
      (∃ t : Fin 34, s.path.bays.bay[t].items ≠ []) ∨ (∃ c : Fin 32, s.path.channels[c].run ≠ none) ∨
        s.path.fcu.mixRun ≠ none ∨ s.sitting.finalMark ≠ none →
      ∀ tag, s.scan.step = .taking tag .abandonStaged → ∃ t, exec .abandonStaged s = .next t ∧
        HeldFor s t tag 7 none ∧
        t.sitting = { s.sitting with abandon := some { cells := [s.scan.cursor], discarded := none } } ∧
        t.path.bays = s.path.bays) ∧
    (s.sitting.draining = false ∨ ((∀ t : Fin 34, s.path.bays.bay[t].items = []) ∧
        (∀ c : Fin 32, s.path.channels[c].run = none) ∧ s.path.fcu.mixRun = none ∧ s.sitting.finalMark = none) →
      AnswersAtOnce .abandonStaged s s { code := .refusedState, w0 := 0, w1 := 0, w2 := 0 })) ∧
  ∀ (s u : State) (cells : List (Fin 16)) (c : Instr),
    c ∈ [.writingWrite .done, .writingWrite .failed, .itemWriteDone, .itemWriteFailed, .closedWrite .done,
      .closedWrite .failed, .faultedWrite .done, .faultedWrite .failed] →
    s.sitting.abandon = some { cells := cells, discarded := none } → s.writer.turn ≠ none →
    exec c { s with sitting := { s.sitting with abandon := none } } = .next u → u.writer.turn = none →
    ∃ v, exec c s = .next v ∧ Discards u v cells ∧ v.scan = u.scan

/-! ### Requests: time, ports, stations, channels, marks and flushes (R27, R29, R46, R48, R49, R51, R78, R87, R90, R91, R128,
R146, R154) -/

/-- TRIM_FRAME (R29): the value, clamped to 389,284 … 397,148, becomes the next interval length, in every state; the answer
gives the next length before, the value as taken and I. SET_CLOCK (R27): the new time waits for the next boundary, in
place of one that waited; the answer gives the present time-of-day and whether one was replaced. -/
def Obligations.ClockAndTrim : Prop :=
  (∀ (s : State) (n : Word32) (taken : Nat),
    (n.toNat < 389284 → taken = 389284) → (397148 < n.toNat → taken = 397148) →
    (389284 ≤ n.toNat → n.toNat ≤ 397148 → taken = n.toNat) →
    AnswersAtOnce (.trimFrame n) s { s with timer := { s.timer with next := taken } }
      { code := if n.toNat < 389284 ∨ 397148 < n.toNat then .doneClamped else .done
        w0 := BitVec.ofNat 32 s.timer.next, w1 := BitVec.ofNat 32 taken, w2 := BitVec.ofNat 32 s.timer.interval }) ∧
  ∀ (s : State) (v : Word64),
    AnswersAtOnce (.setClock v) s { s with timer := { s.timer with clockSet := some v } }
      { code := .done, w0 := s.timer.tod.setWidth 32, w1 := (s.timer.tod >>> 32).setWidth 32
        w2 := if s.timer.clockSet = none then 0 else 1 }

/-- PORT_CONTROL (R46): the four checks in their order, the third, a divisor for a port whose projected state is not
DISABLED, in every port state and with every control pending, and the words of the port as it stands, 0 for a port above
1 (assumption 15); an accepted request that gives a field is merged into the control pending, OFF replacing, ON after a
pending OFF making OFF then ON, and a KEEP field leaving what was pending. -/
def Obligations.PortControl : Prop :=
  ∀ (s : State) (p : PortId) (power divisor : Word32) (words : ResultCode → Result) (projected : PortState),
    ((∀ c, (s.port p).control = some c → c.power = .keep) → projected = (s.port p).state) →
    (∀ d, (s.port p).control = some { power := .on, divisor := d } → projected =
      if (s.port p).state = .disabled ∨ (s.port p).state = .tripped then .starting else (s.port p).state) →
    (∀ d, (s.port p).control = some { power := .off, divisor := d } → projected = .disabled) →
    (∀ d, (s.port p).control = some { power := .offThenOn, divisor := d } → projected = .starting) →
    words = (fun c => { code := c, w0 := BitVec.ofNat 32 (s.port p).state.code, w1 := BitVec.ofNat 32 (s.port p).divisor
                        w2 := BitVec.ofNat 32 (s.port p).cooldown }) →
    let arg : Word32 := if p = .a then 0 else 1
    let keep : Word32 := 0xFFFFFFFF#32
    (∀ other : Word32, 1 < other.toNat →
      AnswersAtOnce (.portControl other power divisor) s s { code := .refusedRange, w0 := 0, w1 := 0, w2 := 0 }) ∧
    (2 < power.toNat ∨ (255 < divisor.toNat ∧ divisor ≠ keep) →
      AnswersAtOnce (.portControl arg power divisor) s s (words .refusedRange)) ∧
    (power.toNat ≤ 2 → (divisor.toNat ≤ 255 ∨ divisor = keep) →
      ((s.port p).state = .testing → AnswersAtOnce (.portControl arg power divisor) s s (words .refusedBusy)) ∧
      ((s.port p).state ≠ .testing → divisor ≠ keep → projected ≠ .disabled →
        AnswersAtOnce (.portControl arg power divisor) s s (words .refusedState)) ∧
      ((s.port p).state ≠ .testing → (divisor = keep ∨ projected = .disabled) → power = 1 → (s.port p).cooldown ≠ 0 →
        AnswersAtOnce (.portControl arg power divisor) s s (words .refusedCooldown)) ∧
      ((s.port p).state ≠ .testing → (divisor = keep ∨ projected = .disabled) → (power = 1 → (s.port p).cooldown = 0) →
        ∃ pt, AnswersAtOnce (.portControl arg power divisor) s (s.setPort p pt) (words .done) ∧
          pt = { s.port p with control := pt.control } ∧
          (power = 0 → divisor = keep → pt = s.port p) ∧
          (power ≠ 0 ∨ divisor ≠ keep → ∃ c, pt.control = some c ∧
            (power = 0 → c.power = ((s.port p).control.map Control.power).getD .keep) ∧ (power = 2 → c.power = .off) ∧
            (power = 1 → c.power =
              if (s.port p).control.map Control.power = some .off ∨ (s.port p).control.map Control.power = some .offThenOn
              then .offThenOn else .on) ∧
            (divisor ≠ keep → c.divisor = some divisor.toNat) ∧
            (divisor = keep → c.divisor = (s.port p).control.bind Control.divisor))))

/-- PORT_SELF_TEST (R48, R49): refused as its table says, and taken on a DISABLED port with no control pending, which
enters TESTING with all counts 0 and starts its stream, its counters as they were; a character of the stream that ticks
have sent comes back by the loopback as it was sent (assumption 25). Each character received is compared: the first with
TEST, the i-th after it with character i, value i and mark bit i mod 2, and it counts as a pass or a mismatch.
READ_COUNTERS (R51): in every state the answer gives the five counters and the port's state, and a clear flag other than
0 sets the five to 0; a port above 1 is refused. RELEASE_STATION (R78): a LOST record becomes VACANT with slip and drift
flags kept; any other is refused and left as it is; the words give the record as it stood; a station above 15 is
refused. SET_PRIVACY and SET_BAR (R90, R91): the requested host privacy, or the bar, becomes what a nonzero flag asks,
with no mark; word 0 gives it as it stood and word 1 the other; a channel above 31 is refused. -/
def Obligations.SelfTestCountersReleasePrivacyAndBar : Prop :=
  ((∀ (s : State) (w : Word32) (p : PortId),
    (1 < w.toNat → AnswersAtOnce (.portSelfTest w) s s { code := .refusedRange, w0 := 0, w1 := 0, w2 := 0 }) ∧
    (w.toNat = portNumber p →
      ((s.port p).state = .testing →
        AnswersAtOnce (.portSelfTest w) s s { code := .refusedBusy, w0 := 0, w1 := 0, w2 := 0 }) ∧
      ((s.port p).state ≠ .testing → ((s.port p).state ≠ .disabled ∨ (s.port p).control ≠ none) →
        AnswersAtOnce (.portSelfTest w) s s { code := .refusedState, w0 := 0, w1 := 0, w2 := 0 }) ∧
      ((s.port p).state = .disabled → (s.port p).control = none →
        HeldLong (.portSelfTest w) s
          (s.setPort p { s.port p with
            state := .testing, closed := false, txTicks := 0
            selfTest := some { cell := s.scan.cursor, sent := 0, received := 0, pass := 0, mismatch := 0, leader := false }
            sending := charBits true 0xF5#8 ::
              (List.range 256).map fun k => charBits (decide (k % 2 = 1)) (BitVec.ofNat 8 k) }) none))) ∧
  ∀ (s : State) (w clear : Word32) (p : PortId),
    (1 < w.toNat → AnswersAtOnce (.readCounters w clear) s s { code := .refusedRange, w0 := 0, w1 := 0, w2 := 0 }) ∧
    (w.toNat = portNumber p →
      AnswersAtOnce (.readCounters w clear) s
        (if clear = 0 then s
          else s.setPort p { s.port p with framing := 0, check := 0, noReply := 0, lateCut := 0, stuck := 0 })
        { code := .done
          w0 := BitVec.ofNat 32 ((s.port p).framing + 65536 * (s.port p).check)
          w1 := BitVec.ofNat 32 ((s.port p).noReply + 65536 * (s.port p).lateCut)
          w2 := BitVec.ofNat 32 ((s.port p).stuck + 65536 * (s.port p).state.code) })) ∧
  (∀ (s : State) (p : PortId) (g : SelfTest) (c : BitVec 11), s.pending = [] → s.timer.running = true →
    (s.port p).state = .testing → (s.port p).selfTest = some g → (s.port p).sending[g.received]? = some c →
    (s.port p).sending.isEmpty = false → g.received < 257 →
    (g.received + 1) * (88 * ((s.port p).divisor + 1)) ≤ (s.port p).txTicks + 1 →
    ∃ t, step s = .next t ∧ .characterReceived p (cleanSamples c) ∈ t.pending) ∧
  (∀ (g t : SelfTest) (e : CharEvent), g.take e = t →
    (g.received = 0 → t = { g with
      received := 1, sent := max g.sent 1, leader := decide (e = .control 0xF5#8) }) ∧
    (∀ i, i < 256 → g.received = i + 1 →
      let agrees : Prop := e = if i % 2 = 1 then .control (BitVec.ofNat 8 i) else .data (BitVec.ofNat 8 i)
      (agrees → t = { g with received := i + 2, sent := max g.sent (i + 2), pass := g.pass + 1 }) ∧
      (¬agrees → t = { g with received := i + 2, sent := max g.sent (i + 2), mismatch := g.mismatch + 1 })) ∧
    (257 ≤ g.received → t = g)) ∧
  (∀ (s : State) (w : Word32),
    (15 < w.toNat → AnswersAtOnce (.releaseStation w) s s { code := .refusedRange, w0 := 0, w1 := 0, w2 := 0 }) ∧
    ∀ (k : Fin 16) (st : Station) (words : ResultCode → Result), w.toNat = k.val → s.path.stations[k] = st →
      words = (fun c => { code := c, w0 := BitVec.ofNat 32 st.state.code
                          w1 := BitVec.ofNat 32 ((st.unit.map BitVec.toNat).getD 0)
                          w2 := match st.lostCause with
                            | none => 0
                            | some .misses => 1
                            | some .port => 2 }) →
      (st.state ≠ .lost → AnswersAtOnce (.releaseStation w) s s (words .refusedState)) ∧
      (st.state = .lost → ∃ stations, AnswersAtOnce (.releaseStation w) s
          { s with path := { s.path with stations := stations } } (words .done) ∧
        ∀ j : Fin 16, stations[j] = if j = k then
            { state := .vacant, unit := none, goodRun := 0, missRun := 0, lostCause := none,
              mics := st.mics.map fun m => { m with button := false, present := false } }
          else s.path.stations[j])) ∧
  ∀ (s : State) (w flag : Word32),
    (31 < w.toNat →
      AnswersAtOnce (.setPrivacy w flag) s s { code := .refusedRange, w0 := 0, w1 := 0, w2 := 0 } ∧
      AnswersAtOnce (.setBar w flag) s s { code := .refusedRange, w0 := 0, w1 := 0, w2 := 0 }) ∧
    ∀ (c : Fin 32) (old : Settings) (one : Bool → Word32), w.toNat = c.val → s.path.channels[c].settings = old →
      one = (fun b => if b then 1 else 0) →
      ∃ asked barred : Vector Channel 32,
        AnswersAtOnce (.setPrivacy w flag) s { s with path := { s.path with channels := asked } }
          { code := .done, w0 := one old.privacy, w1 := one old.bar, w2 := 0 } ∧
        AnswersAtOnce (.setBar w flag) s { s with path := { s.path with channels := barred } }
          { code := .done, w0 := one old.bar, w1 := one old.privacy, w2 := 0 } ∧
        ∀ d : Fin 32,
          (d = c → asked[d] = { s.path.channels[d] with settings := { old with privacy := decide (flag ≠ 0) } } ∧
            barred[d] = { s.path.channels[d] with settings := { old with bar := decide (flag ≠ 0) } }) ∧
          (d ≠ c → asked[d] = s.path.channels[d] ∧ barred[d] = s.path.channels[d])

/-- SET_CHANNEL (R87): each field that holds a value is written, clamped to its range, KEEP leaves a setting, and the words
give the settings before; nothing else of the channel or of any other changes; a channel above 31 is refused. -/
def Obligations.SetChannel : Prop :=
  ∀ (s : State) (w gain threshold attack hang inMix : Word32),
    (31 < w.toNat → AnswersAtOnce (.setChannel w gain threshold attack hang inMix) s s
      { code := .refusedRange, w0 := 0, w1 := 0, w2 := 0 }) ∧
    ∀ (c : Fin 32) (old new : Settings) (keep : Word32), w.toNat = c.val → s.path.channels[c].settings = old →
      keep = 0xFFFFFFFF#32 →
      new = { old with
        gain := if gain = keep then old.gain else min 16383 gain.toNat
        threshold := if threshold = keep then old.threshold else min 32767 threshold.toNat
        attack := if attack = keep then old.attack else max 1 (min 8 attack.toNat)
        hang := if hang = keep then old.hang else min 255 hang.toNat
        inMix := if inMix = keep then old.inMix else decide (inMix ≠ 0) } →
      ∃ channels, AnswersAtOnce (.setChannel w gain threshold attack hang inMix) s
          { s with path := { s.path with channels := channels } }
          { code := if (gain ≠ keep ∧ 16383 < gain.toNat) ∨ (threshold ≠ keep ∧ 32767 < threshold.toNat) ∨
                (attack ≠ keep ∧ (attack = 0 ∨ 8 < attack.toNat)) ∨ (hang ≠ keep ∧ 255 < hang.toNat)
              then .doneClamped else .done
            w0 := BitVec.ofNat 32 (old.gain + 65536 * old.threshold)
            w1 := BitVec.ofNat 32 (old.attack + 256 * old.hang + if old.inMix then 65536 else 0)
            w2 := BitVec.ofNat 32 ((if old.privacy then 1 else 0) + (if old.bar then 256 else 0) +
              if s.path.channels[c].seated then 65536 else 0) } ∧
        ∀ d : Fin 32, channels[d] = if d = c then { s.path.channels[d] with settings := new } else s.path.channels[d]

/-- FLUSH (R146): outside a sitting it is refused; with nothing staged and no sheet open it is done at once; else a flush
is created, each open sheet's close pending made FLUSH with the items of its bay as its drain point, an earlier reason
kept with the larger drain point; one taken while another is in flight joins it. -/
def Obligations.FlushRequest : Prop :=
  ∀ s : State,
    (s.sitting.state = .idle ∨ s.sitting.state = .armed →
      AnswersAtOnce .flush s s { code := .refusedState, w0 := 0, w1 := 0, w2 := 0 }) ∧
    (s.sitting.counting = true → s.writer.flush = none →
      ((∀ t : Fin 34, s.path.bays.bay[t].items = [] ∧ s.writer.sheets[t] = none) →
        AnswersAtOnce .flush s s { code := .done, w0 := 0, w1 := 0, w2 := 0 }) ∧
      ((∃ t : Fin 34, s.path.bays.bay[t].items ≠ [] ∨ s.writer.sheets[t] ≠ none) →
        ∃ (sheets : Vector (Option OpenSheet) 34) (f : Flush),
          HeldLong .flush s { s with writer := { s.writer with sheets := sheets, flush := some f } } none ∧
          f.cells = [s.scan.cursor] ∧ f.closed = 0 ∧ f.complete = false ∧ f.abandoned = false ∧
          (∀ t : Fin 34, f.remaining[t] = s.path.bays.bay[t].items.length) ∧
          f.counted = f.remaining.toList.sum ∧
          (∀ id, id ∈ f.sheets ↔ ∃ (t : Fin 34) (o : OpenSheet), s.writer.sheets[t] = some o ∧
            id = { index := o.index, serial := o.serial }) ∧
          ∀ t : Fin 34,
            (s.writer.sheets[t] = none → sheets[t] = none) ∧
            ∀ o, s.writer.sheets[t] = some o → ∃ c : PendingClose, sheets[t] = some { o with pend := some c } ∧
              c.reason = (o.pend.map PendingClose.reason).getD .flush ∧
              c.drain = max ((o.pend.map PendingClose.drain).getD 0) s.path.bays.bay[t].items.length)) ∧
    ∀ f, s.sitting.counting = true → s.writer.flush = some f → f.complete = false →
      HeldLong .flush s
        { s with writer := { s.writer with flush := some { f with cells := f.cells ++ [s.scan.cursor] } } } none

/-- HOST_MARK and REQUEST_REFUSED_KIND (R126, R128, R154): in ON_RECORD and OFF_RECORD a mark of the current frame with the
code and text as given is offered to bay 33 and answered DONE with the frame, whether it was admitted and the withheld
count; a text above 32 bytes and another state are refused, the state first (assumption 15); a kind that no block owns is
refused. -/
def Obligations.HostMarkAndUnknownKinds : Prop :=
  ∀ (s : State) (code : Word16) (length : Byte) (text : List Byte) (m : Mark),
    m = { kind := .hostMark code length text, frame := s.frame, time := s.timer.tod } →
    (∀ kind, AnswersAtOnce (.requestRefusedKind kind) s s { code := .refusedKind, w0 := 0, w1 := 0, w2 := 0 }) ∧
    (s.sitting.isOpen = false →
      AnswersAtOnce (.hostMark code length text) s s { code := .refusedState, w0 := 0, w1 := 0, w2 := 0 }) ∧
    (s.sitting.isOpen = true → 32 < length.toNat →
      AnswersAtOnce (.hostMark code length text) s s { code := .refusedRange, w0 := 0, w1 := 0, w2 := 0 }) ∧
    (s.sitting.isOpen = true → length.toNat ≤ 32 →
      ∃ t, AnswersAtOnce (.hostMark code length text) s t
        { code := .done, w0 := BitVec.ofNat 32 s.frame
          w1 := if 4 * (s.path.bays.bay[markTrack].fill + m.kind.size) ≤ 3 * s.path.bays.bay[markTrack].capacity
            then 1 else 0
          w2 := BitVec.ofNat 32 t.path.bays.withheld } ∧
        t = { s with path := { s.path with attn := t.path.attn, bays := s.path.bays.offer m }
                     writer := { s.writer with starving := t.writer.starving } })

/-! ### The scan (R133, R134, R152 to R157, R159) -/

/-- The board step (R151 to R153): a boundary that finds a scan in progress begins none, one that finds none begins one
at cell 0; a cell held for a block that has not finished is passed over, the first other one is completed where it is
held and read where it is not, and after cell 15 the pool or the head follows. That a held cell is due only in a scan
that begins after its result stands is assumption 13 (DEDUCED from R14, R16, R49 and R146); that the scan cursor keeps
its last cell once the board step is over is assumption 66. CELL_READ (R5, R153, R154): a POSTED cell's request is taken
with its tag, an ARM in IDLE with a read of its arm record first; any other cell is passed over. CELL_READ_FAILED and
ARM_RECORD_READ_FAILED (R5, R156): the failure is counted with BUSFAULT, no request is taken, and the board step stops:
the scan goes on with the pool when R133 allows it, else with the head. -/
def Obligations.TheBoardStepAndItsReads : Prop :=
  (∀ (s : State) (a b : Bool), s.timer.running = true → ∃ t, exec (.boundary a b) s = .next t ∧
    (s.scan.step ≠ .idle →
      t.scan.step = s.scan.step ∧ t.scan.cursor = s.scan.cursor ∧ t.scan.poolDue = s.scan.poolDue) ∧
    (s.scan.step = .idle → s.scan.held = [] →
      t.scan = { step := .cell, cursor := 0, held := [], poolDue := s.writer.arming.isSome })) ∧
  (∀ s : State,
    (s.scan.step ≠ .idle → s.beginScan = s) ∧
    (s.scan.step = .idle → ∃ sc, s.beginScan = { s with scan := ({ s with scan := sc } : State).boardFrom 0 } ∧
      sc = { step := .idle, cursor := 0, held := sc.held, poolDue := s.writer.arming.isSome } ∧
      ∀ (c : Fin 16) (h : Held), sc.heldAt c = some h ↔
        ∃ g, s.scan.heldAt c = some g ∧ h = { g with due := g.result.isSome }) ∧
    ∀ i : Nat,
      (∀ c : Fin 16, i ≤ c.val → (∀ d : Fin 16, i ≤ d.val → d < c → s.scan.passedOver d) → ¬s.scan.passedOver c →
        (s.scan.heldAt c = none → s.boardFrom i = { s.scan with cursor := c, step := .cell }) ∧
        ∀ h r, s.scan.heldAt c = some h → h.result = some r →
          let ans : Answer := { kind := h.kind, tag := h.tag, result := r }
          s.boardFrom i = { s.scan with cursor := c, step := .resultWrite ans (resultBytes s ans) }) ∧
      ((∀ d : Fin 16, i ≤ d.val → s.scan.passedOver d) →
        (∀ a, s.scan.poolDue = true → s.writer.arming = some a → 1 ≤ a.poolCount → s.writer.queue.length < 64 →
          s.boardFrom i = { s.scan with step := .poolRead 0 }) ∧
        (s.scan.poolDue = false ∨ s.writer.arming = none ∨ 64 ≤ s.writer.queue.length →
          s.boardFrom i = { s.scan with step := .head (headBytes s) }))) ∧
  (∀ (s : State) (bytes : List Byte), s.scan.step = .cell →
    (cellState bytes = 1 →
      (∀ a, cellRequest bytes = .arm a → s.sitting.state = .idle →
        exec (.cellRead bytes) s = .next { s with scan := { s.scan with step := .armRead (cellTag bytes) a } }) ∧
      ((∀ a, cellRequest bytes ≠ .arm a) ∨ s.sitting.state ≠ .idle →
        exec (.cellRead bytes) s =
          .next { s with scan := { s.scan with step := .taking (cellTag bytes) (cellRequest bytes) } })) ∧
    (cellState bytes ≠ 1 →
      exec (.cellRead bytes) s = .next { s with scan := s.boardFrom (s.scan.cursor.val + 1) } ∧
      ∃ t, exec (.cellRead bytes) s = .next t ∧ t = { s with scan := t.scan } ∧
      t.scan.held = s.scan.held ∧
      ∀ c : Fin 16, c.val = s.scan.cursor.val + 1 → s.scan.held = [] → t.scan.cursor = c ∧ t.scan.step = .cell)) ∧
  ∀ (s : State) (c : Instr), (c = .cellReadFailed ∧ s.scan.step = .cell) ∨
      (c = .armRecordReadFailed ∧ ∃ tag a, s.scan.step = .armRead tag a) →
    ∃ t, exec c s = .next t ∧
      t = { s with bus := { s.bus with busFaults := min 4294967295 (s.bus.busFaults + 1) }
                   path := { s.path with attn := s.path.attn.raise .busFault }, scan := t.scan } ∧
      t.scan = { s.scan with step := t.scan.step } ∧
      (∀ a, s.scan.poolDue = true → s.writer.arming = some a → 1 ≤ a.poolCount → s.writer.queue.length < 64 →
        t.scan.step = .poolRead 0) ∧
      (s.scan.poolDue = false ∨ s.writer.arming = none ∨ 64 ≤ s.writer.queue.length →
        t.scan.step = .head (headBytes t))

/-- RESULT_AREA_WRITE and STATE_WORD_WRITE (R155, R156): the state word follows a done result area and raises REQUEST
when done, the cell held no longer; a failed result area loses the result, and a failed state word keeps the cell held
with it, to be written again by the next scan. Where the completion is over, done or failed, the board step goes on with
the next cell. A cell whose result area was written, or failed, leaves its flush, and a complete flush that no cell
waits for is removed (R146). -/
def Obligations.CompletionWrites : Prop :=
  ∀ (s : State) (ans : Answer) (bytes : List Byte),
    (s.scan.step = .resultWrite ans bytes → bytes.length ≤ 32 → ∀ how, ∃ t, exec (.resultAreaWrite how) s = .next t ∧
      t = { s with bus := t.bus, path := t.path, hostMem := t.hostMem, scan := t.scan
                   writer := { s.writer with flush := t.writer.flush } } ∧
      WriteEnded s t how (s.bus.cellAddress s.scan.cursor + 32) bytes ∧
      (how = .done → t.scan = { s.scan with step := .stateWrite ans }) ∧
      (how = .failed → t.scan.held = (s.scan.held.filter fun h => h.cell != s.scan.cursor) ∧
        t.scan = ({ t with scan := { s.scan with held := t.scan.held } } : State).boardFrom (s.scan.cursor.val + 1)) ∧
      (s.writer.flush = none → t.writer.flush = none) ∧
      ∀ f, s.writer.flush = some f →
        ((∀ c ∈ f.cells, c = s.scan.cursor) → f.complete = true → t.writer.flush = none) ∧
        ((∃ c ∈ f.cells, c ≠ s.scan.cursor) ∨ f.complete = false →
          t.writer.flush = some { f with cells := f.cells.filter fun c => c != s.scan.cursor })) ∧
    (s.scan.step = .stateWrite ans → ∀ how, ∃ t, exec (.stateWordWrite how) s = .next t ∧
      t = { s with bus := t.bus, path := { s.path with attn := t.path.attn }, hostMem := t.hostMem, scan := t.scan } ∧
      t.scan = ({ t with scan := { s.scan with held := t.scan.held } } : State).boardFrom (s.scan.cursor.val + 1) ∧
      (how = .done →
        Stored (s.bus.cellAddress s.scan.cursor)
          (leBytes 4 (if ans.result.code = .done ∨ ans.result.code = .doneClamped then 3 else 4)) s.hostMem t.hostMem ∧
        t.bus = s.bus ∧ t.path.attn = s.path.attn.raise .request ∧
        t.scan.held = s.scan.held.filter fun h => h.cell != s.scan.cursor) ∧
      (how = .failed → t.hostMem = s.hostMem ∧
        t.bus = { s.bus with busFaults := min 4294967295 (s.bus.busFaults + 1) } ∧
        t.path.attn = s.path.attn.raise .busFault ∧
        t.scan.held = (s.scan.held.filter fun h => h.cell != s.scan.cursor) ++
          [{ cell := s.scan.cursor, kind := ans.kind, tag := ans.tag, result := some ans.result, due := false }]))

/-- TAKEN_WRITE, HEAD_WRITE, PANEL_WRITE and TAMPER_REWRITE (R134, R154, R156, R157, R159): done, the bytes stand where
they belong; failed, the failure is counted with BUSFAULT and the image of acknowledged writes stays (assumption 9); the
scan goes on either way: a taken request stays held and the board step goes on with the next cell, the panels follow the
head in order, the entries of each in ascending index (assumption 63), the scan cursor keeping its last cell (assumption
66), and the last panel entry ends the scan. -/
def Obligations.WritesTheScanGoesOnAfter : Prop :=
  ∀ (s : State) (how : WriteEnd),
    (s.scan.step = .takenWrite → ∃ t, exec (.takenWrite how) s = .next t ∧
      t = { s with bus := t.bus, path := t.path, hostMem := t.hostMem, scan := t.scan } ∧
      WriteEnded s t how (s.bus.cellAddress s.scan.cursor) [2#8, 0#8, 0#8, 0#8] ∧ t.scan.held = s.scan.held ∧
      t.scan.step ≠ .takenWrite ∧ t.scan = ({ t with scan := s.scan } : State).boardFrom (s.scan.cursor.val + 1)) ∧
    (∀ bytes, s.scan.step = .head bytes → bytes.length ≤ 64 → ∃ t, exec (.headWrite how) s = .next t ∧
      t = { s with bus := t.bus, path := t.path, hostMem := t.hostMem, scan := t.scan } ∧
      WriteEnded s t how s.bus.directory bytes ∧ t.scan = { s.scan with step := .panel 0 (panelBytes t 0) }) ∧
    (∀ (e : Fin 50) (bytes : List Byte), s.scan.step = .panel e bytes → bytes.length ≤ 64 →
      ∃ t, exec (.panelWrite how) s = .next t ∧
        t = { s with bus := t.bus, path := t.path, hostMem := t.hostMem, scan := t.scan } ∧
        WriteEnded s t how (s.bus.directory + BitVec.ofNat 64 (if e.val < 32 then 0x500 + 16 * e.val
          else if e.val < 48 then 0x700 + 16 * (e.val - 32) else 0x800 + 64 * (e.val - 48))) bytes ∧
        (∀ n : Fin 50, n.val = e.val + 1 → t.scan = { s.scan with step := .panel n (panelBytes t n) }) ∧
        (e.val = 49 → t.scan = { s.scan with step := .idle })) ∧
    (∀ (i : Fin 256) (bytes : List Byte) (count : Nat) (a : Arming), s.scan.step = .tamper i bytes count →
      bytes.length ≤ 4 → s.writer.arming = some a → ∃ t, exec (.tamperRewrite how) s = .next t ∧
        t = { s with bus := t.bus, path := t.path, hostMem := t.hostMem, scan := t.scan } ∧
        WriteEnded s t how (a.poolAddress + BitVec.ofNat 64 (16 * i.val) + 8) bytes ∧
        (count < a.poolCount → s.writer.queue.length < 64 → t.scan = { s.scan with step := .poolRead count }) ∧
        (a.poolCount ≤ count ∨ 64 ≤ s.writer.queue.length → t.scan = { s.scan with step := .head (headBytes t) }))

/-- POOL_ENTRY_READ and POOL_READ_FAILED (R133, R134): a FREE entry that is not held is marked STANDBY, a held one that
shows another status is rewritten with the map's and TAMPER is raised, and any other is passed over, as is every entry
to which the Writer's own write is in flight; after an entry passed over the scan reads on while fewer than pool count
are read and the queue holds fewer than 64, else it is over and the head follows; the scan cursor keeps its last cell
(assumption 66). The pool cursor moves on, but stays at an entry whose read failed, where the scan stops. STANDBY_WRITE
(R131, R133, R134): done, the entry is held as STANDBY and its index, with the address read, ends the queue; the scan
reads on until the queue holds 64 or every entry is read. Failed, the entry is not held, the image of acknowledged
writes stays (assumption 9; R134 lets the status reach host memory), and the scan stops. -/
def Obligations.PoolScan : Prop :=
  (∀ (s : State) (bytes : List Byte) (count : Nat) (a : Arming) (i next : Fin 256) (e : PoolEntry),
    s.scan.step = .poolRead count → s.writer.arming = some a → s.writer.poolCursor = i → PoolEntry.parse bytes = e →
    next.val = (if i.val + 1 < a.poolCount then i.val + 1 else 0) →
    (∃ t, exec (.poolEntryRead bytes) s = .next t ∧
      t = { s with scan := t.scan, path := { s.path with attn := t.path.attn }
                   writer := { s.writer with poolCursor := next } } ∧
      (¬s.writesEntry i →
        (s.writer.owner[i] = .notHeld → e.status = 1 → t.path.attn = s.path.attn ∧
          t.scan = { s.scan with step := .standby { index := i, address := e.address } (count + 1) }) ∧
        (s.writer.owner[i] = .standby → e.status ≠ 2 → t.path.attn = s.path.attn.raise .tamper ∧
          t.scan = { s.scan with step := .tamper i [2#8, 0#8, 0#8, 0#8] (count + 1) }) ∧
        (∀ (k : Fin 34) (o : OpenSheet), s.writer.owner[i] = .writing k → s.writer.sheets[k] = some o → e.status ≠ 3 →
          t.path.attn = s.path.attn.raise .tamper ∧
          t.scan = { s.scan with step := .tamper i (3#8 :: BitVec.ofNat 8 k.val :: leBytes 2 o.serial) (count + 1) })) ∧
      (s.writesEntry i ∨ (s.writer.owner[i] = .notHeld ∧ e.status ≠ 1) ∨
          (s.writer.owner[i] = .standby ∧ e.status = 2) ∨ ((∃ k, s.writer.owner[i] = .writing k) ∧ e.status = 3) →
        t.path.attn = s.path.attn ∧
        (count + 1 < a.poolCount → s.writer.queue.length < 64 → t.scan = { s.scan with step := .poolRead (count + 1) }) ∧
        (a.poolCount ≤ count + 1 ∨ 64 ≤ s.writer.queue.length →
          t.scan = { s.scan with step := .head (headBytes t) }))) ∧
    ∃ t, exec .poolReadFailed s = .next t ∧
      t = { s with bus := { s.bus with busFaults := min 4294967295 (s.bus.busFaults + 1) }
                   path := { s.path with attn := s.path.attn.raise .busFault }, scan := t.scan } ∧
      t.scan = { s.scan with step := .head (headBytes t) }) ∧
  ∀ (s : State) (q : Queued) (count : Nat) (a : Arming),
    s.scan.step = .standby q count → s.writer.arming = some a → s.writer.queue.length < 64 →
    (∃ t, exec (.standbyWrite .done) s = .next t ∧
      t = { s with scan := t.scan, hostMem := t.hostMem
                   writer := { s.writer with queue := s.writer.queue ++ [q], owner := t.writer.owner
                                             starving := Vector.replicate 34 false } } ∧
      Stored (a.poolAddress + BitVec.ofNat 64 (16 * q.index.val) + 8) [2#8, 0#8, 0#8, 0#8] s.hostMem t.hostMem ∧
      (∀ j : Fin 256, t.writer.owner[j] = if j = q.index then .standby else s.writer.owner[j]) ∧
      (count < a.poolCount → s.writer.queue.length < 63 → t.scan = { s.scan with step := .poolRead count }) ∧
      (a.poolCount ≤ count ∨ s.writer.queue.length = 63 → t.scan = { s.scan with step := .head (headBytes t) })) ∧
    ∃ t, exec (.standbyWrite .failed) s = .next t ∧
      t = { s with bus := { s.bus with busFaults := min 4294967295 (s.bus.busFaults + 1) }
                   path := { s.path with attn := s.path.attn.raise .busFault }, scan := t.scan } ∧
      t.scan = { s.scan with step := .head (headBytes t) }

/-! ### The Record Writer (R123, R127, R135 to R137, R139 to R141, R144 to R146) -/

/-- WRITER_TURN (R135 to R137, R139): with no turn in progress the first ready track after the last served is served,
track 33 out of turn under the supply warning; a close due writes the header with its reason, as the sheet and the part
stand, an open sheet takes the head item that fits, else FULL becomes due, and without a sheet the oldest index of the
queue is taken for one. The rest of the Writer stays. -/
def Obligations.WriterTurn : Prop :=
  ∀ s : State, s.writer.turn = none →
    ((∀ t : Fin 34, s.ready t = false) → exec .writerTurn s = .next s) ∧
    ∀ (t : Fin 34) (d : Nat), s.ready t = true → 1 ≤ d → t.val = (s.writer.lastServed.val + d) % 34 →
      (s.supply.warning = true → s.writer.lastServed = markTrack ∨ t = markTrack ∨ s.ready markTrack = false) →
      ((s.supply.warning = true ∧ s.writer.lastServed ≠ markTrack ∧ t = markTrack) ∨
        (d ≤ 34 ∧ ∀ (u : Fin 34) (e : Nat), 1 ≤ e → e < d → u.val = (s.writer.lastServed.val + e) % 34 →
          s.ready u = false)) →
      ∃ v, exec .writerTurn s = .next v ∧
        v = { s with path := { s.path with attn := v.path.attn }
                     writer := { s.writer with lastServed := t, queue := v.writer.queue, sheets := v.writer.sheets
                                               turn := v.writer.turn, starving := v.writer.starving } } ∧
        (∀ u : Fin 34, u ≠ t → v.writer.sheets[u] = s.writer.sheets[u]) ∧
        (∀ o reason, s.writer.sheets[t] = some o → s.closeDue t = some reason → v.writer.queue = s.writer.queue ∧
          v.writer.sheets[t] = some o ∧
          ∃ bytes, v.writer.turn = some { track := t, write := .header reason bytes } ∧
            bytes.take 4 = BitVec.ofNat 8 t.val :: BitVec.ofNat 8 reason.code :: leBytes 2 o.serial ∧
            ∀ a, s.writer.arming = some a → bytes = headerBytes s t o reason a.sheetSize) ∧
        (∀ o i rest a, s.writer.sheets[t] = some o → s.closeDue t = none → s.path.bays.bay[t].items = i :: rest →
          s.writer.arming = some a → v.writer.queue = s.writer.queue ∧
          (o.used + i.size ≤ a.sheetSize - 64 → v.writer.turn = some { track := t, write := .item } ∧
            v.writer.sheets = s.writer.sheets) ∧
          (a.sheetSize - 64 < o.used + i.size → v.writer.turn = none ∧
            v.writer.sheets[t] = some { o with fullDue := true } ∧ v.closeDue t = some .full)) ∧
        ∀ q rest, s.writer.sheets[t] = none → s.writer.queue = q :: rest →
          v.writer.turn = some { track := t, write := .writing q } ∧ v.writer.queue = rest ∧ v.writer.sheets[t] = none

/-- What the Writer's turns rest on: a track is ready with a close due, or with an item and a sheet or a queued index to
write it to (R135). A close is due for FULL, then for a pending reason whose drain point is 0, then for POWER outside
DRAINING (R137, R140, R143; assumption 27). A close of an empty bay falls due for POWER or SITTING_CLOSED on each track
on its own (R143, R144). The starving set is the tracks of R145 and STARVING is raised when one enters: where it is
brought up to date, and, at the end of each command that can change it (assumption 28) and of each tick, in every step
from a state whose set is right; no step puts a track into the set without raising STARVING. At a boundary each sheet
with no close pending that has reached the age limit gets AGE pending, its drain point the items of its bay once an OPEN
run has been ended (R142); BOUNDARY does so at the frame that it begins. -/
def Obligations.ClosesReadinessAndStarving : Prop :=
  (∀ (s : State) (t : Fin 34),
    (s.ready t = true ↔ s.closeDue t ≠ none ∨
      (s.path.bays.bay[t].items ≠ [] ∧ (s.writer.sheets[t] ≠ none ∨ s.writer.queue ≠ []))) ∧
    (s.writer.sheets[t] = none → s.closeDue t = none) ∧
    ∀ o, s.writer.sheets[t] = some o →
      (o.fullDue = true → s.closeDue t = some .full) ∧
      (o.fullDue = false →
        (∀ c, o.pend = some c → c.drain = 0 → s.closeDue t = some c.reason) ∧
        ((∀ c, o.pend = some c → c.drain ≠ 0) →
          s.closeDue t = if o.powerDue = true ∧ s.sitting.draining = false then some .power else none))) ∧
  (∀ (s v : State), s.setEmptyCloses = v →
    v = { s with writer := { s.writer with sheets := v.writer.sheets } } ∧
    ∀ t : Fin 34,
      (s.path.bays.bay[t].items ≠ [] ∨ s.closeDue t ≠ none → v.writer.sheets[t] = s.writer.sheets[t]) ∧
      (s.path.bays.bay[t].items = [] → s.closeDue t = none →
        (s.sitting.draining = false → v.writer.sheets[t] =
          if s.supply.warning then s.writer.sheets[t].map fun o => { o with powerDue := true }
          else s.writer.sheets[t]) ∧
        (s.sitting.draining = true → v.writer.sheets[t] =
          if s.path.runOfTrack t = none ∧ (t = markTrack → s.sitting.finalMark = none) then
            s.writer.sheets[t].map fun o => { o with pend := some { reason := .sittingClosed, drain := 0 } }
          else s.writer.sheets[t]))) ∧
  (∀ (s v : State), s.refresh = v →
    v = { s with path := { s.path with attn := v.path.attn }, writer := { s.writer with starving := v.writer.starving } } ∧
    (∀ t : Fin 34, v.writer.starving[t] = true ↔
      s.path.bays.bay[t].items ≠ [] ∧ s.writer.sheets[t] = none ∧ s.writer.queue = []) ∧
    ((∃ t : Fin 34, v.writer.starving[t] = true ∧ s.writer.starving[t] = false) →
      v.path.attn = s.path.attn.raise .starving) ∧
    ((∀ t : Fin 34, v.writer.starving[t] = true → s.writer.starving[t] = true) → v.path.attn = s.path.attn)) ∧
  (∀ s v : State, step s = .next v → (s.starvingRight → v.starvingRight) ∧
    ∀ t : Fin 34, v.writer.starving[t] = true → s.writer.starving[t] = false → Raised v .starving) ∧
  (∀ (s : State) (first second : Bool) (t : Fin 34) (o : OpenSheet) (a : Arming), s.timer.running = true →
    s.writer.arming = some a → s.writer.sheets[t] = some o →
    s.sitting.close = none ∨ s.path.bays.bay[t].items ≠ [] →
    ∃ v, exec (.boundary first second) s = .next v ∧
      (o.pend ≠ none ∨ v.frame - o.opened < 250 * a.ageLimit → v.writer.sheets[t] = some o) ∧
      (o.pend = none → 250 * a.ageLimit ≤ v.frame - o.opened →
        v.writer.sheets[t] =
          some { o with pend := some { reason := .age, drain := v.path.bays.bay[t].items.length } } ∧
        ∀ (k : Fin 33) (r : VoidRun), t = trackOf k → v.path.runOf k = some r → r.held = true)) ∧
  ∀ (s v : State) (a : Arming), s.writer.arming = some a → s.ageCloses = v →
    v = { s with path := v.path, writer := { s.writer with sheets := v.writer.sheets } } ∧
    v.path.attn = s.path.attn ∧ v.path.stations = s.path.stations ∧
    ∀ (t : Fin 34) (bay : Bay), s.path.bays.bay[t] = bay →
      (s.writer.sheets[t] = none ∨
          (∃ o, s.writer.sheets[t] = some o ∧ (o.pend ≠ none ∨ s.frame - o.opened < 250 * a.ageLimit)) →
        v.writer.sheets[t] = s.writer.sheets[t] ∧ v.path.bays.bay[t] = bay ∧
        v.path.runOfTrack t = s.path.runOfTrack t) ∧
      ∀ o, s.writer.sheets[t] = some o → o.pend = none → 250 * a.ageLimit ≤ s.frame - o.opened →
        (∀ n, v.path.bays.bay[t].items.length = n →
          v.writer.sheets[t] = some { o with pend := some { reason := .age, drain := n } }) ∧
        (s.path.runOfTrack t = none ∨ (∃ r, s.path.runOfTrack t = some r ∧ r.held = true) →
          v.path.bays.bay[t] = bay ∧ v.path.runOfTrack t = s.path.runOfTrack t) ∧
        ∀ (k : Fin 33) (r : VoidRun), t = trackOf k → s.path.runOf k = some r → r.held = false →
          (bay.fill + 16 ≤ bay.capacity → v.path.runOf k = none ∧
            v.path.bays.bay[t] = { bay with items := bay.items ++ [.voidRun k r] }) ∧
          (bay.capacity < bay.fill + 16 → v.path.runOf k = some { r with held := true } ∧ v.path.bays.bay[t] = bay)

/-- WRITING_WRITE (R136): done, the entry shows WRITING with the track and serial, the map and the open-sheet record
take the sheet, the serial goes up by one and back to 0 from 65,535, and the head item is written; failed, the entry is
forgotten, the serial stays and the turn ends; the rest of the Writer stays either way; the image of acknowledged writes
stays (assumption 9: R136 and R147 leave it open whether the status reached host memory). With an abandon waiting, see
AbandonStaged. -/
def Obligations.WritingWrite : Prop :=
  ∀ (s : State) (t : Fin 34) (q : Queued) (a : Arming),
    s.writer.turn = some { track := t, write := .writing q } → s.writer.arming = some a →
    (∀ i rest, s.path.bays.bay[t].items = i :: rest → i.size ≤ a.sheetSize - 64 →
      ∃ v, exec (.writingWrite .done) s = .next v ∧
        v = { s with path := { s.path with attn := v.path.attn }, hostMem := v.hostMem
                     writer := { s.writer with turn := v.writer.turn, owner := v.writer.owner, sheets := v.writer.sheets
                                               serials := v.writer.serials, starving := v.writer.starving } } ∧
        Stored (a.poolAddress + BitVec.ofNat 64 (16 * q.index.val) + 8)
          (3#8 :: BitVec.ofNat 8 t.val :: leBytes 2 s.writer.serials[t]) s.hostMem v.hostMem ∧
        v.writer.turn = some { track := t, write := .item } ∧
        (∀ j : Fin 256, v.writer.owner[j] = if j = q.index then .writing t else s.writer.owner[j]) ∧
        (∀ u : Fin 34, v.writer.serials[u] = if u = t then (s.writer.serials[u] + 1) % 65536 else s.writer.serials[u]) ∧
        ∀ u : Fin 34, v.writer.sheets[u] =
          if u = t then some { index := q.index, address := q.address, serial := s.writer.serials[t], used := 0,
                               blocks := 0, first := none, last := none, opened := s.frame, pend := none,
                               fullDue := false, powerDue := false }
          else s.writer.sheets[u]) ∧
    (s.sitting.abandon = none → ∃ v, exec (.writingWrite .failed) s = .next v ∧
      v = { s with bus := { s.bus with busFaults := min 4294967295 (s.bus.busFaults + 1) }
                   path := { s.path with attn := v.path.attn }
                   writer := { s.writer with turn := none, owner := v.writer.owner, starving := v.writer.starving } } ∧
      Raised v .busFault ∧
      ∀ j : Fin 256, v.writer.owner[j] = if j = q.index then .notHeld else s.writer.owner[j])

/-- ITEM_WRITE_DONE (R123, R137, R140, R146): the item stands in the sheet at 64 + bytes used, its bay releases it, and
the record, a close pending and a flush count it; an item of a bay that nothing waits on leaves the rest of the path as
it was. The release hands on to what waits: a HELD run is offered again (R100); on track 33 MARKS_WITHHELD takes the
count at a fill of one half or less (R127), then a held SITTING_CLOSE is offered once the count is 0 (R14). Where it
leaves the bay empty and no close is due, one is: POWER under the warning, SITTING_CLOSED in DRAINING once no run and no
held SITTING_CLOSE remains (R143, R144). The rest of the Writer stays: arming, queue, map, serials, cursors and totals.
-/
def Obligations.ItemWriteDone : Prop :=
  ∀ (s : State) (t : Fin 34) (o : OpenSheet) (i : Item) (rest : List Item),
    s.writer.turn = some { track := t, write := .item } → s.writer.sheets[t] = some o →
    s.path.bays.bay[t].items = i :: rest → s.sitting.abandon = none → i.bytes.length ≤ 4096 →
    ∃ v, exec .itemWriteDone s = .next v ∧
      v = { s with path := v.path, hostMem := v.hostMem, sitting := { s.sitting with finalMark := v.sitting.finalMark }
                   writer := { s.writer with sheets := v.writer.sheets, turn := none, flush := v.writer.flush
                                             starving := v.writer.starving } } ∧
      Stored ((o.address &&& ~~~63#64) + BitVec.ofNat 64 (64 + o.used)) i.bytes s.hostMem v.hostMem ∧
      (∃ (pend : Option PendingClose) (powerDue : Bool),
        (∀ u : Fin 34, v.writer.sheets[u] =
          if u = t then some { o with
            used := o.used + i.size, blocks := o.blocks + 1, first := some (o.first.getD i.frame), last := some i.frame
            pend := pend, powerDue := powerDue }
          else s.writer.sheets[u]) ∧
        (v.path.bays.bay[t].items ≠ [] ∨ o.fullDue = true ∨ (∃ c, o.pend = some c ∧ c.drain ≤ 1) ∨
            (s.supply.warning = false ∧ s.sitting.draining = false) →
          pend = (o.pend.map fun c => { c with drain := c.drain - 1 }) ∧ powerDue = o.powerDue) ∧
        (v.path.bays.bay[t].items = [] → o.pend = none → o.fullDue = false →
          (s.sitting.draining = false → s.supply.warning = true → pend = none ∧ powerDue = true ∧
            v.closeDue t = some .power) ∧
          (s.sitting.draining = true → v.path.runOfTrack t = none → (t = markTrack → v.sitting.finalMark = none) →
            pend = some { reason := .sittingClosed, drain := 0 } ∧ v.closeDue t = some .sittingClosed))) ∧
      (s.writer.flush = none → v.writer.flush = none) ∧
      (∀ f, s.writer.flush = some f → ∃ g, v.writer.flush = some g ∧ g = { f with remaining := g.remaining } ∧
        ∀ u : Fin 34, g.remaining[u] = if u = t then f.remaining[u] - 1 else f.remaining[u]) ∧
      (∀ u : Fin 34, u ≠ t → v.path.bays.bay[u] = s.path.bays.bay[u]) ∧
      (∃ more, v.path.bays.bay[t].items = rest ++ more) ∧
      (s.path.runOfTrack t = none → s.path.bays.withheld = 0 → s.sitting.finalMark = none →
        v.path.bays.bay[t].items = rest ∧ v.path.bays.withheld = 0 ∧
        v.path = { s.path with attn := v.path.attn, bays := v.path.bays }) ∧
      (∀ (k : Fin 33) (r : VoidRun), t = trackOf k → s.path.runOf k = some r →
        (r.held = true → itemsBytes rest + 16 ≤ s.path.bays.bay[t].capacity →
          v.path.bays.bay[t].items = rest ++ [.voidRun k r] ∧ v.path.runOf k = none) ∧
        (r.held = false ∨ s.path.bays.bay[t].capacity < itemsBytes rest + 16 →
          v.path.bays.bay[t].items = rest ∧ v.path.runOf k = some r)) ∧
      (t = markTrack → ∀ (units : Nat) (counted : Item), s.path.bays.bay[t].units = units →
        counted = .mark { kind := .marksWithheld s.path.bays.withheld, time := s.timer.tod,
                          frame := match s.sitting.close with
                            | some g => min s.frame g.last
                            | none => s.frame } →
        (s.path.bays.withheld ≠ 0 → 128 * units < itemsBytes rest →
          v.path.bays.bay[t].items = rest ∧ v.path.bays.withheld = s.path.bays.withheld ∧
          v.sitting.finalMark = s.sitting.finalMark) ∧
        (s.path.bays.withheld ≠ 0 → itemsBytes rest ≤ 128 * units → 1 ≤ units → v.path.bays.withheld = 0 ∧
          (s.sitting.finalMark = none → v.path.bays.bay[t].items = rest ++ [counted] ∧ v.sitting.finalMark = none) ∧
          ∀ m reason, s.sitting.finalMark = some m → m.kind = .sittingClose reason →
            v.path.bays.bay[t].items = rest ++ [counted, .mark m] ∧ v.sitting.finalMark = none) ∧
        (s.path.bays.withheld = 0 → v.path.bays.withheld = 0 ∧
          ∀ m reason, s.sitting.finalMark = some m → m.kind = .sittingClose reason →
            (itemsBytes rest + 20 ≤ 256 * units →
              v.path.bays.bay[t].items = rest ++ [.mark m] ∧ v.sitting.finalMark = none) ∧
            (256 * units < itemsBytes rest + 20 →
              v.path.bays.bay[t].items = rest ∧ v.sitting.finalMark = some m)))

/-- CLOSED_WRITE (R139, R144, R146): done, the entry shows CLOSED, the total goes up by one and SHEET is raised; done or
failed, the record is removed and the map forgets the entry; a flush and a close count it by its reason.
ITEM_WRITE_FAILED, HEADER_WRITE and FAULTED_WRITE (R139, R141): a failed item write counts a bus fault, leaves the item
in its bay and writes the header with reason FAULT; after a done header of another reason CLOSED is written, after the
header of a fault FAULTED is, done or failed; each header begun is the whole header of R139, as the sheet and the part
stand (its fields, RecordsFillTheirLayouts); after FAULTED the sheet and its entry are gone, it leaves the set of a
flush in flight, and none is counted as closed. The rest of the Writer stays: arming, queue, serials and cursors. A
failed header of another reason is written again with reason FAULT (assumption 45). A sheet whose CLOSED write failed is
counted in no flush and no close (assumption 52), and a failed write leaves the image of acknowledged writes (assumption
9). With an abandon waiting, see AbandonStaged. -/
def Obligations.ClosedAndFaultedSheets : Prop :=
  (∀ (s : State) (t : Fin 34) (o : OpenSheet) (reason : SheetReason) (a : Arming) (how : WriteEnd),
    s.writer.turn = some { track := t, write := .closed reason } → s.writer.sheets[t] = some o →
    s.writer.arming = some a → s.sitting.abandon = none →
    ∃ v, exec (.closedWrite how) s = .next v ∧
      v = { s with bus := v.bus, path := { s.path with attn := v.path.attn }, hostMem := v.hostMem
                   draws := v.draws, sitting := { s.sitting with close := v.sitting.close }
                   writer := { s.writer with sheets := v.writer.sheets, owner := v.writer.owner, turn := none
                                             flush := v.writer.flush, starving := v.writer.starving
                                             closedTotal := v.writer.closedTotal } } ∧
      (∀ u : Fin 34, v.writer.sheets[u] = if u = t then none else s.writer.sheets[u]) ∧
      (∀ j : Fin 256, v.writer.owner[j] = if j = o.index then .notHeld else s.writer.owner[j]) ∧
      (s.writer.flush = none → v.writer.flush = none) ∧
      (∀ f, s.writer.flush = some f → ∃ g, v.writer.flush = some g ∧
        g = { f with sheets := g.sheets, closed := g.closed } ∧
        (∀ id, id ∈ g.sheets ↔ id ∈ f.sheets ∧ id ≠ { index := o.index, serial := o.serial }) ∧
        g.closed = if how = .done ∧ reason = .flush ∧ { index := o.index, serial := o.serial } ∈ f.sheets
          then f.closed + 1 else f.closed) ∧
      (how = .done → v.bus = s.bus ∧ Raised v .sheet ∧
        Stored (a.poolAddress + BitVec.ofNat 64 (16 * o.index.val) + 8)
          (4#8 :: BitVec.ofNat 8 t.val :: leBytes 2 o.serial) s.hostMem v.hostMem ∧
        (s.writer.closedTotal < 4294967295 → v.writer.closedTotal = s.writer.closedTotal + 1) ∧
        v.sitting.close = s.sitting.close.map fun c =>
          if reason = .sittingClosed then { c with sheets := c.sheets + 1 } else c) ∧
      (how = .failed → v.hostMem = s.hostMem ∧ Raised v .busFault ∧ v.sitting.close = s.sitting.close ∧
        v.bus = { s.bus with busFaults := min 4294967295 (s.bus.busFaults + 1) } ∧
        v.writer.closedTotal = s.writer.closedTotal)) ∧
  ∀ (s : State) (t : Fin 34) (o : OpenSheet), s.writer.sheets[t] = some o →
    (s.writer.turn = some { track := t, write := .item } → ∃ v, exec .itemWriteFailed s = .next v ∧
      v = { s with bus := { s.bus with busFaults := min 4294967295 (s.bus.busFaults + 1) }
                   path := { s.path with attn := s.path.attn.raise .busFault }
                   writer := { s.writer with turn := v.writer.turn } } ∧
      ∃ bytes, v.writer.turn = some { track := t, write := .header .fault bytes } ∧
        bytes.take 4 = BitVec.ofNat 8 t.val :: 6#8 :: leBytes 2 o.serial ∧
        ∀ a, s.writer.arming = some a → bytes = headerBytes s t o .fault a.sheetSize) ∧
    (∀ reason bytes how, s.writer.turn = some { track := t, write := .header reason bytes } → bytes.length ≤ 64 →
      ∃ v, exec (.headerWrite how) s = .next v ∧
        v = { s with bus := v.bus, path := v.path, hostMem := v.hostMem
                     writer := { s.writer with turn := v.writer.turn } } ∧
        WriteEnded s v how (o.address &&& ~~~63#64) bytes ∧
        (reason = .fault → v.writer.turn = some { track := t, write := .faulted }) ∧
        (reason ≠ .fault → how = .done → v.writer.turn = some { track := t, write := .closed reason }) ∧
        (reason ≠ .fault → how = .failed →
          ∃ again, v.writer.turn = some { track := t, write := .header .fault again } ∧
            ∀ a, s.writer.arming = some a → again = headerBytes s t o .fault a.sheetSize)) ∧
    (∀ a how, s.writer.turn = some { track := t, write := .faulted } → s.writer.arming = some a →
      s.sitting.abandon = none → ∃ v, exec (.faultedWrite how) s = .next v ∧
        v = { s with bus := v.bus, path := { s.path with attn := v.path.attn }, hostMem := v.hostMem
                     writer := { s.writer with
                       sheets := v.writer.sheets, owner := v.writer.owner, turn := none, starving := v.writer.starving
                       flush := s.writer.flush.map fun f => { f with
                         sheets := f.sheets.filter fun id => id != { index := o.index, serial := o.serial } } } } ∧
        (how = .done → v.bus = s.bus ∧ Stored (a.poolAddress + BitVec.ofNat 64 (16 * o.index.val) + 8)
          (5#8 :: BitVec.ofNat 8 t.val :: leBytes 2 o.serial) s.hostMem v.hostMem) ∧
        (how = .failed → v.hostMem = s.hostMem ∧ Raised v .busFault ∧
          v.bus = { s.bus with busFaults := min 4294967295 (s.bus.busFaults + 1) }) ∧
        (∀ u : Fin 34, v.writer.sheets[u] = if u = t then none else s.writer.sheets[u]) ∧
        ∀ j : Fin 256, v.writer.owner[j] = if j = o.index then .notHeld else s.writer.owner[j])

/-- DRAIN_COMPLETE, ABANDON_COMPLETE and FLUSH_COMPLETE (R14 to R16, R88, R92, R146): with their conditions met the state
is ARMED with the arming intact, the close and any dip are gone, a LIMIT close that drained or was abandoned raises SITTING,
and each cell that waits has its result in the held set, for the next scan to complete (assumption 13). An abandon raises
nothing else where every bay is empty, as its discard leaves it (R16, AbandonStaged), and completes a flush that the discard
emptied, whose cells get a word 2 of 1. A flush hands its cells the sheets closed FLUSH and the items counted. -/
def Obligations.Completions : Prop :=
  (∀ (s : State) (g : CloseTarget), s.sitting.state = .closing → s.sitting.close = some g → g.draining = true →
    s.writer.turn = none → (∀ t : Fin 34, s.writer.sheets[t] = none) →
    (s.sitting.abandon = none → s.sitting.finalMark = none → (∀ t : Fin 34, s.path.bays.bay[t].items = []) →
      (∀ c : Fin 32, s.path.channels[c].run = none) → s.path.fcu.mixRun = none →
      ∃ v, exec .drainComplete s = .next v ∧
        v = { s with
          sitting := { s.sitting with state := .armed, close := none, finalMark := none, abandon := none }
          path := v.path, scan := v.scan, supply := { s.supply with dipStart := none }
          writer := { s.writer with starving := v.writer.starving } } ∧
        (∀ c : Fin 32, v.path.channels[c] =
          { s.path.channels[c] with snapshots := [], privacy := false, outcome := none, settled := false }) ∧
        v.path.bays = s.path.bays ∧ v.path.stations = s.path.stations ∧ v.path.fcu = s.path.fcu ∧
        v.path.attn = (if g.reason = .limit then s.path.attn.raise .sitting else s.path.attn) ∧
        (g.cell = none → v.scan = s.scan) ∧
        ∀ cell, g.cell = some cell →
          let r : Result := ⟨.done, BitVec.ofNat 32 g.last, 0, BitVec.ofNat 32 (g.sheets % 65536)⟩
          v.scan = { s.scan with held := s.scan.held.map fun h =>
            if h.cell = cell then { h with result := some r } else h }) ∧
    ∀ cells d, s.sitting.abandon = some { cells := cells, discarded := some d } →
      ∃ v, exec .abandonComplete s = .next v ∧
        v = { s with
          sitting := { s.sitting with state := .armed, close := none, finalMark := none, abandon := none }
          path := v.path, scan := { s.scan with held := v.scan.held }, supply := { s.supply with dipStart := none }
          writer := { s.writer with
            starving := v.writer.starving
            flush := s.writer.flush.map fun f =>
              if f.abandoned = true ∧ f.complete = false then { f with complete := true } else f } } ∧
        (∀ c : Fin 32, v.path.channels[c] =
          { s.path.channels[c] with snapshots := [], privacy := false, outcome := none, settled := false }) ∧
        v.path.bays = s.path.bays ∧ v.path.stations = s.path.stations ∧ v.path.fcu = s.path.fcu ∧
        (g.reason = .limit → Raised v .sitting) ∧
        ((∀ t : Fin 34, s.path.bays.bay[t].items = []) →
          v.path.attn = (if g.reason = .limit then s.path.attn.raise .sitting else s.path.attn)) ∧
        ∀ (emptied : List (Fin 16)) (flushed closed discarded : Result),
          (∀ f, s.writer.flush = some f → f.abandoned = true → f.complete = false → emptied = f.cells ∧
            flushed = ⟨.done, BitVec.ofNat 32 f.closed, BitVec.ofNat 32 f.counted, 1⟩) →
          ((∀ f, s.writer.flush = some f → f.abandoned = false ∨ f.complete = true) → emptied = []) →
          discarded = ⟨.done, BitVec.ofNat 32 d.channels, BitVec.ofNat 32 d.mix, BitVec.ofNat 32 d.marks⟩ →
          closed = ⟨.done, BitVec.ofNat 32 g.last, BitVec.ofNat 32 (d.channels + d.mix + d.marks),
            BitVec.ofNat 32 (g.sheets % 65536 + 65536)⟩ →
          v.scan.held = s.scan.held.map fun h => { h with
            result := if h.cell ∈ emptied then some flushed
              else if h.cell ∈ cells then some discarded
              else if g.cell = some h.cell then some closed else h.result }) ∧
  ∀ (s : State) (f : Flush), s.writer.flush = some f → f.sheets = [] → (∀ t : Fin 34, f.remaining[t] = 0) →
    f.complete = false → f.abandoned = false → ∃ v, exec .flushComplete s = .next v ∧
      v = { s with
        scan := { s.scan with held := s.scan.held.map fun h =>
          if h.cell ∈ f.cells then
            { h with result := some ⟨.done, BitVec.ofNat 32 f.closed, BitVec.ofNat 32 f.counted, 0⟩ }
          else h }
        writer := { s.writer with flush := some { f with complete := true } } }

/-! ### What every step keeps -/

/-- Every bay's fill stays at most its size (R120, R122), every requested setting stays in its range and no channel holds
more than two snapshots (R85, R88), the channel counts, the mix's clip count and the withheld count stay in theirs (R85,
R104, R120), and a pending void run stays 1 to 65,535 frames long (R98), whatever command is taken or tick counted. -/
def Obligations.StepsKeepTheBaysAndTheSettings : Prop :=
  ∀ s t : State, step s = .next t →
    (s.baysFit → t.baysFit) ∧ (s.channelsInRange → t.channelsInRange) ∧ (s.tracksInRange → t.tracksInRange) ∧
      (s.runsInRange → t.runsInRange)

/-- Every port's power switch stays CLOSED exactly in STARTING, RUNNING and STUCK (R39), its counts and counters stay
in the ranges of R33, R50 and R56, and every station record stays as R70 gives its state: unit number, lost cause, good run
and miss run, with each slip within −32,767 to 32,767 (R72 to R80). -/
def Obligations.StepsKeepThePorts : Prop :=
  ∀ s t : State, step s = .next t →
    (s.switchesRight → t.switchesRight) ∧ (s.portsInRange → t.portsInRange) ∧ (s.stationsInRange → t.stationsInRange)

/-- The Frame Timer stays in its ranges (R20), the Free Sheet Queue at 64 at most (R131), the bus-fault count and the
sheets closed total in theirs (R131, R148), and the image of host memory in its canonical form (assumption 9). -/
def Obligations.StepsKeepTimerQueueCountsAndMemory : Prop :=
  ∀ s t : State, step s = .next t →
    (s.timerInRange → t.timerInRange) ∧ (s.queueFits → t.queueFits) ∧ (s.countsInRange → t.countsInRange) ∧
      (s.memoryOrdered → t.memoryOrdered)

/-- Right after reset all of it holds. -/
def Obligations.ResetMeetsTheInvariants : Prop :=
  State.reset.baysFit ∧ State.reset.channelsInRange ∧ State.reset.switchesRight ∧ State.reset.portsInRange ∧
    State.reset.timerInRange ∧ State.reset.queueFits ∧ State.reset.starvingRight ∧ State.reset.countsInRange ∧
    State.reset.memoryOrdered ∧
    State.reset.tracksInRange ∧ State.reset.runsInRange ∧ State.reset.stationsInRange

/-- Of all commands: each completes in every state and leaves the queue as it was (assumption 1); the image of the part's
acknowledged writes in host memory (assumption 9) changes only at the acknowledged end of one of them, so no reset, request
or event writes it (R19, R150); the state
of the sitting changes only at a boundary, an ARM, a DISARM and its last FREE write, a CLOSE SITTING, a completion of the
drain or the abandon, and a reset (R4 to R16, R19). -/
def Obligations.WhatEveryCommandKeeps : Prop :=
  ∀ (c : Instr) (s : State), ∃ t, exec c s = .next t ∧ t.pending = s.pending ∧
    (c ∉ [.takenWrite .done, .resultAreaWrite .done, .stateWordWrite .done, .disarmFreeWrite .done, .standbyWrite .done,
        .tamperRewrite .done, .headWrite .done, .panelWrite .done, .writingWrite .done, .itemWriteDone,
        .headerWrite .done, .closedWrite .done, .faultedWrite .done] → t.hostMem = s.hostMem) ∧
    (t.sitting.state ≠ s.sitting.state →
      (∃ a b, c = .boundary a b) ∨ (∃ a, c = .arm a) ∨ c = .disarm ∨ (∃ how, c = .disarmFreeWrite how) ∨
        c = .closeSitting ∨ c = .drainComplete ∨ c = .abandonComplete ∨ c = .softReset ∨ c = .functionReset ∨
        c = .brownOut ∨ (∃ low, c = .powerOnReset low) ∨ ∃ w, c = .registerWrite 0x04 w)
end

