-- ==== Sys2Proof/Laws/Bays.lean ====
section
/-! SUPPORT. Admission to the bays, said once: what a push, a placed or an offered mark and a released item leave, and that
no admission passes a bay's size (R122, R123, R126). -/
namespace Sys2Proof.Machine

@[simp] theorem Bays.set_partition (bs : Bays) (t : Fin 34) (b : Bay) : (bs.set t b).partition = bs.partition := rfl

@[simp] theorem Bays.set_withheld (bs : Bays) (t : Fin 34) (b : Bay) : (bs.set t b).withheld = bs.withheld := rfl

/-- A bay replaced is read back, every other as before, by the number of the bay. -/
@[simp] theorem Bays.set_bay_nat (bs : Bays) (t : Fin 34) (b : Bay) (n : Nat) (h : n < 34) :
    (bs.set t b).bay[n] = if n = t.val then b else bs.bay[n] := by
  unfold Bays.set
  simp only [Vector.getElem_set, eq_comm]

/-- A bay replaced is read back, every other as before. -/
theorem Bays.set_bay (bs : Bays) (t u : Fin 34) (b : Bay) :
    (bs.set t b).bay[u] = if u = t then b else bs.bay[u] := by
  unfold Bays.set
  simp only [Fin.getElem_fin, Vector.getElem_set]
  by_cases h : u = t
  · subst h; simp
  · have h' : ¬t.val = u.val := fun e => h (Fin.ext e.symm)
    simp [h, h']

@[simp] theorem itemsBytes_append (a b : List Item) : itemsBytes (a ++ b) = itemsBytes a + itemsBytes b := by
  simp [itemsBytes]

/-- R122: a push succeeds exactly when the item fits, and then it ends the bay's list. -/
theorem Bays.push_eq_some (bs bs' : Bays) (t : Fin 34) (i : Item) :
    bs.push t i = some bs' ↔ bs.bay[t].fill + i.size ≤ bs.bay[t].capacity ∧
      bs' = bs.set t { bs.bay[t] with items := bs.bay[t].items ++ [i] } := by
  unfold Bays.push Bay.push
  by_cases h : bs.bay[t].fill + i.size ≤ bs.bay[t].capacity
  · simp only [h, if_true, Option.map_some, Option.some.injEq, true_and]; exact eq_comm
  · rw [if_neg h]; exact ⟨fun e => (nomatch e), fun e => absurd e.1 h⟩

/-- R122: a push fails exactly when the item does not fit. -/
theorem Bays.push_eq_none (bs : Bays) (t : Fin 34) (i : Item) :
    bs.push t i = none ↔ bs.bay[t].capacity < bs.bay[t].fill + i.size := by
  unfold Bays.push Bay.push
  by_cases h : bs.bay[t].fill + i.size ≤ bs.bay[t].capacity
  · rw [if_pos h]; exact ⟨fun e => (nomatch e), fun e => by omega⟩
  · rw [if_neg h]; exact ⟨fun _ => by omega, fun _ => rfl⟩

/-- R126: a mark's class never reaches past the bay. -/
theorem MarkKind.level_le (k : MarkKind) (b : Bay) : k.level b ≤ b.capacity := by
  unfold MarkKind.level Bay.capacity; split <;> omega

/-- R126: a mark is placed exactly when its class's level holds it, and then it ends bay 33. -/
theorem Bays.place_eq_some (bs bs' : Bays) (m : Mark) :
    bs.place m = some bs' ↔ bs.bay[markTrack].fill + m.kind.size ≤ m.kind.level bs.bay[markTrack] ∧
      bs' = bs.set markTrack { bs.bay[markTrack] with items := bs.bay[markTrack].items ++ [.mark m] } := by
  unfold Bays.place
  have hl := m.kind.level_le bs.bay[markTrack]
  by_cases h : bs.bay[markTrack].fill + m.kind.size ≤ m.kind.level bs.bay[markTrack]
  · rw [if_pos h, Bays.push_eq_some]
    have hs : (Item.mark m).size = m.kind.size := rfl
    rw [hs]
    constructor
    · exact fun ⟨_, e⟩ => ⟨h, e⟩
    · exact fun ⟨_, e⟩ => ⟨by omega, e⟩
  · rw [if_neg h]; exact ⟨fun e => (nomatch e), fun e => absurd e.1 h⟩

/-- R126: a mark is not placed exactly when its class's level does not hold it. -/
theorem Bays.place_eq_none (bs : Bays) (m : Mark) :
    bs.place m = none ↔ m.kind.level bs.bay[markTrack] < bs.bay[markTrack].fill + m.kind.size := by
  constructor
  · intro h
    by_contra hc
    have := (bs.place_eq_some (bs.set markTrack { bs.bay[markTrack] with
      items := bs.bay[markTrack].items ++ [.mark m] }) m).mpr ⟨by omega, rfl⟩
    rw [h] at this; cases this
  · intro h
    cases hp : bs.place m with
    | none => rfl
    | some bs' => have := ((bs.place_eq_some bs' m).mp hp).1; omega

/-- R126: what an offered mark leaves: it ends bay 33, or the withheld count takes it. -/
theorem Bays.offer_cases (bs : Bays) (m : Mark) :
    (bs.bay[markTrack].fill + m.kind.size ≤ m.kind.level bs.bay[markTrack] ∧
      bs.offer m = bs.set markTrack { bs.bay[markTrack] with items := bs.bay[markTrack].items ++ [.mark m] }) ∨
    (m.kind.level bs.bay[markTrack] < bs.bay[markTrack].fill + m.kind.size ∧ bs.offer m = bs.withhold) := by
  unfold Bays.offer
  cases hp : bs.place m with
  | none => exact .inr ⟨(bs.place_eq_none m).mp hp, rfl⟩
  | some bs' => obtain ⟨h1, h2⟩ := (bs.place_eq_some bs' m).mp hp; exact .inl ⟨h1, by simp [h2]⟩

/-- A sound track's bay is not the marks'. -/
theorem trackOf_ne_mark (t : Fin 33) : trackOf t ≠ markTrack := by
  intro h
  have := congrArg Fin.val h
  simp [trackOf, markTrack] at this
  omega

/-- One sound track, one bay. -/
theorem trackOf_injective {t u : Fin 33} (h : trackOf t = trackOf u) : t = u := by
  apply Fin.ext
  have := congrArg Fin.val h
  simpa [trackOf] using this

/-- The bays that `bs'` holds are those of `bs` with items added at their ends, none past its size (R122): sizes and
partition are the same, and the withheld count stays in its range (R120). -/
structure Bays.Grows (bs bs' : Bays) : Prop where
  partition : bs'.partition = bs.partition
  units : ∀ t : Fin 34, bs'.bay[t].units = bs.bay[t].units
  items : ∀ t : Fin 34, ∃ more, bs'.bay[t].items = bs.bay[t].items ++ more
  fits : ∀ t : Fin 34, bs.bay[t].fill ≤ bs.bay[t].capacity → bs'.bay[t].fill ≤ bs'.bay[t].capacity
  withheld : bs.withheld ≤ 4294967295 → bs'.withheld ≤ 4294967295

theorem Bays.Grows.refl (bs : Bays) : bs.Grows bs := ⟨rfl, fun _ => rfl, fun _ => ⟨[], by simp⟩, fun _ h => h, id⟩

theorem Bays.Grows.trans {a b c : Bays} (h1 : a.Grows b) (h2 : b.Grows c) : a.Grows c where
  partition := h2.partition.trans h1.partition
  units t := (h2.units t).trans (h1.units t)
  items t := by
    obtain ⟨m1, e1⟩ := h1.items t
    obtain ⟨m2, e2⟩ := h2.items t
    exact ⟨m1 ++ m2, by rw [e2, e1, List.append_assoc]⟩
  fits t h := h2.fits t (h1.fits t h)
  withheld h := h2.withheld (h1.withheld h)

/-- An item that fits, added at the end of one bay. -/
theorem Bays.grows_append (bs : Bays) (t : Fin 34) (i : Item) (e : Bool)
    (h : bs.bay[t].fill + i.size ≤ bs.bay[t].capacity) :
    bs.Grows (bs.set t { bs.bay[t] with items := bs.bay[t].items ++ [i], economy := e }) where
  partition := rfl
  units u := by rw [Bays.set_bay]; split <;> simp_all
  items u := by
    rw [Bays.set_bay]; split
    · rename_i hu; subst hu; exact ⟨[i], rfl⟩
    · exact ⟨[], by simp⟩
  fits u hu := by
    rw [Bays.set_bay]; split
    · simp only [Bay.fill, itemsBytes_append]
      simp only [Bay.capacity, Bay.fill] at h ⊢
      simpa [itemsBytes] using h
    · exact hu
  withheld := id

theorem Bays.grows_push {bs bs' : Bays} {t : Fin 34} {i : Item} (h : bs.push t i = some bs') : bs.Grows bs' := by
  obtain ⟨h1, rfl⟩ := (bs.push_eq_some bs' t i).mp h
  exact bs.grows_append t i bs.bay[t].economy h1

theorem Bays.grows_place {bs bs' : Bays} {m : Mark} (h : bs.place m = some bs') : bs.Grows bs' := by
  obtain ⟨h1, rfl⟩ := (bs.place_eq_some bs' m).mp h
  exact bs.grows_append markTrack (.mark m) bs.bay[markTrack].economy
    (le_trans h1 (m.kind.level_le bs.bay[markTrack]))

theorem Bays.grows_withheld (bs : Bays) (n : Nat) (hn : n ≤ 4294967295) : bs.Grows { bs with withheld := n } :=
  ⟨rfl, fun _ => rfl, fun _ => ⟨[], by simp⟩, fun _ h => h, fun _ => hn⟩

theorem Bays.grows_offer (bs : Bays) (m : Mark) : bs.Grows (bs.offer m) := by
  unfold Bays.offer
  cases hp : bs.place m with
  | none => exact bs.grows_withheld _ (Nat.min_le_left _ _)
  | some bs' => exact Bays.grows_place hp

theorem Bays.grows_economy (bs : Bays) (t : Fin 34) (e : Bool) :
    bs.Grows (bs.set t { bs.bay[t] with economy := e }) where
  partition := rfl
  units u := by rw [Bays.set_bay]; split <;> simp_all
  items u := by rw [Bays.set_bay]; split <;> simp_all
  fits u hu := by
    rw [Bays.set_bay]; split
    · rename_i h; subst h; exact hu
    · exact hu
  withheld := id

theorem Bays.grows_countMark (x : Ctx) (bs : Bays) : bs.Grows (bs.countMark x) := by
  unfold Bays.countMark
  split
  · dsimp only
    split
    · rename_i bs' h
      exact (Bays.grows_place h).trans (Bays.grows_withheld bs' 0 (Nat.zero_le _))
    · exact Bays.Grows.refl bs
  · exact Bays.Grows.refl bs

/-- A mark offered leaves every other bay as it was (R126). -/
theorem Bays.offer_other (bs : Bays) (m : Mark) (t : Fin 34) (h : t ≠ markTrack) :
    (bs.offer m).bay[t] = bs.bay[t] := by
  rcases bs.offer_cases m with ⟨_, e⟩ | ⟨_, e⟩ <;> rw [e]
  · rw [Bays.set_bay, if_neg h]
  · rfl

/-- A mark created, or not, leaves every other bay as it was (R17, R126). -/
theorem Path.mark_other (x : Ctx) (k : MarkKind) (f : Nat) (p : Path) (t : Fin 34) (h : t ≠ markTrack) :
    (p.mark x k f).bays.bay[t] = p.bays.bay[t] := by
  unfold Path.mark; split
  · exact Bays.offer_other _ _ t h
  · rfl

end Sys2Proof.Machine
end

