-- ==== Sys2Proof/Laws/Path.lean ====
section
/-! SUPPORT. What the operations of the audio path keep, said once as a relation that composes: station records, seating,
settings and snapshots, the mix settings, the mask and the pending causes, bays that only grow within their sizes, and
the ranges of counts and void runs (R71, R85, R88, R95 to R101, R109 to R118, R122). -/
namespace Sys2Proof.Machine

/-- What every settling, mark and admission keeps of the audio path. -/
structure Path.Keeps (p p' : Path) : Prop where
  mask : p'.attn.mask = p.attn.mask
  pending : ∀ i, p.attn.pending.getLsbD i = true → p'.attn.pending.getLsbD i = true
  stations : p'.stations = p.stations
  seated : ∀ c : Fin 32, p'.channels[c].seated = p.channels[c].seated
  settings : ∀ c : Fin 32, p'.channels[c].settings = p.channels[c].settings
  snapshots : ∀ c : Fin 32, p'.channels[c].snapshots = p.channels[c].snapshots
  mixOn : p'.fcu.mixOn = p.fcu.mixOn
  shift : p'.fcu.shift = p.fcu.shift
  bays : p.bays.Grows p'.bays
  tracks : p.tracksInRange → p'.tracksInRange
  runs : p.runsInRange → p'.runsInRange

theorem Path.Keeps.refl (p : Path) : p.Keeps p :=
  ⟨rfl, fun _ h => h, rfl, fun _ => rfl, fun _ => rfl, fun _ => rfl, rfl, rfl, Bays.Grows.refl _, id, id⟩

theorem Path.Keeps.trans {a b c : Path} (h1 : a.Keeps b) (h2 : b.Keeps c) : a.Keeps c :=
  ⟨h2.mask.trans h1.mask, fun i h => h2.pending i (h1.pending i h), h2.stations.trans h1.stations,
    fun i => (h2.seated i).trans (h1.seated i), fun i => (h2.settings i).trans (h1.settings i),
    fun i => (h2.snapshots i).trans (h1.snapshots i), h2.mixOn.trans h1.mixOn, h2.shift.trans h1.shift,
    h1.bays.trans h2.bays, fun h => h2.tracks (h1.tracks h), fun h => h2.runs (h1.runs h)⟩

/-- A fold of operations that each keep the path keeps it. -/
theorem Path.keeps_foldl {α : Type} (g : Path → α → Path) (h : ∀ (q : Path) (a : α), q.Keeps (g q a)) (l : List α) (p : Path) :
    p.Keeps (l.foldl g p) := by
  induction l generalizing p with
  | nil => exact Path.Keeps.refl p
  | cons a rest ih => exact (h p a).trans (ih _)

/-- A channel replaced is read back, every other as before. -/
theorem Path.setChannel_get (p : Path) (c d : Fin 32) (ch : Channel) :
    (p.setChannel c ch).channels[d] = if d = c then ch else p.channels[d] := by
  simp only [Path.setChannel, Fin.getElem_fin, Vector.getElem_set]
  by_cases h : d = c
  · subst h; simp
  · have : ¬c.val = d.val := fun e => h (Fin.ext e.symm)
    simp [h, this]

/-- A detector replaced is read back, every other as before. -/
theorem Path.setFloor_get (p : Path) (c d : Fin 32) (fl : Floor) :
    (p.setFloor c fl).fcu.floors[d] = if d = c then fl else p.fcu.floors[d] := by
  simp only [Path.setFloor, Fin.getElem_fin, Vector.getElem_set]
  by_cases h : d = c
  · subst h; simp
  · have : ¬c.val = d.val := fun e => h (Fin.ext e.symm)
    simp [h, this]

/-- A channel replaced by one with the same seating, settings and snapshots, its counts and its run in their ranges where
they were. -/
theorem Path.keeps_setChannel (p : Path) (c : Fin 32) (ch : Channel) (h1 : ch.seated = p.channels[c].seated)
    (h2 : ch.settings = p.channels[c].settings) (h3 : ch.snapshots = p.channels[c].snapshots)
    (h4 : p.channels[c].clips ≤ 65535 ∧ p.channels[c].captured ≤ 4294967295 ∧ p.channels[c].voids ≤ 4294967295 →
      ch.clips ≤ 65535 ∧ ch.captured ≤ 4294967295 ∧ ch.voids ≤ 4294967295)
    (h5 : p.runsInRange → ∀ r, ch.run = some r → r.inRange) : p.Keeps (p.setChannel c ch) := by
  refine ⟨rfl, fun _ h => h, rfl, fun d => ?_, fun d => ?_, fun d => ?_, rfl, rfl, Bays.Grows.refl _,
    fun h => ⟨fun d => ?_, h.2⟩, fun h => ⟨fun d r hr => ?_, h.2⟩⟩
  iterate 3 · rw [Path.setChannel_get]; split <;> simp_all
  · rw [Path.setChannel_get]
    by_cases e : d = c
    · rw [if_pos e]; exact h4 (h.1 c)
    · rw [if_neg e]; exact h.1 d
  · rw [Path.setChannel_get] at hr
    by_cases e : d = c
    · rw [if_pos e] at hr; exact h5 h r hr
    · rw [if_neg e] at hr; exact h.1 d r hr

/-- An update of the Frame Computation Unit that keeps the mix settings, its clip count and its run in their ranges where
they were. -/
theorem Path.keeps_fcu (p : Path) (u : Fcu) (h1 : u.mixOn = p.fcu.mixOn) (h2 : u.shift = p.fcu.shift)
    (h3 : p.fcu.mixClips ≤ 65535 → u.mixClips ≤ 65535) (h4 : p.runsInRange → ∀ r, u.mixRun = some r → r.inRange) :
    p.Keeps { p with fcu := u } :=
  ⟨rfl, fun _ h => h, rfl, fun _ => rfl, fun _ => rfl, fun _ => rfl, h1, h2, Bays.Grows.refl _,
    fun h => ⟨h.1, h3 h.2.1, h.2.2⟩, fun h => ⟨h.1, h4 h⟩⟩

/-- An update of the bays that grows them. -/
theorem Path.keeps_bays (p : Path) (bs : Bays) (h : p.bays.Grows bs) : p.Keeps { p with bays := bs } :=
  ⟨rfl, fun _ h => h, rfl, fun _ => rfl, fun _ => rfl, fun _ => rfl, rfl, rfl, h,
    fun h' => ⟨h'.1, h'.2.1, h.withheld h'.2.2⟩, id⟩

/-- A raised cause is pending afterwards (R160). -/
theorem Attention.raise_pending_self (a : Attention) (c : Cause) :
    (a.raise c).pending.getLsbD c.position = true := by
  cases c <;> simp [Attention.raise, Attention.update, Cause.mask, Cause.position]

/-- A raise keeps what was pending (R160). -/
theorem Attention.raise_pending_of (a : Attention) (c : Cause) (i : Nat) (h : a.pending.getLsbD i = true) :
    (a.raise c).pending.getLsbD i = true := by
  simp [Attention.raise, Attention.update, h]

theorem Path.keeps_raise (p : Path) (c : Cause) : p.Keeps (p.raise c) :=
  ⟨rfl, fun i h => p.attn.raise_pending_of c i h, rfl, fun _ => rfl, fun _ => rfl, fun _ => rfl, rfl, rfl,
    Bays.Grows.refl _, id, id⟩

theorem Path.keeps_mark (x : Ctx) (k : MarkKind) (f : Nat) (p : Path) : p.Keeps (p.mark x k f) := by
  unfold Path.mark; split
  · exact p.keeps_bays _ (Bays.grows_offer _ _)
  · exact Path.Keeps.refl p

/-- A run read is in range where every run is. -/
theorem Path.runOf_inRange {p : Path} (h : p.runsInRange) {t : Fin 33} {r : VoidRun} (e : p.runOf t = some r) :
    r.inRange := by
  unfold Path.runOf at e; split at e
  · exact h.1 ⟨t.val, by assumption⟩ r e
  · exact h.2 r e

theorem Path.keeps_setRun (p : Path) (t : Fin 33) (r : Option VoidRun)
    (h : p.runsInRange → ∀ q, r = some q → q.inRange) : p.Keeps (p.setRun t r) := by
  unfold Path.setRun; split
  · exact p.keeps_setChannel _ _ rfl rfl rfl id h
  · exact p.keeps_fcu _ rfl rfl id h

theorem Path.keeps_push {p p' : Path} {t : Fin 33} {i : Item} (h : p.push t i = some p') : p.Keeps p' := by
  unfold Path.push at h
  cases hb : p.bays.push (trackOf t) i with
  | none => rw [hb] at h; simp at h
  | some bs => rw [hb] at h; simp at h; subst h; exact p.keeps_bays bs (Bays.grows_push hb)

theorem Path.keeps_offerRun (p : Path) (t : Fin 33) (r : VoidRun) (h : p.runsInRange → r.inRange) :
    p.Keeps (p.offerRun t r) := by
  unfold Path.offerRun; split
  · rename_i p' e; exact (Path.keeps_push e).trans (p'.keeps_setRun t none (fun _ _ e => by cases e))
  · exact p.keeps_setRun t _ (fun hp q e => by cases e; exact h hp)

theorem Path.keeps_endRun (p : Path) (t : Fin 33) : p.Keeps (p.endRun t) := by
  unfold Path.endRun; split
  · rename_i r e
    split
    · exact Path.Keeps.refl p
    · exact p.keeps_offerRun t _ (fun h => Path.runOf_inRange h e)
  · exact Path.Keeps.refl p

theorem Path.keeps_offerHeld (p : Path) (t : Fin 33) : p.Keeps (p.offerHeld t) := by
  unfold Path.offerHeld; split
  · rename_i r e
    split
    · exact p.keeps_offerRun t _ (fun h => Path.runOf_inRange h e)
    · exact Path.Keeps.refl p
  · exact Path.Keeps.refl p

theorem VoidRun.start_inRange (c : VoidCause) (f : Nat) : (VoidRun.start c f).inRange := ⟨Nat.le_refl 1, by simp [VoidRun.start]⟩

theorem Path.keeps_takeVoid (p : Path) (t : Fin 33) (c : VoidCause) (f : Nat) : p.Keeps (p.takeVoid t c f).1 := by
  have start (q : Path) : q.Keeps (q.setRun t (some (VoidRun.start c f))) :=
    q.keeps_setRun t _ (fun _ r e => by cases e; exact VoidRun.start_inRange c f)
  unfold Path.takeVoid
  split
  · exact start p
  · rename_i r e
    split
    · exact p.keeps_setRun t _ (fun h q e' => by
        cases e'; have := Path.runOf_inRange h e; exact ⟨this.1, this.2⟩)
    · split
      · rename_i hl
        have longer : p.Keeps (p.setRun t (some { r with length := r.length + 1 })) :=
          p.keeps_setRun t _ (fun _ q e' => by cases e'; exact ⟨Nat.le_add_left _ _, hl.2⟩)
        dsimp only; split
        · exact longer.trans (Path.keeps_endRun _ t)
        · exact longer
      · dsimp only; split
        · rename_i r' e'
          exact (p.keeps_endRun t).trans
            (Path.keeps_setRun _ t _ (fun h q eq => by
              cases eq; have := Path.runOf_inRange h e'; exact ⟨this.1, this.2⟩))
        · exact (p.keeps_endRun t).trans (start _)

theorem Path.keeps_setFloor (p : Path) (c : Fin 32) (fl : Floor) : p.Keeps (p.setFloor c fl) :=
  p.keeps_fcu _ rfl rfl id (fun h => h.2)

theorem Path.keeps_floorMark (x : Ctx) (c : Fin 32) (on : Bool) (news : Option FloorNews) (p : Path) :
    p.Keeps (p.floorMark x c on news) := by
  unfold Path.floorMark; split
  · exact p.keeps_mark x _ _
  · exact p.keeps_mark x _ _
  · exact Path.Keeps.refl p

theorem Path.keeps_forceFloor (x : Ctx) (on : Bool) (p : Path) (c : Fin 32) : p.Keeps (p.forceFloor x on c) :=
  (p.keeps_setFloor c _).trans (Path.keeps_floorMark x c on _ _)

theorem Path.keeps_stepFloor (x : Ctx) (c : Fin 32) (f : Nat) (sn : Snapshot) (loud : Bool) (peak : Nat) (p : Path) :
    p.Keeps (p.stepFloor x c f sn loud peak) :=
  (p.keeps_setFloor c _).trans (Path.keeps_floorMark x c _ _ _)

theorem Path.keeps_resumeFloor (c : Fin 32) (sn : Snapshot) (p : Path) : p.Keeps (p.resumeFloor c sn) := by
  unfold Path.resumeFloor; dsimp only; split
  · exact p.keeps_setFloor c _
  · exact Path.Keeps.refl p

theorem Path.keeps_economyTest (x : Ctx) (t : Fin 33) (f : Nat) (p : Path) : p.Keeps (p.economyTest x t f).1 := by
  unfold Path.economyTest; dsimp only
  split
  · split
    · exact (p.keeps_bays _ (p.bays.grows_economy (trackOf t) false)).trans (Path.keeps_mark x _ f _)
    · exact Path.Keeps.refl p
  · split
    · exact ((p.keeps_bays _ (p.bays.grows_economy (trackOf t) true)).trans (Path.keeps_mark x _ f _)).trans
        (Path.keeps_raise _ _)
    · exact Path.Keeps.refl p

theorem Path.keeps_offerBlock (x : Ctx) (t : Fin 33) (f : Nat) (clip : Bool) (n : Nat) (v : List Int) (p : Path) :
    p.Keeps (p.offerBlock x t f clip n v).1 := by
  unfold Path.offerBlock; dsimp only; split
  · rename_i p' h; exact (p.keeps_economyTest x t f).trans (Path.keeps_push h)
  · exact p.keeps_economyTest x t f

theorem Path.keeps_voidFrame (c : Fin 32) (f : Nat) (cause : VoidCause) (p : Path) :
    p.Keeps (p.voidFrame c f cause) :=
  (p.keeps_takeVoid (soundTrack c) cause f).trans (Path.keeps_setChannel _ c _ rfl rfl rfl
    (fun h => ⟨h.1, h.2.1, Nat.min_le_left _ _⟩) (fun h => h.1 c))

theorem Path.keeps_offerUnlessHeld (x : Ctx) (t : Fin 33) (f : Nat) (clip : Bool) (n : Nat) (v : List Int)
    (p : Path) : p.Keeps (p.offerUnlessHeld x t f clip n v).1 := by
  unfold Path.offerUnlessHeld; split
  · exact Path.Keeps.refl p
  · exact p.keeps_offerBlock x t f clip n v

theorem Path.keeps_contribute (f : Nat) (g : List Int) (p : Path) :
    p.Keeps { p with fcu := p.fcu.contribute f g } :=
  p.keeps_fcu _ (by unfold Fcu.contribute; rfl) (by unfold Fcu.contribute; rfl) (by unfold Fcu.contribute; exact id)
    (by unfold Fcu.contribute; exact fun h => h.2)

theorem Path.keeps_takeSample (x : Ctx) (c : Fin 32) (f : Nat) (sn : Snapshot) (g : List Int) (n : Nat) (p : Path) :
    p.Keeps (p.takeSample x c f sn g n) := by
  unfold Path.takeSample; dsimp only
  have h1 := p.keeps_setChannel c (p.channels[c].countSample n) rfl rfl rfl
    (fun h => ⟨Nat.min_le_left _ _, Nat.min_le_left _ _, h.2.2⟩) (fun h => h.1 c)
  generalize p.setChannel c (p.channels[c].countSample n) = q1 at h1 ⊢
  have h2 := h1.trans (q1.keeps_stepFloor x c f sn (decide (sn.settings.threshold ≤ peakOf g)) (peakOf g))
  generalize q1.stepFloor x c f sn (decide (sn.settings.threshold ≤ peakOf g)) (peakOf g) = q at h2 ⊢
  by_cases h : sn.settings.inMix = true ∧ q.fcu.mixOn = true
  · rw [if_pos h]; exact h2.trans (q.keeps_contribute f g)
  · rw [if_neg h]; exact h2

theorem Path.keeps_sampleFrame (x : Ctx) (c : Fin 32) (f : Nat) (sn : Snapshot) (v : List Int) (p : Path) :
    p.Keeps (p.sampleFrame x c f sn v) := by
  unfold Path.sampleFrame; dsimp only
  have h := (p.keeps_endRun (soundTrack c)).trans (Path.keeps_offerUnlessHeld x (soundTrack c) f
    (decide (saturatedCount sn.settings.gain v ≠ 0)) 0 (gained sn.settings.gain v) _)
  split
  · exact h.trans (Path.keeps_takeSample _ _ _ _ _ _ _)
  · exact h.trans ((Path.keeps_voidFrame _ _ _ _).trans (Path.keeps_stepFloor _ _ _ _ _ _ _))

theorem Path.keeps_settlePrivacy (x : Ctx) (c : Fin 32) (f : Nat) (sn : Snapshot) (button : Bool) (p : Path) :
    p.Keeps (p.settlePrivacy x c f sn button) := by
  unfold Path.settlePrivacy; dsimp only
  have h1 := p.keeps_setChannel c { p.channels[c] with
    privacy := (button || sn.settings.privacy) && !sn.settings.bar, settled := true } rfl rfl rfl id (fun h => h.1 c)
  split
  · exact h1.trans ((Path.keeps_forceFloor x _ _ c).trans (Path.keeps_mark x _ f _))
  · split
    · exact h1.trans (Path.keeps_mark x _ f _)
    · exact h1

theorem Path.keeps_settle (x : Ctx) (f : Nat) (how : Settling) (p : Path) (c : Fin 32) : p.Keeps (p.settle x f how c) := by
  unfold Path.settle; dsimp only
  split
  · exact Path.Keeps.refl p
  · rename_i sn _
    split
    · have h1 := (p.keeps_resumeFloor c sn).trans (Path.keeps_settlePrivacy x c f sn
        (buttonPart how p.stations[stationOf c].mics[micOf c] (micOf c)) _)
      split
      · split
        · exact h1.trans ((Path.keeps_voidFrame _ _ _ _).trans (Path.keeps_stepFloor _ _ _ _ _ _ _))
        · split
          · exact h1.trans ((Path.keeps_voidFrame _ _ _ _).trans (Path.keeps_stepFloor _ _ _ _ _ _ _))
          · exact h1.trans (Path.keeps_sampleFrame _ _ _ _ _ _)
      · split
        · exact h1.trans (Path.keeps_stepFloor _ _ _ _ _ _ _)
        · exact h1.trans (Path.keeps_stepFloor _ _ _ _ _ _ _)
    · exact Path.Keeps.refl p

theorem Path.keeps_refusePress (x : Ctx) (f : Nat) (c : Fin 32) (a b : Bool) (p : Path) :
    p.Keeps (p.refusePress x f c a b) := by
  unfold Path.refusePress; dsimp only
  split
  · split
    · exact p.keeps_mark x _ f
    · exact Path.Keeps.refl p
  · exact Path.Keeps.refl p

theorem Path.keeps_deriveLamp (x : Ctx) (p : Path) (c : Fin 32) : p.Keeps (p.deriveLamp x c) :=
  p.keeps_setChannel c _ rfl rfl rfl id (fun h => h.1 c)

theorem Path.keeps_disposeMix (x : Ctx) (f : Nat) (p : Path) : p.Keeps (p.disposeMix x f) := by
  unfold Path.disposeMix
  split
  · exact p.keeps_takeVoid _ _ _
  · split
    · exact p.keeps_takeVoid _ _ _
    · dsimp only
      have h := (p.keeps_endRun mixTrack).trans (Path.keeps_offerUnlessHeld x mixTrack f
        (decide (p.fcu.mixSaturated ≠ 0)) p.fcu.contributors p.fcu.mixSamples _)
      split
      · exact h.trans (Path.keeps_fcu _ _ rfl rfl (fun _ => Nat.min_le_left _ _) (fun h => h.2))
      · exact h.trans (Path.keeps_takeVoid _ _ _ _)

theorem Path.keeps_finishMix (x : Ctx) (f : Nat) (on : Bool) (p : Path) : p.Keeps (p.finishMix x f on) := by
  unfold Path.finishMix; dsimp only
  split
  · exact (p.keeps_disposeMix x f).trans (Path.keeps_fcu _ _ rfl rfl id (fun h => h.2))
  · exact p.keeps_fcu _ rfl rfl id (fun h => h.2)

theorem Path.keeps_endChannelStretch (x : Ctx) (on : Bool) (p : Path) (c : Fin 32) :
    p.Keeps (p.endChannelStretch x on c) := by
  unfold Path.endChannelStretch; split
  · exact (p.keeps_endRun _).trans (Path.keeps_forceFloor x on _ c)
  · exact Path.Keeps.refl p

theorem Path.keeps_stationMark (x : Ctx) (polled : Option Nat) (k : MarkKind) (p : Path) :
    p.Keeps (p.stationMark x polled k) := by
  unfold Path.stationMark; split
  · exact (p.keeps_mark x k _).trans (Path.keeps_raise _ _)
  · exact p.keeps_raise _

theorem Path.keeps_driftMark (x : Ctx) (polled : Option Nat) (k : Fin 16) (b : Bool) (p : Path) (m : Fin 2) :
    p.Keeps (p.driftMark x polled k b m) := by
  unfold Path.driftMark; dsimp only; split
  · exact p.keeps_stationMark x polled _
  · exact Path.Keeps.refl p

/-- The record of a station after a report (R72 to R81). -/
def Station.reported (st : Station) (probe : Bool) (r : Report) : Station :=
  match r with
  | .good b => (st.apply probe r).1.takeBundle b
  | .bad | .noReply | .late | .notRunning | .supply => (st.apply probe r).1

/-- A report changes one station record, as `Station.reported` says, and else what a settling changes (R71). -/
theorem Path.keeps_recordReport (x : Ctx) (polled : Option Nat) (k : Fin 16) (probe : Bool) (r : Report) (p : Path) :
    (p.setStation k (p.stations[k].reported probe r)).Keeps (p.recordReport x polled k probe r) := by
  unfold Path.recordReport Station.reported
  dsimp only
  cases r <;> dsimp only
  · split
    · exact (Path.keeps_stationMark _ _ _ _).trans ((Path.keeps_driftMark _ _ _ _ _ _).trans
        (Path.keeps_driftMark _ _ _ _ _ _))
    · exact (Path.keeps_driftMark _ _ _ _ _ _).trans (Path.keeps_driftMark _ _ _ _ _ _)
  all_goals
    split
    · exact Path.keeps_stationMark _ _ _ _
    · exact Path.Keeps.refl _

theorem Path.keeps_handOff (x : Ctx) (f : Nat) (k : Fin 16) (r : Report) (before : Bool) (p : Path) (m : Fin 2) :
    p.Keeps (p.handOff x f k r before m) := by
  unfold Path.handOff
  cases r
  · exact (Path.keeps_refusePress _ _ _ _ _ _).trans (Path.keeps_settle _ _ _ _ _)
  all_goals exact Path.keeps_settle _ _ _ _ _

theorem Path.keeps_report (x : Ctx) (polled : Option Nat) (k : Fin 16) (probe : Bool) (r : Report) (p : Path) :
    (p.setStation k (p.stations[k].reported probe r)).Keeps (p.report x polled k probe r) := by
  unfold Path.report; dsimp only
  split
  · exact (p.keeps_recordReport x _ k probe r).trans
      ((Path.keeps_handOff _ _ _ _ _ _ _).trans (Path.keeps_handOff _ _ _ _ _ _ _))
  · exact p.keeps_recordReport x _ k probe r

/-- A record replaced is read back, every other as before. -/
theorem Path.setStation_get (p : Path) (k j : Fin 16) (st : Station) :
    (p.setStation k st).stations[j] = if j = k then st else p.stations[j] := by
  simp only [Path.setStation, Fin.getElem_fin, Vector.getElem_set]
  by_cases h : j = k
  · subst h; simp
  · have : ¬k.val = j.val := fun e => h (Fin.ext e.symm)
    simp [h, this]

/-- The stations after a report: one record changed (R71 to R81). -/
theorem Path.report_stations (x : Ctx) (polled : Option Nat) (k j : Fin 16) (probe : Bool) (r : Report) (p : Path) :
    (p.report x polled k probe r).stations[j] =
      if j = k then p.stations[j].reported probe r else p.stations[j] := by
  rw [(p.keeps_report x polled k probe r).stations, Path.setStation_get]
  split
  · rename_i h; subst h; rfl
  · rfl

/-! ### The range of a station record (R70) -/

/-- A microphone's slip stays in its range whatever count a bundle brings (R80). -/
theorem Mic.take_slip (mic : Mic) (button present : Bool) (n : Nat) :
    -32767 ≤ (mic.take button present n).slip ∧ (mic.take button present n).slip ≤ 32767 := by
  show -32767 ≤ clampSlip _ ∧ clampSlip _ ≤ 32767
  unfold clampSlip
  omega

/-- A good bundle's status and counts keep a record in range (R79 to R81). -/
theorem Station.takeBundle_inRange {st : Station} (b : Bundle) (h : st.inRange) : (st.takeBundle b).inRange := by
  refine ⟨h.1, fun m => ?_⟩
  have : (st.takeBundle b).mics[m] = st.mics[m].take b.privacy[m] b.present[m] b.samples[m].length := by
    simp [Station.takeBundle]
  rw [this]
  exact Mic.take_slip _ _ _ _

/-- A record begun anew is in range where its slips are (R72, R76). -/
theorem Station.join_inRange {st : Station} (u : BitVec 24) (h : st.inRange) : (st.join u).inRange :=
  ⟨⟨by simp [Station.join], rfl, by simp [Station.join], by simp [Station.join]⟩, h.2⟩

/-- Slips cleared are in range (R72, R76). -/
theorem Station.clearSlip_inRange {st : Station} (h : st.inRange) : st.clearSlip.inRange :=
  ⟨h.1, fun m => by simp [Station.clearSlip]⟩

/-- A report keeps a record in range (R72 to R81). -/
theorem Station.reported_inRange {st : Station} (probe : Bool) (r : Report) (h : st.inRange) :
    (st.reported probe r).inRange := by
  have missed : st.missed.1.inRange := by
    obtain ⟨h1, h2⟩ := h
    unfold Station.missed
    cases hs : st.state <;> rw [hs] at h1 <;> dsimp only at h1 ⊢
    · exact ⟨by rw [hs]; exact h1, h2⟩
    · unfold Station.missAgain; dsimp only; split
      · exact ⟨⟨h1.1, h1.2.1, by simp, by dsimp only; omega⟩, h2⟩
      · exact ⟨⟨h1.1, rfl, Or.inl ⟨rfl, rfl⟩⟩, h2⟩
    · exact ⟨⟨h1.1, h1.2.1, h1.2.2.1, by simp⟩, h2⟩
    · unfold Station.missAgain; split
      · exact ⟨by dsimp only; rw [hs]; exact ⟨h1.1, h1.2.1, h1.2.2.1, by omega, by omega⟩, h2⟩
      · exact ⟨⟨h1.1, rfl, Or.inl ⟨rfl, rfl⟩⟩, h2⟩
    · exact ⟨by rw [hs]; exact h1, h2⟩
  have probed (u : BitVec 24) : (st.probed u).1.inRange := by
    unfold Station.probed
    cases st.state <;> dsimp only
    · exact Station.clearSlip_inRange (Station.join_inRange u h)
    iterate 3 · exact h
    · split
      · exact Station.join_inRange u h
      · exact Station.clearSlip_inRange (Station.join_inRange u h)
  have listed (u : BitVec 24) : (st.listed u).1.inRange := by
    have h1 := h.1
    unfold Station.listed
    cases hs : st.state <;> rw [hs] at h1 <;> dsimp only at h1 ⊢
    · exact h
    · split
      · exact Station.clearSlip_inRange (Station.join_inRange u h)
      · rw [if_pos rfl]; split
        · exact ⟨⟨h1.1, h1.2.1, by dsimp only; omega, by simp⟩, h.2⟩
        · exact ⟨⟨h1.1, h1.2.1, rfl, rfl⟩, h.2⟩
    iterate 2
      · split
        · exact Station.clearSlip_inRange (Station.join_inRange u h)
        · rw [if_neg (by simp)]; exact ⟨⟨h1.1, h1.2.1, h1.2.2.1, rfl⟩, h.2⟩
    · exact h
  cases r with
  | good b =>
    refine Station.takeBundle_inRange b ?_
    unfold Station.apply; dsimp only; split
    · exact probed _
    · exact listed _
  | bad => exact missed
  | noReply => exact missed
  | late => exact missed
  | notRunning => exact h
  | supply => exact h

/-- Leaving RUNNING keeps a record in range (R77). -/
theorem Station.portLost_inRange {st : Station} (h : st.inRange) : st.portLost.inRange := by
  have h1 := h.1
  unfold Station.portLost
  cases hs : st.state <;> rw [hs] at h1 <;> dsimp only at h1 ⊢
  · exact h
  all_goals exact ⟨⟨h1.1, rfl, Or.inr ⟨rfl, rfl⟩⟩, h.2⟩

/-- A released record is in range (R78). -/
theorem Station.release_inRange {st : Station} (h : st.inRange) : st.release.inRange :=
  ⟨⟨rfl, rfl, rfl, rfl⟩, fun m => by simpa [Station.release] using h.2 m⟩

/-- An opening boundary keeps a record in range (R9). -/
theorem Station.opening_inRange {st : Station} (h : st.inRange) : st.opening.inRange :=
  ⟨h.1, fun m => by simp [Station.opening]⟩

/-- A record replaced leaves all but the station records. -/
theorem Path.setStation_rest (p : Path) (k : Fin 16) (st : Station) :
    { p.setStation k st with stations := p.stations } = p := rfl

/-- One station, one port and one address. -/
theorem stationAt_inj {p q : PortId} {a b : Fin 8} (h : stationAt p a = stationAt q b) : p = q ∧ a = b := by
  have hv := congrArg Fin.val h
  have ha := a.isLt
  have hb := b.isLt
  cases p <;> cases q <;> simp [stationAt, portNumber] at hv
  · exact ⟨rfl, Fin.ext hv⟩
  · omega
  · omega
  · exact ⟨rfl, Fin.ext hv⟩

/-! ### Forced ends (R112, R113) -/

/-- R112: what a forced end makes of a detector, and what it has to mark. -/
theorem Floor.force_spec (fl : Floor) :
    fl.force.1.speaking = false ∧ fl.force.1.loudRun = 0 ∧ fl.force.1.firstLoud = none ∧
      fl.force.2 = if fl.speaking then fl.lastLoud.map .ended else none := by
  unfold Floor.force; cases fl.speaking <;> simp [Floor.quiet]

/-- R112, R113: a forced end replaces the detector of its channel and offers FLOOR_END of its last loud frame, or changes no
bay. -/
theorem Path.forceFloor_spec (x : Ctx) (on : Bool) (p : Path) (c : Fin 32) :
    ∃ fl bs, p.forceFloor x on c = { p.setFloor c fl with bays := bs } ∧
      fl.speaking = false ∧ fl.loudRun = 0 ∧ fl.firstLoud = none ∧
      (∀ l, p.fcu.floors[c].speaking = true → p.fcu.floors[c].lastLoud = some l → on = true → x.sitting.marks l = true →
        bs = p.bays.offer { kind := .floorEnd c l, frame := l, time := x.tod }) ∧
      (p.fcu.floors[c].speaking = false ∨ on = false → bs = p.bays) := by
  obtain ⟨h1, h2, h3, h4⟩ := p.fcu.floors[c].force_spec
  unfold Path.forceFloor; dsimp only
  rw [h4]
  cases on
  · exact ⟨_, p.bays, by unfold Path.floorMark; rfl, h1, h2, h3, fun _ _ _ h => (by cases h), fun _ => rfl⟩
  · by_cases hs : p.fcu.floors[c].speaking = true
    · cases hl : p.fcu.floors[c].lastLoud with
      | none =>
        exact ⟨_, p.bays, by rw [if_pos hs]; unfold Path.floorMark; rfl, h1, h2, h3, fun _ _ h => (by cases h),
          fun _ => rfl⟩
      | some l =>
        refine ⟨_, ((p.setFloor c p.fcu.floors[c].force.1).mark x (.floorEnd c l) l).bays, ?_, h1, h2, h3, ?_, ?_⟩
        · rw [if_pos hs]; unfold Path.floorMark; dsimp only [Option.map_some]; unfold Path.mark; split <;> rfl
        · intro l' _ e _ hm; cases e; unfold Path.mark; rw [if_pos hm]; rfl
        · rintro (h | h)
          · rw [h] at hs; cases hs
          · cases h
    · exact ⟨_, p.bays, by rw [if_neg hs]; unfold Path.floorMark; rfl, h1, h2, h3, fun _ h => absurd h hs, fun _ => rfl⟩

end Sys2Proof.Machine
end

