-- ==== Sys2Proof/Laws/State.lean ====
section
/-! SUPPORT. What an update of State or Path leaves as it was: one lemma per field per update. -/
namespace Sys2Proof.Machine

@[simp] theorem State.raise_bus (s : State) (c : Cause) : (s.raise c).bus = s.bus := by unfold State.raise; rfl
@[simp] theorem State.raise_timer (s : State) (c : Cause) : (s.raise c).timer = s.timer := by unfold State.raise; rfl
@[simp] theorem State.raise_scan (s : State) (c : Cause) : (s.raise c).scan = s.scan := by unfold State.raise; rfl
@[simp] theorem State.raise_sitting (s : State) (c : Cause) : (s.raise c).sitting = s.sitting := by unfold State.raise; rfl
@[simp] theorem State.raise_portA (s : State) (c : Cause) : (s.raise c).portA = s.portA := by unfold State.raise; rfl
@[simp] theorem State.raise_portB (s : State) (c : Cause) : (s.raise c).portB = s.portB := by unfold State.raise; rfl
@[simp] theorem State.raise_writer (s : State) (c : Cause) : (s.raise c).writer = s.writer := by unfold State.raise; rfl
@[simp] theorem State.raise_supply (s : State) (c : Cause) : (s.raise c).supply = s.supply := by unfold State.raise; rfl
@[simp] theorem State.raise_hostMem (s : State) (c : Cause) : (s.raise c).hostMem = s.hostMem := by unfold State.raise; rfl
@[simp] theorem State.raise_draws (s : State) (c : Cause) : (s.raise c).draws = s.draws := by unfold State.raise; rfl
@[simp] theorem State.raise_pending (s : State) (c : Cause) : (s.raise c).pending = s.pending := by unfold State.raise; rfl
@[simp] theorem State.accessFailed_timer (s : State) : (s.accessFailed).timer = s.timer := by unfold State.accessFailed; rfl
@[simp] theorem State.accessFailed_scan (s : State) : (s.accessFailed).scan = s.scan := by unfold State.accessFailed; rfl
@[simp] theorem State.accessFailed_sitting (s : State) : (s.accessFailed).sitting = s.sitting := by unfold State.accessFailed; rfl
@[simp] theorem State.accessFailed_portA (s : State) : (s.accessFailed).portA = s.portA := by unfold State.accessFailed; rfl
@[simp] theorem State.accessFailed_portB (s : State) : (s.accessFailed).portB = s.portB := by unfold State.accessFailed; rfl
@[simp] theorem State.accessFailed_writer (s : State) : (s.accessFailed).writer = s.writer := by unfold State.accessFailed; rfl
@[simp] theorem State.accessFailed_supply (s : State) : (s.accessFailed).supply = s.supply := by unfold State.accessFailed; rfl
@[simp] theorem State.accessFailed_hostMem (s : State) : (s.accessFailed).hostMem = s.hostMem := by unfold State.accessFailed; rfl
@[simp] theorem State.accessFailed_draws (s : State) : (s.accessFailed).draws = s.draws := by unfold State.accessFailed; rfl
@[simp] theorem State.accessFailed_pending (s : State) : (s.accessFailed).pending = s.pending := by unfold State.accessFailed; rfl
@[simp] theorem State.write_bus (s : State) (a : Word64) (b : List Byte) : (s.write a b).bus = s.bus := by unfold State.write; rfl
@[simp] theorem State.write_timer (s : State) (a : Word64) (b : List Byte) : (s.write a b).timer = s.timer := by unfold State.write; rfl
@[simp] theorem State.write_scan (s : State) (a : Word64) (b : List Byte) : (s.write a b).scan = s.scan := by unfold State.write; rfl
@[simp] theorem State.write_sitting (s : State) (a : Word64) (b : List Byte) : (s.write a b).sitting = s.sitting := by unfold State.write; rfl
@[simp] theorem State.write_portA (s : State) (a : Word64) (b : List Byte) : (s.write a b).portA = s.portA := by unfold State.write; rfl
@[simp] theorem State.write_portB (s : State) (a : Word64) (b : List Byte) : (s.write a b).portB = s.portB := by unfold State.write; rfl
@[simp] theorem State.write_path (s : State) (a : Word64) (b : List Byte) : (s.write a b).path = s.path := by unfold State.write; rfl
@[simp] theorem State.write_writer (s : State) (a : Word64) (b : List Byte) : (s.write a b).writer = s.writer := by unfold State.write; rfl
@[simp] theorem State.write_supply (s : State) (a : Word64) (b : List Byte) : (s.write a b).supply = s.supply := by unfold State.write; rfl
@[simp] theorem State.write_draws (s : State) (a : Word64) (b : List Byte) : (s.write a b).draws = s.draws := by unfold State.write; rfl
@[simp] theorem State.write_pending (s : State) (a : Word64) (b : List Byte) : (s.write a b).pending = s.pending := by unfold State.write; rfl
@[simp] theorem State.setTurn_bus (s : State) (t : Option Turn) : (s.setTurn t).bus = s.bus := by unfold State.setTurn; rfl
@[simp] theorem State.setTurn_timer (s : State) (t : Option Turn) : (s.setTurn t).timer = s.timer := by unfold State.setTurn; rfl
@[simp] theorem State.setTurn_scan (s : State) (t : Option Turn) : (s.setTurn t).scan = s.scan := by unfold State.setTurn; rfl
@[simp] theorem State.setTurn_sitting (s : State) (t : Option Turn) : (s.setTurn t).sitting = s.sitting := by unfold State.setTurn; rfl
@[simp] theorem State.setTurn_portA (s : State) (t : Option Turn) : (s.setTurn t).portA = s.portA := by unfold State.setTurn; rfl
@[simp] theorem State.setTurn_portB (s : State) (t : Option Turn) : (s.setTurn t).portB = s.portB := by unfold State.setTurn; rfl
@[simp] theorem State.setTurn_path (s : State) (t : Option Turn) : (s.setTurn t).path = s.path := by unfold State.setTurn; rfl
@[simp] theorem State.setTurn_supply (s : State) (t : Option Turn) : (s.setTurn t).supply = s.supply := by unfold State.setTurn; rfl
@[simp] theorem State.setTurn_hostMem (s : State) (t : Option Turn) : (s.setTurn t).hostMem = s.hostMem := by unfold State.setTurn; rfl
@[simp] theorem State.setTurn_draws (s : State) (t : Option Turn) : (s.setTurn t).draws = s.draws := by unfold State.setTurn; rfl
@[simp] theorem State.setTurn_pending (s : State) (t : Option Turn) : (s.setTurn t).pending = s.pending := by unfold State.setTurn; rfl
@[simp] theorem State.refresh_bus (s : State) : (s.refresh).bus = s.bus := by unfold State.refresh; rfl
@[simp] theorem State.refresh_timer (s : State) : (s.refresh).timer = s.timer := by unfold State.refresh; rfl
@[simp] theorem State.refresh_scan (s : State) : (s.refresh).scan = s.scan := by unfold State.refresh; rfl
@[simp] theorem State.refresh_sitting (s : State) : (s.refresh).sitting = s.sitting := by unfold State.refresh; rfl
@[simp] theorem State.refresh_portA (s : State) : (s.refresh).portA = s.portA := by unfold State.refresh; rfl
@[simp] theorem State.refresh_portB (s : State) : (s.refresh).portB = s.portB := by unfold State.refresh; rfl
@[simp] theorem State.refresh_supply (s : State) : (s.refresh).supply = s.supply := by unfold State.refresh; rfl
@[simp] theorem State.refresh_hostMem (s : State) : (s.refresh).hostMem = s.hostMem := by unfold State.refresh; rfl
@[simp] theorem State.refresh_draws (s : State) : (s.refresh).draws = s.draws := by unfold State.refresh; rfl
@[simp] theorem State.refresh_pending (s : State) : (s.refresh).pending = s.pending := by unfold State.refresh; rfl
@[simp] theorem State.answer_bus (s : State) (g k : Word16) (r : Result) : (s.answer g k r).bus = s.bus := by unfold State.answer; rfl
@[simp] theorem State.answer_timer (s : State) (g k : Word16) (r : Result) : (s.answer g k r).timer = s.timer := by unfold State.answer; rfl
@[simp] theorem State.answer_sitting (s : State) (g k : Word16) (r : Result) : (s.answer g k r).sitting = s.sitting := by unfold State.answer; rfl
@[simp] theorem State.answer_portA (s : State) (g k : Word16) (r : Result) : (s.answer g k r).portA = s.portA := by unfold State.answer; rfl
@[simp] theorem State.answer_portB (s : State) (g k : Word16) (r : Result) : (s.answer g k r).portB = s.portB := by unfold State.answer; rfl
@[simp] theorem State.answer_path (s : State) (g k : Word16) (r : Result) : (s.answer g k r).path = s.path := by unfold State.answer; rfl
@[simp] theorem State.answer_writer (s : State) (g k : Word16) (r : Result) : (s.answer g k r).writer = s.writer := by unfold State.answer; rfl
@[simp] theorem State.answer_supply (s : State) (g k : Word16) (r : Result) : (s.answer g k r).supply = s.supply := by unfold State.answer; rfl
@[simp] theorem State.answer_hostMem (s : State) (g k : Word16) (r : Result) : (s.answer g k r).hostMem = s.hostMem := by unfold State.answer; rfl
@[simp] theorem State.answer_draws (s : State) (g k : Word16) (r : Result) : (s.answer g k r).draws = s.draws := by unfold State.answer; rfl
@[simp] theorem State.answer_pending (s : State) (g k : Word16) (r : Result) : (s.answer g k r).pending = s.pending := by unfold State.answer; rfl
@[simp] theorem State.hold_bus (s : State) (g k : Word16) (r : Option Result) : (s.hold g k r).bus = s.bus := by unfold State.hold; rfl
@[simp] theorem State.hold_timer (s : State) (g k : Word16) (r : Option Result) : (s.hold g k r).timer = s.timer := by unfold State.hold; rfl
@[simp] theorem State.hold_sitting (s : State) (g k : Word16) (r : Option Result) : (s.hold g k r).sitting = s.sitting := by unfold State.hold; rfl
@[simp] theorem State.hold_portA (s : State) (g k : Word16) (r : Option Result) : (s.hold g k r).portA = s.portA := by unfold State.hold; rfl
@[simp] theorem State.hold_portB (s : State) (g k : Word16) (r : Option Result) : (s.hold g k r).portB = s.portB := by unfold State.hold; rfl
@[simp] theorem State.hold_path (s : State) (g k : Word16) (r : Option Result) : (s.hold g k r).path = s.path := by unfold State.hold; rfl
@[simp] theorem State.hold_writer (s : State) (g k : Word16) (r : Option Result) : (s.hold g k r).writer = s.writer := by unfold State.hold; rfl
@[simp] theorem State.hold_supply (s : State) (g k : Word16) (r : Option Result) : (s.hold g k r).supply = s.supply := by unfold State.hold; rfl
@[simp] theorem State.hold_hostMem (s : State) (g k : Word16) (r : Option Result) : (s.hold g k r).hostMem = s.hostMem := by unfold State.hold; rfl
@[simp] theorem State.hold_draws (s : State) (g k : Word16) (r : Option Result) : (s.hold g k r).draws = s.draws := by unfold State.hold; rfl
@[simp] theorem State.hold_pending (s : State) (g k : Word16) (r : Option Result) : (s.hold g k r).pending = s.pending := by unfold State.hold; rfl
@[simp] theorem State.nextCell_bus (s : State) : (s.nextCell).bus = s.bus := by unfold State.nextCell; rfl
@[simp] theorem State.nextCell_timer (s : State) : (s.nextCell).timer = s.timer := by unfold State.nextCell; rfl
@[simp] theorem State.nextCell_sitting (s : State) : (s.nextCell).sitting = s.sitting := by unfold State.nextCell; rfl
@[simp] theorem State.nextCell_portA (s : State) : (s.nextCell).portA = s.portA := by unfold State.nextCell; rfl
@[simp] theorem State.nextCell_portB (s : State) : (s.nextCell).portB = s.portB := by unfold State.nextCell; rfl
@[simp] theorem State.nextCell_path (s : State) : (s.nextCell).path = s.path := by unfold State.nextCell; rfl
@[simp] theorem State.nextCell_writer (s : State) : (s.nextCell).writer = s.writer := by unfold State.nextCell; rfl
@[simp] theorem State.nextCell_supply (s : State) : (s.nextCell).supply = s.supply := by unfold State.nextCell; rfl
@[simp] theorem State.nextCell_hostMem (s : State) : (s.nextCell).hostMem = s.hostMem := by unfold State.nextCell; rfl
@[simp] theorem State.nextCell_draws (s : State) : (s.nextCell).draws = s.draws := by unfold State.nextCell; rfl
@[simp] theorem State.nextCell_pending (s : State) : (s.nextCell).pending = s.pending := by unfold State.nextCell; rfl
@[simp] theorem State.beginScan_bus (s : State) : (s.beginScan).bus = s.bus := by unfold State.beginScan; rfl
@[simp] theorem State.beginScan_timer (s : State) : (s.beginScan).timer = s.timer := by unfold State.beginScan; rfl
@[simp] theorem State.beginScan_sitting (s : State) : (s.beginScan).sitting = s.sitting := by unfold State.beginScan; rfl
@[simp] theorem State.beginScan_portA (s : State) : (s.beginScan).portA = s.portA := by unfold State.beginScan; rfl
@[simp] theorem State.beginScan_portB (s : State) : (s.beginScan).portB = s.portB := by unfold State.beginScan; rfl
@[simp] theorem State.beginScan_path (s : State) : (s.beginScan).path = s.path := by unfold State.beginScan; rfl
@[simp] theorem State.beginScan_writer (s : State) : (s.beginScan).writer = s.writer := by unfold State.beginScan; rfl
@[simp] theorem State.beginScan_supply (s : State) : (s.beginScan).supply = s.supply := by unfold State.beginScan; rfl
@[simp] theorem State.beginScan_hostMem (s : State) : (s.beginScan).hostMem = s.hostMem := by unfold State.beginScan; rfl
@[simp] theorem State.beginScan_draws (s : State) : (s.beginScan).draws = s.draws := by unfold State.beginScan; rfl
@[simp] theorem State.beginScan_pending (s : State) : (s.beginScan).pending = s.pending := by unfold State.beginScan; rfl
@[simp] theorem State.advanceTimer_bus (s : State) : (s.advanceTimer).bus = s.bus := by unfold State.advanceTimer; rfl
@[simp] theorem State.advanceTimer_scan (s : State) : (s.advanceTimer).scan = s.scan := by unfold State.advanceTimer; rfl
@[simp] theorem State.advanceTimer_sitting (s : State) : (s.advanceTimer).sitting = s.sitting := by unfold State.advanceTimer; rfl
@[simp] theorem State.advanceTimer_portA (s : State) : (s.advanceTimer).portA = s.portA := by unfold State.advanceTimer; rfl
@[simp] theorem State.advanceTimer_portB (s : State) : (s.advanceTimer).portB = s.portB := by unfold State.advanceTimer; rfl
@[simp] theorem State.advanceTimer_writer (s : State) : (s.advanceTimer).writer = s.writer := by unfold State.advanceTimer; rfl
@[simp] theorem State.advanceTimer_supply (s : State) : (s.advanceTimer).supply = s.supply := by unfold State.advanceTimer; rfl
@[simp] theorem State.advanceTimer_hostMem (s : State) : (s.advanceTimer).hostMem = s.hostMem := by unfold State.advanceTimer; rfl
@[simp] theorem State.advanceTimer_pending (s : State) : (s.advanceTimer).pending = s.pending := by unfold State.advanceTimer; rfl
@[simp] theorem State.openSitting_bus (s : State) (o : Opening) : (s.openSitting o).bus = s.bus := by unfold State.openSitting; rfl
@[simp] theorem State.openSitting_timer (s : State) (o : Opening) : (s.openSitting o).timer = s.timer := by unfold State.openSitting; rfl
@[simp] theorem State.openSitting_scan (s : State) (o : Opening) : (s.openSitting o).scan = s.scan := by unfold State.openSitting; rfl
@[simp] theorem State.openSitting_portA (s : State) (o : Opening) : (s.openSitting o).portA = s.portA := by unfold State.openSitting; rfl
@[simp] theorem State.openSitting_portB (s : State) (o : Opening) : (s.openSitting o).portB = s.portB := by unfold State.openSitting; rfl
@[simp] theorem State.openSitting_hostMem (s : State) (o : Opening) : (s.openSitting o).hostMem = s.hostMem := by unfold State.openSitting; rfl
@[simp] theorem State.openSitting_draws (s : State) (o : Opening) : (s.openSitting o).draws = s.draws := by unfold State.openSitting; rfl
@[simp] theorem State.openSitting_pending (s : State) (o : Opening) : (s.openSitting o).pending = s.pending := by unfold State.openSitting; rfl
@[simp] theorem State.reachArmed_bus (s : State) (t : CloseTarget) (d a : Nat) : (s.reachArmed t d a).bus = s.bus := by unfold State.reachArmed; rfl
@[simp] theorem State.reachArmed_timer (s : State) (t : CloseTarget) (d a : Nat) : (s.reachArmed t d a).timer = s.timer := by unfold State.reachArmed; rfl
@[simp] theorem State.reachArmed_portA (s : State) (t : CloseTarget) (d a : Nat) : (s.reachArmed t d a).portA = s.portA := by unfold State.reachArmed; rfl
@[simp] theorem State.reachArmed_portB (s : State) (t : CloseTarget) (d a : Nat) : (s.reachArmed t d a).portB = s.portB := by unfold State.reachArmed; rfl
@[simp] theorem State.reachArmed_writer (s : State) (t : CloseTarget) (d a : Nat) : (s.reachArmed t d a).writer = s.writer := by unfold State.reachArmed; rfl
@[simp] theorem State.reachArmed_hostMem (s : State) (t : CloseTarget) (d a : Nat) : (s.reachArmed t d a).hostMem = s.hostMem := by unfold State.reachArmed; rfl
@[simp] theorem State.reachArmed_draws (s : State) (t : CloseTarget) (d a : Nat) : (s.reachArmed t d a).draws = s.draws := by unfold State.reachArmed; rfl
@[simp] theorem State.reachArmed_pending (s : State) (t : CloseTarget) (d a : Nat) : (s.reachArmed t d a).pending = s.pending := by unfold State.reachArmed; rfl
@[simp] theorem State.completeFlush_bus (s : State) (f : Flush) : (s.completeFlush f).bus = s.bus := by unfold State.completeFlush; rfl
@[simp] theorem State.completeFlush_timer (s : State) (f : Flush) : (s.completeFlush f).timer = s.timer := by unfold State.completeFlush; rfl
@[simp] theorem State.completeFlush_sitting (s : State) (f : Flush) : (s.completeFlush f).sitting = s.sitting := by unfold State.completeFlush; rfl
@[simp] theorem State.completeFlush_portA (s : State) (f : Flush) : (s.completeFlush f).portA = s.portA := by unfold State.completeFlush; rfl
@[simp] theorem State.completeFlush_portB (s : State) (f : Flush) : (s.completeFlush f).portB = s.portB := by unfold State.completeFlush; rfl
@[simp] theorem State.completeFlush_path (s : State) (f : Flush) : (s.completeFlush f).path = s.path := by unfold State.completeFlush; rfl
@[simp] theorem State.completeFlush_supply (s : State) (f : Flush) : (s.completeFlush f).supply = s.supply := by unfold State.completeFlush; rfl
@[simp] theorem State.completeFlush_hostMem (s : State) (f : Flush) : (s.completeFlush f).hostMem = s.hostMem := by unfold State.completeFlush; rfl
@[simp] theorem State.completeFlush_draws (s : State) (f : Flush) : (s.completeFlush f).draws = s.draws := by unfold State.completeFlush; rfl
@[simp] theorem State.completeFlush_pending (s : State) (f : Flush) : (s.completeFlush f).pending = s.pending := by unfold State.completeFlush; rfl
@[simp] theorem State.startHeader_bus (s : State) (t : Fin 34) (o : OpenSheet) (r : SheetReason) : (s.startHeader t o r).bus = s.bus := by unfold State.startHeader; rfl
@[simp] theorem State.startHeader_timer (s : State) (t : Fin 34) (o : OpenSheet) (r : SheetReason) : (s.startHeader t o r).timer = s.timer := by unfold State.startHeader; rfl
@[simp] theorem State.startHeader_scan (s : State) (t : Fin 34) (o : OpenSheet) (r : SheetReason) : (s.startHeader t o r).scan = s.scan := by unfold State.startHeader; rfl
@[simp] theorem State.startHeader_sitting (s : State) (t : Fin 34) (o : OpenSheet) (r : SheetReason) : (s.startHeader t o r).sitting = s.sitting := by unfold State.startHeader; rfl
@[simp] theorem State.startHeader_portA (s : State) (t : Fin 34) (o : OpenSheet) (r : SheetReason) : (s.startHeader t o r).portA = s.portA := by unfold State.startHeader; rfl
@[simp] theorem State.startHeader_portB (s : State) (t : Fin 34) (o : OpenSheet) (r : SheetReason) : (s.startHeader t o r).portB = s.portB := by unfold State.startHeader; rfl
@[simp] theorem State.startHeader_path (s : State) (t : Fin 34) (o : OpenSheet) (r : SheetReason) : (s.startHeader t o r).path = s.path := by unfold State.startHeader; rfl
@[simp] theorem State.startHeader_supply (s : State) (t : Fin 34) (o : OpenSheet) (r : SheetReason) : (s.startHeader t o r).supply = s.supply := by unfold State.startHeader; rfl
@[simp] theorem State.startHeader_hostMem (s : State) (t : Fin 34) (o : OpenSheet) (r : SheetReason) : (s.startHeader t o r).hostMem = s.hostMem := by unfold State.startHeader; rfl
@[simp] theorem State.startHeader_draws (s : State) (t : Fin 34) (o : OpenSheet) (r : SheetReason) : (s.startHeader t o r).draws = s.draws := by unfold State.startHeader; rfl
@[simp] theorem State.startHeader_pending (s : State) (t : Fin 34) (o : OpenSheet) (r : SheetReason) : (s.startHeader t o r).pending = s.pending := by unfold State.startHeader; rfl
@[simp] theorem State.setSettings_bus (s : State) (c : Fin 32) (t : Settings) : (s.setSettings c t).bus = s.bus := by unfold State.setSettings; rfl
@[simp] theorem State.setSettings_timer (s : State) (c : Fin 32) (t : Settings) : (s.setSettings c t).timer = s.timer := by unfold State.setSettings; rfl
@[simp] theorem State.setSettings_scan (s : State) (c : Fin 32) (t : Settings) : (s.setSettings c t).scan = s.scan := by unfold State.setSettings; rfl
@[simp] theorem State.setSettings_sitting (s : State) (c : Fin 32) (t : Settings) : (s.setSettings c t).sitting = s.sitting := by unfold State.setSettings; rfl
@[simp] theorem State.setSettings_portA (s : State) (c : Fin 32) (t : Settings) : (s.setSettings c t).portA = s.portA := by unfold State.setSettings; rfl
@[simp] theorem State.setSettings_portB (s : State) (c : Fin 32) (t : Settings) : (s.setSettings c t).portB = s.portB := by unfold State.setSettings; rfl
@[simp] theorem State.setSettings_writer (s : State) (c : Fin 32) (t : Settings) : (s.setSettings c t).writer = s.writer := by unfold State.setSettings; rfl
@[simp] theorem State.setSettings_supply (s : State) (c : Fin 32) (t : Settings) : (s.setSettings c t).supply = s.supply := by unfold State.setSettings; rfl
@[simp] theorem State.setSettings_hostMem (s : State) (c : Fin 32) (t : Settings) : (s.setSettings c t).hostMem = s.hostMem := by unfold State.setSettings; rfl
@[simp] theorem State.setSettings_draws (s : State) (c : Fin 32) (t : Settings) : (s.setSettings c t).draws = s.draws := by unfold State.setSettings; rfl
@[simp] theorem State.setSettings_pending (s : State) (c : Fin 32) (t : Settings) : (s.setSettings c t).pending = s.pending := by unfold State.setSettings; rfl
@[simp] theorem State.putInForce_bus (s : State) (r : ArmRecord) : (s.putInForce r).bus = s.bus := by unfold State.putInForce; rfl
@[simp] theorem State.putInForce_timer (s : State) (r : ArmRecord) : (s.putInForce r).timer = s.timer := by unfold State.putInForce; rfl
@[simp] theorem State.putInForce_scan (s : State) (r : ArmRecord) : (s.putInForce r).scan = s.scan := by unfold State.putInForce; rfl
@[simp] theorem State.putInForce_portA (s : State) (r : ArmRecord) : (s.putInForce r).portA = s.portA := by unfold State.putInForce; rfl
@[simp] theorem State.putInForce_portB (s : State) (r : ArmRecord) : (s.putInForce r).portB = s.portB := by unfold State.putInForce; rfl
@[simp] theorem State.putInForce_supply (s : State) (r : ArmRecord) : (s.putInForce r).supply = s.supply := by unfold State.putInForce; rfl
@[simp] theorem State.putInForce_hostMem (s : State) (r : ArmRecord) : (s.putInForce r).hostMem = s.hostMem := by unfold State.putInForce; rfl
@[simp] theorem State.putInForce_draws (s : State) (r : ArmRecord) : (s.putInForce r).draws = s.draws := by unfold State.putInForce; rfl
@[simp] theorem State.putInForce_pending (s : State) (r : ArmRecord) : (s.putInForce r).pending = s.pending := by unfold State.putInForce; rfl
@[simp] theorem State.removeArming_bus (s : State) : (s.removeArming).bus = s.bus := by unfold State.removeArming; rfl
@[simp] theorem State.removeArming_timer (s : State) : (s.removeArming).timer = s.timer := by unfold State.removeArming; rfl
@[simp] theorem State.removeArming_portA (s : State) : (s.removeArming).portA = s.portA := by unfold State.removeArming; rfl
@[simp] theorem State.removeArming_portB (s : State) : (s.removeArming).portB = s.portB := by unfold State.removeArming; rfl
@[simp] theorem State.removeArming_supply (s : State) : (s.removeArming).supply = s.supply := by unfold State.removeArming; rfl
@[simp] theorem State.removeArming_hostMem (s : State) : (s.removeArming).hostMem = s.hostMem := by unfold State.removeArming; rfl
@[simp] theorem State.removeArming_draws (s : State) : (s.removeArming).draws = s.draws := by unfold State.removeArming; rfl
@[simp] theorem State.removeArming_pending (s : State) : (s.removeArming).pending = s.pending := by unfold State.removeArming; rfl
@[simp] theorem State.createFlush_bus (s : State) : (s.createFlush).bus = s.bus := by unfold State.createFlush; rfl
@[simp] theorem State.createFlush_timer (s : State) : (s.createFlush).timer = s.timer := by unfold State.createFlush; rfl
@[simp] theorem State.createFlush_scan (s : State) : (s.createFlush).scan = s.scan := by unfold State.createFlush; rfl
@[simp] theorem State.createFlush_sitting (s : State) : (s.createFlush).sitting = s.sitting := by unfold State.createFlush; rfl
@[simp] theorem State.createFlush_portA (s : State) : (s.createFlush).portA = s.portA := by unfold State.createFlush; rfl
@[simp] theorem State.createFlush_portB (s : State) : (s.createFlush).portB = s.portB := by unfold State.createFlush; rfl
@[simp] theorem State.createFlush_path (s : State) : (s.createFlush).path = s.path := by unfold State.createFlush; rfl
@[simp] theorem State.createFlush_supply (s : State) : (s.createFlush).supply = s.supply := by unfold State.createFlush; rfl
@[simp] theorem State.createFlush_hostMem (s : State) : (s.createFlush).hostMem = s.hostMem := by unfold State.createFlush; rfl
@[simp] theorem State.createFlush_draws (s : State) : (s.createFlush).draws = s.draws := by unfold State.createFlush; rfl
@[simp] theorem State.createFlush_pending (s : State) : (s.createFlush).pending = s.pending := by unfold State.createFlush; rfl
@[simp] theorem State.setPort_bus (s : State) (p : PortId) (q : Port) : (s.setPort p q).bus = s.bus := by cases p <;> rfl
@[simp] theorem State.setPort_timer (s : State) (p : PortId) (q : Port) : (s.setPort p q).timer = s.timer := by cases p <;> rfl
@[simp] theorem State.setPort_scan (s : State) (p : PortId) (q : Port) : (s.setPort p q).scan = s.scan := by cases p <;> rfl
@[simp] theorem State.setPort_sitting (s : State) (p : PortId) (q : Port) : (s.setPort p q).sitting = s.sitting := by cases p <;> rfl
@[simp] theorem State.setPort_path (s : State) (p : PortId) (q : Port) : (s.setPort p q).path = s.path := by cases p <;> rfl
@[simp] theorem State.setPort_writer (s : State) (p : PortId) (q : Port) : (s.setPort p q).writer = s.writer := by cases p <;> rfl
@[simp] theorem State.setPort_supply (s : State) (p : PortId) (q : Port) : (s.setPort p q).supply = s.supply := by cases p <;> rfl
@[simp] theorem State.setPort_hostMem (s : State) (p : PortId) (q : Port) : (s.setPort p q).hostMem = s.hostMem := by cases p <;> rfl
@[simp] theorem State.setPort_draws (s : State) (p : PortId) (q : Port) : (s.setPort p q).draws = s.draws := by cases p <;> rfl
@[simp] theorem State.setPort_pending (s : State) (p : PortId) (q : Port) : (s.setPort p q).pending = s.pending := by cases p <;> rfl
@[simp] theorem State.withLink_bus (s : State) (p : PortId) (l : Link) : (s.withLink p l).bus = s.bus := by cases p <;> rfl
@[simp] theorem State.withLink_timer (s : State) (p : PortId) (l : Link) : (s.withLink p l).timer = s.timer := by cases p <;> rfl
@[simp] theorem State.withLink_scan (s : State) (p : PortId) (l : Link) : (s.withLink p l).scan = s.scan := by cases p <;> rfl
@[simp] theorem State.withLink_sitting (s : State) (p : PortId) (l : Link) : (s.withLink p l).sitting = s.sitting := by cases p <;> rfl
@[simp] theorem State.withLink_writer (s : State) (p : PortId) (l : Link) : (s.withLink p l).writer = s.writer := by cases p <;> rfl
@[simp] theorem State.withLink_supply (s : State) (p : PortId) (l : Link) : (s.withLink p l).supply = s.supply := by cases p <;> rfl
@[simp] theorem State.withLink_hostMem (s : State) (p : PortId) (l : Link) : (s.withLink p l).hostMem = s.hostMem := by cases p <;> rfl
@[simp] theorem State.withLink_draws (s : State) (p : PortId) (l : Link) : (s.withLink p l).draws = s.draws := by cases p <;> rfl
@[simp] theorem State.withLink_pending (s : State) (p : PortId) (l : Link) : (s.withLink p l).pending = s.pending := by cases p <;> rfl
@[simp] theorem State.withLink_path (s : State) (p : PortId) (l : Link) : (s.withLink p l).path = l.path := by cases p <;> rfl
@[simp] theorem State.setPort_port (s : State) (p : PortId) (q : Port) : (s.setPort p q).port p = q := by cases p <;> rfl
@[simp] theorem State.withLink_port (s : State) (p : PortId) (l : Link) : (s.withLink p l).port p = l.port := by cases p <;> rfl
/-- The other port is left as it was. -/
theorem State.setPort_other (s : State) (p r : PortId) (q : Port) (h : r ≠ p) : (s.setPort p q).port r = s.port r := by
  cases p <;> cases r <;> first | rfl | exact absurd rfl h
/-- The other port is left as it was. -/
theorem State.withLink_other (s : State) (p r : PortId) (l : Link) (h : r ≠ p) : (s.withLink p l).port r = s.port r := by
  cases p <;> cases r <;> first | rfl | exact absurd rfl h
/-- A link put back unchanged changes nothing. -/
@[simp] theorem State.withLink_link (s : State) (p : PortId) : s.withLink p (s.link p) = s := by cases p <;> rfl
@[simp] theorem State.link_port (s : State) (p : PortId) : (s.link p).port = s.port p := rfl
@[simp] theorem State.link_path (s : State) (p : PortId) : (s.link p).path = s.path := rfl
/-- The starving set brought up to date touches that set and the Attention Unit alone. -/
theorem State.refresh_eq (s : State) :
    s.refresh = { s with
      path := { s.path with attn := s.refresh.path.attn }
      writer := { s.writer with starving := s.refresh.writer.starving } } := by
  unfold State.refresh
  dsimp only
  split <;> rfl
@[simp] theorem State.refresh_stations (s : State) : s.refresh.path.stations = s.path.stations := by rw [State.refresh_eq]
@[simp] theorem State.refresh_channels (s : State) : s.refresh.path.channels = s.path.channels := by rw [State.refresh_eq]
@[simp] theorem State.refresh_fcu (s : State) : s.refresh.path.fcu = s.path.fcu := by rw [State.refresh_eq]
@[simp] theorem State.refresh_bays (s : State) : s.refresh.path.bays = s.path.bays := by rw [State.refresh_eq]
@[simp] theorem State.refresh_sheets (s : State) : s.refresh.writer.sheets = s.writer.sheets := by rw [State.refresh_eq]
@[simp] theorem State.refresh_queue (s : State) : s.refresh.writer.queue = s.writer.queue := by rw [State.refresh_eq]
@[simp] theorem State.refresh_owner (s : State) : s.refresh.writer.owner = s.writer.owner := by rw [State.refresh_eq]
@[simp] theorem State.refresh_turn (s : State) : s.refresh.writer.turn = s.writer.turn := by rw [State.refresh_eq]
@[simp] theorem State.refresh_flush (s : State) : s.refresh.writer.flush = s.writer.flush := by rw [State.refresh_eq]
@[simp] theorem State.refresh_arming (s : State) : s.refresh.writer.arming = s.writer.arming := by rw [State.refresh_eq]
@[simp] theorem State.refresh_closedTotal (s : State) : s.refresh.writer.closedTotal = s.writer.closedTotal := by
  rw [State.refresh_eq]
@[simp] theorem State.refresh_port (s : State) (p : PortId) : s.refresh.port p = s.port p := by
  cases p <;> simp [State.port]
/-- An operation on a port and the path leaves the rest of the part but the starving set. -/
theorem State.onLink_frame (s : State) (p : PortId) (g : Link → Link) :
    s.onLink p g = { s.setPort p ((s.onLink p g).port p) with
      path := (s.onLink p g).path
      writer := { s.writer with starving := (s.onLink p g).writer.starving } } := by
  have h : s.onLink p g = (s.withLink p (g (s.link p))).refresh := rfl
  generalize g (s.link p) = l at h
  rw [h, State.refresh_port, State.withLink_port, State.refresh_eq]
  cases p <;> rfl
/-- A bus write that was done stands in host memory. -/
@[simp] theorem State.writeEnds_done (s : State) (a : Word64) (b : List Byte) : s.writeEnds .done a b = s.write a b := rfl
/-- A bus write that failed is counted, and nothing of it is recorded. -/
@[simp] theorem State.writeEnds_failed (s : State) (a : Word64) (b : List Byte) :
    s.writeEnds .failed a b = s.accessFailed := rfl

@[simp] theorem State.writeEnds_timer (s : State) (h : WriteEnd) (a : Word64) (b : List Byte) : (s.writeEnds h a b).timer = s.timer := by cases h <;> rfl
@[simp] theorem State.writeEnds_scan (s : State) (h : WriteEnd) (a : Word64) (b : List Byte) : (s.writeEnds h a b).scan = s.scan := by cases h <;> rfl
@[simp] theorem State.writeEnds_sitting (s : State) (h : WriteEnd) (a : Word64) (b : List Byte) : (s.writeEnds h a b).sitting = s.sitting := by cases h <;> rfl
@[simp] theorem State.writeEnds_portA (s : State) (h : WriteEnd) (a : Word64) (b : List Byte) : (s.writeEnds h a b).portA = s.portA := by cases h <;> rfl
@[simp] theorem State.writeEnds_portB (s : State) (h : WriteEnd) (a : Word64) (b : List Byte) : (s.writeEnds h a b).portB = s.portB := by cases h <;> rfl
@[simp] theorem State.writeEnds_writer (s : State) (h : WriteEnd) (a : Word64) (b : List Byte) : (s.writeEnds h a b).writer = s.writer := by cases h <;> rfl
@[simp] theorem State.writeEnds_supply (s : State) (h : WriteEnd) (a : Word64) (b : List Byte) : (s.writeEnds h a b).supply = s.supply := by cases h <;> rfl
@[simp] theorem State.writeEnds_draws (s : State) (h : WriteEnd) (a : Word64) (b : List Byte) : (s.writeEnds h a b).draws = s.draws := by cases h <;> rfl
@[simp] theorem State.writeEnds_pending (s : State) (h : WriteEnd) (a : Word64) (b : List Byte) : (s.writeEnds h a b).pending = s.pending := by cases h <;> rfl

/-! ### The audio path -/

@[simp] theorem Path.raise_stations (q : Path) (c : Cause) : (q.raise c).stations = q.stations := by unfold Path.raise; rfl
@[simp] theorem Path.raise_channels (q : Path) (c : Cause) : (q.raise c).channels = q.channels := by unfold Path.raise; rfl
@[simp] theorem Path.raise_fcu (q : Path) (c : Cause) : (q.raise c).fcu = q.fcu := by unfold Path.raise; rfl
@[simp] theorem Path.raise_bays (q : Path) (c : Cause) : (q.raise c).bays = q.bays := by unfold Path.raise; rfl
@[simp] theorem Path.setChannel_attn (q : Path) (c : Fin 32) (h : Channel) : (q.setChannel c h).attn = q.attn := by unfold Path.setChannel; rfl
@[simp] theorem Path.setChannel_stations (q : Path) (c : Fin 32) (h : Channel) : (q.setChannel c h).stations = q.stations := by unfold Path.setChannel; rfl
@[simp] theorem Path.setChannel_fcu (q : Path) (c : Fin 32) (h : Channel) : (q.setChannel c h).fcu = q.fcu := by unfold Path.setChannel; rfl
@[simp] theorem Path.setChannel_bays (q : Path) (c : Fin 32) (h : Channel) : (q.setChannel c h).bays = q.bays := by unfold Path.setChannel; rfl
@[simp] theorem Path.setFloor_attn (q : Path) (c : Fin 32) (h : Floor) : (q.setFloor c h).attn = q.attn := by unfold Path.setFloor; rfl
@[simp] theorem Path.setFloor_stations (q : Path) (c : Fin 32) (h : Floor) : (q.setFloor c h).stations = q.stations := by unfold Path.setFloor; rfl
@[simp] theorem Path.setFloor_channels (q : Path) (c : Fin 32) (h : Floor) : (q.setFloor c h).channels = q.channels := by unfold Path.setFloor; rfl
@[simp] theorem Path.setFloor_bays (q : Path) (c : Fin 32) (h : Floor) : (q.setFloor c h).bays = q.bays := by unfold Path.setFloor; rfl
@[simp] theorem Path.setStation_attn (q : Path) (k : Fin 16) (h : Station) : (q.setStation k h).attn = q.attn := by unfold Path.setStation; rfl
@[simp] theorem Path.setStation_channels (q : Path) (k : Fin 16) (h : Station) : (q.setStation k h).channels = q.channels := by unfold Path.setStation; rfl
@[simp] theorem Path.setStation_fcu (q : Path) (k : Fin 16) (h : Station) : (q.setStation k h).fcu = q.fcu := by unfold Path.setStation; rfl
@[simp] theorem Path.setStation_bays (q : Path) (k : Fin 16) (h : Station) : (q.setStation k h).bays = q.bays := by unfold Path.setStation; rfl
@[simp] theorem Path.release_attn (q : Path) (t : Fin 34) : (q.release t).attn = q.attn := by unfold Path.release; rfl
@[simp] theorem Path.release_stations (q : Path) (t : Fin 34) : (q.release t).stations = q.stations := by unfold Path.release; rfl
@[simp] theorem Path.release_channels (q : Path) (t : Fin 34) : (q.release t).channels = q.channels := by unfold Path.release; rfl
@[simp] theorem Path.release_fcu (q : Path) (t : Fin 34) : (q.release t).fcu = q.fcu := by unfold Path.release; rfl
@[simp] theorem Path.mapChannels_attn (q : Path) (g : Channel → Channel) : (q.mapChannels g).attn = q.attn := by unfold Path.mapChannels; rfl
@[simp] theorem Path.mapChannels_stations (q : Path) (g : Channel → Channel) : (q.mapChannels g).stations = q.stations := by unfold Path.mapChannels; rfl
@[simp] theorem Path.mapChannels_fcu (q : Path) (g : Channel → Channel) : (q.mapChannels g).fcu = q.fcu := by unfold Path.mapChannels; rfl
@[simp] theorem Path.mapChannels_bays (q : Path) (g : Channel → Channel) : (q.mapChannels g).bays = q.bays := by unfold Path.mapChannels; rfl
@[simp] theorem Path.sittingEnded_attn (q : Path) : (q.sittingEnded).attn = q.attn := by unfold Path.sittingEnded; rfl
@[simp] theorem Path.sittingEnded_stations (q : Path) : (q.sittingEnded).stations = q.stations := by unfold Path.sittingEnded; rfl
@[simp] theorem Path.sittingEnded_fcu (q : Path) : (q.sittingEnded).fcu = q.fcu := by unfold Path.sittingEnded; rfl
@[simp] theorem Path.sittingEnded_bays (q : Path) : (q.sittingEnded).bays = q.bays := by unfold Path.sittingEnded; rfl
@[simp] theorem Path.discardStaged_attn (q : Path) : (q.discardStaged).attn = q.attn := by unfold Path.discardStaged; rfl
@[simp] theorem Path.discardStaged_stations (q : Path) : (q.discardStaged).stations = q.stations := by unfold Path.discardStaged; rfl
@[simp] theorem Path.deriveLamp_attn (q : Path) (x : Ctx) (c : Fin 32) : (q.deriveLamp x c).attn = q.attn := by unfold Path.deriveLamp; rfl
@[simp] theorem Path.deriveLamp_stations (q : Path) (x : Ctx) (c : Fin 32) : (q.deriveLamp x c).stations = q.stations := by unfold Path.deriveLamp; rfl
@[simp] theorem Path.deriveLamp_fcu (q : Path) (x : Ctx) (c : Fin 32) : (q.deriveLamp x c).fcu = q.fcu := by unfold Path.deriveLamp; rfl
@[simp] theorem Path.deriveLamp_bays (q : Path) (x : Ctx) (c : Fin 32) : (q.deriveLamp x c).bays = q.bays := by unfold Path.deriveLamp; rfl
@[simp] theorem Path.mark_attn (q : Path) (x : Ctx) (k : MarkKind) (n : Nat) : (q.mark x k n).attn = q.attn := by unfold Path.mark; split <;> rfl
@[simp] theorem Path.mark_stations (q : Path) (x : Ctx) (k : MarkKind) (n : Nat) : (q.mark x k n).stations = q.stations := by unfold Path.mark; split <;> rfl
@[simp] theorem Path.mark_channels (q : Path) (x : Ctx) (k : MarkKind) (n : Nat) : (q.mark x k n).channels = q.channels := by unfold Path.mark; split <;> rfl
@[simp] theorem Path.mark_fcu (q : Path) (x : Ctx) (k : MarkKind) (n : Nat) : (q.mark x k n).fcu = q.fcu := by unfold Path.mark; split <;> rfl
@[simp] theorem Path.setRun_stations (q : Path) (t : Fin 33) (r : Option VoidRun) : (q.setRun t r).stations = q.stations := by unfold Path.setRun; split <;> rfl
@[simp] theorem Path.setRun_attn (q : Path) (t : Fin 33) (r : Option VoidRun) : (q.setRun t r).attn = q.attn := by unfold Path.setRun; split <;> rfl
@[simp] theorem Path.setRun_bays (q : Path) (t : Fin 33) (r : Option VoidRun) : (q.setRun t r).bays = q.bays := by unfold Path.setRun; split <;> rfl
@[simp] theorem State.ownMix_bus (s : State) : s.ownMix.bus = s.bus := rfl
@[simp] theorem State.ownMix_timer (s : State) : s.ownMix.timer = s.timer := rfl
@[simp] theorem State.ownMix_scan (s : State) : s.ownMix.scan = s.scan := rfl
@[simp] theorem State.ownMix_sitting (s : State) : s.ownMix.sitting = s.sitting := rfl
@[simp] theorem State.ownMix_portA (s : State) : s.ownMix.portA = s.portA := rfl
@[simp] theorem State.ownMix_portB (s : State) : s.ownMix.portB = s.portB := rfl
@[simp] theorem State.ownMix_writer (s : State) : s.ownMix.writer = s.writer := rfl
@[simp] theorem State.ownMix_supply (s : State) : s.ownMix.supply = s.supply := rfl
@[simp] theorem State.ownMix_hostMem (s : State) : s.ownMix.hostMem = s.hostMem := rfl
@[simp] theorem State.ownMix_draws (s : State) : s.ownMix.draws = s.draws := rfl
@[simp] theorem State.ownMix_pending (s : State) : s.ownMix.pending = s.pending := rfl

end Sys2Proof.Machine
end

