-- ==== Sys2Proof/Laws/Links.lean ====
section
/-! SUPPORT. What the operations of a Link Port change of the port and of the path (R41, R56 to R68). -/
namespace Sys2Proof.Machine

/-- A lamp derived leaves all but the lamp (R94). -/
theorem Path.deriveLamp_channels (x : Ctx) (p : Path) (c d : Fin 32) :
    (p.deriveLamp x c).channels[d] = { p.channels[d] with lamp := (p.deriveLamp x c).channels[d].lamp } := by
  unfold Path.deriveLamp Path.setChannel
  simp only [Fin.getElem_fin, Vector.getElem_set]
  split
  · rename_i h
    have : c = d := Fin.ext h
    subst this; rfl
  · rfl

/-- The lamp state does not read the lamp (R94). -/
theorem Path.lampNow_deriveLamp (x : Ctx) (p : Path) (c d : Fin 32) : (p.deriveLamp x c).lampNow x d = p.lampNow x d := by
  have h := p.deriveLamp_channels x c d
  have hs : (p.deriveLamp x c).stations = p.stations := rfl
  unfold Path.lampNow
  rw [hs]
  dsimp only
  rw [h]
  rfl

/-- The lamp derived is the lamp state of the moment (R94). -/
theorem Path.deriveLamp_lamp (x : Ctx) (p : Path) (c d : Fin 32) :
    (p.deriveLamp x c).channels[d].lamp = if d = c then p.lampNow x c else p.channels[d].lamp := by
  unfold Path.deriveLamp Path.setChannel
  simp only [Fin.getElem_fin, Vector.getElem_set]
  by_cases h : d = c
  · subst h; simp
  · have : ¬c.val = d.val := fun e => h (Fin.ext e.symm)
    simp [h, this]

/-- A report handed leaves the port as it was. -/
@[simp] theorem Link.hand_port (x : Ctx) (p : PortId) (probe : Bool) (r : Report) (l : Link) (a : Fin 8) :
    (l.hand x p probe r a).port = l.port := rfl

@[simp] theorem Link.handAll_port (x : Ctx) (p : PortId) (r : Report) (as : List (Fin 8)) (l : Link) :
    (l.handAll x p r as).port = l.port := by
  unfold Link.handAll
  induction as generalizing l with
  | nil => rfl
  | cons a rest ih => exact ih _

@[simp] theorem Link.handListed_port (x : Ctx) (p : PortId) (r : Report) (l : Link) :
    (l.handListed x p r).port = l.port := by
  unfold Link.handListed
  split
  · split <;> rfl
  · rfl

/-- The stations after one report handed: one record changed (R63 to R66). -/
theorem Link.hand_stations (x : Ctx) (p : PortId) (probe : Bool) (r : Report) (l : Link) (a : Fin 8) (k : Fin 16) :
    (l.hand x p probe r a).path.stations[k] =
      if k = stationAt p a then l.path.stations[k].reported probe r else l.path.stations[k] := by
  unfold Link.hand
  exact Path.report_stations x x.polled (stationAt p a) k probe r l.path

/-- The stations after a report for a LIST poll; a PROBE's is not handed (R60, R64, R66). -/
theorem Link.handListed_stations (x : Ctx) (p : PortId) (r : Report) (l : Link) (g : Target) (h : l.port.target = some g)
    (k : Fin 16) :
    (l.handListed x p r).path.stations[k] =
      if k = stationAt p g.addr ∧ g.probe = false then l.path.stations[k].reported false r else l.path.stations[k] := by
  unfold Link.handListed
  rw [h]
  dsimp only
  cases hp : g.probe
  · simp only [Bool.false_eq_true, if_false, and_true]
    exact Link.hand_stations x p false r l g.addr k
  · simp

/-- A report handed to several stations leaves every other record as it was. -/
theorem Link.handAll_stations_other (x : Ctx) (p : PortId) (r : Report) (as : List (Fin 8)) (l : Link) (k : Fin 16)
    (h : ∀ a ∈ as, k ≠ stationAt p a) : (l.handAll x p r as).path.stations[k] = l.path.stations[k] := by
  unfold Link.handAll
  induction as generalizing l with
  | nil => rfl
  | cons a rest ih =>
    rw [List.foldl_cons, ih _ (fun b hb => h b (List.mem_cons_of_mem _ hb)), Link.hand_stations,
      if_neg (h a List.mem_cons_self)]

/-- A report handed to several stations reaches each that stands once in the list. -/
theorem Link.handAll_stations_once (x : Ctx) (p : PortId) (r : Report) (as : List (Fin 8)) (l : Link) (a : Fin 8)
    (h : as.count a = 1) :
    (l.handAll x p r as).path.stations[stationAt p a] = l.path.stations[stationAt p a].reported false r := by
  unfold Link.handAll
  induction as generalizing l with
  | nil => simp at h
  | cons b rest ih =>
    rw [List.foldl_cons]
    by_cases hb : b = a
    · subst hb
      have h0 : b ∉ rest := by
        rw [List.count_cons_self] at h
        exact List.count_eq_zero.mp (by omega)
      have := Link.handAll_stations_other x p r rest (l.hand x p false r b) (stationAt p b)
        (fun c hc e => h0 ((stationAt_inj e).2 ▸ hc))
      unfold Link.handAll at this
      rw [this, Link.hand_stations, if_pos rfl]
    · rw [ih _ (by rw [List.count_cons_of_ne hb] at h; exact h), Link.hand_stations,
        if_neg (fun e => hb ((stationAt_inj e).2).symm)]

/-- A report that changes no record, handed to several stations. -/
theorem Link.handAll_stations_same (x : Ctx) (p : PortId) (r : Report) (as : List (Fin 8)) (l : Link)
    (h : ∀ st : Station, st.reported false r = st) (k : Fin 16) :
    (l.handAll x p r as).path.stations[k] = l.path.stations[k] := by
  unfold Link.handAll
  induction as generalizing l with
  | nil => rfl
  | cons a rest ih => rw [List.foldl_cons, ih, Link.hand_stations, h, ite_self]

/-- R58, R59: what the next poll, or the end of the round, changes of the port. -/
theorem Link.nextPoll_port (x : Ctx) (p : PortId) (l : Link) :
    ∃ phase target reply fault window sending tx remaining cursor done current,
      (l.nextPoll x p).port = { l.port with
        phase := phase, target := target, reply := reply, fault := fault, window := window, sending := sending,
        txTicks := tx, remaining := remaining, probeCursor := cursor, probeDone := done, current := current } ∧
      (phase = l.port.phase ∨ phase = .polling ∨ phase = .ended) ∧
      current.map Figures.good = l.port.current.map Figures.good := by
  unfold Link.nextPoll
  split
  · split
    · exact ⟨_, _, _, _, _, _, _, _, _, _, _, rfl, .inl rfl, rfl⟩
    · exact ⟨_, _, _, _, _, _, _, _, _, _, _, rfl, .inr (.inl rfl), by
        simp only [Link.sendPoll, Port.figure]; cases l.port.current <;> rfl⟩
  · split
    · exact ⟨_, _, _, _, _, _, _, _, _, _, _, rfl, .inr (.inr rfl), by
        simp only [Port.markEnd, Port.figure]; cases l.port.current <;> rfl⟩
    · split
      · exact ⟨_, _, _, _, _, _, _, _, _, _, _, rfl, .inl rfl, rfl⟩
      · exact ⟨_, _, _, _, _, _, _, _, _, _, _, rfl, .inr (.inl rfl), by
          simp only [Link.sendPoll, Port.figure]; cases l.port.current <;> rfl⟩

/-- R58, R94: a poll sent changes lamps only. -/
theorem Link.sendPoll_path (x : Ctx) (p : PortId) (a : Fin 8) (probe : Bool) (l : Link) :
    (l.sendPoll x p a probe).path = { l.path with channels := (l.sendPoll x p a probe).path.channels } ∧
      ∀ c : Fin 32, (l.sendPoll x p a probe).path.channels[c] =
        { l.path.channels[c] with lamp := (l.sendPoll x p a probe).path.channels[c].lamp } := by
  refine ⟨rfl, fun c => ?_⟩
  have h1 := l.path.deriveLamp_channels x (channelOf (stationAt p a) 0) c
  have h2 := (l.path.deriveLamp x (channelOf (stationAt p a) 0)).deriveLamp_channels x (channelOf (stationAt p a) 1) c
  unfold Link.sendPoll
  dsimp only
  rw [h2, h1]

/-- R58, R94: what is sent carries the lamp states of the station's two channels at this moment. -/
theorem Link.sendPoll_sending (x : Ctx) (p : PortId) (a : Fin 8) (probe : Bool) (l : Link) :
    (l.sendPoll x p a probe).port.sending = [controlChar (pollChar a),
      dataChar (lampByte (l.path.lampNow x (channelOf (stationAt p a) 0))
        (l.path.lampNow x (channelOf (stationAt p a) 1)))] := by
  have hne : channelOf (stationAt p a) 0 ≠ channelOf (stationAt p a) 1 := by
    intro h; have := congrArg Fin.val h; simp [channelOf] at this
  unfold Link.sendPoll
  dsimp only
  rw [Path.deriveLamp_lamp, if_neg hne, Path.deriveLamp_lamp, if_pos rfl, Path.deriveLamp_lamp, if_pos rfl,
    Path.lampNow_deriveLamp]

/-- R58, R59, R94: the next poll changes nothing of the path but lamps. -/
theorem Link.nextPoll_path (x : Ctx) (p : PortId) (l : Link) :
    (l.nextPoll x p).path = { l.path with channels := (l.nextPoll x p).path.channels } ∧
      ∀ c : Fin 32, (l.nextPoll x p).path.channels[c] =
        { l.path.channels[c] with lamp := (l.nextPoll x p).path.channels[c].lamp } := by
  unfold Link.nextPoll
  split
  · split
    · exact ⟨rfl, fun _ => rfl⟩
    · exact l.sendPoll_path x p _ false
  · split
    · exact ⟨rfl, fun _ => rfl⟩
    · split
      · exact ⟨rfl, fun _ => rfl⟩
      · exact l.sendPoll_path x p _ true

/-- R60, R61: the end of a call: what it changes of the port. -/
theorem Link.endCall_port (x : Ctx) (p : PortId) (l : Link) :
    ∃ phase target reply fault window sending tx remaining cursor done current,
      (l.endCall x p).port = { l.port with
        phase := phase, target := target, reply := reply, fault := fault, window := window, sending := sending,
        txTicks := tx, remaining := remaining, probeCursor := cursor, probeDone := done, current := current } ∧
      (phase = .polling ∨ phase = .ended) ∧ current.map Figures.good = l.port.current.map Figures.good := by
  unfold Link.endCall
  dsimp only
  obtain ⟨a, b, c, d, e, f, g, h, i, j, k, heq, hph, hgood⟩ := Link.nextPoll_port x p { l with
    port := { l.port.markEnd x with phase := .polling, target := none, reply := none, fault := none } }
  refine ⟨a, b, c, d, e, f, g, h, i, j, k, heq.trans rfl, ?_, hgood.trans ?_⟩
  · rcases hph with h | h | h
    · exact .inl h
    · exact .inl h
    · exact .inr h
  · simp only [Port.markEnd, Port.figure]; cases l.port.current <;> rfl

/-- R60, R61: the end of a call changes nothing of the path but lamps. -/
theorem Link.endCall_path (x : Ctx) (p : PortId) (l : Link) :
    (l.endCall x p).path = { l.path with channels := (l.endCall x p).path.channels } ∧
      ∀ c : Fin 32, (l.endCall x p).path.channels[c] =
        { l.path.channels[c] with lamp := (l.endCall x p).path.channels[c].lamp } :=
  Link.nextPoll_path x p _

/-- R41: the port after leaving RUNNING. -/
theorem Link.leaveRunning_port (x : Ctx) (p : PortId) (l : Link) :
    (l.leaveRunning x p).port = { l.port with
      phase := .idle, pollList := [], target := none, reply := none, fault := none, remaining := [], busy := false,
      sending := [], window := 0, current := (l.leaveRunning x p).port.current } := by
  unfold Link.leaveRunning
  dsimp only
  rw [Link.handAll_port]
  split <;> rfl

/-- R69: the round's figures after leaving RUNNING: as they stood where the round was done, and with this moment as the round
end where it was cut short. -/
theorem Link.leaveRunning_current (x : Ctx) (p : PortId) (l : Link) :
    (l.leaveRunning x p).port.current =
      if l.port.roundDone then l.port.current
      else l.port.current.map fun g => { g with roundEnd := l.port.characterTime x } := by
  unfold Link.leaveRunning
  dsimp only
  rw [Link.handAll_port]
  split
  · rfl
  · rfl

/-- R77 as a fold over the addresses of a port. -/
theorem Path.portLost_fold (p : PortId) (as : List (Fin 8)) (hn : as.Nodup) (path : Path) (q : PortId) (a : Fin 8) :
    (as.foldl (fun r b => r.setStation (stationAt p b) r.stations[stationAt p b].portLost) path).stations[stationAt q a] =
      if q = p ∧ a ∈ as then path.stations[stationAt q a].portLost else path.stations[stationAt q a] := by
  induction as generalizing path with
  | nil => simp
  | cons b rest ih =>
    rw [List.foldl_cons, ih (List.nodup_cons.mp hn).2, Path.setStation_get]
    have hb := (List.nodup_cons.mp hn).1
    by_cases hq : q = p
    · subst hq
      by_cases ha : a = b
      · subst ha; simp [hb]
      · have : stationAt q a ≠ stationAt q b := fun e => ha (stationAt_inj e).2
        simp [this, ha]
    · have : stationAt q a ≠ stationAt p b := fun e => hq (stationAt_inj e).1
      simp [this, hq]

/-- R77: the records of the port that are not VACANT are LOST with cause PORT, the others stay. -/
theorem Path.portLost_stations (path : Path) (p q : PortId) (a : Fin 8) :
    (path.portLost p).stations[stationAt q a] =
      if q = p then path.stations[stationAt q a].portLost else path.stations[stationAt q a] := by
  unfold Path.portLost
  rw [Path.portLost_fold p _ (List.nodup_finRange 8)]
  simp

/-- R41, R77: the stations after leaving RUNNING. -/
theorem Link.leaveRunning_stations (x : Ctx) (p q : PortId) (l : Link) (a : Fin 8) :
    (l.leaveRunning x p).path.stations[stationAt q a] =
      if q = p then l.path.stations[stationAt q a].portLost else l.path.stations[stationAt q a] := by
  unfold Link.leaveRunning
  dsimp only
  rw [Link.handAll_stations_same _ _ _ _ _ (fun st => rfl)]
  exact Path.portLost_stations _ _ _ _

/-! ### How a round goes on at the end of a call (R58, R59) -/

theorem Path.canProbe_iff (path : Path) (p : PortId) (list : List (Fin 8)) (a : Fin 8) :
    path.canProbe p list a = true ↔ path.stations[stationAt p a].state.isListed = false ∧ a ∉ list := by
  unfold Path.canProbe; simp

/-- R59: the probe address is the first one after the cursor that the probe can go to, searching upward and wrapping from 7
to 0. -/
theorem Path.probeAddress_first (path : Path) (p : PortId) (list : List (Fin 8)) (cursor a : Fin 8) (n : Nat) (hn : n < 8)
    (ha : a.val = (cursor.val + 1 + n) % 8) (hf : path.canProbe p list a = true)
    (hb : ∀ (j : Nat) (b : Fin 8), j < n → b.val = (cursor.val + 1 + j) % 8 → path.canProbe p list b = false) :
    path.probeAddress p list cursor = some a := by
  have ea : Fin.ofNat 8 (cursor.val + 1 + n) = a := Fin.ext ha.symm
  unfold Path.probeAddress
  rw [List.find?_map, List.find?_range_eq_some.mpr ⟨?_, ?_, ?_⟩]
  · rw [Option.map_some, ea]
  · simp only [Function.comp, ea, hf]
  · exact List.mem_range.mpr hn
  · intro j hj
    simp only [Function.comp]
    rw [hb j (Fin.ofNat 8 (cursor.val + 1 + j)) hj rfl]; rfl

/-- R59: with no address that the probe can go to there is no probe. -/
theorem Path.probeAddress_none (path : Path) (p : PortId) (list : List (Fin 8)) (cursor : Fin 8)
    (h : ∀ b : Fin 8, path.canProbe p list b = false) : path.probeAddress p list cursor = none := by
  unfold Path.probeAddress
  rw [List.find?_eq_none]
  intro b _
  rw [h b]; decide

/-- The lamp state of now rests on the stations, and on the channels but for their lamps (R94). -/
theorem Path.lampNow_congr (x : Ctx) {p q : Path} (c : Fin 32) (hs : q.stations = p.stations)
    (hc : q.channels[c] = { p.channels[c] with lamp := q.channels[c].lamp }) : q.lampNow x c = p.lampNow x c := by
  unfold Path.lampNow
  rw [hs, hc]
  rfl

/-- R58, R59: how the round goes on at the end of a call, in the terms of the statements. -/
theorem Link.endCall_callOver (s t : State) (p : PortId) (l : Link)
    (hp : (s.port p).deadlinePassed = l.port.deadlinePassed ∧ (s.port p).remaining = l.port.remaining ∧
      (s.port p).probeDone = l.port.probeDone ∧ (s.port p).probeCursor = l.port.probeCursor ∧
      (s.port p).pollList = l.port.pollList)
    (hf : l.port.current.map Figures.listPolls = (s.port p).current.map Figures.listPolls ∧
      l.port.current.map Figures.probe = (s.port p).current.map Figures.probe)
    (ht : t.port p = (l.endCall s.ctx p).port) (hq : t.path = { (l.endCall s.ctx p).path with attn := t.path.attn }) :
    CallOver s t p l.port.busy := by
  obtain ⟨h1, h2, h3, h4, h5⟩ := hp
  obtain ⟨e1, e2⟩ := l.endCall_path s.ctx p
  have hst : t.path.stations = l.path.stations := by rw [hq, e1]
  have hlamp (c : Fin 32) : t.path.lampNow s.ctx c = l.path.lampNow s.ctx c :=
    Path.lampNow_congr s.ctx c hst (by rw [hq]; exact e2 c)
  have hv (b : Fin 8) : t.vacancy p l.port.pollList b ↔ l.path.canProbe p l.port.pollList b = true := by
    unfold State.vacancy; rw [Path.canProbe_iff, hst]
    cases l.path.stations[stationAt p b].state <;> simp [StationState.isListed]
  have hlist : (l.endCall s.ctx p).port.pollList = l.port.pollList := by
    obtain ⟨_, _, _, _, _, _, _, _, _, _, _, e, _⟩ := l.endCall_port s.ctx p; rw [e]
  generalize hcur : (l.endCall s.ctx p).port.current = cur at *
  have fig (g : Figures → Figures) (polls : Nat → Nat) (probe : Option (Fin 8) → Option (Fin 8))
      (hc : cur = l.port.current.map g) (h5 : ∀ h, (g h).listPolls = polls h.listPolls)
      (h6 : ∀ h, (g h).probe = probe h.probe) : FiguresAre s t p polls probe := by
    unfold FiguresAre
    obtain ⟨e5, e6⟩ := hf
    rw [ht, hcur, hc]
    cases hl : l.port.current <;> rw [hl] at e5 e6 <;> cases hs : (s.port p).current <;> rw [hs] at e5 e6 <;>
      simp only [Option.map_none, Option.map_some, Option.some.injEq, reduceCtorEq] at e5 e6 ⊢
    · exact ⟨trivial, trivial⟩
    · exact ⟨(h5 _).trans (by rw [e5]), (h6 _).trans (by rw [e6])⟩
  unfold CallOver
  refine ⟨by rw [ht, hlist, h5], ?_⟩
  simp only [h1, h2, h3, h4, h5, ht, hlamp, hv]
  let m : Link := { l with
    port := { l.port.markEnd s.ctx with phase := .polling, target := none, reply := none, fault := none } }
  have em : l.endCall s.ctx p = m.nextPoll s.ctx p := rfl
  have e0 : m.port.remaining = l.port.remaining := rfl
  have e3 : m.port.deadlinePassed = l.port.deadlinePassed := rfl
  have e4 : m.port.busy = l.port.busy := rfl
  let moved (g : Figures) : Figures := { g with roundEnd := l.port.characterTime s.ctx }
  rw [em] at hcur ⊢
  unfold Link.nextPoll at hcur ⊢
  rw [e0, e3, e4] at hcur ⊢
  rcases hr : l.port.remaining with _ | ⟨a, rest⟩
  · rw [hr] at hcur
    dsimp only at hcur ⊢
    have hd : m.probeDue p = if l.port.probeDone then none else
        l.path.probeAddress p l.port.pollList l.port.probeCursor := rfl
    rcases hP : m.probeDue p with _ | a
    · rw [hP] at hcur
      dsimp only at hcur ⊢
      have hfig : FiguresAre s t p id id :=
        fig moved _ _ (hcur.symm.trans (by
          show (m.port.current.map _) = _
          show ((l.port.current.map _).map _) = _
          cases l.port.current <;> rfl)) (fun _ => rfl) (fun _ => rfl)
      refine ⟨fun _ => ⟨rfl, rfl, hfig⟩, fun _ _ => ⟨fun _ _ h => (by cases h), fun _ => ⟨fun _ => ⟨rfl, rfl, rfl, hfig⟩, ?_⟩⟩⟩
      intro h0 n a hn ha hf hb
      rw [hd, h0, if_neg (by decide), Path.probeAddress_first l.path p _ _ a n hn ha hf
        (fun j b hj hb' => by simpa using hb j b hj hb')] at hP
      cases hP
    · rw [hP] at hcur
      dsimp only at hcur ⊢
      by_cases hw : l.port.deadlinePassed = true ∨ l.port.busy = true
      · rw [if_pos hw] at hcur ⊢
        exact ⟨fun _ => ⟨rfl, rfl, fig moved _ _ hcur.symm (fun _ => rfl) (fun _ => rfl)⟩,
          fun h5 h6 => by rw [h5, h6] at hw; simp at hw⟩
      · rw [if_neg hw] at hcur ⊢
        have hdone : l.port.probeDone = false := by
          cases h : l.port.probeDone with
          | false => rfl
          | true => rw [hd, h, if_pos rfl] at hP; cases hP
        rw [hd, hdone, if_neg (by decide)] at hP
        refine ⟨fun h => absurd h hw, fun _ _ => ⟨fun _ _ h => (by cases h), fun _ => ⟨?_, ?_⟩⟩⟩
        · rintro (h | h)
          · rw [hdone] at h; cases h
          · rw [Path.probeAddress_none l.path p _ _ (fun b => by simpa using h b)] at hP; cases hP
        · intro _ n b hn ha hf hb
          have := Path.probeAddress_first l.path p _ _ b n hn ha hf (fun j c hj hc => by simpa using hb j c hj hc)
          rw [this] at hP; cases hP
          refine ⟨rfl, rfl, rfl, ?_, m.sendPoll_sending s.ctx p _ true⟩
          exact fig (fun g => { moved g with probe := some _ }) _ _
            (hcur.symm.trans (by
              show ((l.port.current.map _).map _) = _
              cases l.port.current <;> rfl)) (fun _ => rfl) (fun _ => rfl)
  · rw [hr] at hcur
    dsimp only at hcur ⊢
    by_cases hw : l.port.deadlinePassed = true ∨ l.port.busy = true
    · rw [if_pos hw] at hcur ⊢
      exact ⟨fun _ => ⟨rfl, rfl, fig moved _ _ hcur.symm (fun _ => rfl) (fun _ => rfl)⟩,
        fun h5 h6 => by rw [h5, h6] at hw; simp at hw⟩
    · rw [if_neg hw] at hcur ⊢
      refine ⟨fun h => absurd h hw, fun _ _ => ⟨fun b r h => ?_, fun h => (by cases h)⟩⟩
      cases h
      refine ⟨rfl, rfl, rfl, rfl, ?_⟩
      exact fig (fun g => { moved g with listPolls := g.listPolls + 1 }) _ _
        (hcur.symm.trans (by
          show ((l.port.current.map _).map _) = _
          cases l.port.current <;> rfl)) (fun _ => rfl) (fun _ => rfl)

/-! ### An event of a port in the whole state -/

/-- Where a call is over the round end is the moment (R56). -/
theorem Link.endCall_roundEndsNow (s t : State) (p : PortId) (l : Link) (ht : t.port p = (l.endCall s.ctx p).port)
    (hc : l.port.current.map (fun _ => ()) = (s.port p).current.map (fun _ => ()))
    (hd : l.port.divisor = (s.port p).divisor) : RoundEndsNow s t p := by
  have key : (l.endCall s.ctx p).port.current.map Figures.roundEnd =
      l.port.current.map (fun _ => s.timer.tick / (88 * (l.port.divisor + 1))) := by
    let m : Link := { l with
      port := { l.port.markEnd s.ctx with phase := .polling, target := none, reply := none, fault := none } }
    have em : l.endCall s.ctx p = m.nextPoll s.ctx p := rfl
    have hm : m.port.current = l.port.current.map fun g => { g with roundEnd := l.port.characterTime s.ctx } := rfl
    rw [em]; unfold Link.nextPoll
    repeat' split
    all_goals
      first
      | (show (m.port.current).map _ = _; rw [hm]; cases l.port.current <;> rfl)
      | (show (m.port.current.map _).map _ = _; rw [hm]; cases l.port.current <;> rfl)
  unfold RoundEndsNow
  rw [ht, key, hd]
  cases h1 : l.port.current <;> rw [h1] at hc <;> cases h2 : (s.port p).current <;> rw [h2] at hc <;> simp at hc ⊢

/-- The starving set brought up to date changes itself and attention only (R145). -/
theorem State.refresh_only (s : State) :
    s.refresh = { s with path := { s.path with attn := s.refresh.path.attn }
                         writer := { s.writer with starving := s.refresh.writer.starving } } := by
  unfold State.refresh
  dsimp only
  split <;> rfl

@[simp] theorem State.onLink_port (s : State) (p : PortId) (g : Link → Link) :
    (s.onLink p g).port p = (g (s.link p)).port := by
  unfold State.onLink
  cases p
  · show (State.refresh _).portA = _
    rw [State.refresh_portA]; rfl
  · show (State.refresh _).portB = _
    rw [State.refresh_portB]; rfl

/-- What `onLink` leaves as it was: only the port, the path and the starving set change. -/
theorem State.onLink_only (s : State) (p : PortId) (g : Link → Link) : OnlyLink s (s.onLink p g) p := by
  unfold OnlyLink
  rw [State.onLink_port]
  unfold State.onLink
  have h := (s.withLink p (g (s.link p))).refresh_only
  generalize (s.withLink p (g (s.link p))).refresh = r at h ⊢
  generalize g (s.link p) = l at h ⊢
  rw [h]
  cases p <;> rfl

/-- The path after an event, but for a STARVING that may have been raised. -/
theorem State.onLink_path (s : State) (p : PortId) (g : Link → Link) :
    (s.onLink p g).path = { (g (s.link p)).path with attn := (s.onLink p g).path.attn } := by
  unfold State.onLink State.refresh
  dsimp only
  rw [State.withLink_path]
  split <;> rfl

@[simp] theorem State.onLink_stations (s : State) (p : PortId) (g : Link → Link) :
    (s.onLink p g).path.stations = (g (s.link p)).path.stations := by rw [State.onLink_path]

@[simp] theorem State.onLink_bays (s : State) (p : PortId) (g : Link → Link) :
    (s.onLink p g).path.bays = (g (s.link p)).path.bays := by rw [State.onLink_path]

@[simp] theorem State.onLink_channels (s : State) (p : PortId) (g : Link → Link) :
    (s.onLink p g).path.channels = (g (s.link p)).path.channels := by rw [State.onLink_path]

@[simp] theorem State.onLink_fcu (s : State) (p : PortId) (g : Link → Link) :
    (s.onLink p g).path.fcu = (g (s.link p)).path.fcu := by rw [State.onLink_path]

/-- A cause that an event raised is pending afterwards (R160). -/
theorem State.onLink_raised (s : State) (p : PortId) (g : Link → Link) (c : Cause)
    (h : (g (s.link p)).path.attn.pending.getLsbD c.position = true) : Raised (s.onLink p g) c := by
  unfold Raised State.onLink State.refresh
  dsimp only
  rw [State.withLink_path]
  split
  · exact Attention.raise_pending_of _ _ _ h
  · exact h

end Sys2Proof.Machine
end

