-- ==== Sys2Proof/Laws/Writer.lean ====
section
/-! SUPPORT. The closes of the Record Writer, said once: what R143 and R144 make due on a track whose bay is empty, each
track on its own, what an age close does to its track (R140, R142 to R144), and what the discard of ABANDON STAGED does
(R16, R129). -/
namespace Sys2Proof.Machine

/-- A sheet replaced is read back, every other as before. -/
theorem Writer.setSheet_get (w : Writer) (t u : Fin 34) (o : Option OpenSheet) :
    (w.setSheet t o).sheets[u] = if u = t then o else w.sheets[u] := by
  simp only [Writer.setSheet, Fin.getElem_fin, Vector.getElem_set]
  by_cases h : u = t
  · subst h; simp
  · have : ¬t.val = u.val := fun e => h (Fin.ext e.symm)
    simp [h, this]

/-- A sheet replaced by itself. -/
theorem Writer.setSheet_self (w : Writer) (t : Fin 34) : w.setSheet t w.sheets[t] = w := by
  unfold Writer.setSheet; simp

/-- The sheet that R143 and R144 leave a track, from what they read of the part. -/
def State.emptyClosed (s : State) (t : Fin 34) : Option OpenSheet :=
  if s.path.bays.bay[t].items = [] ∧ s.closeDue t = none then
    if s.sitting.draining then
      if s.path.runOfTrack t = none ∧ (t.val < 33 ∨ s.sitting.finalMark = none) then
        s.writer.sheets[t].map fun o => { o with pend := some { reason := .sittingClosed, drain := 0 } }
      else s.writer.sheets[t]
    else if s.supply.warning then s.writer.sheets[t].map fun o => { o with powerDue := true }
    else s.writer.sheets[t]
  else s.writer.sheets[t]

/-- R143, R144 on one track change its sheet alone. -/
theorem State.setEmptyClose_eq (s : State) (t : Fin 34) :
    s.setEmptyClose t = { s with writer := s.writer.setSheet t (s.emptyClosed t) } := by
  unfold State.setEmptyClose State.emptyClosed
  split
  · rename_i h
    simp only [h, Option.map_none, ite_self]
    rw [← h, Writer.setSheet_self]
  · rename_i o h
    simp only [h, Option.map_some]
    split
    · split
      · split
        · rfl
        · rw [← h, Writer.setSheet_self]
      · split
        · rfl
        · rw [← h, Writer.setSheet_self]
    · rw [← h, Writer.setSheet_self]

/-- What R143 and R144 make of a track reads no other track's sheet. -/
theorem State.emptyClosed_setSheet (s : State) (t u : Fin 34) (o : Option OpenSheet) (h : u ≠ t) :
    ({ s with writer := s.writer.setSheet t o } : State).emptyClosed u = s.emptyClosed u := by
  unfold State.emptyClosed State.closeDue
  simp only [Writer.setSheet_get, if_neg h]

/-- R143, R144 over several tracks: each on its own. -/
theorem State.setEmptyClose_fold (ts : List (Fin 34)) (hn : ts.Nodup) (s : State) :
    ∃ v, ts.foldl State.setEmptyClose s = { s with writer := { s.writer with sheets := v } } ∧
      ∀ u : Fin 34, v[u] = if u ∈ ts then s.emptyClosed u else s.writer.sheets[u] := by
  induction ts generalizing s with
  | nil => exact ⟨s.writer.sheets, rfl, fun u => by simp⟩
  | cons t rest ih =>
    have hr := List.nodup_cons.mp hn
    obtain ⟨v, hv, hg⟩ := ih hr.2 (s.setEmptyClose t)
    refine ⟨v, ?_, fun u => ?_⟩
    · rw [List.foldl_cons, hv, State.setEmptyClose_eq]; rfl
    · rw [hg u, State.setEmptyClose_eq]
      by_cases hu : u = t
      · subst hu
        rw [if_neg hr.1, if_pos List.mem_cons_self]
        exact (Writer.setSheet_get _ _ _ _).trans (if_pos rfl)
      · rw [State.emptyClosed_setSheet _ _ _ _ hu]
        have : ({ s with writer := s.writer.setSheet t (s.emptyClosed t) } : State).writer.sheets[u] = s.writer.sheets[u] :=
          (Writer.setSheet_get _ _ _ _).trans (if_neg hu)
        rw [this]; simp only [List.mem_cons, hu, false_or]

/-- R143, R144 at an onset or at the begin of a drain: each open sheet on its own, and nothing else changes. -/
theorem State.setEmptyCloses_eq (s : State) :
    ∃ v, s.setEmptyCloses = { s with writer := { s.writer with sheets := v } } ∧ ∀ u : Fin 34, v[u] = s.emptyClosed u := by
  obtain ⟨v, hv, hg⟩ := State.setEmptyClose_fold (List.finRange 34) (List.nodup_finRange 34) s
  exact ⟨v, hv, fun u => by simpa using hg u⟩

theorem State.setEmptyCloses_sheet (s : State) (u : Fin 34) : s.setEmptyCloses.writer.sheets[u] = s.emptyClosed u := by
  obtain ⟨v, hv, hg⟩ := s.setEmptyCloses_eq; rw [hv]; exact hg u

theorem State.setEmptyCloses_only (s : State) :
    s.setEmptyCloses = { s with writer := { s.writer with sheets := s.setEmptyCloses.writer.sheets } } := by
  obtain ⟨v, hv, _⟩ := s.setEmptyCloses_eq; rw [hv]

@[simp] theorem State.setEmptyClose_bus (s : State) (t : Fin 34) : (s.setEmptyClose t).bus = s.bus := by rw [State.setEmptyClose_eq]
@[simp] theorem State.setEmptyClose_timer (s : State) (t : Fin 34) : (s.setEmptyClose t).timer = s.timer := by rw [State.setEmptyClose_eq]
@[simp] theorem State.setEmptyClose_scan (s : State) (t : Fin 34) : (s.setEmptyClose t).scan = s.scan := by rw [State.setEmptyClose_eq]
@[simp] theorem State.setEmptyClose_sitting (s : State) (t : Fin 34) : (s.setEmptyClose t).sitting = s.sitting := by rw [State.setEmptyClose_eq]
@[simp] theorem State.setEmptyClose_portA (s : State) (t : Fin 34) : (s.setEmptyClose t).portA = s.portA := by rw [State.setEmptyClose_eq]
@[simp] theorem State.setEmptyClose_portB (s : State) (t : Fin 34) : (s.setEmptyClose t).portB = s.portB := by rw [State.setEmptyClose_eq]
@[simp] theorem State.setEmptyClose_path (s : State) (t : Fin 34) : (s.setEmptyClose t).path = s.path := by rw [State.setEmptyClose_eq]
@[simp] theorem State.setEmptyClose_supply (s : State) (t : Fin 34) : (s.setEmptyClose t).supply = s.supply := by rw [State.setEmptyClose_eq]
@[simp] theorem State.setEmptyClose_hostMem (s : State) (t : Fin 34) : (s.setEmptyClose t).hostMem = s.hostMem := by rw [State.setEmptyClose_eq]
@[simp] theorem State.setEmptyClose_draws (s : State) (t : Fin 34) : (s.setEmptyClose t).draws = s.draws := by rw [State.setEmptyClose_eq]
@[simp] theorem State.setEmptyClose_pending (s : State) (t : Fin 34) : (s.setEmptyClose t).pending = s.pending := by rw [State.setEmptyClose_eq]
@[simp] theorem State.setEmptyCloses_bus (s : State) : (s.setEmptyCloses).bus = s.bus := by rw [State.setEmptyCloses_only]
@[simp] theorem State.setEmptyCloses_timer (s : State) : (s.setEmptyCloses).timer = s.timer := by rw [State.setEmptyCloses_only]
@[simp] theorem State.setEmptyCloses_scan (s : State) : (s.setEmptyCloses).scan = s.scan := by rw [State.setEmptyCloses_only]
@[simp] theorem State.setEmptyCloses_sitting (s : State) : (s.setEmptyCloses).sitting = s.sitting := by rw [State.setEmptyCloses_only]
@[simp] theorem State.setEmptyCloses_portA (s : State) : (s.setEmptyCloses).portA = s.portA := by rw [State.setEmptyCloses_only]
@[simp] theorem State.setEmptyCloses_portB (s : State) : (s.setEmptyCloses).portB = s.portB := by rw [State.setEmptyCloses_only]
@[simp] theorem State.setEmptyCloses_path (s : State) : (s.setEmptyCloses).path = s.path := by rw [State.setEmptyCloses_only]
@[simp] theorem State.setEmptyCloses_supply (s : State) : (s.setEmptyCloses).supply = s.supply := by rw [State.setEmptyCloses_only]
@[simp] theorem State.setEmptyCloses_hostMem (s : State) : (s.setEmptyCloses).hostMem = s.hostMem := by rw [State.setEmptyCloses_only]
@[simp] theorem State.setEmptyCloses_draws (s : State) : (s.setEmptyCloses).draws = s.draws := by rw [State.setEmptyCloses_only]
@[simp] theorem State.setEmptyCloses_pending (s : State) : (s.setEmptyCloses).pending = s.pending := by rw [State.setEmptyCloses_only]

/-! ### Runs, bays and the age close (R98 to R100, R142) -/

/-- The run of a track's owner, set and read. -/
theorem Path.runOf_setRun (p : Path) (t u : Fin 33) (r : Option VoidRun) :
    (p.setRun t r).runOf u = if u = t then r else p.runOf u := by
  unfold Path.setRun Path.runOf Path.setChannel
  by_cases hu : u = t
  · subst hu
    by_cases h : u.val < 32
    · simp [h]
    · simp [h]
  · have hv : ¬t.val = u.val := fun e => hu (Fin.ext e.symm)
    by_cases h : u.val < 32 <;> by_cases h' : t.val < 32
    · simp [h, h', hu, hv]
    · simp [h, h', hu]
    · simp [h, h', hu]
    · omega

/-- R99: a run offered: admitted and absent, or HELD; no other run and no other bay changes. -/
theorem Path.offerRun_cases (p : Path) (t : Fin 33) (r : VoidRun) :
    (p.bays.bay[trackOf t].fill + 16 ≤ p.bays.bay[trackOf t].capacity ∧
      p.offerRun t r = ({ p with
        bays := p.bays.set (trackOf t)
          { p.bays.bay[trackOf t] with items := p.bays.bay[trackOf t].items ++ [.voidRun t r] } } : Path).setRun t none) ∨
    (p.bays.bay[trackOf t].capacity < p.bays.bay[trackOf t].fill + 16 ∧
      p.offerRun t r = p.setRun t (some { r with held := true })) := by
  unfold Path.offerRun Path.push
  cases h : p.bays.push (trackOf t) (.voidRun t r) with
  | none => exact .inr ⟨(Bays.push_eq_none _ _ _).mp h, rfl⟩
  | some bs =>
    obtain ⟨h1, rfl⟩ := (Bays.push_eq_some _ _ _ _).mp h
    exact .inl ⟨h1, rfl⟩

/-- R99: what the end of a run leaves of the runs and the bays of a track. -/
theorem Path.endRun_track (p : Path) (t : Fin 33) (u : Fin 34) (h : u ≠ trackOf t) :
    (p.endRun t).bays.bay[u] = p.bays.bay[u] ∧ (p.endRun t).runOfTrack u = p.runOfTrack u := by
  have hr : ∀ q : Path, ∀ r, (q.setRun t r).runOfTrack u = q.runOfTrack u := fun q r => by
    unfold Path.runOfTrack
    split
    · rename_i hu
      rw [Path.runOf_setRun, if_neg]
      rintro rfl; exact h (Fin.ext rfl)
    · rfl
  unfold Path.endRun
  split
  · rename_i r _
    split
    · exact ⟨rfl, rfl⟩
    · rcases p.offerRun_cases t r with ⟨_, e⟩ | ⟨_, e⟩ <;> simp only [e, hr, Path.setRun_bays]
      · rw [Bays.set_bay, if_neg h]; exact ⟨rfl, rfl⟩
      · exact ⟨trivial, trivial⟩
  · exact ⟨rfl, rfl⟩

/-- The path that an age close of track `t` leaves: an OPEN run ended (R142). -/
def Path.ageEnded (p : Path) (t : Fin 34) : Path := if h : t.val < 33 then p.endRun ⟨t.val, h⟩ else p

theorem Path.ageEnded_track (p : Path) (t u : Fin 34) (h : u ≠ t) :
    (p.ageEnded t).bays.bay[u] = p.bays.bay[u] ∧ (p.ageEnded t).runOfTrack u = p.runOfTrack u := by
  unfold Path.ageEnded; split
  · exact p.endRun_track _ u (fun e => h e)
  · exact ⟨rfl, rfl⟩

/-- R142: whether the age close of a track begins. -/
def State.ageDue (s : State) (t : Fin 34) : Bool :=
  match s.writer.arming, s.writer.sheets[t] with
  | some a, some o => decide (o.pend = none) && decide (a.ageLimit * 250 ≤ s.frame - o.opened)
  | _, _ => false

/-- R142 on one track: its OPEN run ended and AGE pending with the items of its bay, or nothing. -/
theorem State.ageClose_eq (s : State) (t : Fin 34) :
    s.ageClose t = if s.ageDue t then { s with
        path := s.path.ageEnded t
        writer := s.writer.setSheet t (s.writer.sheets[t].map fun o =>
          { o with pend := some { reason := .age, drain := (s.path.ageEnded t).bays.bay[t].items.length } }) }
      else s := by
  unfold State.ageClose State.ageDue Path.ageEnded
  rcases ha : s.writer.arming with _ | a <;> rcases ho : s.writer.sheets[t] with _ | o <;> simp only [Bool.and_eq_true,
    decide_eq_true_eq, Bool.false_eq_true, if_false]
  split
  · rename_i h; simp only [OpenSheet.setPend, h.1, Option.map_some]
  · rfl

/-! ### What a release hands on (R100, R123, R127, R14) -/

/-- R14: a held SITTING_CLOSE that is admitted changes bay 33 and the held mark alone. -/
theorem State.offerFinal_only (s : State) : s.offerFinal = { s with
    path := { s.path with bays := s.offerFinal.path.bays }
    sitting := { s.sitting with finalMark := s.offerFinal.sitting.finalMark } } := by
  unfold State.offerFinal
  repeat' split
  all_goals rfl

/-- R123: what a release hands on changes the audio path and the held SITTING_CLOSE alone. -/
theorem State.handRelease_only (s : State) (t : Fin 34) : s.handRelease t = { s with
    path := (s.handRelease t).path
    sitting := { s.sitting with finalMark := (s.handRelease t).sitting.finalMark } } := by
  unfold State.handRelease State.offerFinal; dsimp only
  repeat' split
  all_goals rfl

@[simp] theorem State.handRelease_bus (s : State) (t : Fin 34) : (s.handRelease t).bus = s.bus := by rw [State.handRelease_only]
@[simp] theorem State.handRelease_timer (s : State) (t : Fin 34) : (s.handRelease t).timer = s.timer := by rw [State.handRelease_only]
@[simp] theorem State.handRelease_scan (s : State) (t : Fin 34) : (s.handRelease t).scan = s.scan := by rw [State.handRelease_only]
@[simp] theorem State.handRelease_portA (s : State) (t : Fin 34) : (s.handRelease t).portA = s.portA := by rw [State.handRelease_only]
@[simp] theorem State.handRelease_portB (s : State) (t : Fin 34) : (s.handRelease t).portB = s.portB := by rw [State.handRelease_only]
@[simp] theorem State.handRelease_writer (s : State) (t : Fin 34) : (s.handRelease t).writer = s.writer := by rw [State.handRelease_only]
@[simp] theorem State.handRelease_supply (s : State) (t : Fin 34) : (s.handRelease t).supply = s.supply := by rw [State.handRelease_only]
@[simp] theorem State.handRelease_hostMem (s : State) (t : Fin 34) : (s.handRelease t).hostMem = s.hostMem := by rw [State.handRelease_only]
@[simp] theorem State.handRelease_draws (s : State) (t : Fin 34) : (s.handRelease t).draws = s.draws := by rw [State.handRelease_only]
@[simp] theorem State.handRelease_pending (s : State) (t : Fin 34) : (s.handRelease t).pending = s.pending := by rw [State.handRelease_only]

/-! ### The discard of ABANDON STAGED (R16, R129, R144) -/

/-- With every bay empty no track starves, and none enters the starving set (R145). -/
theorem State.refresh_empty (s : State) (h : ∀ k : Fin 34, s.path.bays.bay[k].items = []) :
    s.refresh = { s with writer := { s.writer with starving := Vector.replicate 34 false } } := by
  have hv : (Vector.ofFn s.starves : Vector Bool 34) = Vector.replicate 34 false := by
    ext i hi
    have := h ⟨i, hi⟩
    simp_all [State.starves]
  unfold State.refresh
  dsimp only
  rw [hv, if_neg (by simp)]

/-- What the discard counts, in the terms of the statements (R129). -/
theorem State.discardCounts_eq (s : State) :
    s.discardCounts =
      { channels := s.stagedChannels
        mix := s.path.bays.bay[trackOf mixTrack].fill + (if s.path.fcu.mixRun.isSome then 16 else 0)
        marks := s.path.bays.bay[markTrack].fill + (if s.sitting.finalMark.isSome then 20 else 0) } := by
  have hm : s.path.runOf mixTrack = s.path.fcu.mixRun := by unfold Path.runOf; rw [dif_neg (by decide)]
  have hc : s.path.stagedBytes ((List.finRange 32).map soundTrack) = s.stagedChannels := by
    unfold State.stagedChannels Path.stagedBytes
    rw [List.map_map]
    congr 1
  have hx : s.path.stagedBytes [mixTrack] =
      s.path.bays.bay[trackOf mixTrack].fill + (if s.path.fcu.mixRun.isSome then 16 else 0) := by
    simp [Path.stagedBytes, hm]
  unfold State.discardCounts
  rw [hc, hx]

/-- A waiting abandon with no write in flight discards everything staged; `u` is the part without it, but for the abandon
and what the discard itself sets. -/
theorem State.discard_discards (s u : State) (cells : List (Fin 16))
    (ha : s.sitting.abandon = some { cells := cells, discarded := none }) (ht : s.writer.turn = none)
    (hu : u = { s with
      sitting := { s.sitting with abandon := u.sitting.abandon }
      writer := { s.writer with starving := u.writer.starving }
      path := { s.path with attn := u.path.attn } }) :
    Discards u s.discardIfWaiting.refresh cells ∧ s.discardIfWaiting.refresh.scan = s.scan := by
  have e : s.discardIfWaiting = { s with
      path := s.path.discardStaged
      writer := s.writer.discardStaged
      sitting := { s.sitting with
        finalMark := none, abandon := some { cells := cells, discarded := some s.discardCounts } } } := by
    unfold State.discardIfWaiting
    rw [ha]
    dsimp only
    rw [if_pos ht]
  have hb (k : Fin 34) : s.path.discardStaged.bays.bay[k] = { s.path.bays.bay[k] with items := [] } := by
    unfold Path.discardStaged
    simp
  rw [e, State.refresh_empty _ (fun k => by show (s.path.discardStaged.bays.bay[k]).items = []; rw [hb]), hu,
    s.discardCounts_eq]
  refine ⟨⟨rfl, hb, rfl, rfl, rfl, rfl, fun c => ?_, fun k => ?_⟩, rfl⟩
  · show (s.path.channels.map fun ch => { ch with run := none })[c] = _
    simp
  · show (s.writer.sheets.map fun o => o.map OpenSheet.abandoned)[k] = _
    simp
    rfl

/-- A turn that ends with an abandon waiting ends as it does without it, and then everything staged is discarded. -/
theorem State.turnEnded_discards (s : State) (cells : List (Fin 16))
    (ha : s.sitting.abandon = some { cells := cells, discarded := none }) :
    Discards { s with sitting := { s.sitting with abandon := none } }.turnEnded s.turnEnded cells ∧
      s.turnEnded.scan = s.scan :=
  State.discard_discards (s.setTurn none) _ cells ha rfl (by
    unfold State.turnEnded State.discardIfWaiting State.setTurn State.refresh
    dsimp only
    split <;> rfl)

/-! ### The completion of an abandon (R14, R16, R146) -/

/-- One result handed back for several held cells stands in each of their entries, and no other entry changes (R151). -/
theorem Scanner.finishAll_eq (sc : Scanner) (cs : List (Fin 16)) (r : Result) :
    sc.finishAll cs r =
      { sc with held := sc.held.map fun h => if h.cell ∈ cs then { h with result := some r } else h } := by
  unfold Scanner.finishAll
  induction cs generalizing sc with
  | nil => simp
  | cons c cs ih =>
    rw [List.foldl_cons, ih]
    simp only [Scanner.finish, List.map_map]
    congr 1
    apply List.map_congr_left
    intro h _
    simp only [Function.comp, List.mem_cons]
    by_cases h1 : h.cell = c <;> by_cases h2 : h.cell ∈ cs <;> simp [h1, h2]

/-- The completion of an abandon hands each held cell one result: a flush that the discard emptied, the abandon and the
close come in this order, so that none of them undoes another (R16, R146). -/
theorem State.completeAbandon_held (s : State) (cells : List (Fin 16)) (d : Discarded) (g : CloseTarget)
    (emptied : List (Fin 16)) (flushed : Result)
    (h1 : ∀ f, s.writer.flush = some f → f.abandoned = true → f.complete = false → emptied = f.cells ∧
      flushed = ⟨.done, BitVec.ofNat 32 f.closed, BitVec.ofNat 32 f.counted, 1⟩)
    (h2 : (∀ f, s.writer.flush = some f → f.abandoned = false ∨ f.complete = true) → emptied = []) :
    (s.completeAbandon { cells := cells, discarded := some d } d g).scan.held = s.scan.held.map fun h => { h with
      result := if h.cell ∈ emptied then some flushed
        else if h.cell ∈ cells then
          some ⟨.done, BitVec.ofNat 32 d.channels, BitVec.ofNat 32 d.mix, BitVec.ofNat 32 d.marks⟩
        else if g.cell = some h.cell then some ⟨.done, BitVec.ofNat 32 g.last,
          BitVec.ofNat 32 (d.channels + d.mix + d.marks), BitVec.ofNat 32 (g.sheets % 65536 + 65536)⟩
        else h.result } := by
  have hclose : (s.reachArmed g (d.channels + d.mix + d.marks) 1).scan.held = s.scan.held.map fun h => { h with
      result := if g.cell = some h.cell then some ⟨.done, BitVec.ofNat 32 g.last,
          BitVec.ofNat 32 (d.channels + d.mix + d.marks), BitVec.ofNat 32 (g.sheets % 65536 + 65536)⟩
        else h.result } := by
    unfold State.reachArmed
    cases hc : g.cell with
    | none => simp
    | some c =>
      show (s.scan.finish c _).held = _
      unfold Scanner.finish
      apply List.map_congr_left
      intro h _
      by_cases e : h.cell = c
      · simp [e]; rfl
      · have : ¬ c = h.cell := fun x => e x.symm
        simp [e, this]
  unfold State.completeAbandon
  dsimp only
  cases hf : (s.reachArmed g (d.channels + d.mix + d.marks) 1).writer.flush with
  | none =>
    dsimp only
    rw [h2 (fun f h => absurd (h.symm.trans hf) (by simp)), Scanner.finishAll_eq, hclose]
    simp only [List.map_map]
    apply List.map_congr_left
    intro h _
    by_cases e : h.cell ∈ cells <;> simp [e, Result.mk3]
  | some f =>
    dsimp only
    by_cases e : f.abandoned = true ∧ f.complete = false
    · obtain ⟨he, hr⟩ := h1 f hf e.1 e.2
      rw [if_pos e, he, hr]
      simp only [State.completeFlush, Scanner.finishAll_eq, hclose, List.map_map]
      apply List.map_congr_left
      intro h _
      by_cases e1 : h.cell ∈ f.cells <;> by_cases e2 : h.cell ∈ cells <;>
        simp [e1, e2, Result.mk3, Flush.result, bit, e.1]
    · rw [if_neg e, h2 (fun f' hh => by
        cases hf.symm.trans hh
        cases ha : f.abandoned <;> cases hb : f.complete <;> simp_all)]
      dsimp only
      rw [Scanner.finishAll_eq, hclose]
      simp only [List.map_map]
      apply List.map_congr_left
      intro h _
      by_cases e : h.cell ∈ cells <;> simp [e, Result.mk3]

/-- What the completion of an abandon changes apart from the results that it hands to held cells (R14, R16, R146). -/
theorem State.completeAbandon_only (s : State) (a : Abandon) (d : Discarded) (g : CloseTarget) :
    s.completeAbandon a d g = { s with
      sitting := { s.sitting with state := .armed, close := none, finalMark := none, abandon := none }
      path := { s.path.sittingEnded with
        attn := if g.reason = .limit then s.path.attn.raise .sitting else s.path.attn }
      scan := { s.scan with held := (s.completeAbandon a d g).scan.held }
      supply := { s.supply with dipStart := none }
      writer := { s.writer with
        flush := s.writer.flush.map fun f =>
          if f.abandoned = true ∧ f.complete = false then { f with complete := true } else f } } := by
  have hr (n m : Nat) : s.reachArmed g n m = { s with
      sitting := { s.sitting with state := .armed, close := none, finalMark := none, abandon := none }
      path := { s.path.sittingEnded with
        attn := if g.reason = .limit then s.path.attn.raise .sitting else s.path.attn }
      scan := { s.scan with held := (s.reachArmed g n m).scan.held }
      supply := { s.supply with dipStart := none } } := by
    unfold State.reachArmed
    cases g.reason <;> cases g.cell <;> rfl
  unfold State.completeAbandon
  dsimp only
  rw [hr]
  simp only [Scanner.finishAll_eq]
  cases hf : s.writer.flush with
  | none => simp only [Option.map_none]; rw [← hf]
  | some f =>
    by_cases e : f.abandoned = true ∧ f.complete = false
    · simp only [if_pos e, Option.map_some, State.completeFlush, Scanner.finishAll_eq]
    · simp only [if_neg e, Option.map_some]; rw [← hf]

end Sys2Proof.Machine
end

