-- ==== Sys2Proof/Laws/Boundary.lean ====
section
/-! SUPPORT. A boundary in three parts, said once: what stands before the sitting moves, the sitting's own move, and the
interval that begins; what each part leaves of the timer, the supply and the sitting (R9, R14, R22, R163), and the room of
the mark bay after an opening (R9, R126). -/
namespace Sys2Proof.Machine

/-- A boundary up to the sitting's own move. -/
def State.endInterval (s : State) (a b : Bool) : State :=
  (s.advanceTimer.roundsOver s.timer a b).closeFrame.roundsOver s.timer (!a) (!b)

/-- A boundary after the sitting's own move. -/
def State.openInterval (s : State) : State := s.takeSnapshots.ownMix.beginInterval

theorem State.boundary_parts (s : State) (a b : Bool) : s.boundary a b = (s.endInterval a b).moveSitting.openInterval := rfl

/-- The three blocks that only the timer, the supervisor and the controller change at a boundary. -/
structure SameCourt (s t : State) : Prop where
  supply : t.supply = s.supply
  sitting : t.sitting = s.sitting
  timer : t.timer = s.timer

theorem SameCourt.refl (s : State) : SameCourt s s := ⟨rfl, rfl, rfl⟩

theorem SameCourt.trans {s t u : State} (h1 : SameCourt s t) (h2 : SameCourt t u) : SameCourt s u :=
  ⟨h2.supply.trans h1.supply, h2.sitting.trans h1.sitting, h2.timer.trans h1.timer⟩

theorem State.roundOver_court (s : State) (ended : Timer) (p : PortId) : SameCourt s (s.roundOver ended p) := by
  unfold State.roundOver; cases p <;> exact ⟨rfl, rfl, rfl⟩

theorem State.roundsOver_court (s : State) (ended : Timer) (a b : Bool) : SameCourt s (s.roundsOver ended a b) := by
  unfold State.roundsOver
  cases a <;> cases b <;> simp only [if_true, if_false, Bool.false_eq_true]
  · exact SameCourt.refl s
  · exact s.roundOver_court ended .b
  · exact s.roundOver_court ended .a
  · exact (s.roundOver_court ended .a).trans ((s.roundOver ended .a).roundOver_court ended .b)

/-- The close of a frame leaves the supply and the timer. -/
theorem State.closeFrame_supply (s : State) : s.closeFrame.supply = s.supply ∧ s.closeFrame.timer = s.timer := by
  have ho (t : State) : t.offerFinal.supply = t.supply ∧ t.offerFinal.timer = t.timer := by
    rw [State.offerFinal_only]; exact ⟨rfl, rfl⟩
  unfold State.closeFrame; dsimp only
  split
  · exact ⟨rfl, rfl⟩
  · split
    · exact ⟨(State.setEmptyCloses_supply _).trans (ho _).1, (State.setEmptyCloses_timer _).trans (ho _).2⟩
    · exact ⟨rfl, rfl⟩

/-- Without a close target the close of a frame leaves the sitting (R14). -/
theorem State.closeFrame_sitting (s : State) (h : s.sitting.close = none) : s.closeFrame.sitting = s.sitting := by
  unfold State.closeFrame; dsimp only
  split
  · rfl
  · rw [if_neg]
    unfold Sitting.isLast; rw [h]; simp

/-- What stands before the sitting moves: the supply as it was, and the timer advanced. -/
theorem State.endInterval_supply (s : State) (a b : Bool) :
    (s.endInterval a b).supply = s.supply ∧ (s.endInterval a b).timer = s.advanceTimer.timer := by
  unfold State.endInterval
  have h1 := s.advanceTimer.roundsOver_court s.timer a b
  have h2 := (s.advanceTimer.roundsOver s.timer a b).closeFrame_supply
  have h3 := (s.advanceTimer.roundsOver s.timer a b).closeFrame.roundsOver_court s.timer (!a) (!b)
  exact ⟨h3.supply.trans (h2.1.trans h1.supply), h3.timer.trans (h2.2.trans h1.timer)⟩

/-- Without a close target the sitting stands as it was until its own move. -/
theorem State.endInterval_sitting (s : State) (a b : Bool) (h : s.sitting.close = none) :
    (s.endInterval a b).sitting = s.sitting := by
  unfold State.endInterval
  have h1 := (s.advanceTimer.roundsOver_court s.timer a b).sitting
  rw [(State.roundsOver_court _ _ _ _).sitting, State.closeFrame_sitting _ (by rw [h1]; exact h), h1]
  rfl

theorem State.ageCloses_court (s : State) : SameCourt s s.ageCloses := by
  unfold State.ageCloses
  generalize List.finRange 34 = l
  induction l generalizing s with
  | nil => exact SameCourt.refl s
  | cons t l ih =>
    have h : SameCourt s (s.ageClose t) := by rw [State.ageClose_eq]; split <;> exact ⟨rfl, rfl, rfl⟩
    exact h.trans (ih (s.ageClose t))

theorem State.portWork_court (s : State) (p : PortId) : SameCourt s (s.portWork p) := by
  unfold State.portWork; cases p <;> exact ⟨rfl, rfl, rfl⟩

/-- The interval that begins leaves the supply, the sitting and the timer. -/
theorem State.openInterval_court (s : State) : SameCourt s s.openInterval := by
  have h1 : SameCourt s s.takeSnapshots.ownMix := by
    unfold State.ownMix State.takeSnapshots; dsimp only; split <;> exact ⟨rfl, rfl, rfl⟩
  have h2 := ((h1.trans (State.portWork_court _ .a)).trans (State.portWork_court _ .b)).trans (State.ageCloses_court _)
  have h3 (u : State) : SameCourt u u.refresh := by unfold State.refresh; exact ⟨rfl, rfl, rfl⟩
  have h4 (u : State) : SameCourt u u.beginScan := by unfold State.beginScan; dsimp only; exact ⟨rfl, rfl, rfl⟩
  exact (h2.trans (h3 _)).trans (h4 _)

/-! ### The room of the mark bay (R126) -/

/-- From `p` to `q` at most `n` bytes more stand in the mark bay, of marks that are admitted wherever they fit; the runs and
the floors stay. -/
structure Path.Room (p q : Path) (n : Nat) : Prop where
  floors : q.fcu.floors = p.fcu.floors
  mixRun : q.fcu.mixRun = p.fcu.mixRun
  runs : ∀ c : Fin 32, q.channels[c].run = p.channels[c].run
  units : q.bays.bay[markTrack].units = p.bays.bay[markTrack].units
  room : ∀ f, p.bays.withheld = 0 → p.bays.bay[markTrack].fill ≤ f → f + n ≤ p.bays.bay[markTrack].capacity →
    q.bays.withheld = 0 ∧ q.bays.bay[markTrack].fill ≤ f + n

theorem Path.Room.refl (p : Path) (n : Nat) : p.Room p n :=
  ⟨rfl, rfl, fun _ => rfl, rfl, fun _ h1 _ _ => ⟨h1, by omega⟩⟩

theorem Path.Room.trans {p q r : Path} {n m : Nat} (h1 : p.Room q n) (h2 : q.Room r m) : p.Room r (n + m) where
  floors := h2.floors.trans h1.floors
  mixRun := h2.mixRun.trans h1.mixRun
  runs c := (h2.runs c).trans (h1.runs c)
  units := h2.units.trans h1.units
  room f a b c := by
    obtain ⟨w, fl⟩ := h1.room f a b (by omega)
    have h := h2.room (f + n) w fl (by unfold Bay.capacity at *; rw [h1.units]; omega)
    exact ⟨h.1, by omega⟩

/-- A mark of at most 20 bytes that is not of the reserve class. -/
theorem Path.room_mark (x : Ctx) (k : MarkKind) (f : Nat) (p : Path) (hk : k.isReserve = false) (hs : k.size ≤ 20) :
    p.Room (p.mark x k f) 20 := by
  unfold Path.mark
  split
  · refine ⟨rfl, rfl, fun _ => rfl, (Bays.grows_offer _ _).units _, ?_⟩
    intro g h1 h2 h3
    rcases Bays.offer_cases p.bays { kind := k, frame := f, time := x.tod } with ⟨_, e⟩ | ⟨h, _⟩
    · rw [e]
      refine ⟨by rw [Bays.set_withheld]; exact h1, ?_⟩
      rw [Bays.set_bay, if_pos rfl]
      unfold Bay.fill at *; rw [itemsBytes_append]
      have : itemsBytes [Item.mark { kind := k, frame := f, time := x.tod }] = k.size := by simp [itemsBytes, Item.size]
      omega
    · exfalso
      unfold MarkKind.level at h
      rw [hk] at h
      simp only [Bool.false_eq_true, if_false] at h
      have : ({ kind := k, frame := f, time := x.tod } : Mark).kind.size = k.size := rfl
      omega
  · exact Path.Room.refl _ _

theorem Path.room_snapshotChannel (x : Ctx) (f : Nat) (on : Bool) (p : Path) (c : Fin 32) :
    p.Room (p.snapshotChannel x f on c) 20 := by
  have h0 : p.Room (p.setChannel c (p.channels[c].takeSnapshot f on)) 0 := by
    refine ⟨rfl, rfl, fun d => ?_, rfl, fun _ h1 h2 _ => ⟨h1, h2⟩⟩
    rw [Path.setChannel_get]
    split
    · rename_i e; subst e; rfl
    · rfl
  unfold Path.snapshotChannel; dsimp only
  split
  · simpa using h0.trans (Path.room_mark x (.barSet c) f _ rfl (Nat.le_refl _))
  · split
    · simpa using h0.trans (Path.room_mark x (.barCleared c) f _ rfl (Nat.le_refl _))
    · exact h0.trans (Path.Room.refl _ 20)

/-- The snapshots of a boundary make at most one bar mark for each channel (R88, R91). -/
theorem Path.room_takeSnapshots (x : Ctx) (f : Nat) (on : Bool) (p : Path) : p.Room (p.takeSnapshots x f on) 640 := by
  unfold Path.takeSnapshots
  have key (l : List (Fin 32)) (q : Path) : q.Room (l.foldl (Path.snapshotChannel x f on) q) (20 * l.length) := by
    induction l generalizing q with
    | nil => exact Path.Room.refl _ _
    | cons c l ih =>
      rw [List.foldl_cons, List.length_cons, show 20 * (l.length + 1) = 20 + 20 * l.length by omega]
      exact (Path.room_snapshotChannel x f on q c).trans (ih _)
  have h := key (List.finRange 32) p
  rw [List.length_finRange] at h; exact h

/-- A port's boundary work makes at most a PORT_RESTORED (R52). -/
theorem State.room_portWork (s : State) (p : PortId) : s.path.Room (s.portWork p).path 20 := by
  have h : s.path.Room ((s.link p).boundaryWork s.ctx p).path 20 := by
    unfold Link.boundaryWork Link.portMark; dsimp only
    split
    · exact (Path.room_mark s.ctx (.portRestored p) s.ctx.frame s.path rfl (Nat.le_refl _)).trans
        (m := 0) ⟨rfl, rfl, fun _ => rfl, rfl, fun _ h1 h2 _ => ⟨h1, h2⟩⟩
    · exact Path.Room.refl _ _
  unfold State.portWork; dsimp only
  cases p <;> exact h

/-- Where no run is pending the age closes leave the path (R142). -/
theorem State.ageCloses_path (s : State) (h : ∀ k : Fin 33, s.path.runOf k = none) : s.ageCloses.path = s.path := by
  unfold State.ageCloses
  generalize List.finRange 34 = l
  induction l generalizing s with
  | nil => rfl
  | cons t l ih =>
    have e : (s.ageClose t).path = s.path := by
      unfold State.ageClose; dsimp only
      split
      · split
        · dsimp only
          split
          · unfold Path.endRun; rw [h]
          · rfl
        · rfl
      · rfl
    rw [List.foldl_cons, ih _ (by rw [e]; exact h), e]

/-! ### Reports outside a sitting (R71, R82) -/

/-- A report outside a sitting makes no mark, so no bay changes. -/
theorem Path.report_bays (x : Ctx) (k : Fin 16) (probe : Bool) (r : Report) (p : Path) :
    (p.report x none k probe r).bays = p.bays := by
  unfold Path.report Path.recordReport Path.driftMark Path.stationMark; dsimp only
  repeat' split
  all_goals rfl

theorem Link.hand_bays (x : Ctx) (hx : x.polled = none) (p : PortId) (probe : Bool) (r : Report) (l : Link) (a : Fin 8) :
    (l.hand x p probe r a).path.bays = l.path.bays := by
  unfold Link.hand; dsimp only; rw [hx]; exact Path.report_bays _ _ _ _ _

theorem Link.handAll_bays (x : Ctx) (hx : x.polled = none) (p : PortId) (r : Report) (as : List (Fin 8)) (l : Link) :
    (l.handAll x p r as).path.bays = l.path.bays := by
  unfold Link.handAll
  induction as generalizing l with
  | nil => rfl
  | cons a as ih => rw [List.foldl_cons, ih, Link.hand_bays x hx]

theorem Link.handListed_bays (x : Ctx) (hx : x.polled = none) (p : PortId) (r : Report) (l : Link) :
    (l.handListed x p r).path.bays = l.path.bays := by
  unfold Link.handListed
  split
  · split
    · rfl
    · exact Link.hand_bays x hx _ _ _ _ _
  · rfl

/-- The end of a round outside a sitting changes no bay. -/
theorem Link.roundOver_bays (x : Ctx) (hx : x.polled = none) (p : PortId) (l : Link) :
    (l.roundOver x p).path.bays = l.path.bays := by
  have hlost (q : Path) : (q.portLost p).bays = q.bays := by
    unfold Path.portLost
    generalize List.finRange 8 = as
    induction as generalizing q with
    | nil => rfl
    | cons a as ih => rw [List.foldl_cons, ih]; rfl
  unfold Link.roundOver
  split
  · split
    · unfold Link.leaveRunning; dsimp only
      rw [Link.handAll_bays x hx]; exact hlost _
    · have h1 : (if l.port.deadlinePassed then l else l.deadline x p).path.bays = l.path.bays := by
        split
        · rfl
        · unfold Link.deadline; dsimp only; split
          · rfl
          · dsimp only; rw [Link.handAll_bays x hx]
      rw [← h1]
      generalize (if l.port.deadlinePassed then l else l.deadline x p) = m
      unfold Link.cutCall; dsimp only
      split
      · exact Link.handListed_bays x hx _ _ _
      · exact Link.handListed_bays x hx _ _ _
      · exact Link.handListed_bays x hx _ _ _
      · split
        · rfl
        · exact Link.handListed_bays x hx _ _ _
      all_goals rfl
  · rfl

end Sys2Proof.Machine
end

