-- ==== Sys2Proof/Laws/Bytes.lean ====
section
/-! SUPPORT. Byte lists: lengths, and numbers read back from the bytes that were written (Conventions, R167 to R171). -/
namespace Sys2Proof.Machine

@[simp] theorem length_leBytes (n v : Nat) : (leBytes n v).length = n := by
  induction n generalizing v with
  | zero => rfl
  | succ n ih => simp [leBytes, ih]

@[simp] theorem length_leSigned (v : Int) : (leSigned v).length = 2 := length_leBytes 2 _

@[simp] theorem length_zeros (n : Nat) : (zeros n).length = n := by simp [zeros]

@[simp] theorem length_flatMap_leSigned (v : List Int) : (v.flatMap leSigned).length = 2 * v.length := by
  induction v with
  | nil => rfl
  | cons x rest ih => simp [List.flatMap_cons, ih]; omega

/-- Padding reaches the length asked for, when the bytes are no more. -/
theorem length_padTo (n : Nat) (bs : List Byte) (h : bs.length ≤ n) : (padTo n bs).length = n := by
  simp [padTo]; omega

/-- Reading where only what stands in front has been passed over. -/
theorem readLE_append_right (as bs : List Byte) (off n : Nat) :
    readLE (as ++ bs) (as.length + off) n = readLE bs off n := by
  induction n generalizing off with
  | zero => rfl
  | succ n ih =>
    have h : (as ++ bs).getD (as.length + off) 0 = bs.getD off 0 := by
      simp [List.getD_eq_getElem?_getD, List.getElem?_append_right]
    simp only [readLE, h, Nat.add_assoc, ih]

/-- Reading inside the front part. -/
theorem readLE_append_left (as bs : List Byte) (off n : Nat) (h : off + n ≤ as.length) :
    readLE (as ++ bs) off n = readLE as off n := by
  induction n generalizing off with
  | zero => rfl
  | succ n ih =>
    have h' : (as ++ bs).getD off 0 = as.getD off 0 := by
      simp [List.getD_eq_getElem?_getD, List.getElem?_append_left (show off < as.length by omega)]
    simp only [readLE, h', ih (off + 1) (by omega)]

/-- Reading past a byte at the front. -/
theorem readLE_cons (b : Byte) (bs : List Byte) (off n : Nat) : readLE (b :: bs) (off + 1) n = readLE bs off n := by
  have h := readLE_append_right [b] bs off n
  rwa [List.length_singleton, Nat.add_comm] at h

/-- A number of `n` bytes reads back, from the bytes that `leBytes` gives, whatever follows them. -/
theorem readLE_leBytes (n v : Nat) (rest : List Byte) (h : v < 256 ^ n) : readLE (leBytes n v ++ rest) 0 n = v := by
  induction n generalizing v with
  | zero => simp at h; subst h; rfl
  | succ n ih =>
    have hv : v / 256 < 256 ^ n := by rw [Nat.div_lt_iff_lt_mul (by omega)]; rwa [Nat.pow_succ] at h
    simp only [leBytes, readLE, List.cons_append]
    rw [readLE_cons, ih _ hv]
    simp
    omega

/-- The data characters of a bundle before its check are 7 and two for each sample (R171). -/
theorem length_body (b : Bundle) : b.body.length = 7 + 2 * (b.samples[0].length + b.samples[1].length) := by
  simp [Bundle.body]; omega

/-- A 16-bit signed value reads back (R171). -/
theorem readSigned_leSigned (v : Int) (rest : List Byte) (h1 : -32768 ≤ v) (h2 : v ≤ 32767) :
    readSigned (leSigned v ++ rest) 0 = v := by
  unfold readSigned leSigned
  rw [readLE_leBytes 2 _ rest (by have := (BitVec.ofInt 16 v).isLt; omega)]
  have h : BitVec.ofNat 16 (BitVec.ofInt 16 v).toNat = BitVec.ofInt 16 v := BitVec.eq_of_toNat_eq (by simp; omega)
  rw [h, BitVec.toInt_ofInt, Int.bmod_def]
  split <;> omega

end Sys2Proof.Machine
end

