-- ==== Sys2Proof/Laws/Channels.lean ====
section
/-! SUPPORT. What the operations of the settling of a channel frame leave of that channel: its record, its detector and its
bay (R89, R95 to R101, R105 to R113, R117 to R119). -/
namespace Sys2Proof.Machine

/-- A mark stands in bay 33 or is withheld, so no other bay changes (R126). -/
@[simp] theorem Path.mark_bay (x : Ctx) (k : MarkKind) (f : Nat) (p : Path) (t : Fin 33) :
    (p.mark x k f).bays.bay[trackOf t] = p.bays.bay[trackOf t] := by
  unfold Path.mark
  split
  · rcases p.bays.offer_cases { kind := k, frame := f, time := x.tod } with ⟨_, e⟩ | ⟨_, e⟩
    · show (p.bays.offer _).bay[_] = _
      rw [e, Bays.set_bay, if_neg (trackOf_ne_mark t)]
    · show (p.bays.offer _).bay[_] = _
      rw [e]; rfl
  · rfl

/-- A mark changes no channel. -/
theorem Path.mark_channel (x : Ctx) (k : MarkKind) (f : Nat) (p : Path) (c : Fin 32) :
    (p.mark x k f).channels[c] = p.channels[c] := by unfold Path.mark; split <;> rfl

/-- A mark changes no detector. -/
theorem Path.mark_floor (x : Ctx) (k : MarkKind) (f : Nat) (p : Path) (c : Fin 32) :
    (p.mark x k f).fcu.floors[c] = p.fcu.floors[c] := by unfold Path.mark; split <;> rfl

/-- The mark of a transition changes no channel, no detector and no bay of a sound track (R113). -/
theorem Path.floorMark_view (x : Ctx) (c : Fin 32) (on : Bool) (news : Option FloorNews) (p : Path) :
    (p.floorMark x c on news).channels = p.channels ∧ (p.floorMark x c on news).fcu = p.fcu ∧
      ∀ t : Fin 33, (p.floorMark x c on news).bays.bay[trackOf t] = p.bays.bay[trackOf t] := by
  unfold Path.floorMark
  split
  · exact ⟨Path.mark_channels .., Path.mark_fcu .., Path.mark_bay x _ _ p⟩
  · exact ⟨Path.mark_channels .., Path.mark_fcu .., Path.mark_bay x _ _ p⟩
  · exact ⟨rfl, rfl, fun _ => rfl⟩

/-- What a step of the detector leaves of its channel's records (R109). -/
theorem Path.stepFloor_view (x : Ctx) (c : Fin 32) (f : Nat) (sn : Snapshot) (loud : Bool) (peak : Nat) (p : Path) :
    (p.stepFloor x c f sn loud peak).channels = p.channels ∧
      (p.stepFloor x c f sn loud peak).fcu.floors[c] =
        { (p.fcu.floors[c].step sn.settings f loud).1 with lastPeak := peak, offLast := !sn.onRecord } ∧
      ∀ t : Fin 33, (p.stepFloor x c f sn loud peak).bays.bay[trackOf t] = p.bays.bay[trackOf t] := by
  unfold Path.stepFloor; dsimp only
  obtain ⟨h1, h2, h3⟩ := (p.setFloor c { (p.fcu.floors[c].step sn.settings f loud).1 with
    lastPeak := peak, offLast := !sn.onRecord }).floorMark_view x c sn.onRecord (p.fcu.floors[c].step sn.settings f loud).2
  exact ⟨h1, by rw [h2, Path.setFloor_get, if_pos rfl], h3⟩

/-- R118: the economy test leaves every channel and detector, and of the bay all but the flag. -/
theorem Path.economyTest_view (x : Ctx) (t : Fin 33) (f : Nat) (p : Path) :
    (p.economyTest x t f).1.channels = p.channels ∧ (p.economyTest x t f).1.fcu = p.fcu ∧
      (p.economyTest x t f).1.bays.bay[trackOf t] =
        { p.bays.bay[trackOf t] with economy := (p.economyTest x t f).2 } ∧
      ((p.economyTest x t f).2 = true ↔
        (p.bays.bay[trackOf t].economy = false ∧ 3 * p.bays.bay[trackOf t].capacity ≤ 4 * p.bays.bay[trackOf t].fill) ∨
        (p.bays.bay[trackOf t].economy = true ∧ p.bays.bay[trackOf t].capacity < 4 * p.bays.bay[trackOf t].fill)) := by
  have hs (e : Bool) : (p.bays.set (trackOf t) { p.bays.bay[trackOf t] with economy := e }).bay[trackOf t] =
      { p.bays.bay[trackOf t] with economy := e } := by rw [Bays.set_bay, if_pos rfl]
  have hc : p.bays.bay[trackOf t].capacity = p.bays.bay[trackOf t].units * 256 := rfl
  have hself (e : Bool) (h : p.bays.bay[trackOf t].economy = e) :
      p.bays.bay[trackOf t] = { p.bays.bay[trackOf t] with economy := e } := by rw [← h]
  unfold Path.economyTest; dsimp only
  cases he : p.bays.bay[trackOf t].economy
  · rw [if_neg (by simp)]
    split
    · exact ⟨by simp, by simp, (Path.mark_bay x _ f _ t).trans (hs true), fun _ => .inl ⟨rfl, by omega⟩, fun _ => rfl⟩
    · refine ⟨rfl, rfl, hself _ he, fun h => (by cases h), ?_⟩
      rintro (⟨_, h⟩ | ⟨h, _⟩)
      · omega
      · cases h
  · rw [if_pos rfl]
    split
    · refine ⟨by simp, by simp, (Path.mark_bay x _ f _ t).trans (hs false), fun h => (by cases h), ?_⟩
      rintro (⟨h, _⟩ | ⟨_, h⟩)
      · cases h
      · omega
    · exact ⟨rfl, rfl, hself _ he, fun _ => .inr ⟨rfl, by omega⟩, fun _ => rfl⟩

/-- The run of a channel's track is the channel's (R85). -/
theorem Path.runOf_sound (p : Path) (c : Fin 32) : p.runOf (soundTrack c) = p.channels[c].run := by
  unfold Path.runOf; rw [dif_pos (by simp [soundTrack])]; rfl

/-- The run of a channel's track set is the channel's (R85). -/
theorem Path.setRun_sound (p : Path) (c : Fin 32) (r : Option VoidRun) :
    p.setRun (soundTrack c) r = p.setChannel c { p.channels[c] with run := r } := by
  unfold Path.setRun; rw [dif_pos (by simp [soundTrack])]; rfl

/-- A channel's run and the bays changed, and nothing else of the audio path. -/
def Path.RunMoved (p q : Path) (c : Fin 32) : Prop :=
  ∃ r bs, q = { p.setChannel c { p.channels[c] with run := r } with bays := bs }

theorem Path.RunMoved.refl (p : Path) (c : Fin 32) : p.RunMoved p c :=
  ⟨p.channels[c].run, p.bays, by
    show p = { p with channels := p.channels.set c.val p.channels[c] c.isLt }
    rw [show p.channels.set c.val p.channels[c] c.isLt = p.channels from Vector.set_getElem_self c.isLt]⟩

theorem Path.RunMoved.trans {a b d : Path} {c : Fin 32} (h1 : a.RunMoved b c) (h2 : b.RunMoved d c) : a.RunMoved d c := by
  obtain ⟨r1, b1, rfl⟩ := h1
  obtain ⟨r2, b2, rfl⟩ := h2
  exact ⟨r2, b2, by simp [Path.setChannel]⟩

theorem Path.runMoved_setRun (p : Path) (c : Fin 32) (r : Option VoidRun) : p.RunMoved (p.setRun (soundTrack c) r) c :=
  ⟨r, p.bays, by rw [Path.setRun_sound]; rfl⟩

theorem Path.runMoved_offerRun (p : Path) (c : Fin 32) (r : VoidRun) : p.RunMoved (p.offerRun (soundTrack c) r) c := by
  rcases p.offerRun_cases (soundTrack c) r with ⟨_, e⟩ | ⟨_, e⟩
  · rw [e, Path.setRun_sound]; exact ⟨none, _, rfl⟩
  · rw [e]; exact p.runMoved_setRun c _

theorem Path.runMoved_endRun (p : Path) (c : Fin 32) : p.RunMoved (p.endRun (soundTrack c)) c := by
  unfold Path.endRun
  split
  · split
    · exact .refl p c
    · exact p.runMoved_offerRun c _
  · exact .refl p c

theorem Path.runMoved_takeVoid (p : Path) (c : Fin 32) (cause : VoidCause) (f : Nat) :
    p.RunMoved (p.takeVoid (soundTrack c) cause f).1 c := by
  unfold Path.takeVoid
  split
  · exact p.runMoved_setRun c _
  · split
    · exact p.runMoved_setRun c _
    · split
      · dsimp only
        split
        · exact (p.runMoved_setRun c _).trans (Path.runMoved_endRun _ c)
        · exact p.runMoved_setRun c _
      · dsimp only
        split
        · exact (p.runMoved_endRun c).trans (Path.runMoved_setRun _ c _)
        · exact (p.runMoved_endRun c).trans (Path.runMoved_setRun _ c _)

/-- R98, R101: a void frame adds one to the void count and leaves the clip count, the captured count and every detector. -/
theorem Path.voidFrame_view (p : Path) (c : Fin 32) (f : Nat) (cause : VoidCause) :
    (p.voidFrame c f cause).fcu = p.fcu ∧
      (p.voidFrame c f cause).channels[c].clips = p.channels[c].clips ∧
      (p.voidFrame c f cause).channels[c].captured = p.channels[c].captured ∧
      (p.voidFrame c f cause).channels[c].voids = min 4294967295 (p.channels[c].voids + 1) ∧
      ∃ k, (p.voidFrame c f cause).channels[c].outcome = some (.void k) := by
  obtain ⟨r, bs, e⟩ := p.runMoved_takeVoid c cause f
  unfold Path.voidFrame; dsimp only
  rw [Path.setChannel_get, if_pos rfl, e]
  have hg : (Path.channels { p.setChannel c { p.channels[c] with run := r } with bays := bs })[c] =
      { p.channels[c] with run := r } := by
    show (p.setChannel c _).channels[c] = _
    rw [Path.setChannel_get, if_pos rfl]
  rw [hg]
  exact ⟨rfl, rfl, rfl, rfl, _, rfl⟩

/-- R99: what the end of a channel's run leaves where no run remains: the run's block, if there was one, in the bay. -/
theorem Path.endRun_none (p : Path) (c : Fin 32) (h : (p.endRun (soundTrack c)).channels[c].run = none) :
    (p.endRun (soundTrack c)).bays.bay[trackOf (soundTrack c)] =
      { p.bays.bay[trackOf (soundTrack c)] with
        items := p.bays.bay[trackOf (soundTrack c)].items ++
          (p.channels[c].run.map fun r => Item.voidRun (soundTrack c) r).toList } := by
  unfold Path.endRun at h ⊢
  rw [Path.runOf_sound] at h ⊢
  cases hr : p.channels[c].run with
  | none => simp
  | some r =>
    rw [hr] at h
    dsimp only at h ⊢
    by_cases hh : r.held = true
    · rw [if_pos hh] at h; exact absurd (hr.symm.trans h) (by simp)
    · rw [if_neg hh] at h ⊢
      rcases p.offerRun_cases (soundTrack c) r with ⟨_, e⟩ | ⟨_, e⟩
      · rw [e]
        refine (congrArg (fun bs : Bays => bs.bay[trackOf (soundTrack c)]) (Path.setRun_bays _ _ _)).trans ?_
        show (p.bays.set _ _).bay[_] = _
        rw [Bays.set_bay, if_pos rfl]; rfl
      · rw [e, Path.setRun_sound, Path.setChannel_get, if_pos rfl] at h; cases h

/-- A contribution to the mix changes no detector (R114). -/
@[simp] theorem Fcu.contribute_floors (u : Fcu) (f : Nat) (g : List Int) : (u.contribute f g).floors = u.floors := by
  unfold Fcu.contribute; rfl

/-- R101, R107, R109, R114: what an admitted block leaves of its channel's records. -/
theorem Path.takeSample_view (x : Ctx) (c : Fin 32) (f : Nat) (sn : Snapshot) (g : List Int) (n : Nat) (p : Path) :
    (p.takeSample x c f sn g n).channels[c] = p.channels[c].countSample n ∧
      (p.takeSample x c f sn g n).fcu.floors[c] =
        { (p.fcu.floors[c].step sn.settings f (decide (sn.settings.threshold ≤ peakOf g))).1 with
          lastPeak := peakOf g, offLast := !sn.onRecord } ∧
      ∀ t : Fin 33, (p.takeSample x c f sn g n).bays.bay[trackOf t] = p.bays.bay[trackOf t] := by
  have key (p2 : Path) (b : Prop) [Decidable b] (ch : Channel) (fl : Floor) (h1 : p2.channels[c] = ch)
      (h2 : p2.fcu.floors[c] = fl) (h3 : ∀ t : Fin 33, p2.bays.bay[trackOf t] = p.bays.bay[trackOf t]) :
      (if b then { p2 with fcu := p2.fcu.contribute f g } else p2).channels[c] = ch ∧
        (if b then { p2 with fcu := p2.fcu.contribute f g } else p2).fcu.floors[c] = fl ∧
        ∀ t : Fin 33, (if b then { p2 with fcu := p2.fcu.contribute f g } else p2).bays.bay[trackOf t] =
          p.bays.bay[trackOf t] := by
    split
    · exact ⟨h1, by simp only [Fcu.contribute_floors]; exact h2, h3⟩
    · exact ⟨h1, h2, h3⟩
  have hs := (p.setChannel c (p.channels[c].countSample n)).stepFloor_view x c f sn
    (decide (sn.settings.threshold ≤ peakOf g)) (peakOf g)
  rw [Path.setChannel_fcu] at hs
  simp only [Path.setChannel_bays] at hs
  exact key _ _ _ _ (by rw [hs.1, Path.setChannel_get, if_pos rfl]) hs.2.1 hs.2.2

/-- R117 to R119: what an offered block leaves: the channels and detectors as they were, the economy flag as the test sets
it, and the block at the end of the bay where it was admitted. -/
theorem Path.offerBlock_view (x : Ctx) (t : Fin 33) (f : Nat) (clip : Bool) (g : List Int) (p q : Path) (ok : Bool)
    (ec : Bool) (h : p.offerBlock x t f clip 0 g = (q, ok)) (hec : (p.economyTest x t f).2 = ec) :
    q.channels = p.channels ∧ q.fcu = p.fcu ∧
      (ok = true → q.bays.bay[trackOf t] = { p.bays.bay[trackOf t] with
        economy := ec, items := p.bays.bay[trackOf t].items ++ [.sample (blockOf t f ec clip 0 g)] }) := by
  obtain ⟨e1, e2, e3, _⟩ := p.economyTest_view x t f
  unfold Path.offerBlock at h
  dsimp only at h
  rw [hec] at h e3
  generalize (p.economyTest x t f).1 = p2 at h e1 e2 e3
  unfold Path.push at h
  cases hp : p2.bays.push (trackOf t) (.sample (blockOf t f ec clip 0 g)) with
  | none =>
    rw [hp] at h
    cases h
    exact ⟨e1, e2, fun h => (by cases h)⟩
  | some bs =>
    rw [hp] at h
    cases h
    refine ⟨e1, e2, fun _ => ?_⟩
    rw [((Bays.push_eq_some _ _ _ _).mp hp).2]
    refine (Bays.set_bay _ _ _ _).trans ?_
    rw [if_pos rfl, e3]

/-- R101, R105 to R109, R117 to R119: what an on-record frame to be sampled leaves of its channel: a block of the gained
samples after the run it ended, with the counts and the step of the detector that go with it, or a void frame. -/
theorem Path.sampleFrame_view (x : Ctx) (c : Fin 32) (f : Nat) (sn : Snapshot) (samples : List Int) (p q : Path)
    (g : List Int) (n : Nat) (hon : sn.onRecord = true) (hq : p.sampleFrame x c f sn samples = q)
    (hg : gained sn.settings.gain samples = g) (hn : saturatedCount sn.settings.gain samples = n) :
    (q.channels[c].outcome = some .sample ∧
      q.bays.bay[trackOf (soundTrack c)].items = p.bays.bay[trackOf (soundTrack c)].items ++
        (p.channels[c].run.map fun r => Item.voidRun (soundTrack c) r).toList ++
        [.sample { track := soundTrack c, frame := f, economy := q.bays.bay[trackOf (soundTrack c)].economy
                   clip := decide (n ≠ 0), delivered := samples.length, contributors := 0
                   samples := if q.bays.bay[trackOf (soundTrack c)].economy then halve g else g }] ∧
      (∀ fill, fill = p.bays.bay[trackOf (soundTrack c)].fill + (if p.channels[c].run = none then 0 else 16) →
        (q.bays.bay[trackOf (soundTrack c)].economy = true ↔
          (p.bays.bay[trackOf (soundTrack c)].economy = false ∧
            3 * p.bays.bay[trackOf (soundTrack c)].capacity ≤ 4 * fill) ∨
          (p.bays.bay[trackOf (soundTrack c)].economy = true ∧
            p.bays.bay[trackOf (soundTrack c)].capacity < 4 * fill))) ∧
      q.channels[c].clips = min 65535 (p.channels[c].clips + n) ∧
      q.channels[c].captured = min 4294967295 (p.channels[c].captured + 1) ∧
      q.channels[c].voids = p.channels[c].voids ∧
      q.fcu.floors[c] = { (p.fcu.floors[c].step sn.settings f (decide (sn.settings.threshold ≤ peakOf g))).1 with
        lastPeak := peakOf g, offLast := false }) ∨
    ((∃ k, q.channels[c].outcome = some (.void k)) ∧ q.channels[c].clips = p.channels[c].clips ∧
      q.channels[c].captured = p.channels[c].captured ∧
      q.channels[c].voids = min 4294967295 (p.channels[c].voids + 1) ∧
      q.fcu.floors[c] = { (p.fcu.floors[c].step sn.settings f false).1 with lastPeak := peakOf g, offLast := false }) := by
  have hchan (q : Path) (h : p.RunMoved q c) : q.fcu = p.fcu ∧ ∃ r, q.channels[c] = { p.channels[c] with run := r } := by
    obtain ⟨r, bs, rfl⟩ := h
    exact ⟨rfl, r, by show (p.setChannel c _).channels[c] = _; rw [Path.setChannel_get, if_pos rfl]⟩
  have he := p.runMoved_endRun c
  have hnone := p.endRun_none c
  unfold Path.sampleFrame Path.offerUnlessHeld at hq
  dsimp only at hq
  rw [hg, hn] at hq
  generalize p.endRun (soundTrack c) = p1 at he hnone hq
  obtain ⟨hf1, r1, hc1⟩ := hchan p1 he
  rw [Path.runOf_sound] at hq
  -- the void frame, from any path with these channel records
  have hvoid (p2 : Path) (h2 : p2.fcu = p.fcu) (r2 : Option VoidRun)
      (h3 : p2.channels[c] = { p.channels[c] with run := r2 })
      (h4 : (p2.voidFrame c f .noRoom).stepFloor x c f sn false (peakOf g) = q) :
      (∃ k, q.channels[c].outcome = some (.void k)) ∧ q.channels[c].clips = p.channels[c].clips ∧
      q.channels[c].captured = p.channels[c].captured ∧
      q.channels[c].voids = min 4294967295 (p.channels[c].voids + 1) ∧
      q.fcu.floors[c] = { (p.fcu.floors[c].step sn.settings f false).1 with lastPeak := peakOf g, offLast := false } := by
    obtain ⟨v1, v2, v3, v4, v5⟩ := p2.voidFrame_view c f .noRoom
    obtain ⟨s1, s2, _⟩ := (p2.voidFrame c f .noRoom).stepFloor_view x c f sn false (peakOf g)
    subst h4
    rw [s1, s2, v1, v2, v3, v4, h2, h3]
    refine ⟨v5, rfl, rfl, rfl, by rw [hon]; rfl⟩
  by_cases hh : p1.channels[c].run.isSome = true
  · rw [if_pos hh, if_neg (by simp)] at hq
    exact .inr (hvoid p1 hf1 r1 hc1 hq)
  · rw [if_neg hh] at hq
    have hrn : p1.channels[c].run = none := by simpa using hh
    have hb := hnone hrn
    obtain ⟨-, -, -, e4⟩ := p1.economyTest_view x (soundTrack c) f
    generalize hec : (p1.economyTest x (soundTrack c) f).2 = ec at e4
    generalize ho : p1.offerBlock x (soundTrack c) f (decide (n ≠ 0)) 0 g = o at hq
    obtain ⟨p2, ok⟩ := o
    obtain ⟨e1, e2, e3⟩ := p1.offerBlock_view x (soundTrack c) f _ g p2 ok ec ho hec
    have hch2 : p2.channels[c] = { p.channels[c] with run := r1 } := by rw [e1]; exact hc1
    cases ok
    · exact .inr (hvoid p2 (e2.trans hf1) r1 hch2 hq)
    · left
      rw [hb] at e3 e4
      replace e3 := e3 rfl
      change p2.takeSample x c f sn g n = q at hq
      obtain ⟨t1, t2, t3⟩ := p2.takeSample_view x c f sn g n
      rw [hq] at t1 t2 t3
      replace t3 := (t3 (soundTrack c)).trans e3
      have hlen : g.length = samples.length := by rw [← hg]; simp [gained]
      rw [t1, t2, t3, hch2, e2, hf1, hon]
      refine ⟨rfl, ?_, ?_, rfl, rfl, rfl, rfl⟩
      · rw [← hlen]; rfl
      · intro fill hfill
        have hfi : fill = Bay.fill { p.bays.bay[trackOf (soundTrack c)] with
            items := p.bays.bay[trackOf (soundTrack c)].items ++
              (p.channels[c].run.map fun r => Item.voidRun (soundTrack c) r).toList } := by
          rw [hfill]
          cases p.channels[c].run <;> simp [Bay.fill, itemsBytes, Item.size]
        rw [hfi]; exact e4

/-- R112: a forced end changes no channel and no bay of a sound track. -/
theorem Path.forceFloor_view (x : Ctx) (on : Bool) (p : Path) (c : Fin 32) :
    (p.forceFloor x on c).channels = p.channels ∧
      ∀ t : Fin 33, (p.forceFloor x on c).bays.bay[trackOf t] = p.bays.bay[trackOf t] := by
  obtain ⟨h1, _, h3⟩ := (p.setFloor c p.fcu.floors[c].force.1).floorMark_view x c on p.fcu.floors[c].force.2
  exact ⟨h1, h3⟩

/-- R89, R112: privacy settled after the detector was resumed: the channel keeps all but its privacy and that it is settled,
no bay of a sound track changes, and where privacy is not effective the detector is the resumed one. -/
theorem Path.settlePrivacy_view (x : Ctx) (c : Fin 32) (f : Nat) (sn : Snapshot) (button : Bool) (p : Path)
    (hon : sn.onRecord = true) (now : Bool) (hnow : now = ((button || sn.settings.privacy) && !sn.settings.bar)) :
    ((p.resumeFloor c sn).settlePrivacy x c f sn button).channels[c] =
        { p.channels[c] with privacy := now, settled := true } ∧
      (∀ t : Fin 33, ((p.resumeFloor c sn).settlePrivacy x c f sn button).bays.bay[trackOf t] =
        p.bays.bay[trackOf t]) ∧
      (now = false → ((p.resumeFloor c sn).settlePrivacy x c f sn button).fcu.floors[c] =
        if p.fcu.floors[c].offLast then p.fcu.floors[c].quiet else p.fcu.floors[c]) := by
  obtain ⟨r1, r2, r3⟩ : (p.resumeFloor c sn).channels = p.channels ∧ (p.resumeFloor c sn).bays = p.bays ∧
      (p.resumeFloor c sn).fcu.floors[c] =
        if p.fcu.floors[c].offLast then p.fcu.floors[c].quiet else p.fcu.floors[c] := by
    unfold Path.resumeFloor; dsimp only
    cases ho : p.fcu.floors[c].offLast
    · rw [if_neg (by simp)]; exact ⟨rfl, rfl, rfl⟩
    · rw [if_pos ⟨hon, rfl⟩]; exact ⟨rfl, rfl, by rw [Path.setFloor_get, if_pos rfl]; rfl⟩
  generalize p.resumeFloor c sn = p0 at r1 r2 r3
  unfold Path.settlePrivacy
  dsimp only
  rw [← hnow, r1]
  have hc : (p0.setChannel c { p.channels[c] with privacy := now, settled := true }).channels[c] =
      { p.channels[c] with privacy := now, settled := true } := by rw [Path.setChannel_get, if_pos rfl]
  have hb (t : Fin 33) : (p0.setChannel c { p.channels[c] with privacy := now, settled := true }).bays.bay[trackOf t] =
      p.bays.bay[trackOf t] := by rw [Path.setChannel_bays, r2]
  have hf : (p0.setChannel c { p.channels[c] with privacy := now, settled := true }).fcu.floors[c] =
      if p.fcu.floors[c].offLast then p.fcu.floors[c].quiet else p.fcu.floors[c] := by rw [Path.setChannel_fcu, r3]
  generalize p0.setChannel c { p.channels[c] with privacy := now, settled := true } = p1 at hc hb hf
  split
  · rename_i h
    obtain ⟨f1, f2⟩ := p1.forceFloor_view x sn.onRecord c
    refine ⟨(Path.mark_channel ..).trans (by rw [f1, hc]), fun t => (Path.mark_bay ..).trans ((f2 t).trans (hb t)), fun e => ?_⟩
    rw [e] at h; cases h.1
  · split
    · exact ⟨(Path.mark_channel ..).trans hc, fun t => (Path.mark_bay ..).trans (hb t), fun _ => (Path.mark_floor ..).trans hf⟩
    · exact ⟨hc, hb, fun _ => hf⟩

/-- R95, R97: no cause of a void frame is left only for a good bundle of a PRESENT or MISSING record with its microphone,
without the supply warning. -/
theorem causeOf_none (w : Bool) (how : Settling) (st : Station) (m : Fin 2) :
    causeOf w how st m = none ↔ w = false ∧ (∃ b, how = .report (.good b)) ∧
      (st.state = .present ∨ st.state = .missing) ∧ st.mics[m].present = true := by
  unfold causeOf
  rcases how with r | ran
  · rcases r <;> cases w <;> cases st.state <;> cases st.mics[m].present <;> simp
  · cases ran <;> cases w <;> cases st.state <;> simp

end Sys2Proof.Machine
end

