-- ==== Sys2Proof/Laws/Settling.lean ====
section
/-! SUPPORT. The settling of a channel frame, said once: it stays within its own channel and bay, what a void frame and a
frame to be sampled leave of the channel's record, and so what a report and the close of a frame leave (R71, R89, R95 to
R101, R114 to R116). -/
namespace Sys2Proof.Machine

/-! ### Beside a track -/

/-- From `p` to `q` no channel and no bay changed but those of track `t`. -/
def Path.Beside (p q : Path) (t : Fin 33) : Prop :=
  ∀ c : Fin 32, soundTrack c ≠ t → q.channels[c] = p.channels[c] ∧
    q.bays.bay[trackOf (soundTrack c)] = p.bays.bay[trackOf (soundTrack c)]

theorem Path.Beside.refl (p : Path) (t : Fin 33) : p.Beside p t := fun _ _ => ⟨rfl, rfl⟩

theorem Path.Beside.trans {a b d : Path} {t : Fin 33} (h1 : a.Beside b t) (h2 : b.Beside d t) : a.Beside d t :=
  fun c hc => ⟨(h2 c hc).1.trans (h1 c hc).1, (h2 c hc).2.trans (h1 c hc).2⟩

/-- One channel, one sound track. -/
theorem soundTrack_injective {c d : Fin 32} (h : soundTrack c = soundTrack d) : c = d := by
  have := congrArg Fin.val h
  exact Fin.ext (by simpa [soundTrack] using this)

/-- No channel's track is the mix. -/
theorem soundTrack_ne_mix (c : Fin 32) : soundTrack c ≠ mixTrack := by
  intro h
  have := congrArg Fin.val h
  simp [soundTrack, mixTrack] at this
  omega

theorem Path.beside_mark (x : Ctx) (k : MarkKind) (f : Nat) (p : Path) (t : Fin 33) : p.Beside (p.mark x k f) t :=
  fun c _ => ⟨Path.mark_channel x k f p c, Path.mark_bay x k f p _⟩

theorem Path.beside_setChannel (p : Path) (d : Fin 32) (ch : Channel) : p.Beside (p.setChannel d ch) (soundTrack d) := by
  intro c hc
  refine ⟨?_, rfl⟩
  rw [Path.setChannel_get, if_neg (fun e => hc (by rw [e]))]

theorem Path.beside_setRun (p : Path) (t : Fin 33) (r : Option VoidRun) : p.Beside (p.setRun t r) t := by
  unfold Path.setRun
  split
  · exact p.beside_setChannel _ _
  · exact fun _ _ => ⟨rfl, rfl⟩

theorem Path.beside_push {p p' : Path} {t : Fin 33} {i : Item} (h : p.push t i = some p') : p.Beside p' t := by
  unfold Path.push at h
  cases hb : p.bays.push (trackOf t) i with
  | none => rw [hb] at h; cases h
  | some bs =>
    rw [hb] at h
    cases h
    intro c hc
    refine ⟨rfl, ?_⟩
    show bs.bay[_] = _
    rw [((Bays.push_eq_some _ _ _ _).mp hb).2, Bays.set_bay, if_neg (fun e => hc (trackOf_injective e))]

theorem Path.beside_offerRun (p : Path) (t : Fin 33) (r : VoidRun) : p.Beside (p.offerRun t r) t := by
  unfold Path.offerRun; split
  · rename_i h; exact (Path.beside_push h).trans (Path.beside_setRun _ t _)
  · exact p.beside_setRun t _

theorem Path.beside_endRun (p : Path) (t : Fin 33) : p.Beside (p.endRun t) t := by
  unfold Path.endRun; split
  · split
    · exact .refl p t
    · exact p.beside_offerRun t _
  · exact .refl p t

theorem Path.beside_takeVoid (p : Path) (t : Fin 33) (cause : VoidCause) (f : Nat) : p.Beside (p.takeVoid t cause f).1 t := by
  unfold Path.takeVoid
  split
  · exact p.beside_setRun t _
  · split
    · exact p.beside_setRun t _
    · split
      · dsimp only; split
        · exact (p.beside_setRun t _).trans (Path.beside_endRun _ t)
        · exact p.beside_setRun t _
      · dsimp only; split
        · exact (p.beside_endRun t).trans (Path.beside_setRun _ t _)
        · exact (p.beside_endRun t).trans (Path.beside_setRun _ t _)

theorem Path.beside_floor (x : Ctx) (c : Fin 32) (on : Bool) (news : Option FloorNews) (fl : Floor) (p : Path) (t : Fin 33) :
    p.Beside ((p.setFloor c fl).floorMark x c on news) t := by
  obtain ⟨h1, _, h3⟩ := (p.setFloor c fl).floorMark_view x c on news
  exact fun d _ => ⟨by rw [h1]; rfl, h3 _⟩

theorem Path.beside_stepFloor (p : Path) (x : Ctx) (c : Fin 32) (f : Nat) (sn : Snapshot) (loud : Bool) (peak : Nat)
    (t : Fin 33) : p.Beside (p.stepFloor x c f sn loud peak) t := Path.beside_floor x c _ _ _ p t

theorem Path.beside_economyTest (x : Ctx) (t : Fin 33) (f : Nat) (p : Path) : p.Beside (p.economyTest x t f).1 t := by
  have set (e : Bool) : p.Beside { p with bays := p.bays.set (trackOf t) { p.bays.bay[trackOf t] with economy := e } } t := by
    intro c hc
    refine ⟨rfl, ?_⟩
    show (p.bays.set _ _).bay[_] = _
    rw [Bays.set_bay, if_neg (fun e => hc (trackOf_injective e))]
  unfold Path.economyTest; dsimp only
  split
  · split
    · exact (set false).trans (Path.beside_mark x _ f _ t)
    · exact .refl p t
  · split
    · exact ((set true).trans (Path.beside_mark x _ f _ t)).trans (fun _ _ => ⟨rfl, rfl⟩)
    · exact .refl p t

theorem Path.beside_offerUnlessHeld (x : Ctx) (t : Fin 33) (f : Nat) (clip : Bool) (n : Nat) (g : List Int) (p : Path) :
    p.Beside (p.offerUnlessHeld x t f clip n g).1 t := by
  unfold Path.offerUnlessHeld Path.offerBlock; dsimp only
  split
  · exact .refl p t
  · split
    · rename_i h; exact (p.beside_economyTest x t f).trans (Path.beside_push h)
    · exact p.beside_economyTest x t f

theorem Path.beside_voidFrame (d : Fin 32) (f : Nat) (cause : VoidCause) (p : Path) :
    p.Beside (p.voidFrame d f cause) (soundTrack d) :=
  (p.beside_takeVoid _ cause f).trans (Path.beside_setChannel _ d _)

theorem Path.beside_sampleFrame (x : Ctx) (d : Fin 32) (f : Nat) (sn : Snapshot) (samples : List Int) (p : Path) :
    p.Beside (p.sampleFrame x d f sn samples) (soundTrack d) := by
  have h := (p.beside_endRun (soundTrack d)).trans (Path.beside_offerUnlessHeld x (soundTrack d) f
    (decide (saturatedCount sn.settings.gain samples ≠ 0)) 0 (gained sn.settings.gain samples) _)
  unfold Path.sampleFrame; dsimp only
  generalize (p.endRun (soundTrack d)).offerUnlessHeld x (soundTrack d) f
    (decide (saturatedCount sn.settings.gain samples ≠ 0)) 0 (gained sn.settings.gain samples) = o at h ⊢
  split
  · refine h.trans ?_
    unfold Path.takeSample; dsimp only
    have h1 := o.1.beside_setChannel d (o.1.channels[d].countSample (saturatedCount sn.settings.gain samples))
    generalize o.1.setChannel d (o.1.channels[d].countSample (saturatedCount sn.settings.gain samples)) = q at h1 ⊢
    have h2 := h1.trans (q.beside_stepFloor x d f sn
      (decide (sn.settings.threshold ≤ peakOf (gained sn.settings.gain samples)))
      (peakOf (gained sn.settings.gain samples)) _)
    split
    · exact h2.trans (fun _ _ => ⟨rfl, rfl⟩)
    · exact h2
  · exact h.trans ((Path.beside_voidFrame d f _ _).trans (Path.beside_floor x d _ _ _ _ _))

/-- A settling stays within its own channel and bay (R95 to R98). -/
theorem Path.beside_settle (x : Ctx) (f : Nat) (how : Settling) (p : Path) (d : Fin 32) :
    p.Beside (p.settle x f how d) (soundTrack d) := by
  have resume (sn : Snapshot) : p.Beside (p.resumeFloor d sn) (soundTrack d) := by
    unfold Path.resumeFloor; dsimp only; split
    · exact fun _ _ => ⟨rfl, rfl⟩
    · exact .refl _ _
  have priv (sn : Snapshot) (button : Bool) (q : Path) : q.Beside (q.settlePrivacy x d f sn button) (soundTrack d) := by
    unfold Path.settlePrivacy; dsimp only
    have h1 := q.beside_setChannel d { q.channels[d] with
      privacy := (button || sn.settings.privacy) && !sn.settings.bar, settled := true }
    split
    · exact h1.trans ((Path.beside_floor x d _ _ _ _ _).trans (Path.beside_mark x _ f _ _))
    · split
      · exact h1.trans (Path.beside_mark x _ f _ _)
      · exact h1
  unfold Path.settle; dsimp only
  split
  · exact .refl _ _
  · rename_i sn _
    split
    · have h1 := (resume sn).trans (priv sn (buttonPart how p.stations[stationOf d].mics[micOf d] (micOf d)) _)
      split
      · split
        · exact h1.trans ((Path.beside_voidFrame d f _ _).trans (Path.beside_floor x d _ _ _ _ _))
        · split
          · exact h1.trans ((Path.beside_voidFrame d f _ _).trans (Path.beside_floor x d _ _ _ _ _))
          · exact h1.trans (Path.beside_sampleFrame x d f sn _ _)
      · split
        · exact h1.trans (Path.beside_floor x d _ _ _ _ _)
        · exact h1.trans (Path.beside_floor x d _ _ _ _ _)
    · exact .refl _ _

/-- The mix of a frame stays within its own track (R115, R116). -/
theorem Path.beside_finishMix (x : Ctx) (f : Nat) (on : Bool) (p : Path) : p.Beside (p.finishMix x f on) mixTrack := by
  have h : p.Beside (if p.fcu.mixOn = true ∧ on = true then p.disposeMix x f else p) mixTrack := by
    split
    · unfold Path.disposeMix
      split
      · exact p.beside_takeVoid _ _ _
      · split
        · exact p.beside_takeVoid _ _ _
        · have h := (p.beside_endRun mixTrack).trans (Path.beside_offerUnlessHeld x mixTrack f
            (decide (p.fcu.mixSaturated ≠ 0)) p.fcu.contributors p.fcu.mixSamples _)
          dsimp only
          split
          · exact h.trans (fun _ _ => ⟨rfl, rfl⟩)
          · exact h.trans (Path.beside_takeVoid _ _ _ _)
    · exact .refl _ _
  unfold Path.finishMix; dsimp only
  exact h.trans (fun _ _ => ⟨rfl, rfl⟩)

/-! ### What a settling leaves of its own channel (R89, R95 to R98, R101) -/

/-- A frame that a channel does not hold, or has settled, is not settled again (R95). -/
theorem Path.settle_not (x : Ctx) (f : Nat) (how : Settling) (p : Path) (c : Fin 32)
    (h : p.channels[c].snapshot f = none ∨ p.channels[c].settled = true ∨ p.channels[c].seated = false) :
    p.settle x f how c = p := by
  unfold Path.settle; dsimp only
  split
  · rfl
  · rename_i sn hsn
    rw [if_neg]
    rintro ⟨h1, h2, _⟩
    rcases h with h | h | h
    · rw [hsn] at h; cases h
    · rw [h] at h2; cases h2
    · rw [h] at h1; cases h1

/-- R98: a void frame with no run pending begins one. -/
theorem Path.voidFrame_start (p : Path) (c : Fin 32) (f : Nat) (cause : VoidCause) (h : p.channels[c].run = none) :
    (p.voidFrame c f cause).channels[c] = { p.channels[c] with
      run := some (VoidRun.start cause f), voids := min 4294967295 (p.channels[c].voids + 1)
      outcome := some (.void cause) } := by
  unfold Path.voidFrame Path.takeVoid; dsimp only
  rw [Path.runOf_sound, h]
  dsimp only
  rw [Path.setChannel_get, if_pos rfl, Path.setRun_sound, Path.setChannel_get, if_pos rfl]
  rfl

/-- An on-record frame of a void cause, with no run pending (R89, R95, R97, R98, R101). -/
theorem Path.settle_void (x : Ctx) (f : Nat) (how : Settling) (p : Path) (c : Fin 32) (k : Fin 16) (m : Fin 2)
    (hk : k = stationOf c) (hm : m = micOf c) (sn : Snapshot) (st : Station) (asked : Bool) (cause : VoidCause)
    (hsn : p.channels[c].snapshot f = some sn) (hon : sn.onRecord = true)
    (hse : p.channels[c].seated = true) (hun : p.channels[c].settled = false) (hwi : x.sitting.within f = true)
    (hrun : p.channels[c].run = none) (hst : p.stations[k] = st)
    (hpr : asked = ((buttonPart how st.mics[m] m || sn.settings.privacy) && !sn.settings.bar))
    (hca : (if asked then some .privacy else causeOf x.warning how st m) = some cause) :
    (p.settle x f how c).channels[c] = { p.channels[c] with
      privacy := asked, settled := true, run := some (VoidRun.start cause f)
      voids := min 4294967295 (p.channels[c].voids + 1), outcome := some (.void cause) } := by
  subst hk hm
  obtain ⟨v1, _, _⟩ := p.settlePrivacy_view x c f sn (buttonPart how st.mics[micOf c] (micOf c)) hon asked hpr
  unfold Path.settle; dsimp only
  rw [hsn]; dsimp only
  rw [if_pos ⟨hse, hun, hwi⟩, if_pos hon, hst]
  generalize (p.resumeFloor c sn).settlePrivacy x c f sn (buttonPart how st.mics[micOf c] (micOf c)) = p1 at v1 ⊢
  have hvoid : ((p1.voidFrame c f cause).stepFloor x c f sn false 0).channels[c] = { p.channels[c] with
      privacy := asked, settled := true, run := some (VoidRun.start cause f)
      voids := min 4294967295 (p.channels[c].voids + 1), outcome := some (.void cause) } := by
    rw [((p1.voidFrame c f cause).stepFloor_view x c f sn false 0).1,
      p1.voidFrame_start c f cause (by rw [v1]; exact hrun), v1]
  rw [show p1.channels[c].privacy = asked by rw [v1]]
  cases asked
  · rw [if_neg (by decide)] at hca ⊢
    rw [hca]; exact hvoid
  · rw [if_pos rfl] at hca ⊢
    cases hca; exact hvoid

/-- Halving gives no more samples (R117). -/
theorem halve_length : ∀ g : List Int, (halve g).length ≤ g.length
  | [] => Nat.le_refl _
  | [_] => Nat.le_refl _
  | _ :: _ :: rest => by
    have := halve_length rest
    unfold halve
    simp only [List.length_cons]
    omega

/-- Halving gives one sample for each pair and for an odd last one (R117). -/
theorem halve_count : ∀ g : List Int, (halve g).length = (g.length + 1) / 2
  | [] => by simp [halve]
  | [_] => by simp [halve]
  | _ :: _ :: rest => by
    have := halve_count rest
    unfold halve
    simp only [List.length_cons]
    omega

/-- The economy test answers economy where the flag and the fill of the bay say so (R118). -/
theorem Path.economyTest_offers (x : Ctx) (t : Fin 33) (f : Nat) (p : Path) :
    (p.economyTest x t f).2 = p.bays.bay[trackOf t].offersEconomy p.bays.bay[trackOf t].fill := by
  obtain ⟨_, _, _, h⟩ := p.economyTest_view x t f
  rw [Bool.eq_iff_iff, h]
  unfold Bay.offersEconomy
  cases p.bays.bay[trackOf t].economy <;> simp

/-- R117 to R119, R122: an offered block is admitted exactly where the block that the economy test asks for fits, and the bay
keeps its items where it does not. -/
theorem Path.offerBlock_room (x : Ctx) (t : Fin 33) (f : Nat) (clip : Bool) (n : Nat) (g : List Int) (p : Path) (bay : Bay)
    (hb : p.bays.bay[trackOf t] = bay) :
    ((p.offerBlock x t f clip n g).2 = true ↔
      bay.fill + blockRoom (bay.offersEconomy bay.fill) g.length ≤ bay.capacity) ∧
    ((p.offerBlock x t f clip n g).2 = false → (p.offerBlock x t f clip n g).1.channels = p.channels ∧
      (p.offerBlock x t f clip n g).1.bays.bay[trackOf t] = { bay with economy := bay.offersEconomy bay.fill }) := by
  have he := p.economyTest_offers x t f
  obtain ⟨e1, _, e3, _⟩ := p.economyTest_view x t f
  unfold Path.offerBlock
  dsimp only
  rw [hb] at he e3
  rw [he] at e3 ⊢
  generalize bay.offersEconomy bay.fill = ec at e3 ⊢
  generalize (p.economyTest x t f).1 = p2 at e1 e3 ⊢
  have hs : (Item.sample (blockOf t f ec clip n g)).size = blockRoom ec g.length := by
    show pad4 (16 + 2 * (if ec then halve g else g).length) = pad4 (16 + 2 * if ec then (g.length + 1) / 2 else g.length)
    cases ec
    · rfl
    · rw [if_pos rfl, if_pos rfl, halve_count]
  unfold Path.push
  cases hp : p2.bays.push (trackOf t) (.sample (blockOf t f ec clip n g)) with
  | none =>
    have h := (Bays.push_eq_none _ _ _).mp hp
    rw [e3, hs] at h
    change bay.capacity < bay.fill + _ at h
    exact ⟨⟨fun h => (by cases h), fun h' => absurd h' (by omega)⟩, fun _ => ⟨e1, e3⟩⟩
  | some bs =>
    have h := ((Bays.push_eq_some _ _ _ _).mp hp).1
    rw [e3, hs] at h
    exact ⟨⟨fun _ => h, fun _ => rfl⟩, fun h' => (by cases h')⟩

/-- R96, R98, R117 to R119, R122: an on-record frame to be sampled, once no run is pending on its track: SAMPLE exactly where
the block that the economy test asks for fits, and else NO_ROOM with a run of its own, the bay keeping its items. -/
theorem Path.sampleFrame_room (x : Ctx) (c : Fin 32) (f : Nat) (sn : Snapshot) (samples : List Int) (p p1 q : Path)
    (bay : Bay) (room : Nat) (h1 : p.endRun (soundTrack c) = p1) (hr : p1.channels[c].run = none)
    (hb : p1.bays.bay[trackOf (soundTrack c)] = bay)
    (hroom : room = blockRoom (bay.offersEconomy bay.fill) samples.length) (hq : p.sampleFrame x c f sn samples = q) :
    (bay.fill + room ≤ bay.capacity → q.channels[c].outcome = some .sample ∧ q.channels[c].run = none) ∧
    (bay.capacity < bay.fill + room → q.channels[c].outcome = some (.void .noRoom) ∧
      q.channels[c].run = some { cause := .noRoom, first := f, length := 1, tail := 0, held := false } ∧
      q.bays.bay[trackOf (soundTrack c)] = { bay with economy := bay.offersEconomy bay.fill }) := by
  have hlen : (gained sn.settings.gain samples).length = samples.length := by simp [gained]
  subst hroom hq
  generalize hg : gained sn.settings.gain samples = g at hlen
  generalize hn : saturatedCount sn.settings.gain samples = n
  generalize ho : p1.offerBlock x (soundTrack c) f (decide (n ≠ 0)) 0 g = o
  obtain ⟨q, ok⟩ := o
  obtain ⟨r1, r2⟩ := p1.offerBlock_room x (soundTrack c) f (decide (n ≠ 0)) 0 g bay hb
  have hv := (p1.offerBlock_view x (soundTrack c) f _ g q ok _ ho rfl).1
  rw [ho, hlen] at r1
  rw [ho] at r2
  have e : p.sampleFrame x c f sn samples =
      if ok then q.takeSample x c f sn g n else (q.voidFrame c f .noRoom).stepFloor x c f sn false (peakOf g) := by
    unfold Path.sampleFrame Path.offerUnlessHeld
    dsimp only
    rw [h1, hg, hn, Path.runOf_sound, hr, ho]
    rfl
  cases ok
  · replace e : p.sampleFrame x c f sn samples = _ := e.trans (if_neg (by simp))
    refine ⟨fun h => absurd (r1.mpr h) (by simp), fun _ => ?_⟩
    obtain ⟨s1, -, s3⟩ := (q.voidFrame c f .noRoom).stepFloor_view x c f sn false (peakOf g)
    rw [← e] at s1 s3
    have hqr : q.channels[c].run = none := by rw [hv]; exact hr
    have hs := q.voidFrame_start c f .noRoom hqr
    rw [← s1] at hs
    rw [hs, s3]
    refine ⟨rfl, rfl, ?_⟩
    rw [← (r2 rfl).2]
    unfold Path.voidFrame Path.takeVoid
    dsimp only
    rw [Path.runOf_sound, hqr]
    dsimp only
    rw [Path.setChannel_bays, Path.setRun_bays]
  · replace e : p.sampleFrame x c f sn samples = _ := e.trans (if_pos rfl)
    have hfit := r1.mp rfl
    refine ⟨fun _ => ?_, fun h => absurd hfit (by omega)⟩
    obtain ⟨t1, -⟩ := q.takeSample_view x c f sn g n
    rw [e, t1, hv]
    exact ⟨rfl, hr⟩

/-- R96, R116, R118, R119: a block of gained samples is admitted where its full block fits and no run is HELD. -/
theorem Path.offerUnlessHeld_fits (x : Ctx) (t : Fin 33) (f : Nat) (clip : Bool) (n : Nat) (g : List Int) (p : Path)
    (hr : p.runOf t = none)
    (hfit : p.bays.bay[trackOf t].fill + pad4 (16 + 2 * g.length) ≤ p.bays.bay[trackOf t].capacity) :
    (p.offerUnlessHeld x t f clip n g).2 = true := by
  unfold Path.offerUnlessHeld Path.offerBlock
  rw [hr]
  dsimp only
  rw [if_neg (by decide)]
  obtain ⟨_, _, e3, _⟩ := p.economyTest_view x t f
  generalize (p.economyTest x t f).1 = p2 at e3 ⊢
  generalize (p.economyTest x t f).2 = ec at e3 ⊢
  have hs : (Item.sample (blockOf t f ec clip n g)).size ≤ pad4 (16 + 2 * g.length) := by
    show pad4 (16 + 2 * (if ec then halve g else g).length) ≤ _
    have := halve_length g
    unfold pad4
    cases ec
    · exact Nat.le_refl _
    · simp only [if_true]; omega
  cases hp : p2.push t (.sample (blockOf t f ec clip n g)) with
  | some _ => rfl
  | none =>
    exfalso
    have h2 : p2.bays.push (trackOf t) (.sample (blockOf t f ec clip n g)) = none := by
      unfold Path.push at hp
      cases h : p2.bays.push (trackOf t) (.sample (blockOf t f ec clip n g)) with
      | none => rfl
      | some _ => rw [h] at hp; cases hp
    have h3 := (Bays.push_eq_none _ _ _).mp h2
    rw [e3] at h3
    change p.bays.bay[trackOf t].capacity < p.bays.bay[trackOf t].fill + _ at h3
    omega

/-- An on-record frame to be sampled, with no run pending: SAMPLE, or NO_ROOM where its full block does not fit (R95, R96,
R119). -/
theorem Path.settle_sample (x : Ctx) (f : Nat) (b : Bundle) (p : Path) (c : Fin 32) (k : Fin 16) (m : Fin 2)
    (hk : k = stationOf c) (hm : m = micOf c) (sn : Snapshot) (st : Station)
    (hsn : p.channels[c].snapshot f = some sn) (hon : sn.onRecord = true) (hse : p.channels[c].seated = true)
    (hun : p.channels[c].settled = false) (hwi : x.sitting.within f = true) (hrun : p.channels[c].run = none)
    (hst : p.stations[k] = st)
    (hpr : ((b.privacy[m] || sn.settings.privacy) && !sn.settings.bar) = false)
    (hca : causeOf x.warning (.report (.good b)) st m = none) :
    (p.settle x f (.report (.good b)) c).channels[c].settled = true ∧
    ((p.settle x f (.report (.good b)) c).channels[c].outcome = some .sample ∨
      (p.settle x f (.report (.good b)) c).channels[c].outcome = some (.void .noRoom)) ∧
    (p.bays.bay[trackOf (soundTrack c)].fill + pad4 (16 + 2 * b.samples[m].length) ≤
        p.bays.bay[trackOf (soundTrack c)].capacity →
      (p.settle x f (.report (.good b)) c).channels[c].outcome = some .sample) := by
  subst hk hm
  obtain ⟨v1, v2, _⟩ := p.settlePrivacy_view x c f sn
    (buttonPart (.report (.good b)) st.mics[micOf c] (micOf c)) hon false hpr.symm
  unfold Path.settle; dsimp only
  rw [hsn]; dsimp only
  rw [if_pos ⟨hse, hun, hwi⟩, if_pos hon, hst, hca]
  generalize (p.resumeFloor c sn).settlePrivacy x c f sn
    (buttonPart (.report (.good b)) st.mics[micOf c] (micOf c)) = p1 at v1 v2 ⊢
  rw [show p1.channels[c].privacy = false by rw [v1], if_neg (by decide)]
  have hr1 : p1.channels[c].run = none := by rw [v1]; exact hrun
  have hs1 : p1.channels[c].settled = true := by rw [v1]
  have hend : p1.endRun (soundTrack c) = p1 := by unfold Path.endRun; rw [Path.runOf_sound, hr1]
  have hb1 := v2 (soundTrack c)
  clear v1 v2
  dsimp only [deliveredBy]
  unfold Path.sampleFrame; dsimp only
  rw [hend]
  have hlen : (gained sn.settings.gain b.samples[micOf c]).length = b.samples[micOf c].length := by simp [gained]
  have hfits := p1.offerUnlessHeld_fits x (soundTrack c) f
    (decide (saturatedCount sn.settings.gain b.samples[micOf c] ≠ 0)) 0 (gained sn.settings.gain b.samples[micOf c])
    (by rw [Path.runOf_sound]; exact hr1)
  rw [hb1, hlen] at hfits
  have hch : (p1.offerUnlessHeld x (soundTrack c) f
      (decide (saturatedCount sn.settings.gain b.samples[micOf c] ≠ 0)) 0
      (gained sn.settings.gain b.samples[micOf c])).1.channels = p1.channels := by
    unfold Path.offerUnlessHeld
    split
    · rfl
    · rcases e : p1.offerBlock x (soundTrack c) f
        (decide (saturatedCount sn.settings.gain b.samples[micOf c] ≠ 0)) 0
        (gained sn.settings.gain b.samples[micOf c]) with ⟨q, ok⟩
      exact (p1.offerBlock_view x (soundTrack c) f _ _ q ok _ e rfl).1
  generalize p1.offerUnlessHeld x (soundTrack c) f
    (decide (saturatedCount sn.settings.gain b.samples[micOf c] ≠ 0)) 0
    (gained sn.settings.gain b.samples[micOf c]) = o at hfits hch ⊢
  cases ho : o.2
  · rw [if_neg (by decide), ((o.1.voidFrame c f .noRoom).stepFloor_view x c f sn false _).1,
      o.1.voidFrame_start c f .noRoom (by rw [hch]; exact hr1)]
    exact ⟨by rw [hch]; exact hs1, .inr rfl, fun h => absurd (hfits h) (by rw [ho]; decide)⟩
  · rw [if_pos rfl, (o.1.takeSample_view x c f sn _ _).1]
    exact ⟨by show o.1.channels[c].settled = true; rw [hch]; exact hs1, .inl rfl, fun _ => rfl⟩

/-! ### What a report leaves of the station's two channels (R71, R95) -/

/-- A report's effect on the record changes no channel and no bay of a sound track (R71). -/
theorem Path.beside_recordReport (x : Ctx) (polled : Option Nat) (k : Fin 16) (probe : Bool) (r : Report) (p : Path)
    (t : Fin 33) : p.Beside (p.recordReport x polled k probe r) t := by
  have mark (kind : MarkKind) (q : Path) : q.Beside (q.stationMark x polled kind) t := by
    unfold Path.stationMark; split
    · exact (Path.beside_mark x _ _ q t).trans (fun _ _ => ⟨rfl, rfl⟩)
    · exact fun _ _ => ⟨rfl, rfl⟩
  have drift (b : Bool) (m : Fin 2) (q : Path) : q.Beside (q.driftMark x polled k b m) t := by
    unfold Path.driftMark; dsimp only; split
    · exact mark _ q
    · exact .refl q t
  have set (st : Station) : p.Beside (p.setStation k st) t := fun _ _ => ⟨rfl, rfl⟩
  unfold Path.recordReport
  cases r <;> dsimp only
  · split
    · exact (((set _).trans (mark _ _)).trans (drift _ 0 _)).trans (drift _ 1 _)
    · exact ((set _).trans (drift _ 0 _)).trans (drift _ 1 _)
  all_goals
    split
    · exact (set _).trans (mark _ _)
    · exact set _

/-- The two channels of a station are two. -/
theorem channelOf_inj {k j : Fin 16} {m n : Fin 2} (h : channelOf k m = channelOf j n) : k = j ∧ m = n := by
  have hv := congrArg Fin.val h
  have hm := m.isLt
  have hn := n.isLt
  simp only [channelOf] at hv
  exact ⟨Fin.ext (by omega), Fin.ext (by omega)⟩

@[simp] theorem stationOf_channelOf (k : Fin 16) (m : Fin 2) : stationOf (channelOf k m) = k := by
  apply Fin.ext; simp only [stationOf, channelOf]; omega

@[simp] theorem micOf_channelOf (k : Fin 16) (m : Fin 2) : micOf (channelOf k m) = m := by
  apply Fin.ext; simp only [micOf, channelOf]; omega

/-- The hand-off for one microphone before it settles the frame: a press refused, or nothing (R93). -/
def Path.pressed (x : Ctx) (f : Nat) (k : Fin 16) (r : Report) (before : Bool) (p : Path) (m : Fin 2) : Path :=
  match r with
  | .good b => p.refusePress x f (channelOf k m) before b.privacy[m]
  | .bad | .noReply | .late | .notRunning | .supply => p

theorem Path.handOff_pressed (x : Ctx) (f : Nat) (k : Fin 16) (r : Report) (before : Bool) (p : Path) (m : Fin 2) :
    p.handOff x f k r before m = (p.pressed x f k r before m).settle x f (.report r) (channelOf k m) := rfl

theorem Path.pressed_view (x : Ctx) (f : Nat) (k : Fin 16) (r : Report) (before : Bool) (p : Path) (m : Fin 2) (t : Fin 33) :
    p.Beside (p.pressed x f k r before m) t ∧ (p.pressed x f k r before m).stations = p.stations := by
  unfold Path.pressed
  cases r with
  | good b =>
    dsimp only
    refine ⟨?_, (Path.keeps_refusePress x f _ _ _ p).stations⟩
    unfold Path.refusePress; dsimp only
    split
    · split
      · exact p.beside_mark x _ f t
      · exact .refl p t
    · exact .refl p t
  | _ => exact ⟨.refl p t, rfl⟩

/-- A report leaves every channel but the station's two, and their bays, as they were (R71). -/
theorem Path.report_other (x : Ctx) (polled : Option Nat) (k : Fin 16) (probe : Bool) (r : Report) (p : Path) (c : Fin 32)
    (h : stationOf c ≠ k) :
    (p.report x polled k probe r).channels[c] = p.channels[c] ∧
      (p.report x polled k probe r).bays.bay[trackOf (soundTrack c)] = p.bays.bay[trackOf (soundTrack c)] := by
  have hne (m : Fin 2) : soundTrack c ≠ soundTrack (channelOf k m) := by
    intro e; apply h; rw [soundTrack_injective e, stationOf_channelOf]
  have hrec := p.beside_recordReport x polled k probe r mixTrack c (soundTrack_ne_mix c)
  have hand (f : Nat) (b : Bool) (q : Path) (m : Fin 2) :
      (q.handOff x f k r b m).channels[c] = q.channels[c] ∧
        (q.handOff x f k r b m).bays.bay[trackOf (soundTrack c)] = q.bays.bay[trackOf (soundTrack c)] := by
    rw [Path.handOff_pressed]
    exact ((q.pressed_view x f k r b m _).1.trans (Path.beside_settle x f (.report r) _ (channelOf k m))) c (hne m)
  unfold Path.report; dsimp only
  split
  · exact ⟨(hand _ _ _ 1).1.trans ((hand _ _ _ 0).1.trans hrec.1), (hand _ _ _ 1).2.trans ((hand _ _ _ 0).2.trans hrec.2)⟩
  · exact hrec

/-- A report settles the frame of each of the station's channels on a path on which its channel and its bay are still as they
were, and its record is already the one after the report (R71, R95). -/
theorem Path.report_settles (x : Ctx) (f : Nat) (k : Fin 16) (probe : Bool) (r : Report) (p : Path) (m : Fin 2) :
    ∃ q : Path, q.channels[channelOf k m] = p.channels[channelOf k m] ∧
      q.bays.bay[trackOf (soundTrack (channelOf k m))] = p.bays.bay[trackOf (soundTrack (channelOf k m))] ∧
      q.stations[k] = p.stations[k].reported probe r ∧
      (p.report x (some f) k probe r).channels[channelOf k m] =
        (q.settle x f (.report r) (channelOf k m)).channels[channelOf k m] := by
  have hne : soundTrack (channelOf k 0) ≠ soundTrack (channelOf k 1) := by
    intro e; have := (channelOf_inj (soundTrack_injective e)).2; cases this
  have hrec := p.beside_recordReport x (some f) k probe r mixTrack
  have hst : (p.recordReport x (some f) k probe r).stations[k] = p.stations[k].reported probe r := by
    rw [(p.keeps_recordReport x (some f) k probe r).stations, Path.setStation_get, if_pos rfl]
  unfold Path.report; dsimp only
  rw [Path.handOff_pressed, Path.handOff_pressed]
  generalize p.recordReport x (some f) k probe r = p1 at hrec hst ⊢
  obtain ⟨g1, g2⟩ := p1.pressed_view x f k r p.stations[k].mics[0].button 0 mixTrack
  generalize p1.pressed x f k r p.stations[k].mics[0].button 0 = p2 at g1 g2 ⊢
  have g3 := p2.beside_settle x f (.report r) (channelOf k 0)
  have g4 := (p2.keeps_settle x f (.report r) (channelOf k 0)).stations
  by_cases hm : m = 0
  · subst hm
    have e12 := (hrec.trans g1) (channelOf k 0) (soundTrack_ne_mix _)
    refine ⟨p2, e12.1, e12.2, by rw [g2]; exact hst, ?_⟩
    generalize p2.settle x f (.report r) (channelOf k 0) = p3
    obtain ⟨g5, _⟩ := p3.pressed_view x f k r p.stations[k].mics[1].button 1 (soundTrack (channelOf k 1))
    exact (((g5.trans (Path.beside_settle x f (.report r) _ _)) (channelOf k 0)) hne).1
  · have : m = 1 := by omega
    subst this
    have e := ((hrec.trans g1) (channelOf k 1) (soundTrack_ne_mix _))
    have e' := g3 (channelOf k 1) hne.symm
    generalize p2.settle x f (.report r) (channelOf k 0) = p3 at g4 e' ⊢
    obtain ⟨g5, g6⟩ := p3.pressed_view x f k r p.stations[k].mics[1].button 1 mixTrack
    have e'' := g5 (channelOf k 1) (soundTrack_ne_mix _)
    exact ⟨_, e''.1.trans (e'.1.trans e.1), e''.2.trans (e'.2.trans e.2), by rw [g6, g4, g2]; exact hst, rfl⟩

/-! ### The first cause that applies (R95, R97) -/

/-- R95: the causes of a report of a call, in the terms of the statements. -/
theorem causeOf_report (w : Bool) (r : Report) (st : Station) (m : Fin 2) (h1 : r ≠ .notRunning) (h2 : r ≠ .supply) :
    causeOf w (.report r) st m =
      firstCause false w false st (if st.mics[m].present = false then some .noMic else r.lastCause) := by
  unfold causeOf firstCause Report.lastCause
  cases r <;> simp at h1 h2 ⊢

/-- R97: the causes of the close, in the terms of the statements. -/
theorem causeOf_close (w ran : Bool) (st : Station) (m : Fin 2) :
    causeOf w (.close ran) st m = firstCause false w (!ran) st (some .late) := by
  unfold causeOf firstCause
  cases ran <;> simp

/-- PRIVACY comes before every other cause (R95, R97). -/
theorem firstCause_asked (asked w down : Bool) (st : Station) (last : Option VoidCause) :
    firstCause asked w down st last = if asked then some .privacy else firstCause false w down st last := by
  cases asked <;> rfl

/-- R89: the button part of a report's settling is the record's after it. -/
theorem buttonPart_reported (st : Station) (probe : Bool) (r : Report) (m : Fin 2) :
    buttonPart (.report r) (st.reported probe r).mics[m] m = (st.reported probe r).mics[m].button := by
  cases r with
  | good b => simp [buttonPart, Station.reported, Station.takeBundle, Mic.take]
  | _ => rfl

/-- R95, R98: what the report of a call leaves of a channel whose on-record frame takes a void cause, with no run pending. -/
theorem Path.report_void (x : Ctx) (f : Nat) (k : Fin 16) (probe : Bool) (r : Report) (p : Path) (m : Fin 2) (c : Fin 32)
    (sn : Snapshot) (st : Station) (asked : Bool) (cause : VoidCause) (hc : c = channelOf k m)
    (h1 : r ≠ .notRunning) (h2 : r ≠ .supply)
    (hsn : p.channels[c].snapshot f = some sn) (hon : sn.onRecord = true) (hse : p.channels[c].seated = true)
    (hun : p.channels[c].settled = false) (hwi : x.sitting.within f = true) (hrun : p.channels[c].run = none)
    (hst : st = p.stations[k].reported probe r)
    (hpr : asked = ((st.mics[m].button || sn.settings.privacy) && !sn.settings.bar))
    (hca : firstCause asked x.warning false st (if st.mics[m].present = false then some .noMic else r.lastCause) =
      some cause) :
    (p.report x (some f) k probe r).channels[c] = { p.channels[c] with
      privacy := asked, settled := true, run := some (VoidRun.start cause f)
      voids := min 4294967295 (p.channels[c].voids + 1), outcome := some (.void cause) } := by
  subst hc
  obtain ⟨q, q1, _, q3, q4⟩ := p.report_settles x f k probe r m
  rw [← hst] at q3
  rw [← q1] at hsn hse hun hrun ⊢
  rw [q4]
  refine q.settle_void x f (.report r) (channelOf k m) k m (stationOf_channelOf k m).symm (micOf_channelOf k m).symm sn st
    asked cause hsn hon hse hun hwi hrun q3 ?_ ?_
  · rw [hpr, hst, buttonPart_reported]
  · rw [firstCause_asked] at hca
    rw [causeOf_report _ _ _ _ h1 h2]
    exact hca

/-- R95: what a report of a call leaves of a channel frame, in the terms of the statements. -/
theorem Path.report_called (x : Ctx) (f : Nat) (k : Fin 16) (probe : Bool) (r : Report) (p : Path) (m : Fin 2) (c : Fin 32)
    (sn : Snapshot) (st : Station) (bay : Bay) (cause : Option VoidCause) (hc : c = channelOf k m)
    (h1 : r ≠ .notRunning) (h2 : r ≠ .supply)
    (hsn : p.channels[c].snapshot f = some sn) (hon : sn.onRecord = true) (hse : p.channels[c].seated = true)
    (hun : p.channels[c].settled = false) (hrun : p.channels[c].run = none) (hwi : x.sitting.within f = true)
    (hbay : p.bays.bay[trackOf (soundTrack c)] = bay) (hst : st = p.stations[k].reported probe r)
    (hca : cause = firstCause ((st.mics[m].button || sn.settings.privacy) && !sn.settings.bar) x.warning false st
      (if st.mics[m].present = false then some .noMic else r.lastCause)) :
    (p.report x (some f) k probe r).channels[c].settled = true ∧
    (∀ v, cause = some v → (p.report x (some f) k probe r).channels[c].outcome = some (.void v)) ∧
    ∀ b, cause = none → r = .good b →
      ((p.report x (some f) k probe r).channels[c].outcome = some .sample ∨
        (p.report x (some f) k probe r).channels[c].outcome = some (.void .noRoom)) ∧
      (bay.fill + pad4 (16 + 2 * b.samples[m].length) ≤ bay.capacity →
        (p.report x (some f) k probe r).channels[c].outcome = some .sample) := by
  cases hcause : cause with
  | some v =>
    rw [hcause] at hca
    have := p.report_void x f k probe r m c sn st _ v hc h1 h2 hsn hon hse hun hwi hrun hst rfl hca.symm
    rw [this]
    exact ⟨rfl, fun _ h => (by cases h; rfl), fun _ h => (by cases h)⟩
  | none =>
    have hb : ∃ b, r = .good b := by
      rw [hcause, firstCause_asked] at hca
      split at hca
      · cases hca
      · unfold firstCause at hca
        cases r with
        | good b => exact ⟨b, rfl⟩
        | notRunning => exact absurd rfl h1
        | supply => exact absurd rfl h2
        | _ =>
          exfalso
          simp only [Report.lastCause] at hca
          repeat' split at hca
          all_goals cases hca
    obtain ⟨b, rfl⟩ := hb
    subst hc
    obtain ⟨q, q1, q2, q3, q4⟩ := p.report_settles x f k probe (.good b) m
    rw [← hst] at q3
    rw [← q1] at hsn hse hun hrun
    have hbut : st.mics[m].button = b.privacy[m] := by
      rw [hst, ← buttonPart_reported]; rfl
    rw [hcause, firstCause_asked] at hca
    have hpr : ((st.mics[m].button || sn.settings.privacy) && !sn.settings.bar) = false := by
      cases e : ((st.mics[m].button || sn.settings.privacy) && !sn.settings.bar) with
      | false => rfl
      | true => rw [e] at hca; cases hca
    rw [hpr, if_neg (by decide), ← causeOf_report _ _ _ _ h1 h2] at hca
    obtain ⟨s1, s2, s3⟩ := q.settle_sample x f b (channelOf k m) k m (stationOf_channelOf k m).symm
      (micOf_channelOf k m).symm sn st hsn hon hse hun hwi hrun q3 (by rw [← hbut]; exact hpr) hca.symm
    rw [← q4] at s1 s2 s3
    rw [q2, hbay] at s3
    refine ⟨s1, fun _ h => (by cases h), ?_⟩
    intro b' _ hb'
    cases hb'
    exact ⟨s2, s3⟩

/-- A channel frame that is settled stays as it is, whatever report comes (R95). -/
theorem Path.report_settled (x : Ctx) (polled : Option Nat) (k : Fin 16) (probe : Bool) (r : Report) (p : Path) (c : Fin 32)
    (h : p.channels[c].settled = true) : (p.report x polled k probe r).channels[c] = p.channels[c] := by
  by_cases hk : stationOf c = k
  · cases polled with
    | none => exact (p.beside_recordReport x none k probe r mixTrack c (soundTrack_ne_mix c)).1
    | some f =>
      obtain ⟨m, rfl⟩ : ∃ m, c = channelOf k m :=
        ⟨micOf c, by subst hk; apply Fin.ext; simp only [channelOf, stationOf, micOf]; omega⟩
      obtain ⟨q, q1, _, _, q4⟩ := p.report_settles x f k probe r m
      rw [q4, q.settle_not x f _ _ (.inr (.inl (by rw [q1]; exact h))), q1]
  · exact (p.report_other x polled k probe r c hk).1

/-- One report for each of several stations: a channel of one of them stands as its station's first report leaves it, where
that settles its frame (R71, R95). -/
theorem Path.reports_first (x : Ctx) (p : PortId) (r : Report) (as : List (Fin 8)) (a : Fin 8) (ha : a ∈ as) (c : Fin 32)
    (hc : stationOf c = stationAt p a) (path : Path) :
    ∃ q : Path, q.channels[c] = path.channels[c] ∧
      q.bays.bay[trackOf (soundTrack c)] = path.bays.bay[trackOf (soundTrack c)] ∧
      q.stations[stationAt p a] = path.stations[stationAt p a] ∧
      ((q.report x x.polled (stationAt p a) false r).channels[c].settled = true →
        (as.foldl (fun q a => q.report x x.polled (stationAt p a) false r) path).channels[c] =
          (q.report x x.polled (stationAt p a) false r).channels[c]) := by
  have stay (l : List (Fin 8)) (q : Path) (h : q.channels[c].settled = true) :
      (l.foldl (fun q a => q.report x x.polled (stationAt p a) false r) q).channels[c] = q.channels[c] := by
    induction l generalizing q with
    | nil => rfl
    | cons b l ih =>
      have e := q.report_settled x x.polled (stationAt p b) false r c h
      rw [List.foldl_cons, ih _ (by rw [e]; exact h), e]
  induction as generalizing path with
  | nil => cases ha
  | cons b l ih =>
    rw [List.foldl_cons]
    by_cases hb : b = a
    · subst hb
      exact ⟨path, rfl, rfl, rfl, fun h => stay l _ h⟩
    · have hl : a ∈ l := (List.mem_cons.mp ha).resolve_left (fun e => hb e.symm)
      have hk : stationAt p a ≠ stationAt p b := fun e => hb ((stationAt_inj e).2).symm
      obtain ⟨q, q1, q2, q3, q4⟩ := ih hl (path.report x x.polled (stationAt p b) false r)
      obtain ⟨e1, e2⟩ := path.report_other x x.polled (stationAt p b) false r c (by rw [hc]; exact hk)
      refine ⟨q, q1.trans e1, q2.trans e2, q3.trans ?_, q4⟩
      rw [Path.report_stations, if_neg hk]

/-! ### A port's event, in the terms of the statements -/

/-- The reports handed one after another, as a path (R65, R68, R71). -/
theorem Link.handAll_path (x : Ctx) (p : PortId) (r : Report) (as : List (Fin 8)) (l : Link) :
    (l.handAll x p r as).path = as.foldl (fun q a => q.report x x.polled (stationAt p a) false r) l.path := by
  unfold Link.handAll
  induction as generalizing l with
  | nil => rfl
  | cons a as ih => rw [List.foldl_cons, ih]; rfl

/-- R68: the round stopped with no call made: one report for each station not yet polled, and the round over. -/
theorem Link.stopPolling_spec (x : Ctx) (p : PortId) (l : Link) (h : l.port.target = none) :
    (l.stopPolling x p).path =
        l.port.remaining.foldl (fun q a => q.report x x.polled (stationAt p a) false .supply) l.path ∧
      (l.stopPolling x p).port = ({ l.port with remaining := [], probeDone := true } : Port).endRound x := by
  unfold Link.stopPolling; dsimp only
  rw [Link.handAll_port, if_pos h]
  dsimp only
  rw [Link.handAll_path]
  exact ⟨rfl, rfl⟩

/-- R65: the round deadline: one report for each station not yet polled; of the port the list, the flag and the round end
change. -/
theorem Link.deadline_spec (x : Ctx) (p : PortId) (l : Link) :
    (l.deadline x p).path =
        l.port.remaining.foldl (fun q a => q.report x x.polled (stationAt p a) false .late) l.path ∧
      (l.deadline x p).port = { l.port with
        remaining := [], deadlinePassed := true, current := (l.deadline x p).port.current } ∧
      (l.deadline x p).port.current = if l.port.remaining = [] then l.port.current
        else l.port.current.map fun g => { g with roundEnd := l.port.characterTime x } := by
  unfold Link.deadline; dsimp only
  split
  · rename_i h; rw [h]; exact ⟨rfl, rfl, rfl⟩
  · dsimp only
    rw [Link.handAll_path, Link.handAll_port]
    exact ⟨rfl, rfl, rfl⟩

/-- What an event that changes lamps alone after its reports leaves of the path. -/
theorem State.onLink_pathIs (s : State) (p : PortId) (g : Link → Link) (q : Path)
    (h : (g (s.link p)).path = { q with channels := (g (s.link p)).path.channels } ∧
      ∀ c : Fin 32, (g (s.link p)).path.channels[c] = { q.channels[c] with lamp := (g (s.link p)).path.channels[c].lamp }) :
    PathIs (s.onLink p g) q := by
  obtain ⟨h1, h2⟩ := h
  refine ⟨?_, ?_, ?_⟩
  · rw [State.onLink_path, h1]
  · intro c; rw [State.onLink_channels]; exact h2 c
  · intro i hi
    have ha : (g (s.link p)).path.attn.pending.getLsbD i = true := by rw [h1]; exact hi
    unfold State.onLink State.refresh
    dsimp only
    rw [State.withLink_path]
    split
    · exact Attention.raise_pending_of _ _ _ ha
    · exact ha

/-- A report of a call, in the terms of the statements (R63 to R65, R71, R95). -/
theorem called_of_report (s t : State) (p : PortId) (a : Fin 8) (probe : Bool) (r : Report) (st : Station)
    (h1 : r ≠ .notRunning) (h2 : r ≠ .supply) (hst : st = s.path.stations[stationAt p a].reported probe r)
    (ht : PathIs t (s.path.report s.ctx s.ctx.polled (stationAt p a) probe r)) : Called s t p a r st := by
  intro m c f sn bay cause hc hf hsn hon hse hun hrun hwi hbay hca
  rw [hf] at ht
  have := s.path.report_called s.ctx f (stationAt p a) probe r m c sn st bay cause hc h1 h2 hsn hon hse hun hrun hwi hbay
    hst hca
  rw [ht.2.1 c]
  exact this

/-- One report for each of several stations, in the terms of the statements (R65, R71, R95). -/
theorem called_of_reports (s t : State) (p : PortId) (as : List (Fin 8)) (a : Fin 8) (ha : a ∈ as) (r : Report) (st : Station)
    (h1 : r ≠ .notRunning) (h2 : r ≠ .supply) (hst : st = s.path.stations[stationAt p a].reported false r)
    (ht : PathIs t (s.pathAfter p as r)) : Called s t p a r st := by
  intro m c f sn bay cause hc hf hsn hon hse hun hrun hwi hbay hca
  obtain ⟨q, q1, q2, q3, q4⟩ := Path.reports_first s.ctx p r as a ha c (by rw [hc, stationOf_channelOf]) s.path
  rw [← q1] at hsn hse hun hrun
  have := q.report_called s.ctx f (stationAt p a) false r m c sn st bay cause hc h1 h2 hsn hon hse hun hrun hwi
    (q2.trans hbay) (by rw [q3]; exact hst) hca
  rw [← hf] at this
  rw [ht.2.1 c]
  unfold State.pathAfter
  rw [q4 this.1]
  exact this

end Sys2Proof.Machine
end

