-- ==== Sys2Proof/Laws/Closing.lean ====
section
/-! SUPPORT. The close of a frame and the ends of the rounds, one channel at a time: what they leave of a channel, its
frames, the detectors and the mix (R41, R65, R66, R97, R112, R115). -/
namespace Sys2Proof.Machine

/-! ### The channels in turn -/

/-- Operations that each stay within their own channel, one after another over different channels: a channel of them is
changed by its own operation alone. -/
theorem Path.foldl_channels (g : Path → Fin 32 → Path) (hg : ∀ (q : Path) (d : Fin 32), q.Beside (g q d) (soundTrack d))
    (P : Path → Path → Prop) (refl : ∀ q, P q q) (trans : ∀ a b d, P a b → P b d → P a d)
    (hP : ∀ (q : Path) (d : Fin 32), P q (g q d)) (l : List (Fin 32)) (hn : l.Nodup) (c : Fin 32) (p : Path) :
    (c ∉ l → (l.foldl g p).channels[c] = p.channels[c]) ∧
    (c ∈ l → ∃ q, P p q ∧ q.channels[c] = p.channels[c] ∧ P (g q c) (l.foldl g p) ∧
      (l.foldl g p).channels[c] = (g q c).channels[c]) := by
  have hall (l : List (Fin 32)) (q : Path) : P q (l.foldl g q) := by
    induction l generalizing q with
    | nil => exact refl q
    | cons d l ih => exact trans _ _ _ (hP q d) (ih _)
  induction l generalizing p with
  | nil => exact ⟨fun _ => rfl, fun h => (nomatch h)⟩
  | cons d l ih =>
    obtain ⟨hd, hl⟩ := List.nodup_cons.mp hn
    have ne (q : Path) (h : c ≠ d) : (g q d).channels[c] = q.channels[c] :=
      (hg q d c (fun e => h (soundTrack_injective e))).1
    rw [List.foldl_cons]
    refine ⟨fun h => ?_, fun h => ?_⟩
    · have h1 := List.ne_of_not_mem_cons h
      rw [(ih hl (g p d)).1 (List.not_mem_of_not_mem_cons h), ne p h1]
    · by_cases e : c = d
      · subst e
        exact ⟨p, refl p, rfl, hall l _, (ih hl (g p c)).1 hd⟩
      · obtain ⟨q, q1, q2, q3, q4⟩ := (ih hl (g p d)).2 ((List.mem_cons.mp h).resolve_left e)
        exact ⟨q, trans _ _ _ (hP p d) q1, q2.trans (ne p e), q3, q4⟩

/-- The same over all 32 channels. -/
theorem Path.foldl_all (g : Path → Fin 32 → Path) (hg : ∀ (q : Path) (d : Fin 32), q.Beside (g q d) (soundTrack d))
    (P : Path → Path → Prop) (refl : ∀ q, P q q) (trans : ∀ a b d, P a b → P b d → P a d)
    (hP : ∀ (q : Path) (d : Fin 32), P q (g q d)) (c : Fin 32) (p : Path) :
    ∃ q, P p q ∧ q.channels[c] = p.channels[c] ∧ P (g q c) ((List.finRange 32).foldl g p) ∧
      ((List.finRange 32).foldl g p).channels[c] = (g q c).channels[c] :=
  (Path.foldl_channels g hg P refl trans hP _ (List.nodup_finRange 32) c p).2 (List.mem_finRange c)

/-! ### The close of a frame (R97, R12, R115) -/

theorem Path.beside_endChannelStretch (x : Ctx) (on : Bool) (p : Path) (d : Fin 32) :
    p.Beside (p.endChannelStretch x on d) (soundTrack d) := by
  unfold Path.endChannelStretch; split
  · exact (p.beside_endRun _).trans (Path.beside_floor x d _ _ _ _ _)
  · exact .refl _ _

/-- R97 on one channel: its frame settled by the close, and then, where no stretch ends, forgotten. -/
theorem Path.closeFrame_channel (x : Ctx) (f : Nat) (on nextOn last ranA ranB : Bool) (p : Path) (c : Fin 32)
    (ran : Bool) (hran : ran = if c.val < 16 then ranA else ranB) (hends : last = false ∧ (on = false ∨ nextOn = true)) :
    ∃ q : Path, q.stations = p.stations ∧ q.channels[c] = p.channels[c] ∧
      (p.closeFrame x f on nextOn last ranA ranB).channels[c] =
        (q.settle x f (.close ran) c).channels[c].dropFrame f := by
  let settle : Path → Fin 32 → Path := fun q c =>
    q.settle x f (.close (match portOf c with | .a => ranA | .b => ranB)) c
  obtain ⟨q, q1, q2, _, q4⟩ := Path.foldl_all settle (fun q d => Path.beside_settle x f _ q d)
    (fun a b => b.stations = a.stations) (fun _ => rfl) (fun _ _ _ h1 h2 => h2.trans h1)
    (fun q d => (Path.keeps_settle x f _ q d).stations) c p
  refine ⟨q, q1, q2, ?_⟩
  have hr : (match portOf c with | .a => ranA | .b => ranB) = ran := by
    rw [hran]; unfold portOf
    by_cases h : c.val < 16
    · rw [if_pos h, if_pos h]
    · rw [if_neg h, if_neg h]
  have he : (last || (on && !nextOn)) = false := by
    rcases hends with ⟨h1, h2 | h2⟩ <;> rw [h1, h2] <;> simp
  unfold Path.closeFrame; dsimp only
  rw [if_neg (by rw [he]; decide)]
  unfold Path.mapChannels
  simp only [Fin.getElem_fin, Vector.getElem_map]
  have hm := (Path.beside_finishMix x f on ((List.finRange 32).foldl settle p) c (soundTrack_ne_mix c)).1
  refine congrArg (fun ch : Channel => ch.dropFrame f) (hm.trans (q4.trans ?_))
  show (q.settle x f (.close (match portOf c with | .a => ranA | .b => ranB)) c).channels[c] = _
  rw [hr]; rfl

/-- R97, R88, R115: what every close leaves: no outcome, nothing settled, no snapshot of the frame, and the mix cleared. -/
theorem Path.closeFrame_forgets (x : Ctx) (f : Nat) (on nextOn last ranA ranB : Bool) (p : Path) :
    (∀ c : Fin 32, (p.closeFrame x f on nextOn last ranA ranB).channels[c].outcome = none ∧
      (p.closeFrame x f on nextOn last ranA ranB).channels[c].settled = false ∧
      (p.closeFrame x f on nextOn last ranA ranB).channels[c].snapshot f = none) ∧
    (p.closeFrame x f on nextOn last ranA ranB).fcu.sums = Vector.replicate 64 0 ∧
    (p.closeFrame x f on nextOn last ranA ranB).fcu.contributors = 0 := by
  have drop (q : Path) (c : Fin 32) : (q.mapChannels fun ch => ch.dropFrame f).channels[c] = q.channels[c].dropFrame f := by
    unfold Path.mapChannels; simp
  have mix (q : Path) (l : List (Fin 32)) (h : q.fcu.sums = Vector.replicate 64 0 ∧ q.fcu.contributors = 0) :
      ((l.foldl (Path.endChannelStretch x on) q).endRun mixTrack).fcu.sums = Vector.replicate 64 0 ∧
        ((l.foldl (Path.endChannelStretch x on) q).endRun mixTrack).fcu.contributors = 0 := by
    have run (q : Path) (t : Fin 33) : (q.endRun t).fcu.sums = q.fcu.sums ∧
        (q.endRun t).fcu.contributors = q.fcu.contributors := by
      have set (q : Path) (r) : (q.setRun t r).fcu.sums = q.fcu.sums ∧ (q.setRun t r).fcu.contributors = q.fcu.contributors := by
        unfold Path.setRun; split <;> exact ⟨rfl, rfl⟩
      unfold Path.endRun Path.offerRun Path.push
      split
      · split
        · exact ⟨rfl, rfl⟩
        · split
          · rename_i h
            cases hb : q.bays.push (trackOf t) _ with
            | none => rw [hb] at h; cases h
            | some bs => rw [hb] at h; cases h; exact set _ _
          · exact set _ _
      · exact ⟨rfl, rfl⟩
    induction l generalizing q with
    | nil => rw [(run _ _).1, (run _ _).2]; exact h
    | cons d l ih =>
      rw [List.foldl_cons]
      apply ih
      unfold Path.endChannelStretch; split
      · unfold Path.forceFloor; dsimp only
        rw [((Path.setFloor _ _ _).floorMark_view x d on _).2.1]
        show (q.endRun _).fcu.sums = _ ∧ (q.endRun _).fcu.contributors = _
        rw [(run _ _).1, (run _ _).2]; exact h
      · exact h
  unfold Path.closeFrame; dsimp only
  refine ⟨fun c => ?_, ?_⟩
  · rw [drop]
    refine ⟨rfl, rfl, ?_⟩
    unfold Channel.dropFrame Channel.snapshot
    rw [List.find?_eq_none]
    intro sn hsn
    rw [List.mem_filter] at hsn
    simpa using hsn.2
  · show (Path.fcu _).sums = _ ∧ (Path.fcu _).contributors = _
    have h0 (q : Path) : (q.finishMix x f on).fcu.sums = Vector.replicate 64 0 ∧ (q.finishMix x f on).fcu.contributors = 0 := by
      unfold Path.finishMix Fcu.clearMix; exact ⟨rfl, rfl⟩
    unfold Path.mapChannels; dsimp only
    split
    · exact mix _ _ (h0 _)
    · exact h0 _

/-- R99: an OPEN run ended is gone or HELD. -/
theorem Path.endRun_ended (p : Path) (c : Fin 32) (r : VoidRun)
    (h : (p.endRun (soundTrack c)).channels[c].run = some r) : r.held = true := by
  unfold Path.endRun at h
  rw [Path.runOf_sound] at h
  cases hr : p.channels[c].run with
  | none => rw [hr] at h; dsimp only at h; rw [hr] at h; cases h
  | some r0 =>
    rw [hr] at h
    dsimp only at h
    by_cases hh : r0.held = true
    · rw [if_pos hh, hr] at h; cases h; exact hh
    · rw [if_neg hh] at h
      rcases p.offerRun_cases (soundTrack c) r0 with ⟨_, e⟩ | ⟨_, e⟩
      · rw [e, Path.setRun_sound] at h
        change (p.setChannel c { p.channels[c] with run := none }).channels[c].run = _ at h
        rw [Path.setChannel_get, if_pos rfl] at h; cases h
      · rw [e, Path.setRun_sound, Path.setChannel_get, if_pos rfl] at h; cases h; rfl

/-- R112: a forced end read back; every other detector as before. -/
theorem Path.forceFloor_get (x : Ctx) (on : Bool) (p : Path) (d c : Fin 32) :
    (p.forceFloor x on d).fcu.floors[c] = if c = d then p.fcu.floors[d].force.1 else p.fcu.floors[c] := by
  have h := ((p.setFloor d p.fcu.floors[d].force.1).floorMark_view x d on p.fcu.floors[d].force.2).2.1
  have e : p.forceFloor x on d = (p.setFloor d p.fcu.floors[d].force.1).floorMark x d on p.fcu.floors[d].force.2 := rfl
  rw [e, h, Path.setFloor_get]

/-- R12, R112: at the end of a stretch or of the sitting the detectors of the seated channels are forced and their runs are
ended. -/
theorem Path.closeFrame_ends (x : Ctx) (f : Nat) (on nextOn last ranA ranB : Bool) (p : Path) (c : Fin 32)
    (hends : last = true ∨ (on = true ∧ nextOn = false)) (hse : p.channels[c].seated = true) :
    (p.closeFrame x f on nextOn last ranA ranB).fcu.floors[c].speaking = false ∧
    (p.closeFrame x f on nextOn last ranA ranB).fcu.floors[c].loudRun = 0 ∧
    (p.closeFrame x f on nextOn last ranA ranB).fcu.floors[c].firstLoud = none ∧
    ∀ r, (p.closeFrame x f on nextOn last ranA ranB).channels[c].run = some r → r.held = true := by
  have he : (last || (on && !nextOn)) = true := by
    rcases hends with h | ⟨h1, h2⟩
    · rw [h]; rfl
    · rw [h1, h2]; cases last <;> rfl
  let settle : Path → Fin 32 → Path := fun q c =>
    q.settle x f (.close (match portOf c with | .a => ranA | .b => ranB)) c
  have hseat : (((List.finRange 32).foldl settle p).finishMix x f on).channels[c].seated = true := by
    have h1 : p.Keeps ((List.finRange 32).foldl settle p) :=
      Path.keeps_foldl settle (fun q d => Path.keeps_settle x f _ q d) _ p
    rw [(h1.trans (Path.keeps_finishMix x f on _)).seated c]; exact hse
  unfold Path.closeFrame; dsimp only
  rw [if_pos he]
  change (Path.fcu _).floors[c].speaking = _ ∧ _
  generalize hq : ((List.finRange 32).foldl settle p).finishMix x f on = q0 at hseat
  have floorOther (q : Path) (d : Fin 32) (h : c ≠ d) :
      (q.endChannelStretch x on d).fcu.floors[c] = q.fcu.floors[c] := by
    have hrun : (q.endRun (soundTrack d)).fcu.floors = q.fcu.floors := by
      obtain ⟨r, bs, e⟩ := q.runMoved_endRun d; rw [e]; rfl
    unfold Path.endChannelStretch; split
    · rw [Path.forceFloor_get, if_neg h, hrun]
    · rfl
  obtain ⟨q, _, q2, q3, q4⟩ := Path.foldl_all (Path.endChannelStretch x on) (Path.beside_endChannelStretch x on)
    (fun _ _ => True) (fun _ => trivial) (fun _ _ _ _ _ => trivial) (fun _ _ => trivial) c q0
  have hfl : ∀ (l : List (Fin 32)), l.Nodup → ∀ q : Path, q.channels[c].seated = true → c ∈ l →
      ∃ r : Path, (l.foldl (Path.endChannelStretch x on) q).fcu.floors[c] = (r.endChannelStretch x on c).fcu.floors[c] ∧
        r.channels[c].seated = true := by
    intro l hl
    induction l with
    | nil => intro _ _ h; cases h
    | cons d l ih =>
      intro q hs h
      obtain ⟨hd, hl'⟩ := List.nodup_cons.mp hl
      rw [List.foldl_cons]
      by_cases e : c = d
      · subst e
        refine ⟨q, ?_, hs⟩
        have stay : ∀ (l : List (Fin 32)), c ∉ l → ∀ q : Path,
            (l.foldl (Path.endChannelStretch x on) q).fcu.floors[c] = q.fcu.floors[c] := by
          intro l
          induction l with
          | nil => intro _ _; rfl
          | cons b l ih2 =>
            intro h q
            rw [List.foldl_cons, ih2 (List.not_mem_of_not_mem_cons h), floorOther q b (List.ne_of_not_mem_cons h)]
        exact stay l hd _
      · exact ih hl' _ (by rw [(Path.keeps_endChannelStretch x on q d).seated c]; exact hs)
          ((List.mem_cons.mp h).resolve_left e)
  obtain ⟨r, hr1, hr2⟩ := hfl _ (List.nodup_finRange 32) q0 hseat (List.mem_finRange c)
  have hmixf (q : Path) : (q.endRun mixTrack).fcu.floors = q.fcu.floors := by
    have set (q : Path) (r) : (q.setRun mixTrack r).fcu.floors = q.fcu.floors := by
      unfold Path.setRun; split <;> rfl
    unfold Path.endRun Path.offerRun Path.push
    split
    · split
      · rfl
      · split
        · rename_i h
          cases hb : q.bays.push (trackOf mixTrack) _ with
          | none => rw [hb] at h; cases h
          | some bs => rw [hb] at h; cases h; exact set _ _
        · exact set _ _
    · rfl
  have hforce : (r.endChannelStretch x on c).fcu.floors[c] = (r.endRun (soundTrack c)).fcu.floors[c].force.1 := by
    unfold Path.endChannelStretch
    rw [if_pos hr2, Path.forceFloor_get, if_pos rfl]
  obtain ⟨f1, f2, f3, _⟩ := (r.endRun (soundTrack c)).fcu.floors[c].force_spec
  have e1 : (((List.finRange 32).foldl (Path.endChannelStretch x on) q0).endRun mixTrack).fcu.floors[c] =
      (r.endRun (soundTrack c)).fcu.floors[c].force.1 := by rw [hmixf, hr1, hforce]
  unfold Path.mapChannels
  dsimp only
  rw [e1]
  refine ⟨f1, f2, f3, ?_⟩
  intro v hv
  simp only [Fin.getElem_fin, Vector.getElem_map] at hv
  have e2 := (Path.beside_endRun ((List.finRange 32).foldl (Path.endChannelStretch x on) q0) mixTrack c
    (soundTrack_ne_mix c)).1
  have e3 : (q.endChannelStretch x on c).channels[c] = (q.endRun (soundTrack c)).channels[c] := by
    unfold Path.endChannelStretch
    rw [if_pos (by rw [q2]; exact hseat)]
    rw [(Path.forceFloor_view x on _ c).1]
  have e4 := e2.trans (q4.trans e3)
  have hv' : ((((List.finRange 32).foldl (Path.endChannelStretch x on) q0).endRun mixTrack).channels[c].dropFrame f).run =
      some v := hv
  rw [e4] at hv'
  exact Path.endRun_ended q c v hv'

/-- The close of a frame leaves seating and settings, and the bays grow (R97). -/
theorem Path.closeFrame_grows (x : Ctx) (f : Nat) (on nextOn last ranA ranB : Bool) (p : Path) :
    p.bays.Grows (p.closeFrame x f on nextOn last ranA ranB).bays ∧
    ∀ c : Fin 32, (p.closeFrame x f on nextOn last ranA ranB).channels[c].seated = p.channels[c].seated ∧
      (p.closeFrame x f on nextOn last ranA ranB).channels[c].settings = p.channels[c].settings ∧
      (p.closeFrame x f on nextOn last ranA ranB).channels[c].snapshots =
        p.channels[c].snapshots.filter fun sn => decide (sn.frame ≠ f) := by
  unfold Path.closeFrame; dsimp only
  have h1 := Path.keeps_foldl (fun (q : Path) (c : Fin 32) =>
    q.settle x f (.close (match portOf c with | .a => ranA | .b => ranB)) c) (fun q c => Path.keeps_settle x f _ q c)
    (List.finRange 32) p
  have h2 := h1.trans (Path.keeps_finishMix x f on _)
  have h3 : p.Keeps (if (last || (on && !nextOn)) = true then
      ((List.finRange 32).foldl (Path.endChannelStretch x on) (((List.finRange 32).foldl (fun (q : Path) (c : Fin 32) =>
        q.settle x f (.close (match portOf c with | .a => ranA | .b => ranB)) c) p).finishMix x f on)).endRun mixTrack
    else ((List.finRange 32).foldl (fun (q : Path) (c : Fin 32) =>
        q.settle x f (.close (match portOf c with | .a => ranA | .b => ranB)) c) p).finishMix x f on) := by
    split
    · exact (h2.trans (Path.keeps_foldl _ (fun q c => q.keeps_endChannelStretch x on c) _ _)).trans (Path.keeps_endRun _ _)
    · exact h2
  refine ⟨h3.bays, fun c => ?_⟩
  have e1 := h3.seated c; have e2 := h3.settings c; have e3 := h3.snapshots c
  unfold Path.mapChannels Channel.dropFrame
  simp only [Fin.getElem_fin, Vector.getElem_map]
  refine ⟨e1, e2, congrArg _ e3⟩


/-! ### The ends of the rounds (R41, R65, R66) -/

/-- The path after a report for a LIST poll (R60, R64, R66). -/
theorem Link.handListed_path (x : Ctx) (p : PortId) (r : Report) (l : Link) :
    (l.handListed x p r).path = match l.port.target with
      | some g => if g.probe then l.path else l.path.report x x.polled (stationAt p g.addr) false r
      | none => l.path := by
  unfold Link.handListed
  cases l.port.target with
  | none => rfl
  | some g =>
    cases hg : g.probe
    · simp [hg]; rfl
    · simp [hg]

/-- R66: the report of the call that the boundary meets, by its phase. -/
theorem Link.cutCall_path (x : Ctx) (p : PortId) (l : Link) :
    (l.cutCall x p).path = match l.port.phase with
      | .receiving | .awaiting | .polling => (l.handListed x p .late).path
      | .quieting => (l.handListed x p .bad).path
      | .idle | .framing | .ended => l.path := by
  unfold Link.cutCall
  cases l.port.phase <;> dsimp only
  case polling =>
    split
    · rename_i h; rw [Link.handListed_path, h]
    · rfl
  case quieting => rw [Link.handListed_path, Link.handListed_path]

/-- The end of a round changes the path by the loss of the port's stations and by reports to them alone (R41, R65, R66):
what both keep, it keeps. -/
theorem Link.roundOver_rel (R : Path → Path → Prop) (refl : ∀ q, R q q) (trans : ∀ a b d, R a b → R b d → R a d)
    (x : Ctx) (p : PortId) (hl : ∀ q : Path, R q (q.portLost p))
    (hr : ∀ (q : Path) (a : Fin 8) (r : Report), R q (q.report x x.polled (stationAt p a) false r)) (l : Link) :
    R l.path (l.roundOver x p).path := by
  have all (r : Report) (as : List (Fin 8)) (m : Link) : R m.path (m.handAll x p r as).path := by
    rw [Link.handAll_path]
    generalize m.path = q
    induction as generalizing q with
    | nil => exact refl q
    | cons a as ih => exact trans _ _ _ (hr q a r) (ih _)
  have listed (r : Report) (m : Link) : R m.path (m.handListed x p r).path := by
    unfold Link.handListed
    split
    · split
      · exact refl _
      · exact hr _ _ _
    · exact refl _
  unfold Link.roundOver
  split
  · split
    · unfold Link.leaveRunning; dsimp only
      exact trans _ _ _ (hl _) (all _ _ { l with path := l.path.portLost p })
    · have h1 : R l.path (if l.port.deadlinePassed then l else l.deadline x p).path := by
        split
        · exact refl _
        · rw [(l.deadline_spec x p).1, ← Link.handAll_path]; exact all _ _ l
      refine trans _ _ _ h1 ?_
      generalize (if l.port.deadlinePassed then l else l.deadline x p) = m
      rw [Link.cutCall_path]
      split
      · exact listed _ m
      · exact listed _ m
      · exact listed _ m
      · exact listed _ m
      all_goals exact refl _
  · exact refl _

/-- Seating, settings and snapshots kept, and bays that only grow. -/
structure Path.Holds (p q : Path) : Prop where
  seated : ∀ c : Fin 32, q.channels[c].seated = p.channels[c].seated
  settings : ∀ c : Fin 32, q.channels[c].settings = p.channels[c].settings
  snapshots : ∀ c : Fin 32, q.channels[c].snapshots = p.channels[c].snapshots
  bays : p.bays.Grows q.bays

theorem Path.Holds.refl (p : Path) : p.Holds p := ⟨fun _ => rfl, fun _ => rfl, fun _ => rfl, Bays.Grows.refl _⟩

theorem Path.Holds.trans {a b c : Path} (h1 : a.Holds b) (h2 : b.Holds c) : a.Holds c :=
  ⟨fun i => (h2.seated i).trans (h1.seated i), fun i => (h2.settings i).trans (h1.settings i),
    fun i => (h2.snapshots i).trans (h1.snapshots i), h1.bays.trans h2.bays⟩

theorem Path.Keeps.holds {p q : Path} (h : p.Keeps q) : p.Holds q := ⟨h.seated, h.settings, h.snapshots, h.bays⟩

theorem Path.portLost_channels (q : Path) (p : PortId) : (q.portLost p).channels = q.channels ∧
    (q.portLost p).bays = q.bays ∧ (q.portLost p).fcu = q.fcu := by
  unfold Path.portLost
  generalize List.finRange 8 = as
  induction as generalizing q with
  | nil => exact ⟨rfl, rfl, rfl⟩
  | cons a as ih => rw [List.foldl_cons]; exact ih _

theorem Path.holds_portLost (q : Path) (p : PortId) : q.Holds (q.portLost p) := by
  obtain ⟨h1, h2, _⟩ := q.portLost_channels p
  exact ⟨fun _ => by rw [h1], fun _ => by rw [h1], fun _ => by rw [h1], by rw [h2]; exact Bays.Grows.refl _⟩

theorem Path.holds_report (q : Path) (x : Ctx) (polled : Option Nat) (k : Fin 16) (probe : Bool) (r : Report) :
    q.Holds (q.report x polled k probe r) := by
  have h := q.keeps_report x polled k probe r
  exact ⟨h.seated, h.settings, h.snapshots, h.bays⟩

/-- The end of a round keeps seating, settings and snapshots, and the bays only grow (R41, R65, R66). -/
theorem Link.roundOver_holds (x : Ctx) (p : PortId) (l : Link) : l.path.Holds (l.roundOver x p).path :=
  Link.roundOver_rel Path.Holds Path.Holds.refl (fun _ _ _ => Path.Holds.trans) x p (fun q => q.holds_portLost p)
    (fun q _ r => q.holds_report x x.polled _ false r) l

/-- The stations of the other port and their channels stand as they were (R41, R65, R66). -/
def Path.Away (p q : Path) (port : PortId) : Prop :=
  ∀ (o : PortId) (a : Fin 8), o ≠ port → q.stations[stationAt o a] = p.stations[stationAt o a] ∧
    ∀ m : Fin 2, q.channels[channelOf (stationAt o a) m] = p.channels[channelOf (stationAt o a) m]

theorem Link.roundOver_away (x : Ctx) (p : PortId) (l : Link) : l.path.Away (l.roundOver x p).path p := by
  refine Link.roundOver_rel (fun a b => a.Away b p) (fun _ _ _ _ => ⟨rfl, fun _ => rfl⟩)
    (fun _ _ _ h1 h2 o i ho => ⟨(h2 o i ho).1.trans (h1 o i ho).1, fun m => ((h2 o i ho).2 m).trans ((h1 o i ho).2 m)⟩)
    x p ?_ ?_ l
  · intro q o a ho
    refine ⟨by rw [Path.portLost_stations, if_neg ho], fun m => by rw [(q.portLost_channels p).1]⟩
  · intro q b r o a ho
    have hk : stationAt o a ≠ stationAt p b := fun e => ho (stationAt_inj e).1
    refine ⟨by rw [Path.report_stations, if_neg hk], fun m => ?_⟩
    exact (q.report_other x x.polled _ false r _ (by rw [stationOf_channelOf]; exact hk)).1

/-- A report for a frame of which no channel holds a snapshot changes no channel, no detector and no mix (R95). -/
theorem Path.report_closed (x : Ctx) (f : Nat) (k : Fin 16) (probe : Bool) (r : Report) (q : Path)
    (h : ∀ c : Fin 32, q.channels[c].snapshot f = none) :
    (q.report x (some f) k probe r).channels = q.channels ∧ (q.report x (some f) k probe r).fcu = q.fcu := by
  have record : (q.recordReport x (some f) k probe r).channels = q.channels ∧
      (q.recordReport x (some f) k probe r).fcu = q.fcu := by
    have stMark (kind : MarkKind) (u : Path) : (u.stationMark x (some f) kind).channels = u.channels ∧
        (u.stationMark x (some f) kind).fcu = u.fcu := by
      unfold Path.stationMark; dsimp only
      exact ⟨Path.mark_channels .., Path.mark_fcu ..⟩
    have drift (b : Bool) (m : Fin 2) (u : Path) : (u.driftMark x (some f) k b m).channels = u.channels ∧
        (u.driftMark x (some f) k b m).fcu = u.fcu := by
      unfold Path.driftMark; dsimp only; split
      · exact stMark _ u
      · exact ⟨rfl, rfl⟩
    unfold Path.recordReport
    cases r <;> dsimp only
    · rw [(drift _ _ _).1, (drift _ _ _).1, (drift _ _ _).2, (drift _ _ _).2]
      split
      · rw [(stMark _ _).1, (stMark _ _).2]; exact ⟨rfl, rfl⟩
      · exact ⟨rfl, rfl⟩
    all_goals
      split
      · rw [(stMark _ _).1, (stMark _ _).2]; exact ⟨rfl, rfl⟩
      · exact ⟨rfl, rfl⟩
  have hand (u : Path) (b : Bool) (m : Fin 2) (hu : u.channels[channelOf k m].snapshot f = none) :
      u.handOff x f k r b m = u := by
    rw [Path.handOff_pressed]
    have e : u.pressed x f k r b m = u := by
      unfold Path.pressed Path.refusePress
      cases r with
      | good _ => dsimp only; rw [hu]
      | _ => rfl
    rw [e, Path.settle_not _ _ _ _ _ (.inl hu)]
  unfold Path.report; dsimp only
  have hc (m : Fin 2) : (q.recordReport x (some f) k probe r).channels[channelOf k m].snapshot f = none := by
    rw [record.1]; exact h _
  rw [hand _ _ 0 (hc 0), hand _ _ 1 (hc 1)]
  exact record

/-- The end of a round after the close of its frame changes no channel, no detector and no mix (R97). -/
theorem Link.roundOver_closed (x : Ctx) (f : Nat) (hx : x.polled = some f) (p : PortId) (l : Link)
    (h : ∀ c : Fin 32, l.path.channels[c].snapshot f = none) :
    (l.roundOver x p).path.channels = l.path.channels ∧ (l.roundOver x p).path.fcu = l.path.fcu := by
  refine Link.roundOver_rel (fun a b => (∀ c : Fin 32, a.channels[c].snapshot f = none) → b.channels = a.channels ∧ b.fcu = a.fcu)
    (fun _ _ => ⟨rfl, rfl⟩) ?_ x p (fun q _ => ⟨(q.portLost_channels p).1, (q.portLost_channels p).2.2⟩) ?_ l h
  · intro a b d h1 h2 h0
    obtain ⟨e1, e2⟩ := h1 h0
    obtain ⟨e3, e4⟩ := h2 (by rw [e1]; exact h0)
    exact ⟨e3.trans e1, e4.trans e2⟩
  · intro q a r h0
    rw [hx]; exact q.report_closed x f _ false r h0

/-- Reports to other stations leave a channel, its bay and its station's record (R71). -/
theorem Path.reports_other (x : Ctx) (p : PortId) (r : Report) (as : List (Fin 8)) (a : Fin 8) (ha : a ∉ as) (c : Fin 32)
    (hc : stationOf c = stationAt p a) (path : Path) :
    (as.foldl (fun q a => q.report x x.polled (stationAt p a) false r) path).channels[c] = path.channels[c] ∧
      (as.foldl (fun q a => q.report x x.polled (stationAt p a) false r) path).stations[stationAt p a] =
        path.stations[stationAt p a] := by
  induction as generalizing path with
  | nil => exact ⟨rfl, rfl⟩
  | cons b as ih =>
    have hb : stationAt p a ≠ stationAt p b := fun e => ha (by rw [(stationAt_inj e).2]; exact List.mem_cons_self)
    rw [List.foldl_cons]
    obtain ⟨h1, h2⟩ := ih (fun h => ha (List.mem_cons_of_mem _ h)) (path.report x x.polled (stationAt p b) false r)
    exact ⟨h1.trans (path.report_other x x.polled _ false r c (by rw [hc]; exact hb)).1,
      h2.trans (by rw [Path.report_stations, if_neg hb])⟩

/-- A settled channel frame is left by the report of the call that the boundary meets (R66, R95). -/
theorem Link.cutCall_settled (x : Ctx) (p : PortId) (l : Link) (c : Fin 32) (h : l.path.channels[c].settled = true) :
    (l.cutCall x p).path.channels[c] = l.path.channels[c] := by
  have listed (r : Report) : (l.handListed x p r).path.channels[c] = l.path.channels[c] := by
    rw [Link.handListed_path]
    cases l.port.target with
    | none => rfl
    | some g =>
      dsimp only; split
      · rfl
      · exact Path.report_settled _ _ _ _ _ _ _ h
  rw [Link.cutCall_path]
  cases l.port.phase <;> first | exact listed _ | rfl

/-- The void frame that the end of a round makes of a channel whose station it reports, with the first cause of R95's
table: LATE for a station that the deadline had not reported and for a call cut short, CHECK for a bundle that was in its
quiet time (R65, R66). -/
theorem Link.roundOver_void (x : Ctx) (p : PortId) (l : Link) (a : Fin 8) (m : Fin 2) (c : Fin 32) (f : Nat) (sn : Snapshot)
    (st : Station) (asked : Bool) (last : Report) (cause : VoidCause)
    (hr : l.port.state = .running) (hk : ∀ k, l.port.control = some k → k.power = .keep ∨ k.power = .on)
    (how : (l.port.deadlinePassed = false ∧ a ∈ l.port.remaining ∧ last = .late) ∨
      (l.port.target = some { addr := a, probe := false } ∧ (l.port.deadlinePassed = true ∨ a ∉ l.port.remaining) ∧
        ((l.port.phase = .quieting ∧ last = .bad) ∨
          ((l.port.phase = .receiving ∨ l.port.phase = .awaiting ∨ l.port.phase = .polling) ∧ last = .late))))
    (hc : c = channelOf (stationAt p a) m) (hx : x.polled = some f)
    (hsn : l.path.channels[c].snapshot f = some sn) (hon : sn.onRecord = true) (hse : l.path.channels[c].seated = true)
    (hun : l.path.channels[c].settled = false) (hwi : x.sitting.within f = true) (hrun : l.path.channels[c].run = none)
    (hst : st = l.path.stations[stationAt p a].missed.1)
    (hpr : asked = ((st.mics[m].button || sn.settings.privacy) && !sn.settings.bar))
    (hca : firstCause asked x.warning false st (if st.mics[m].present = false then some .noMic else last.lastCause) =
      some cause) :
    (l.roundOver x p).path.channels[c] = { l.path.channels[c] with
      privacy := asked, settled := true, run := some (VoidRun.start cause f)
      voids := min 4294967295 (l.path.channels[c].voids + 1), outcome := some (.void cause) } := by
  have hs : stationOf c = stationAt p a := by rw [hc, stationOf_channelOf]
  have hlast : last = .late ∨ last = .bad := by
    rcases how with h | h
    · exact .inl h.2.2
    · rcases h.2.2 with h | h
      · exact .inr h.2
      · exact .inl h.2
  have h1 : last ≠ .notRunning := by rcases hlast with h | h <;> rw [h] <;> exact nofun
  have h2 : last ≠ .supply := by rcases hlast with h | h <;> rw [h] <;> exact nofun
  have hrep (q : Path) (e1 : q.channels[c] = l.path.channels[c])
      (e2 : q.stations[stationAt p a] = l.path.stations[stationAt p a]) :
      (q.report x x.polled (stationAt p a) false last).channels[c] = { l.path.channels[c] with
        privacy := asked, settled := true, run := some (VoidRun.start cause f)
        voids := min 4294967295 (l.path.channels[c].voids + 1), outcome := some (.void cause) } := by
    have hst' : st = q.stations[stationAt p a].reported false last := by
      rw [hst, e2]; rcases hlast with h | h <;> rw [h] <;> rfl
    rw [hx, q.report_void x f (stationAt p a) false last m c sn st asked cause hc h1 h2 (by rw [e1]; exact hsn) hon
      (by rw [e1]; exact hse) (by rw [e1]; exact hun) hwi (by rw [e1]; exact hrun) hst' hpr hca, e1]
  have hoff : l.port.powerOffPending = false := by
    unfold Port.powerOffPending
    cases hk' : l.port.control with
    | none => rfl
    | some k => rcases hk k hk' with e | e <;> simp [e]
  unfold Link.roundOver; rw [if_pos hr, hoff]; rw [if_neg (by decide)]
  rcases how with ⟨hd, ha, rfl⟩ | ⟨ht, hd, hph⟩
  · rw [hd, if_neg (by decide)]
    obtain ⟨q, e1, _, e2, e3⟩ := Path.reports_first x p .late l.port.remaining a ha c hs l.path
    have e4 := hrep q e1 e2
    have e5 : (l.deadline x p).path.channels[c] = { l.path.channels[c] with
        privacy := asked, settled := true, run := some (VoidRun.start cause f)
        voids := min 4294967295 (l.path.channels[c].voids + 1), outcome := some (.void cause) } := by
      rw [(l.deadline_spec x p).1, e3 (by rw [e4]), e4]
    rw [Link.cutCall_settled _ _ _ _ (by rw [e5]), e5]
  · obtain ⟨w, hw, e1, e2, e3, e4⟩ : ∃ w : Link, (if l.port.deadlinePassed then l else l.deadline x p) = w ∧
        w.path.channels[c] = l.path.channels[c] ∧ w.path.stations[stationAt p a] = l.path.stations[stationAt p a] ∧
        w.port.target = l.port.target ∧ w.port.phase = l.port.phase := by
      refine ⟨_, rfl, ?_⟩
      split
      · exact ⟨rfl, rfl, rfl, rfl⟩
      · rename_i hn
        have ha := hd.resolve_left hn
        obtain ⟨o1, o2⟩ := Path.reports_other x p .late l.port.remaining a ha c hs l.path
        obtain ⟨d1, d2, _⟩ := l.deadline_spec x p
        rw [← d1] at o1 o2
        exact ⟨o1, o2, by rw [d2], by rw [d2]⟩
    rw [hw, Link.cutCall_path]
    have e5 := hrep w.path e1 e2
    have e6 : (w.handListed x p last).path = w.path.report x x.polled (stationAt p a) false last := by
      rw [Link.handListed_path, e3, ht]; rfl
    rw [← e6] at e5
    rw [e4]
    rcases hph with ⟨h, rfl⟩ | ⟨h | h | h, rfl⟩ <;> rw [h] <;> exact e5

end Sys2Proof.Machine
end

