-- ==== Sys2Proof/Laws/Course.lean ====
section
/-! SUPPORT. The course of a channel and of the marks through a whole boundary: the timer, the ends of the rounds, the close,
the sitting's move, the snapshots, the ports and the age closes (R22, R28, R30, R31, R66, R88, R91, R97, R142). -/
namespace Sys2Proof.Machine

/-! ### The rest of a boundary -/

/-- A snapshot taken stays beside every other track, and the bays grow by its bar mark at most (R88, R91). -/
theorem Path.snapshotChannel_view (x : Ctx) (f : Nat) (on : Bool) (q : Path) (d : Fin 32) :
    q.Beside (q.snapshotChannel x f on d) (soundTrack d) ∧ q.bays.Grows (q.snapshotChannel x f on d).bays := by
  have h1 := q.beside_setChannel d (q.channels[d].takeSnapshot f on)
  have hk (k : MarkKind) := ((q.setChannel d (q.channels[d].takeSnapshot f on)).keeps_mark x k f).bays
  unfold Path.snapshotChannel; dsimp only
  split
  · exact ⟨h1.trans (Path.beside_mark x _ f _ _), hk _⟩
  · split
    · exact ⟨h1.trans (Path.beside_mark x _ f _ _), hk _⟩
    · exact ⟨h1, Bays.Grows.refl _⟩

/-- What moves of one channel after the close: its snapshots, and its run where an age close ends it (R88, R142). -/
theorem Path.takeSnapshots_view (x : Ctx) (f : Nat) (on : Bool) (p : Path) (c : Fin 32) :
    (p.takeSnapshots x f on).channels[c] = p.channels[c].takeSnapshot f on ∧ (p.takeSnapshots x f on).fcu = p.fcu := by
  have own (q : Path) (d : Fin 32) : (q.snapshotChannel x f on d).channels[d] = q.channels[d].takeSnapshot f on := by
    unfold Path.snapshotChannel; dsimp only
    split
    · rw [Path.mark_channel, Path.setChannel_get, if_pos rfl]
    · split
      · rw [Path.mark_channel, Path.setChannel_get, if_pos rfl]
      · rw [Path.setChannel_get, if_pos rfl]
  have fcu (q : Path) (d : Fin 32) : (q.snapshotChannel x f on d).fcu = q.fcu := by
    unfold Path.snapshotChannel; dsimp only
    split
    · exact Path.mark_fcu ..
    · split
      · exact Path.mark_fcu ..
      · rfl
  obtain ⟨q, q1, q2, q3, q4⟩ := Path.foldl_all (Path.snapshotChannel x f on) (fun q d => (q.snapshotChannel_view x f on d).1)
    (fun a b => b.fcu = a.fcu)
    (fun _ => rfl) (fun _ _ _ h1 h2 => h2.trans h1) fcu c p
  exact ⟨by unfold Path.takeSnapshots; rw [q4, own, q2], by unfold Path.takeSnapshots; rw [q3, fcu, q1]⟩

/-- A mark stands in bay 33, or no room of its class is left there; what grows the bays keeps it so (R126). -/
theorem Bays.tells_grows {bs bs' : Bays} {m : Mark} (h : bs.tells m) (g : bs.Grows bs') : bs'.tells m := by
  obtain ⟨more, hm⟩ := g.items markTrack
  have hu := g.units markTrack
  rcases h with h | h
  · exact .inl (by rw [hm]; exact List.mem_append_left _ h)
  · right
    have hl : m.kind.level bs'.bay[markTrack] = m.kind.level bs.bay[markTrack] := by
      unfold MarkKind.level Bay.capacity; rw [hu]
    have hf : bs.bay[markTrack].fill ≤ bs'.bay[markTrack].fill := by
      unfold Bay.fill; rw [hm, itemsBytes_append]; omega
    omega

theorem Bays.tells_offer (bs : Bays) (m : Mark) : (bs.offer m).tells m := by
  rcases bs.offer_cases m with ⟨_, e⟩ | ⟨h, e⟩
  · left; rw [e, Bays.set_bay, if_pos rfl]; simp
  · right; rw [e]; exact h

theorem Path.tells_mark (x : Ctx) (k : MarkKind) (f : Nat) (p : Path) (h : x.sitting.marks f = true) :
    (p.mark x k f).bays.tells { kind := k, frame := f, time := x.tod } := by
  unfold Path.mark; rw [if_pos h]; exact Bays.tells_offer _ _

/-! ### From the close of a frame to the end of the boundary -/

/-- From `p` to `q` only snapshots and runs of the channels moved, a run only by being ended, the detectors and the mix
stood, and the bays grew. -/
structure Path.Course (p q : Path) : Prop where
  channel : ∀ c : Fin 32, ∃ sns run, q.channels[c] = { p.channels[c] with snapshots := sns, run := run }
  ended : ∀ (c : Fin 32) (r : VoidRun), q.channels[c].run = some r → r.held = true ∨ p.channels[c].run = some r
  floors : q.fcu.floors = p.fcu.floors
  sums : q.fcu.sums = p.fcu.sums
  contributors : q.fcu.contributors = p.fcu.contributors
  bays : p.bays.Grows q.bays

theorem Path.Course.refl (p : Path) : p.Course p :=
  ⟨fun _ => ⟨_, _, rfl⟩, fun _ _ h => .inr h, rfl, rfl, rfl, Bays.Grows.refl _⟩

theorem Path.Course.trans {a b d : Path} (h1 : a.Course b) (h2 : b.Course d) : a.Course d where
  channel c := by
    obtain ⟨s1, r1, e1⟩ := h1.channel c
    obtain ⟨s2, r2, e2⟩ := h2.channel c
    exact ⟨s2, r2, by rw [e2, e1]⟩
  ended c r h := (h2.ended c r h).elim .inl (h1.ended c r)
  floors := h2.floors.trans h1.floors
  sums := h2.sums.trans h1.sums
  contributors := h2.contributors.trans h1.contributors
  bays := h1.bays.trans h2.bays

/-- What changes neither channels nor the Frame Computation Unit, and grows the bays. -/
theorem Path.course_of {p q : Path} (h1 : q.channels = p.channels) (h2 : q.fcu = p.fcu) (h3 : p.bays.Grows q.bays) :
    p.Course q :=
  ⟨fun c => ⟨_, _, by rw [h1]⟩, fun _ _ h => .inr (by rw [← h1]; exact h), by rw [h2], by rw [h2], by rw [h2], h3⟩

theorem Path.course_mark (x : Ctx) (k : MarkKind) (f : Nat) (p : Path) : p.Course (p.mark x k f) :=
  Path.course_of (Path.mark_channels ..) (Path.mark_fcu ..) (p.keeps_mark x k f).bays

theorem Path.course_takeSnapshots (x : Ctx) (f : Nat) (on : Bool) (p : Path) : p.Course (p.takeSnapshots x f on) := by
  have h (c : Fin 32) := p.takeSnapshots_view x f on c
  have hb : p.bays.Grows (p.takeSnapshots x f on).bays := by
    unfold Path.takeSnapshots
    generalize List.finRange 32 = l
    induction l generalizing p with
    | nil => exact Bays.Grows.refl _
    | cons c l ih =>
      have h1 : p.bays.Grows (p.snapshotChannel x f on c).bays := by
        unfold Path.snapshotChannel; dsimp only
        split
        · exact (Path.keeps_mark x _ f (p.setChannel c _)).bays
        · split
          · exact (Path.keeps_mark x _ f (p.setChannel c _)).bays
          · exact Bays.Grows.refl _
      rw [List.foldl_cons]
      exact h1.trans (ih _ (fun c => Path.takeSnapshots_view x f on _ c))
  refine ⟨fun c => ⟨_, _, (h c).1⟩, fun c r hr => .inr ?_, by rw [(h 0).2], by rw [(h 0).2], by rw [(h 0).2], hb⟩
  rw [(h c).1] at hr; exact hr

theorem Path.course_endRun (p : Path) (t : Fin 33) : p.Course (p.endRun t) := by
  have hb : p.bays.Grows (p.endRun t).bays := (p.keeps_endRun t).bays
  by_cases ht : ∃ c, t = soundTrack c
  · obtain ⟨c, rfl⟩ := ht
    obtain ⟨r, bs, e⟩ := p.runMoved_endRun c
    have hf : (p.endRun (soundTrack c)).fcu = p.fcu := by rw [e]; rfl
    refine ⟨fun d => ?_, fun d v hv => ?_, by rw [hf], by rw [hf], by rw [hf], hb⟩
    · rw [e]
      show ∃ sns run, (p.setChannel c _).channels[d] = _
      rw [Path.setChannel_get]
      split
      · rename_i h; subst h; exact ⟨_, _, rfl⟩
      · exact ⟨_, _, rfl⟩
    · by_cases h : d = c
      · subst h; exact .inl (Path.endRun_ended p d v hv)
      · right
        rw [(p.beside_endRun (soundTrack c) d (fun e => h (soundTrack_injective e))).1] at hv; exact hv
  · have hc (c : Fin 32) : (p.endRun t).channels[c] = p.channels[c] :=
      (p.beside_endRun t c (fun e => ht ⟨c, e.symm⟩)).1
    have hm : t.val = 32 := by
      by_contra hne
      exact ht ⟨⟨t.val, by omega⟩, rfl⟩
    have set (q : Path) (r : Option VoidRun) : (q.setRun t r).fcu = { q.fcu with mixRun := r } := by
      unfold Path.setRun; rw [dif_neg (by omega)]
    have hf : ∃ r, (p.endRun t).fcu = { p.fcu with mixRun := r } := by
      unfold Path.endRun
      split
      · split
        · exact ⟨_, rfl⟩
        · rename_i r _ _
          rcases p.offerRun_cases t r with ⟨_, e⟩ | ⟨_, e⟩
          · rw [e, set]; exact ⟨_, rfl⟩
          · rw [e, set]; exact ⟨_, rfl⟩
      · exact ⟨_, rfl⟩
    obtain ⟨r, hf⟩ := hf
    exact ⟨fun c => ⟨_, _, hc c⟩, fun c v hv => .inr (by rw [← hc c]; exact hv), by rw [hf], by rw [hf], by rw [hf], hb⟩

theorem State.roundOver_path (s : State) (e : Timer) (p : PortId) :
    (s.roundOver e p).path = ((s.link p).roundOver (s.endedCtx e) p).path := State.withLink_path _ _ _

/-- A port's boundary work marks and raises at most (R52). -/
theorem State.course_portWork (s : State) (p : PortId) : s.path.Course (s.portWork p).path := by
  have h : s.path.Course ((s.link p).boundaryWork s.ctx p).path := by
    unfold Link.boundaryWork Link.portMark; dsimp only
    split
    · exact (Path.course_mark s.ctx _ s.ctx.frame s.path).trans (Path.course_of rfl rfl (Bays.Grows.refl _))
    · exact Path.Course.refl _
  unfold State.portWork; dsimp only
  cases p <;> exact h

theorem State.course_ageCloses (s : State) : s.path.Course s.ageCloses.path := by
  unfold State.ageCloses
  generalize List.finRange 34 = l
  induction l generalizing s with
  | nil => exact Path.Course.refl _
  | cons t l ih =>
    have h1 : s.path.Course (s.ageClose t).path := by
      unfold State.ageClose; dsimp only
      split
      · split
        · dsimp only
          split
          · exact s.path.course_endRun _
          · exact Path.Course.refl _
        · exact Path.Course.refl _
      · exact Path.Course.refl _
    rw [List.foldl_cons]
    exact h1.trans (ih _)

/-- A channel whose track has no open sheet is left by the age closes (R142). -/
theorem State.ageCloses_channel (s : State) (c : Fin 32) (h : s.writer.sheets[trackOf (soundTrack c)] = none) :
    s.ageCloses.path.channels[c] = s.path.channels[c] := by
  unfold State.ageCloses
  generalize List.finRange 34 = l
  induction l generalizing s with
  | nil => rfl
  | cons t l ih =>
    rw [List.foldl_cons]
    by_cases e : t = trackOf (soundTrack c)
    · have h1 : s.ageClose t = s := by
        subst e; unfold State.ageClose; rw [h]
        cases s.writer.arming <;> rfl
      rw [h1]; exact ih s h
    · have h1 : (s.ageClose t).writer.sheets[trackOf (soundTrack c)] = none := by
        rw [State.ageClose_eq]; split
        · show (s.writer.sheets.set t.val _ t.isLt)[(trackOf (soundTrack c)).val] = none
          rw [Vector.getElem_set_ne _ _ (fun e' => e (Fin.ext e'))]; exact h
        · exact h
      have h2 : (s.ageClose t).path.channels[c] = s.path.channels[c] := by
        unfold State.ageClose; dsimp only
        split
        · split
          · dsimp only
            split
            · rename_i ht
              refine (s.path.beside_endRun _ c (fun e' => e ?_)).1
              rw [e']; rfl
            · rfl
          · rfl
        · rfl
      rw [ih _ h1, h2]

/-- The sitting's own move at a boundary that opens no sitting marks at most (R4, R11, R15). -/
theorem State.moveSitting_course (s : State) (h : s.sitting.counting = true) :
    s.path.Course s.moveSitting.path ∧ s.moveSitting.path.channels = s.path.channels ∧
      s.moveSitting.timer = s.timer ∧ s.moveSitting.writer.sheets = s.writer.sheets ∧
      s.moveSitting.sitting.counting = true ∧ s.moveSitting.sitting.openedAt = s.sitting.openedAt := by
  have shift : s.path.Course s.shiftFlag.path ∧ s.shiftFlag.path.channels = s.path.channels ∧ s.shiftFlag.timer = s.timer ∧
      s.shiftFlag.writer = s.writer ∧ s.shiftFlag.sitting.openedAt = s.sitting.openedAt ∧
      s.shiftFlag.sitting.counting = true := by
    have flag (b : Bool) : Sitting.counting { s.sitting with state := stateOfFlag b } = true := by cases b <;> rfl
    unfold State.shiftFlag; dsimp only
    split
    · exact ⟨Path.Course.refl _, rfl, rfl, rfl, rfl, flag _⟩
    · split
      · rename_i bs hb
        exact ⟨Path.course_of rfl rfl (Bays.grows_place hb), rfl, rfl, rfl, rfl, flag _⟩
      · exact ⟨Path.Course.refl _, rfl, rfl, rfl, rfl, flag _⟩
  obtain ⟨s1, s2, s3, s4, s5, s6⟩ := shift
  have limit (u : State) (hu : u.sitting.counting = true) : u.path.Course u.limitClose.path ∧
      u.limitClose.path.channels = u.path.channels ∧ u.limitClose.timer = u.timer ∧ u.limitClose.writer = u.writer ∧
      u.limitClose.sitting.openedAt = u.sitting.openedAt ∧ u.limitClose.sitting.counting = true := by
    unfold State.limitClose
    split
    · exact ⟨Path.course_of rfl rfl (Bays.Grows.refl _), rfl, rfl, rfl, rfl, rfl⟩
    · exact ⟨Path.Course.refl _, rfl, rfl, rfl, rfl, hu⟩
  obtain ⟨l1, l2, l3, l4, l5, l6⟩ := limit s.shiftFlag s6
  unfold State.moveSitting
  unfold Sitting.counting at h
  cases hs : s.sitting.state <;> rw [hs] at h <;> dsimp only at h ⊢
  · cases h
  · cases h
  · exact ⟨s1.trans l1, l2.trans s2, l3.trans s3, by rw [l4, s4], l6, l5.trans s5⟩
  · exact ⟨s1.trans l1, l2.trans s2, l3.trans s3, by rw [l4, s4], l6, l5.trans s5⟩
  · refine ⟨Path.Course.refl _, rfl, rfl, rfl, ?_, rfl⟩
    unfold Sitting.counting; dsimp only; rw [hs]

theorem State.ownMix_course (s : State) : s.path.Course s.ownMix.path := by
  unfold State.ownMix
  generalize s.path = p; generalize s.ctx.computed = f
  exact ⟨fun _ => ⟨_, _, rfl⟩, fun _ _ h => .inr h, by unfold Fcu.belongTo; rfl, by unfold Fcu.belongTo; rfl,
    by unfold Fcu.belongTo; rfl, Bays.Grows.refl _⟩

theorem State.beginInterval_course (s : State) : s.path.Course s.beginInterval.path := by
  unfold State.beginInterval
  rw [State.beginScan_path]
  have h := ((s.course_portWork .a).trans (State.course_portWork _ .b)).trans (State.course_ageCloses _)
  refine h.trans ?_
  rw [State.refresh_only]
  generalize ((s.portWork .a).portWork .b).ageCloses = u
  generalize u.refresh.path.attn = n
  generalize u.refresh.writer.starving = v
  exact Path.course_of rfl rfl (Bays.Grows.refl _)

/-- The interval that begins (R88, R114, R142). -/
theorem State.openInterval_course (s : State) : s.path.Course s.openInterval.path := by
  unfold State.openInterval
  have h : s.path.Course s.takeSnapshots.path := by
    unfold State.takeSnapshots; split
    · dsimp only; exact s.path.course_takeSnapshots s.ctx s.frame s.sitting.cur
    · exact Path.Course.refl _
  have h2 := State.ownMix_course s.takeSnapshots
  have h3 := State.beginInterval_course s.takeSnapshots.ownMix
  exact (h.trans h2).trans h3

/-- The timer's marks change nothing of the audio path but the bays, which grow (R28, R30, R31). -/
theorem Path.timerMarks_audio (x : Ctx) (e : Timer) (p : Path) : (p.timerMarks x e).channels = p.channels ∧
    (p.timerMarks x e).stations = p.stations ∧ (p.timerMarks x e).fcu = p.fcu ∧ p.bays.Grows (p.timerMarks x e).bays := by
  have step (k : MarkKind) (q : Path) : (q.mark x k x.frame).channels = q.channels ∧
      (q.mark x k x.frame).stations = q.stations ∧ (q.mark x k x.frame).fcu = q.fcu ∧
      q.bays.Grows (q.mark x k x.frame).bays :=
    ⟨Path.mark_channels .., Path.mark_stations .., Path.mark_fcu .., (q.keeps_mark x k x.frame).bays⟩
  unfold Path.timerMarks; dsimp only
  generalize hp : (if e.next ≠ e.interval then p.mark x (.trimSet e.interval e.next) x.frame else p) = p1
  have h1 : p1.channels = p.channels ∧ p1.stations = p.stations ∧ p1.fcu = p.fcu ∧ p.bays.Grows p1.bays := by
    rw [← hp]; split
    · exact step _ _
    · exact ⟨rfl, rfl, rfl, Bays.Grows.refl _⟩
  split
  · split
    · rename_i new _
      obtain ⟨a1, a2, a3, a4⟩ := step (.clockSet e.ordinary new) p1
      exact ⟨a1.trans h1.1, a2.trans h1.2.1, a3.trans h1.2.2.1, h1.2.2.2.trans a4⟩
    · exact h1
  · exact ⟨rfl, rfl, rfl, Bays.Grows.refl _⟩

theorem State.advanceTimer_audio (s : State) : s.advanceTimer.path.channels = s.path.channels ∧
    s.advanceTimer.path.stations = s.path.stations ∧ s.advanceTimer.path.fcu = s.path.fcu ∧
    s.path.bays.Grows s.advanceTimer.path.bays := Path.timerMarks_audio _ _ _

theorem State.portWork_channels (s : State) (p : PortId) : (s.portWork p).path.channels = s.path.channels := by
  have e : ((s.link p).boundaryWork s.ctx p).path.channels = s.path.channels := by
    unfold Link.boundaryWork Link.portMark; dsimp only
    split
    · exact Path.mark_channels ..
    · rfl
  unfold State.portWork; dsimp only; cases p <;> exact e

/-- What the interval that begins leaves of a channel whose track has no open sheet: all but its snapshots (R88, R142). -/
theorem State.openInterval_channel (s : State) (c : Fin 32) (h : s.writer.sheets[trackOf (soundTrack c)] = none) :
    ∃ sns, s.openInterval.path.channels[c] = { s.path.channels[c] with snapshots := sns } := by
  have h1 : (∃ sns, s.takeSnapshots.ownMix.path.channels[c] = { s.path.channels[c] with snapshots := sns }) ∧
      s.takeSnapshots.ownMix.writer = s.writer := by
    have h2 (u : State) : u.ownMix.path.channels = u.path.channels ∧ u.ownMix.writer = u.writer := by
      unfold State.ownMix; exact ⟨rfl, rfl⟩
    rw [(h2 _).1, (h2 _).2]
    unfold State.takeSnapshots; split
    · refine ⟨?_, rfl⟩
      dsimp only
      rw [(Path.takeSnapshots_view s.ctx s.frame s.sitting.cur s.path c).1]
      unfold Channel.takeSnapshot
      exact ⟨_, rfl⟩
    · exact ⟨⟨_, rfl⟩, rfl⟩
  obtain ⟨⟨sns, h1⟩, h2⟩ := h1
  refine ⟨sns, ?_⟩
  rw [← h1]
  unfold State.openInterval State.beginInterval
  generalize s.takeSnapshots.ownMix = u at h2
  have hw (v : State) (p : PortId) : (v.portWork p).writer = v.writer := State.withLink_writer _ _ _
  rw [State.beginScan_path, State.refresh_only]
  dsimp only
  rw [State.ageCloses_channel _ c (by rw [hw, hw, h2]; exact h), State.portWork_channels, State.portWork_channels]

/-! ### The whole boundary -/

/-- With no close target the close of a frame is that of the path alone, or none (R97). -/
theorem State.closeFrame_open (s : State) (h : s.sitting.close = none) :
    s.closeFrame = s ∨ ∃ f, s.closingFrame = some f ∧ s.closeFrame = { s with
      path := s.path.closeFrame s.ctx f s.sitting.comp s.sitting.cur false s.portA.ranRound s.portB.ranRound } := by
  unfold State.closeFrame
  cases s.closingFrame with
  | none => exact .inl rfl
  | some f =>
    right; refine ⟨f, rfl, ?_⟩
    have e : s.sitting.isLast f = false := by unfold Sitting.isLast; rw [h]
    simp only [e, if_neg Bool.false_ne_true]

/-- The end of the other port's round leaves this port, its stations and their channels. -/
theorem State.roundOver_other (s : State) (e : Timer) (q p : PortId) (a : Fin 8) (m : Fin 2) (h : p ≠ q) :
    (s.roundOver e q).port p = s.port p ∧
    (s.roundOver e q).path.stations[stationAt p a] = s.path.stations[stationAt p a] ∧
    (s.roundOver e q).path.channels[channelOf (stationAt p a) m] = s.path.channels[channelOf (stationAt p a) m] := by
  have h1 := (s.link q).roundOver_away (s.endedCtx e) q p a h
  rw [State.roundOver_path]
  exact ⟨State.withLink_other _ _ _ _ h, h1.1, h1.2 m⟩

theorem State.roundsOver_other (s : State) (e : Timer) (a b : Bool) (p : PortId) (i : Fin 8) (m : Fin 2)
    (h : (s.port p).state ≠ .running ∨ (p = .a ∧ a = false) ∨ (p = .b ∧ b = false)) :
    (s.roundsOver e a b).port p = s.port p ∧
    (s.roundsOver e a b).path.stations[stationAt p i] = s.path.stations[stationAt p i] ∧
    (s.roundsOver e a b).path.channels[channelOf (stationAt p i) m] = s.path.channels[channelOf (stationAt p i) m] := by
  have step (u : State) (q : PortId) (g : p ≠ q ∨ (u.port p).state ≠ .running) : (u.roundOver e q).port p = u.port p ∧
      (u.roundOver e q).path.stations[stationAt p i] = u.path.stations[stationAt p i] ∧
      (u.roundOver e q).path.channels[channelOf (stationAt p i) m] = u.path.channels[channelOf (stationAt p i) m] := by
    by_cases hq : p = q
    · have g := g.resolve_left (fun e => e hq)
      rw [← hq]
      have e1 : (u.link p).roundOver (u.endedCtx e) p = u.link p := by unfold Link.roundOver; exact if_neg g
      refine ⟨?_, ?_, ?_⟩
      · unfold State.roundOver; rw [e1, State.withLink_port]; rfl
      · rw [State.roundOver_path, e1]; rfl
      · rw [State.roundOver_path, e1]; rfl
    · exact u.roundOver_other e q p i m hq
  cases a <;> cases b
  · exact ⟨rfl, rfl, rfl⟩
  · refine step s .b ?_
    rcases h with h | ⟨h, _⟩ | ⟨_, h⟩
    · exact .inr h
    · exact .inl (by rw [h]; exact nofun)
    · cases h
  · refine step s .a ?_
    rcases h with h | ⟨_, h⟩ | ⟨h, _⟩
    · exact .inr h
    · cases h
    · exact .inl (by rw [h]; exact nofun)
  · have h := h.resolve_right (fun h => by rcases h with ⟨_, h⟩ | ⟨_, h⟩ <;> cases h)
    obtain ⟨e1, e2, e3⟩ := step s .a (.inr h)
    obtain ⟨e4, e5, e6⟩ := step (s.roundOver e .a) .b (.inr (by rw [e1]; exact h))
    exact ⟨e4.trans e1, e5.trans e2, e6.trans e3⟩

/-- A reporting port's end of round, among both, gives what it gives alone. -/
theorem State.roundsOver_self (s : State) (e : Timer) (a b : Bool) (p : PortId) (i : Fin 8) (m : Fin 2)
    (ha : p = .a → a = true) (hb : p = .b → b = true) :
    ∃ u : State, SameCourt s u ∧ u.port p = s.port p ∧
      u.path.stations[stationAt p i] = s.path.stations[stationAt p i] ∧
      u.path.channels[channelOf (stationAt p i) m] = s.path.channels[channelOf (stationAt p i) m] ∧
      (s.roundsOver e a b).path.channels[channelOf (stationAt p i) m] =
        ((u.link p).roundOver (s.endedCtx e) p).path.channels[channelOf (stationAt p i) m] := by
  have own (u : State) : (u.roundOver e p).path.channels[channelOf (stationAt p i) m] =
      ((u.link p).roundOver (u.endedCtx e) p).path.channels[channelOf (stationAt p i) m] := by rw [State.roundOver_path]
  cases p with
  | a =>
    rw [ha rfl]
    refine ⟨s, SameCourt.refl s, rfl, rfl, rfl, ?_⟩
    cases b
    · exact own s
    · exact (State.roundOver_other (s.roundOver e .a) e .b .a i m (by exact nofun)).2.2.trans (own s)
  | b =>
    rw [hb rfl]
    cases a
    · exact ⟨s, SameCourt.refl s, rfl, rfl, rfl, own s⟩
    · obtain ⟨e1, e2, e3⟩ := s.roundOver_other e .a .b i m (by exact nofun)
      have hc := s.roundOver_court e .a
      have hx : (s.roundOver e .a).endedCtx e = s.endedCtx e := by
        unfold State.endedCtx State.ctx; rw [hc.supply, hc.sitting, hc.timer]
      refine ⟨s.roundOver e .a, hc, e1, e2, e3, (own (s.roundOver e .a)).trans ?_⟩
      rw [hx]

theorem State.roundsOver_writer (s : State) (e : Timer) (a b : Bool) : (s.roundsOver e a b).writer = s.writer := by
  have step (u : State) (q : PortId) : (u.roundOver e q).writer = u.writer := State.withLink_writer _ _ _
  cases a <;> cases b
  · rfl
  · exact step s .b
  · exact step s .a
  · exact (step _ .b).trans (step s .a)

/-- The open sheets before the sitting moves, without a close target: as they were. -/
theorem State.endInterval_sheets (s : State) (a b : Bool) (h : s.sitting.close = none) :
    (s.endInterval a b).writer = s.writer := by
  unfold State.endInterval
  rw [State.roundsOver_writer]
  have h1 := s.advanceTimer.roundsOver_writer s.timer a b
  have h2 := (s.advanceTimer.roundsOver_court s.timer a b).sitting
  generalize s.advanceTimer.roundsOver s.timer a b = u at h1 h2
  have h3 : u.sitting.close = none := by rw [h2]; exact h
  have h4 : u.closeFrame.writer = u.writer := by
    rcases u.closeFrame_open h3 with e | ⟨f, _, e⟩ <;> rw [e]
  rw [h4, h1]; rfl

theorem Sitting.counting_of_isOpen {st : Sitting} (h : st.isOpen = true) : st.counting = true := by
  unfold Sitting.isOpen at h; unfold Sitting.counting; split at h <;> simp_all

/-- What the rest of the boundary leaves of a channel whose track has no open sheet. -/
theorem State.boundary_channel (s : State) (a b : Bool) (c : Fin 32) (h1 : (s.endInterval a b).sitting.counting = true)
    (h2 : (s.endInterval a b).writer.sheets[trackOf (soundTrack c)] = none) :
    ∃ sns, (s.boundary a b).path.channels[c] = { (s.endInterval a b).path.channels[c] with snapshots := sns } := by
  rw [State.boundary_parts]
  generalize s.endInterval a b = v at *
  obtain ⟨_, m2, _, m4, _, _⟩ := v.moveSitting_course h1
  generalize v.moveSitting = w at *
  obtain ⟨sns, e⟩ := w.openInterval_channel c (by rw [m4]; exact h2)
  exact ⟨sns, by rw [e, m2]⟩

/-- The close of frame `f`: the path's, the held SITTING_CLOSE apart (R14, R97). -/
theorem State.closeFrame_at (s : State) (f : Nat) (h : s.closingFrame = some f) :
    ∃ bs, s.closeFrame.path = { s.path.closeFrame s.ctx f s.sitting.comp s.sitting.cur (s.sitting.isLast f)
        s.portA.ranRound s.portB.ranRound with bays := bs } ∧
      s.closeFrame.sitting.state = s.sitting.state ∧ s.closeFrame.sitting.openedAt = s.sitting.openedAt ∧
      (s.sitting.isLast f = false → s.closeFrame.writer = s.writer) := by
  have drain (st : Sitting) (w : Word64) : (st.startDrain w).state = st.state ∧ (st.startDrain w).openedAt = st.openedAt := by
    unfold Sitting.startDrain; split <;> exact ⟨rfl, rfl⟩
  unfold State.closeFrame; rw [h]; dsimp only
  split
  · rename_i hl
    rw [State.setEmptyCloses_path, State.setEmptyCloses_sitting, State.offerFinal_only, hl]
    exact ⟨_, rfl, (drain _ _).1, (drain _ _).2, nofun⟩
  · rename_i hl
    rw [Bool.not_eq_true] at hl
    rw [hl]
    exact ⟨_, rfl, rfl, rfl, fun _ => rfl⟩

/-- The ends of the rounds after the close of their frame change no channel, no detector and no mix (R97). -/
theorem State.roundsOver_closed (s : State) (e : Timer) (a b : Bool) (f : Nat)
    (hx : (s.endedCtx e).polled = some f) (h : ∀ c : Fin 32, s.path.channels[c].snapshot f = none) :
    (s.roundsOver e a b).path.channels = s.path.channels ∧ (s.roundsOver e a b).path.fcu = s.path.fcu := by
  have step (u : State) (q : PortId) (hx : (u.endedCtx e).polled = some f)
      (h : ∀ c : Fin 32, u.path.channels[c].snapshot f = none) :
      (u.roundOver e q).path.channels = u.path.channels ∧ (u.roundOver e q).path.fcu = u.path.fcu := by
    rw [State.roundOver_path]; exact Link.roundOver_closed _ f hx q _ h
  cases a <;> cases b
  · exact ⟨rfl, rfl⟩
  · exact step s .b hx h
  · exact step s .a hx h
  · obtain ⟨e1, e2⟩ := step s .a hx h
    have hc := s.roundOver_court e .a
    have hx2 : ((s.roundOver e .a).endedCtx e).polled = some f := by
      rw [← hx]; unfold State.endedCtx State.ctx; rw [hc.supply, hc.sitting, hc.timer]
    obtain ⟨e3, e4⟩ := step (s.roundOver e .a) .b hx2 (by rw [e1]; exact h)
    exact ⟨e3.trans e1, e4.trans e2⟩

/-- The interval that begins gives no channel a snapshot but of its own frame (R88). -/
theorem State.openInterval_snapshot (s : State) (c : Fin 32) (g : Nat) (hg : g ≠ s.frame)
    (h : s.path.channels[c].snapshot g = none) : s.openInterval.path.channels[c].snapshot g = none := by
  have h1 : s.takeSnapshots.path.channels[c].snapshot g = none := by
    unfold State.takeSnapshots; split
    · dsimp only
      rw [(Path.takeSnapshots_view s.ctx s.frame s.sitting.cur s.path c).1]
      unfold Channel.takeSnapshot Channel.snapshot; dsimp only
      unfold Channel.snapshot at h
      rw [List.find?_append]
      have h2 : List.find? (fun sn => decide (sn.frame = g))
          (List.find? (fun sn => decide (sn.frame + 1 = s.frame)) s.path.channels[c].snapshots).toList = none := by
        rw [List.find?_eq_none] at h ⊢
        intro x hx
        rw [Option.mem_toList] at hx
        exact h x (List.mem_of_find?_eq_some hx)
      rw [h2]
      simp [Ne.symm hg]
    · exact h
  have age (u : State) : u.ageCloses.path.channels[c].snapshots = u.path.channels[c].snapshots := by
    unfold State.ageCloses
    generalize List.finRange 34 = l
    induction l generalizing u with
    | nil => rfl
    | cons t l ih =>
      rw [List.foldl_cons, ih]
      unfold State.ageClose; dsimp only
      split
      · split
        · dsimp only; split
          · exact (u.path.keeps_endRun _).snapshots c
          · rfl
        · rfl
      · rfl
  have mix (u : State) : u.ownMix.path.channels = u.path.channels := by unfold State.ownMix; rfl
  have e : s.openInterval.path.channels[c].snapshots = s.takeSnapshots.path.channels[c].snapshots := by
    unfold State.openInterval State.beginInterval
    rw [State.beginScan_path, State.refresh_only]; dsimp only
    rw [age, State.portWork_channels, State.portWork_channels, mix]
  unfold Channel.snapshot at h1 ⊢
  rw [e]; exact h1

@[simp] theorem portOf_channelOf (p : PortId) (i : Fin 8) (m : Fin 2) : portOf (channelOf (stationAt p i) m) = p := by
  revert i m; cases p <;> decide

/-- The count after a boundary, the largest value apart (R22). -/
theorem State.advance_boundary (s : State) (h : s.timer.boundary ≠ BitVec.allOnes 64) :
    s.advanceTimer.timer.boundary.toNat = s.timer.boundary.toNat + 1 := by
  show (nextBoundary s.timer.boundary s.draws).toNat = _
  unfold nextBoundary; rw [if_neg h]
  have : s.timer.boundary.toNat ≠ 2 ^ 64 - 1 := fun e => h (BitVec.eq_of_toNat_eq (by rw [e]; rfl))
  have := s.timer.boundary.isLt
  rw [BitVec.toNat_add]
  show (s.timer.boundary.toNat + 1) % 2 ^ 64 = _
  omega


/-- R97's list, for a close. -/
theorem firstCause_late (asked w ran : Bool) (st : Station) :
    firstCause asked w (!ran) st (some .late) = some (if asked then .privacy else if w then .power
      else if ran = false then .portDown else if st.state = .vacant ∨ st.state = .lost then .noStation
      else if st.state = .joining then .joining else .late) := by
  unfold firstCause
  cases asked
  · cases w
    · cases ran
      · rfl
      · simp only [Bool.not_true, Bool.false_eq_true, if_false, reduceCtorEq]
        repeat' split
        all_goals rfl
    · rfl
  · rfl

/-- The bar mark of a seated channel whose bar changed since the frame before stands in bay 33, or no room of its class
was left there (R88, R91). -/
theorem Path.takeSnapshots_tells (x : Ctx) (f : Nat) (on : Bool) (p : Path) (c : Fin 32) (bar : Bool)
    (hm : x.sitting.marks f = true) (hs : p.channels[c].seated = true) (hb : bar = p.channels[c].settings.bar)
    (hc : p.channels[c].barBefore f ≠ bar) :
    (p.takeSnapshots x f on).bays.tells
      { kind := if bar then .barSet c else .barCleared c, frame := f, time := x.tod } := by
  obtain ⟨q, _, q2, q3, _⟩ := Path.foldl_all (Path.snapshotChannel x f on) (fun q d => (q.snapshotChannel_view x f on d).1)
    (fun a b => a.bays.Grows b.bays)
    (fun _ => Bays.Grows.refl _) (fun _ _ _ h1 h2 => h1.trans h2)
    (fun q d => (q.snapshotChannel_view x f on d).2) c p
  refine Bays.tells_grows ?_ q3
  unfold Path.snapshotChannel; dsimp only
  rw [q2, hs, ← hb]
  cases bar
  · have e : p.channels[c].barBefore f = true := by simpa using hc
    rw [e, if_neg (by simp), if_pos (by simp)]
    exact Path.tells_mark _ _ _ _ hm
  · have e : p.channels[c].barBefore f = false := by simpa using hc
    rw [e, if_pos (by simp)]
    exact Path.tells_mark _ _ _ _ hm

/-- The marks of the timer stand in bay 33, or no room of their class was left there (R28, R30, R31). -/
theorem Path.timerMarks_tells (x : Ctx) (e : Timer) (p : Path) (ho : x.sitting.isOpen = true) :
    (e.next ≠ e.interval → (p.timerMarks x e).bays.tells
      { kind := .trimSet e.interval e.next, frame := x.frame, time := x.tod }) ∧
    ∀ new, e.clockSet = some new → (p.timerMarks x e).bays.tells
      { kind := .clockSet e.ordinary new, frame := x.frame, time := x.tod } := by
  have hm : x.sitting.marks x.frame = true := by
    unfold Sitting.isOpen at ho; unfold Sitting.marks; split at ho <;> simp_all
  unfold Path.timerMarks; dsimp only; rw [if_pos ho]
  constructor
  · intro hn
    rw [if_pos hn]
    have h := p.tells_mark x (.trimSet e.interval e.next) x.frame hm
    split
    · exact Bays.tells_grows h (Path.keeps_mark _ _ _ _).bays
    · exact h
  · intro new hc
    rw [hc]; exact Path.tells_mark _ _ _ _ hm

/-- The ends of the rounds keep seating, settings and snapshots (R41, R65, R66). -/
theorem State.roundsOver_holds (s : State) (e : Timer) (a b : Bool) : s.path.Holds (s.roundsOver e a b).path := by
  have step (u : State) (q : PortId) : u.path.Holds (u.roundOver e q).path := by
    rw [State.roundOver_path]; exact Link.roundOver_holds _ q (u.link q)
  cases a <;> cases b
  · exact Path.Holds.refl _
  · exact step s .b
  · exact step s .a
  · exact (step s .a).trans (step _ .b)

/-- The snapshots of the interval that begins: the bar marks of the frame before stand, or found no room (R88, R91). -/
theorem State.openInterval_tells (s : State) (c : Fin 32) (bar : Bool) (h1 : s.sitting.counting = true)
    (h2 : s.sitting.within s.frame = true) (h3 : s.sitting.marks s.frame = true)
    (hs : s.path.channels[c].seated = true) (hb : bar = s.path.channels[c].settings.bar)
    (hc : s.path.channels[c].barBefore s.frame ≠ bar) :
    s.openInterval.path.bays.tells
      { kind := if bar then .barSet c else .barCleared c, frame := s.frame, time := s.timer.tod } := by
  have h := s.path.takeSnapshots_tells s.ctx s.frame s.sitting.cur c bar h3 hs hb hc
  have g : s.takeSnapshots.path.bays.Grows s.openInterval.path.bays := by
    have k1 := State.ownMix_course s.takeSnapshots
    have k2 := State.beginInterval_course s.takeSnapshots.ownMix
    exact (k1.trans k2).bays
  refine Bays.tells_grows ?_ g
  have e : s.takeSnapshots.path = s.path.takeSnapshots s.ctx s.frame s.sitting.cur := by
    unfold State.takeSnapshots; rw [if_pos ⟨h1, h2⟩]
  rw [e]; exact h

/-- What the ended interval leaves of seating, settings and the snapshot of the current frame, with no close target and
another frame closed (R88, R97). -/
theorem State.endInterval_settings (s : State) (a b : Bool) (hc : s.sitting.close = none)
    (hn : ∀ f, s.frame = f → s.sitting.counting = true →
      ∀ g, (s.advanceTimer.roundsOver s.timer a b).closingFrame = some g → g ≠ f) :
    s.advanceTimer.path.bays.Grows (s.endInterval a b).path.bays ∧
    ∀ c : Fin 32, (s.endInterval a b).path.channels[c].seated = s.path.channels[c].seated ∧
      (s.endInterval a b).path.channels[c].settings = s.path.channels[c].settings ∧
      (s.sitting.counting = true → (s.endInterval a b).path.channels[c].snapshot s.frame = s.path.channels[c].snapshot s.frame) := by
  obtain ⟨t1, _, _, _⟩ := s.advanceTimer_audio
  have H1 := s.advanceTimer.roundsOver_holds s.timer a b
  have c1 := s.advanceTimer.roundsOver_court s.timer a b
  unfold State.endInterval
  generalize s.advanceTimer.roundsOver s.timer a b = w1 at *
  have H3 := w1.closeFrame.roundsOver_holds s.timer (!a) (!b)
  generalize w1.closeFrame.roundsOver s.timer (!a) (!b) = w3 at *
  have s1 : w1.sitting.close = none := by rw [c1.sitting]; exact hc
  have H2 : w1.path.bays.Grows w1.closeFrame.path.bays ∧ ∀ c : Fin 32,
      w1.closeFrame.path.channels[c].seated = w1.path.channels[c].seated ∧
      w1.closeFrame.path.channels[c].settings = w1.path.channels[c].settings ∧
      (s.sitting.counting = true → w1.closeFrame.path.channels[c].snapshot s.frame = w1.path.channels[c].snapshot s.frame) := by
    rcases w1.closeFrame_open s1 with e | ⟨g, hg, e⟩
    · rw [e]; exact ⟨Bays.Grows.refl _, fun c => ⟨rfl, rfl, fun _ => rfl⟩⟩
    · rw [e]; dsimp only
      obtain ⟨k1, k2⟩ := w1.path.closeFrame_grows w1.ctx g w1.sitting.comp w1.sitting.cur false w1.portA.ranRound w1.portB.ranRound
      refine ⟨k1, fun c => ⟨(k2 c).1, (k2 c).2.1, fun hcnt => ?_⟩⟩
      have hne := hn _ rfl hcnt g hg
      unfold Channel.snapshot
      rw [(k2 c).2.2, List.find?_filter]
      congr 1; funext sn
      by_cases h : sn.frame = s.frame
      · simp [h, Ne.symm hne]
      · simp [h]
  refine ⟨(H1.bays.trans H2.1).trans H3.bays, fun c => ⟨?_, ?_, fun hcnt => ?_⟩⟩
  · rw [H3.seated, (H2.2 c).1, H1.seated, t1]
  · rw [H3.settings, (H2.2 c).2.1, H1.settings, t1]
  · have h2 := (H2.2 c).2.2 hcnt
    unfold Channel.snapshot at h2 ⊢
    rw [H3.snapshots, h2, H1.snapshots, t1]

end Sys2Proof.Machine
end

