-- ==== Sys2Proof/Laws/Memory.lean ====
section
/-! SUPPORT. Host memory as the part has written it: a read after a write, the canonical form kept by every write, and
the end of a bus write (assumption 9). -/
namespace Sys2Proof.Machine

/-- A byte put at an address is read there, and nowhere else is changed. -/
theorem memRead_memPut (x a : Nat) (b : Byte) (m : List Host.Cell) :
    memRead x (memPut a b m) = if x = a then some b else memRead x m := by
  induction m with
  | nil => simp only [memPut, memRead]
  | cons h rest ih =>
    obtain ⟨y, c⟩ := h
    simp only [memPut]
    split
    · simp only [memRead]
    · split
      · rename_i h1 h2
        subst h2
        simp only [memRead]
        split <;> rfl
      · rename_i h1 h2
        simp only [memRead, ih]
        by_cases hx : x = y
        · subst hx; simp [Ne.symm h2]
        · simp [hx]

/-- The head's address, or a bound when there is none: what makes an entry come first. -/
def belowHead (x : Nat) : List Host.Cell → Prop
  | [] => True
  | (y, _) :: _ => x < y

theorem wf_cons (x : Nat) (c : Byte) (m : List Host.Cell) :
    Memory.wf ((x, c) :: m) = true ↔ belowHead x m ∧ Memory.wf m = true := by
  cases m with
  | nil => simp [Memory.wf, belowHead]
  | cons h rest => obtain ⟨y, d⟩ := h; simp [Memory.wf, belowHead]

theorem belowHead_memPut (x a : Nat) (b : Byte) (m : List Host.Cell) (hx : x < a) (hm : belowHead x m) :
    belowHead x (memPut a b m) := by
  cases m with
  | nil => simpa [memPut, belowHead] using hx
  | cons h rest =>
    obtain ⟨y, d⟩ := h
    simp only [memPut]
    split
    · simpa [belowHead] using hx
    · split <;> simp_all [belowHead]

/-- A put keeps the canonical form. -/
theorem wf_memPut (a : Nat) (b : Byte) (m : List Host.Cell) (h : Memory.wf m = true) :
    Memory.wf (memPut a b m) = true := by
  induction m with
  | nil => rfl
  | cons hd rest ih =>
    obtain ⟨y, d⟩ := hd
    rw [wf_cons] at h
    simp only [memPut]
    split
    · rw [wf_cons, wf_cons]; rename_i hlt; exact ⟨hlt, h⟩
    · split
      · rename_i h1 h2; subst h2; rw [wf_cons]; exact h
      · rename_i h1 h2; rw [wf_cons]
        exact ⟨belowHead_memPut y a b rest (by omega) h.1, ih h.2⟩

/-- A write of the part keeps the canonical form. -/
theorem wf_memWrite (a : Word64) (bytes : List Byte) (m : List Host.Cell) (h : Memory.wf m = true) :
    Memory.wf (memWrite a bytes m) = true := by
  induction bytes generalizing a m with
  | nil => exact h
  | cons b rest ih => exact ih _ _ (wf_memPut _ _ _ h)

/-- An address that none of the bytes goes to reads as before. -/
theorem memRead_memWrite_of_ne (a : Word64) (bytes : List Byte) (m : List Host.Cell) (x : Nat)
    (h : ∀ i, i < bytes.length → x ≠ (a + BitVec.ofNat 64 i).toNat) :
    memRead x (memWrite a bytes m) = memRead x m := by
  induction bytes generalizing a m with
  | nil => rfl
  | cons b rest ih =>
    rw [memWrite, ih (a + 1), memRead_memPut, if_neg]
    · simpa using h 0 (by simp)
    · intro i hi
      have := h (i + 1) (by simp; omega)
      rwa [BitVec.add_assoc, show (1 : Word64) + BitVec.ofNat 64 i = BitVec.ofNat 64 (i + 1) by
        rw [Nat.add_comm, BitVec.ofNat_add]; rfl]

/-- The bytes of a write that is shorter than the address space stand at rising addresses. -/
theorem memRead_memWrite (a : Word64) (bytes : List Byte) (m : List Host.Cell) (hl : bytes.length ≤ 2 ^ 64) (i : Nat)
    (b : Byte) (h : bytes[i]? = some b) : memRead (a + BitVec.ofNat 64 i).toNat (memWrite a bytes m) = some b := by
  induction bytes generalizing a m i with
  | nil => simp at h
  | cons c rest ih =>
    cases i with
    | zero =>
      simp at h; subst h
      rw [memWrite, memRead_memWrite_of_ne, memRead_memPut]
      · simp
      · intro j hj heq
        have hj' : j + 1 < 2 ^ 64 := by simp at hl; omega
        rw [← BitVec.toNat_eq] at heq
        have h1 : (BitVec.ofNat 64 0) = 1 + BitVec.ofNat 64 j := by
          rw [BitVec.add_assoc] at heq
          exact (BitVec.add_right_inj a).mp heq
        have h2 := congrArg BitVec.toNat h1
        simp at h2
        omega
    | succ j =>
      simp at h
      have e : (a + BitVec.ofNat 64 (j + 1)) = a + 1 + BitVec.ofNat 64 j := by
        rw [BitVec.add_assoc, show (1 : Word64) + BitVec.ofNat 64 j = BitVec.ofNat 64 (j + 1) by
          rw [Nat.add_comm, BitVec.ofNat_add]; rfl]
      rw [e, memWrite]
      exact ih _ _ (by simp at hl; omega) j h

/-- What a write of the part leaves of host memory (R132, R155, R157). -/
theorem stored_memWrite (a : Word64) (bytes : List Byte) (m : List Host.Cell) (hl : bytes.length ≤ 2 ^ 64) :
    Stored a bytes m (memWrite a bytes m) :=
  ⟨fun i b h => memRead_memWrite a bytes m hl i b h, fun x h => memRead_memWrite_of_ne a bytes m x h⟩

/-- What the end of a bus write of the part does (R148, R156). -/
theorem writeEnds_ended (s : State) (how : WriteEnd) (a : Word64) (bytes : List Byte) (hl : bytes.length ≤ 2 ^ 64) :
    WriteEnded s (s.writeEnds how a bytes) how a bytes := by
  cases how with
  | done => exact ⟨stored_memWrite a bytes s.hostMem hl, rfl, rfl⟩
  | failed => exact ⟨rfl, rfl, rfl⟩

/-- `writeEnds` touches host memory, the bus-fault count and attention alone. -/
theorem writeEnds_frame (s : State) (how : WriteEnd) (a : Word64) (bytes : List Byte) :
    s.writeEnds how a bytes =
      { s with hostMem := (s.writeEnds how a bytes).hostMem, bus := (s.writeEnds how a bytes).bus
               path := { s.path with attn := (s.writeEnds how a bytes).path.attn } } := by
  cases how <;> rfl

/-- Nothing written is in its canonical form. -/
theorem reset_memoryOrdered : State.reset.memoryOrdered := rfl

end Sys2Proof.Machine
end

