-- ==== Sys2Proof/Laws/Requests.lean ====
section
/-! SUPPORT. What taking a request does, said once: how an owning block's short or long answer shows in the state
(R154, R155), so that a statement about a request needs only what its owning block answers. -/
namespace Sys2Proof.Machine

/-- The status summary word does not read the scanner (R158). -/
@[simp] theorem statusWord_setScan (s : State) (sc : Scanner) : statusWord { s with scan := sc } = statusWord s := by
  unfold statusWord; rfl

/-- The result area does not read the scanner (R155). -/
@[simp] theorem resultBytes_setScan (s : State) (sc : Scanner) (a : Answer) :
    resultBytes { s with scan := sc } a = resultBytes s a := by
  unfold resultBytes; rw [statusWord_setScan]

/-- A short answer of a part whose scanner is that of `s` is the completion that `Answered` names. -/
theorem answer_answered {s s' : State} (h : s'.scan = s.scan) (tag kind : Word16) (r : Result) :
    Answered s (s'.answer tag kind r) tag kind r := by
  unfold Answered
  intro a
  have hb : resultBytes (s'.answer tag kind r) a = resultBytes s' a := resultBytes_setScan s' _ a
  rw [hb]
  unfold State.answer State.startCompletion
  rw [h]

/-- A request that its command takes with a short answer is answered at once. -/
theorem answersAtOnce_of_take {c : Instr} {s s' : State} {r : Result} {owner : State → State × Taken}
    (he : exec c s = .next (s.take c owner)) (ho : owner s = (s', .short r)) (hs : s'.scan = s.scan) :
    AnswersAtOnce c s s' r := by
  intro tag htag
  refine ⟨s'.answer tag (requestKind c) r, ?_, rfl, answer_answered hs tag _ r⟩
  rw [he]; simp only [State.take, htag, if_true, ho]

/-- A request that its command takes with a long answer is held. -/
theorem heldLong_of_take {c : Instr} {s s' : State} {r : Option Result} {owner : State → State × Taken}
    (he : exec c s = .next (s.take c owner)) (ho : owner s = (s', .long r)) (hs : s'.scan = s.scan) :
    HeldLong c s s' r := by
  intro tag htag
  refine ⟨s'.hold tag (requestKind c) r, ?_, rfl, ?_⟩
  · rw [he]; simp only [State.take, htag, if_true, ho]
  · unfold HeldFor State.hold; rw [hs]

/-! ### The pool scan (R133) -/

/-- The head does not read the scanner (R157). -/
@[simp] theorem headBytes_setScan (s : State) (sc : Scanner) : headBytes { s with scan := sc } = headBytes s := by
  unfold headBytes statusWord; rfl

/-- R133: where the pool scan goes after `n` entries read: to the next entry, or to the head. -/
theorem State.poolNext_spec (s : State) (a : Arming) (ha : s.writer.arming = some a) (n : Nat) :
    (n < a.poolCount → s.writer.queue.length < 64 → s.poolNext n = { s.scan with step := .poolRead n }) ∧
    (a.poolCount ≤ n ∨ 64 ≤ s.writer.queue.length → s.poolNext n = { s.scan with step := .head (headBytes s) }) := by
  unfold State.poolNext; rw [ha]; dsimp only
  exact ⟨fun h1 h2 => if_pos ⟨h1, h2⟩, fun h => if_neg (by omega)⟩

/-- The board step never changes the held-cell set (R152, R153). -/
@[simp] theorem State.boardFrom_held (s : State) (i : Nat) : (s.boardFrom i).held = s.scan.held := by
  unfold State.boardFrom State.startPool State.poolNext State.startHead State.startCompletion
  repeat' split
  all_goals rfl

end Sys2Proof.Machine
end

