-- ==== Sys2Proof/Laws/Starving.lean ====
section
/-! SUPPORT. The starving set (R145): what bringing it up to date gives, what it rests on, and that the parts of a boundary
and of a turn before it is brought up to date leave it as it was. -/
namespace Sys2Proof.Machine

/-- A track is in the set brought up to date exactly where the conditions of R145 hold. -/
theorem State.refresh_starving (s : State) (t : Fin 34) : s.refresh.writer.starving[t] = s.starves t := by
  show (Vector.ofFn s.starves)[t.val] = _
  simp

/-- The set brought up to date is the set of R145. -/
theorem State.starvingRight_refresh (s : State) : s.refresh.starvingRight := by
  intro t
  rw [State.refresh_starving, State.refresh_bays, State.refresh_sheets, State.refresh_queue]
  cases hs : s.writer.sheets[t] <;> simp [State.starves, hs]

/-- The set is right in every state that agrees on the items of the bays, on which tracks have an open sheet, on whether the
queue is empty, and on the set. -/
theorem State.starvingRight_congr {s v : State} (h : s.starvingRight)
    (hb : ∀ t : Fin 34, (v.path.bays.bay[t].items = [] ↔ s.path.bays.bay[t].items = []))
    (hs : ∀ t : Fin 34, (v.writer.sheets[t] = none ↔ s.writer.sheets[t] = none))
    (hq : v.writer.queue = [] ↔ s.writer.queue = []) (hv : v.writer.starving = s.writer.starving) : v.starvingRight := by
  intro t
  rw [hv, h t, ne_eq, ne_eq, hb t, hs t, hq]

/-- With every bay empty the empty set is right. -/
theorem State.starvingRight_empty {s : State} (hb : ∀ t : Fin 34, s.path.bays.bay[t].items = [])
    (hv : s.writer.starving = Vector.replicate 34 false) : s.starvingRight := by
  intro t
  rw [hv, hb t]
  simp

/-- A track that enters the set where it is brought up to date raises STARVING. -/
theorem State.refresh_raises (s : State) (t : Fin 34) (h : s.refresh.writer.starving[t] = true)
    (h0 : s.writer.starving[t] = false) : Raised s.refresh .starving := by
  have e : ((List.finRange 34).any fun k => (Vector.ofFn s.starves : Vector Bool 34)[k] && !s.writer.starving[k]) = true := by
    rw [List.any_eq_true]
    refine ⟨t, List.mem_finRange t, ?_⟩
    rw [State.refresh_starving] at h
    rw [h0]
    simp [h]
  have ha : s.refresh.path = s.path.raise .starving := by
    unfold State.refresh
    dsimp only
    rw [if_pos e]
  unfold Raised
  rw [ha]
  simp [Path.raise, Attention.raise, Attention.update, Cause.mask, Cause.position]

@[simp] theorem State.setEmptyClose_starving (s : State) (t : Fin 34) :
    (s.setEmptyClose t).writer.starving = s.writer.starving := by
  unfold State.setEmptyClose
  repeat' split
  all_goals rfl

@[simp] theorem State.setEmptyCloses_starving (s : State) : s.setEmptyCloses.writer.starving = s.writer.starving := by
  unfold State.setEmptyCloses
  generalize List.finRange 34 = l
  induction l generalizing s with
  | nil => rfl
  | cons t r ih => rw [List.foldl_cons, ih, State.setEmptyClose_starving]

@[simp] theorem State.offerFinal_starving (s : State) : s.offerFinal.writer.starving = s.writer.starving := by
  unfold State.offerFinal
  repeat' split
  all_goals rfl

@[simp] theorem State.ageCloses_starving (s : State) : s.ageCloses.writer.starving = s.writer.starving := by
  unfold State.ageCloses
  generalize List.finRange 34 = l
  induction l generalizing s with
  | nil => rfl
  | cons t r ih =>
    rw [List.foldl_cons, ih]
    unfold State.ageClose
    repeat' split
    all_goals rfl

@[simp] theorem State.discardIfWaiting_starving (s : State) :
    s.discardIfWaiting.writer.starving = s.writer.starving := by
  unfold State.discardIfWaiting
  repeat' split
  all_goals rfl

/-- A turn begun for a track leaves the set to what follows. -/
@[simp] theorem State.startItem_starving (s : State) (t : Fin 34) :
    (s.startItem t).writer.starving = s.writer.starving := by
  unfold State.startItem
  repeat' split
  all_goals rfl

@[simp] theorem State.serve_starving (s : State) (t : Fin 34) : (s.serve t).writer.starving = s.writer.starving := by
  unfold State.serve
  dsimp only
  repeat' split
  all_goals first | rfl | simp

/-- The parts of a boundary before the ports' work leave the set to the end of the boundary. -/
theorem State.roundsOver_starving (s : State) (ended : Timer) (a b : Bool) :
    (s.roundsOver ended a b).writer.starving = s.writer.starving := by
  unfold State.roundsOver State.roundOver
  cases a <;> cases b <;> simp

@[simp] theorem State.closeFrame_starving (s : State) : s.closeFrame.writer.starving = s.writer.starving := by
  unfold State.closeFrame
  split
  · rfl
  · dsimp only
    split
    · simp
    · rfl

@[simp] theorem State.moveSitting_starving (s : State) : s.moveSitting.writer.starving = s.writer.starving := by
  unfold State.moveSitting State.limitClose State.shiftFlag State.openSitting
  dsimp only
  repeat' split
  all_goals rfl

@[simp] theorem State.takeSnapshots_starving (s : State) : s.takeSnapshots.writer.starving = s.writer.starving := by
  unfold State.takeSnapshots
  split <;> rfl

@[simp] theorem State.portWork_starving (s : State) (p : PortId) :
    (s.portWork p).writer.starving = s.writer.starving := by
  unfold State.portWork
  simp

end Sys2Proof.Machine
end

