-- ==== Sys2Proof/Laws/Tick.lean ====
section
/-! SUPPORT. What one tick makes due, said once: the commands that a port, the Record Writer and the completions put into the
queue, each with its condition (R14, R16, R24, R35, R42, R49, R57, R58, R60, R65, R135, R146), and what the tick counts. -/
namespace Sys2Proof.Machine

/-- R135: a turn has a track to serve exactly when some track is ready. -/
theorem State.nextTrack_isSome (s : State) : s.nextTrack.isSome = true ↔ ∃ k : Fin 34, s.ready k = true := by
  unfold State.nextTrack
  split
  · rename_i h; exact ⟨fun _ => ⟨_, h.2.2⟩, fun _ => rfl⟩
  · rw [List.find?_isSome]
    constructor
    · rintro ⟨x, _, h⟩; exact ⟨x, h⟩
    · rintro ⟨k, h⟩
      refine ⟨k, ?_, h⟩
      rw [List.mem_map]
      refine ⟨(k.val + 34 - s.writer.lastServed.val - 1) % 34, List.mem_range.mpr (Nat.mod_lt _ (by omega)), ?_⟩
      apply Fin.ext
      simp only [Fin.ofNat]
      have := k.isLt; have := s.writer.lastServed.isLt
      omega

/-- Every element of a vector, by its index. -/
theorem forall_mem_toList {α : Type} {n : Nat} (v : Vector α n) (P : α → Prop) :
    (∀ x ∈ v.toList, P x) ↔ ∀ k : Fin n, P v[k] := by
  constructor
  · intro h k; exact h _ (by simp [Vector.mem_toList_iff])
  · intro h x hx
    rw [Vector.mem_toList_iff, Vector.mem_iff_getElem] at hx
    obtain ⟨i, hi, rfl⟩ := hx
    exact h ⟨i, hi⟩

theorem Writer.noSheet_iff (w : Writer) : w.noSheet = true ↔ ∀ k : Fin 34, w.sheets[k] = none := by
  unfold Writer.noSheet
  rw [List.all_eq_true, forall_mem_toList w.sheets fun o => o.isNone = true]
  simp only [Option.isNone_iff_eq_none]

theorem Bays.allEmpty_iff (bs : Bays) : bs.allEmpty = true ↔ ∀ k : Fin 34, bs.bay[k].items = [] := by
  unfold Bays.allEmpty
  rw [List.all_eq_true, forall_mem_toList bs.bay fun b => b.items.isEmpty = true]
  simp only [List.isEmpty_iff]

theorem Path.anyRun_iff (p : Path) : p.anyRun = false ↔ ∀ k : Fin 33, p.runOf k = none := by
  unfold Path.anyRun Path.runOf
  rw [Bool.or_eq_false_iff, List.any_eq_false, forall_mem_toList p.channels fun c => ¬c.run.isSome = true]
  constructor
  · rintro ⟨h1, h2⟩ k
    split
    · rename_i hk; simpa using h1 ⟨k.val, hk⟩
    · simpa using h2
  · intro h
    refine ⟨fun k => ?_, ?_⟩
    · have := h ⟨k.val, by omega⟩
      simp only [k.isLt, dif_pos] at this
      simp [this]
    · simpa using h 32

/-- R146: a flush is emptied exactly when its set is empty and every remaining count is 0. -/
theorem Flush.emptied_iff (f : Flush) : f.emptied = true ↔ f.sheets = [] ∧ ∀ k : Fin 34, f.remaining[k] = 0 := by
  unfold Flush.emptied
  rw [Bool.and_eq_true, List.all_eq_true, forall_mem_toList f.remaining fun n => decide (n = 0) = true, List.isEmpty_iff]
  simp only [decide_eq_true_eq, and_comm]

/-- R14: when a drain is complete. -/
theorem State.drained_iff (s : State) : s.drained = true ↔ s.sitting.draining = true ∧ s.sitting.abandon = none ∧
    s.sitting.finalMark = none ∧ s.writer.turn = none ∧ (∀ k : Fin 34, s.path.bays.bay[k].items = []) ∧
    (∀ k : Fin 34, s.writer.sheets[k] = none) ∧ ∀ k : Fin 33, s.path.runOf k = none := by
  unfold State.drained
  simp only [Bool.and_eq_true, decide_eq_true_eq, Bool.not_eq_true', Writer.noSheet_iff, Bays.allEmpty_iff,
    Path.anyRun_iff]
  exact ⟨fun h => ⟨h.1.1.1.1.1.1, h.1.1.1.1.1.2, h.1.1.2, h.2, h.1.1.1.1.2, h.1.2, h.1.1.1.2⟩,
    fun h => ⟨⟨⟨⟨⟨⟨h.1, h.2.1⟩, h.2.2.2.2.1⟩, h.2.2.2.2.2.2⟩, h.2.2.1⟩, h.2.2.2.2.2.1⟩, h.2.2.2.1⟩⟩

/-- R16: when an abandon is complete. -/
theorem State.abandoned_iff (s : State) : s.abandoned = true ↔ s.writer.turn = none ∧
    (∀ k : Fin 34, s.writer.sheets[k] = none) ∧
    ∃ cells d, s.sitting.abandon = some { cells := cells, discarded := some d } := by
  unfold State.abandoned
  split
  · rename_i cells d h
    simp only [Bool.and_eq_true, decide_eq_true_eq, Writer.noSheet_iff, h]
    exact ⟨fun h => ⟨h.2, h.1, _, _, rfl⟩, fun h => ⟨h.2.1, h.1⟩⟩
  · rename_i h
    constructor
    · intro h; cases h
    · rintro ⟨_, _, cells, d, e⟩; exact absurd e (h _ _)

/-- What the Record Writer and the completions have due. -/
theorem State.mem_writerDue (s : State) (c : Instr) : c ∈ s.writerDue ↔
    (c = .writerTurn ∧ s.writer.turn = none ∧ ∃ k : Fin 34, s.ready k = true) ∨
    (c = .drainComplete ∧ s.drained = true) ∨
    (c = .abandonComplete ∧ s.abandoned = true) ∨
    (c = .flushComplete ∧ ∃ f, s.writer.flush = some f ∧ f.sheets = [] ∧ (∀ k : Fin 34, f.remaining[k] = 0) ∧
      f.complete = false ∧ f.abandoned = false) := by
  have hf : (c ∈ (match s.writer.flush with
      | some f => if f.due then [Instr.flushComplete] else []
      | none => [])) ↔ (c = .flushComplete ∧ ∃ f, s.writer.flush = some f ∧ f.sheets = [] ∧
        (∀ k : Fin 34, f.remaining[k] = 0) ∧ f.complete = false ∧ f.abandoned = false) := by
    split
    · rename_i f h
      simp only [List.mem_ite_nil_right, List.mem_singleton, Flush.due, Bool.and_eq_true, Bool.not_eq_true',
        Flush.emptied_iff, Option.some.injEq, h]
      constructor
      · rintro ⟨h1, h2⟩; exact ⟨h2, f, rfl, h1.1.1.1, h1.1.1.2, h1.1.2, h1.2⟩
      · rintro ⟨h2, g, rfl, h⟩; exact ⟨⟨⟨⟨h.1, h.2.1⟩, h.2.2.1⟩, h.2.2.2⟩, h2⟩
    · rename_i h
      constructor
      · intro h; cases h
      · rintro ⟨_, f, e, _⟩; rw [h] at e; cases e
  unfold State.writerDue
  rw [List.mem_append, List.mem_append, List.mem_append]
  refine (or_congr_right hf).trans ?_
  simp only [List.mem_ite_nil_right, List.mem_singleton, State.nextTrack_isSome]
  generalize (∃ k : Fin 34, s.ready k = true) = ready
  constructor
  · rintro (((h | h) | h) | h)
    · exact .inl ⟨h.2, h.1⟩
    · exact .inr (.inl ⟨h.2, h.1⟩)
    · exact .inr (.inr (.inl ⟨h.2, h.1⟩))
    · exact .inr (.inr (.inr h))
  · rintro (h | h | h | h)
    · exact .inl (.inl (.inl ⟨h.2, h.1⟩))
    · exact .inl (.inl (.inr ⟨h.2, h.1⟩))
    · exact .inl (.inr ⟨h.2, h.1⟩)
    · exact .inr h

/-- What a port has due at tick `n` of an interval of `i` ticks. -/
theorem Port.mem_due (pt : Port) (q : PortId) (n i : Nat) (c : Instr) : c ∈ pt.due q n i ↔
    (c = .frameSent q ∧ pt.sending ≠ [] ∧ 2 * charTicks pt.divisor ≤ pt.txTicks ∧
      (pt.state = .starting ∨ (pt.state = .running ∧ pt.phase = .framing))) ∨
    (c = .pollSent q ∧ pt.sending ≠ [] ∧ 2 * charTicks pt.divisor ≤ pt.txTicks ∧ pt.state = .running ∧
      pt.phase = .polling) ∨
    (c = .replyTimeout q false ∧ pt.state = .running ∧ pt.phase = .awaiting ∧
      24 * charTicks pt.divisor ≤ pt.windowTicks) ∨
    (c = .roundDeadline q ∧ pt.inRound = true ∧ pt.deadlinePassed = false ∧ n = 9 * i / 10) ∨
    (c = .lineStuck q ∧ pt.state = .running ∧ 4096 ≤ pt.lowRun) ∨
    ∃ x, c = .characterReceived q x ∧ pt.loopedBack = some x := by
  unfold Port.due Port.inPhase Port.lineStuck roundDeadline
  simp only [List.mem_append, Option.mem_toList, Option.map_eq_some_iff, List.mem_ite_nil_right, List.mem_singleton,
    Bool.and_eq_true, Bool.or_eq_true, decide_eq_true_eq, Bool.not_eq_true', List.isEmpty_eq_false_iff]
  constructor
  · rintro (((((h | h) | h) | h) | h) | ⟨x, h1, h2⟩)
    · exact .inl ⟨h.2, h.1.1.2, h.1.1.1, h.1.2.symm⟩
    · exact .inr (.inl ⟨h.2, h.1.1.2, h.1.1.1, h.1.2⟩)
    · exact .inr (.inr (.inl ⟨h.2, h.1.1.1, h.1.1.2, h.1.2⟩))
    · exact .inr (.inr (.inr (.inl ⟨h.2, h.1⟩)))
    · exact .inr (.inr (.inr (.inr (.inl ⟨h.2, h.1⟩))))
    · exact .inr (.inr (.inr (.inr (.inr ⟨x, h2.symm, h1⟩))))
  · rintro (h | h | h | h | h | ⟨x, h1, h2⟩)
    · exact .inl (.inl (.inl (.inl (.inl ⟨⟨⟨h.2.2.1, h.2.1⟩, h.2.2.2.symm⟩, h.1⟩))))
    · exact .inl (.inl (.inl (.inl (.inr ⟨⟨⟨h.2.2.1, h.2.1⟩, h.2.2.2⟩, h.1⟩))))
    · exact .inl (.inl (.inl (.inr ⟨⟨⟨h.2.1, h.2.2.1⟩, h.2.2.2⟩, h.1⟩)))
    · exact .inl (.inl (.inr ⟨h.2, h.1⟩))
    · exact .inl (.inr ⟨h.2, h.1⟩)
    · exact .inr ⟨x, h2, h1.symm⟩

/-- R42, R43: a tick of the line supervisor changes its own three fields alone. -/
theorem Port.superviseTick_only (pt : Port) : pt.superviseTick = { pt with
    lowRun := pt.superviseTick.lowRun, lowTicks := pt.superviseTick.lowTicks, idleFlag := pt.superviseTick.idleFlag } := by
  unfold Port.superviseTick
  repeat' split
  all_goals rfl

/-- What a tick leaves of a port: the transmission, the reply window and the self-test counted, and the line supervisor's
three fields. -/
theorem Port.tick_only (pt : Port) (sent : Nat)
    (hs : sent = if pt.sending = [] then pt.txTicks else pt.txTicks + 1) :
    pt.tick = { pt with
      txTicks := sent
      windowTicks := if pt.phase = .awaiting then pt.windowTicks + 1 else pt.windowTicks
      window := if pt.phase = .awaiting then min 24 ((pt.windowTicks + 1) / charTicks pt.divisor) else pt.window
      selfTest := pt.selfTest.map fun g => { g with sent := max g.sent (min 257 (sent / charTicks pt.divisor)) }
      lowRun := pt.tick.lowRun, lowTicks := pt.tick.lowTicks, idleFlag := pt.tick.idleFlag } := by
  subst hs
  unfold Port.tick
  rw [Port.superviseTick_only]
  generalize pt.superviseTick.lowRun = a
  generalize pt.superviseTick.lowTicks = b
  generalize pt.superviseTick.idleFlag = c
  unfold Port.linkTick
  by_cases h : pt.phase = .awaiting <;> by_cases h2 : pt.sending = [] <;> simp [h, h2]

end Sys2Proof.Machine
end

