-- ==== Sys2Proof/Laws/Turns.lean ====
section
/-! SUPPORT. What the end of a turn, a sheet's end and a write's end leave of the Record Writer (R135 to R141, R145). -/
namespace Sys2Proof.Machine

/-- With no abandon waiting the end of a turn clears the turn, and brings the starving set and attention up to date. -/
theorem State.turnEnded_only (s : State) (h : s.sitting.abandon = none) :
    s.turnEnded = { s with
      path := { s.path with attn := s.turnEnded.path.attn }
      writer := { s.writer with turn := none, starving := s.turnEnded.writer.starving } } := by
  have hd : (s.setTurn none).discardIfWaiting = s.setTurn none := by
    unfold State.discardIfWaiting State.setTurn; rw [h]
  have e : s.turnEnded = (s.setTurn none).refresh := by unfold State.turnEnded; rw [hd]
  rw [e]
  have hr := (s.setTurn none).refresh_only
  generalize (s.setTurn none).refresh = v at *
  unfold State.setTurn at hr
  exact hr

/-- R137: a head item that fits the open sheet is begun, and nothing else changes. -/
theorem State.startItem_fits (s : State) (t : Fin 34) (o : OpenSheet) (a : Arming) (i : Item) (rest : List Item)
    (ha : s.writer.arming = some a) (ho : s.writer.sheets[t] = some o) (hi : s.path.bays.bay[t].items = i :: rest)
    (hs : o.used + i.size ≤ a.room) : s.startItem t = s.setTurn (some { track := t, write := .item }) := by
  unfold State.startItem; rw [ha, ho, hi]; dsimp only; rw [if_pos hs]

/-- R139, R141: a sheet's end changes its record, the map and a flush in flight. -/
theorem Writer.sheetEnded_only (w : Writer) (t : Fin 34) (o : OpenSheet) (reason : SheetReason) :
    w.sheetEnded t o reason = { w with
      owner := (w.sheetEnded t o reason).owner, sheets := (w.sheetEnded t o reason).sheets
      flush := w.flush.map fun f => f.ended o reason } := rfl

/-- R136: an opened sheet changes the map, the open-sheet records and the serials. -/
theorem Writer.opened_only (w : Writer) (t : Fin 34) (q : Queued) (frame : Nat) : w.opened t q frame = { w with
    owner := (w.opened t q frame).owner, sheets := (w.opened t q frame).sheets
    serials := (w.opened t q frame).serials } := rfl

/-- A write's end, done or failed, changes the image of host memory, the bus-fault count and attention. -/
theorem State.writeEnds_only (s : State) (how : WriteEnd) (a : Word64) (bytes : List Byte) :
    s.writeEnds how a bytes = { s with
      bus := (s.writeEnds how a bytes).bus, path := { s.path with attn := (s.writeEnds how a bytes).path.attn }
      hostMem := (s.writeEnds how a bytes).hostMem } := by
  cases how <;> rfl

/-- R131: a closed sheet counted changes the total, and the draws past its range (assumption 7). -/
theorem State.countClosed_only (s : State) : s.countClosed = { s with
    writer := { s.writer with closedTotal := s.countClosed.writer.closedTotal }, draws := s.countClosed.draws } := by
  unfold State.countClosed; split <;> rfl

/-- R123: a release changes the path, the held SITTING_CLOSE and the open-sheet records. -/
theorem State.released_only (s : State) (t : Fin 34) : ∃ path mark sheets, s.released t = { s with
    path := path, sitting := { s.sitting with finalMark := mark }, writer := { s.writer with sheets := sheets } } := by
  have h := s.handRelease_only t
  refine ⟨(s.handRelease t).path, (s.handRelease t).sitting.finalMark,
    (s.writer.setSheet t ((s.handRelease t).emptyClosed t)).sheets, ?_⟩
  unfold State.released
  rw [State.setEmptyClose_eq]
  generalize s.handRelease t = y at *
  generalize y.emptyClosed t = o
  generalize y.path = p at *
  generalize y.sitting.finalMark = m at *
  rw [h]; rfl

end Sys2Proof.Machine
end

