-- ==== Sys2Proof/Tests/Slice0.lean ====
section
/-! SUPPORT. Tests: the refusals of WellFormed, figures and tables of the spec, one small step of a few commands, and for
each statement with hypotheses a state and operands that meet them. -/
namespace Sys2Proof.Tests
open Sys2Proof.Machine

/-! ### WellFormed refuses (R148, R169) -/

theorem test_wf_cell_short : WellFormed (.cellRead (List.replicate 63 0)) = false := by decide
theorem test_wf_arm_record_short : WellFormed (.armRecordRead (List.replicate 91 0)) = false := by decide
theorem test_wf_pool_entry_long : WellFormed (.poolEntryRead (List.replicate 17 0)) = false := by decide
theorem test_wf_host_mark_text : WellFormed (.hostMark 7 7 [0x45]) = false := by decide
theorem test_wf_register_unaligned : WellFormed (.registerWrite 0x06 1) = false := by decide
theorem test_wf_host_mark_taken : WellFormed (.hostMark 7 1 [0x45]) = true := by decide
theorem test_no_word_spells_a_command : decodeTableWord 32 1 = none := by decide

/-! ### Figures of the spec -/

/-- R171: the check of the nine characters "123456789" by that polynomial and start value is 0x29B1 (a known value of
this CRC outside the spec). -/
theorem test_crc_check_value :
    crc16 [0x31, 0x32, 0x33, 0x34, 0x35, 0x36, 0x37, 0x38, 0x39] = 0x29B1#16 := by decide +kernel

/-- 2.5, the table's first seven boundaries: remainder and advance at I = 393,300. -/
theorem test_court_time_table :
    [0, 10500, 8712, 6924, 5136, 3348, 1560].map (fun r => ((r + 393300 * 125) / 12288, (r + 393300 * 125) % 12288)) =
      [(4000, 10500), (4001, 8712), (4001, 6924), (4001, 5136), (4001, 3348), (4001, 1560), (4000, 12060)] := by
  rfl

/-- 7.3: the gained samples and the two saturated ones at G = 6,144. -/
theorem test_gain_table :
    gained 6144 [3, -3, 801, -801, 22000, -21846] = [5, -4, 1202, -1201, 32767, -32768] ∧
      saturatedCount 6144 [3, -3, 801, -801, 22000, -21846] = 2 := by decide

/-- 7.3: the peak. -/
theorem test_peak : peakOf [5, -4, 1202, -1201, 32767, -32768] = 32768 := by decide

/-- 7.7: the mix at M = 0, 1 and 2. -/
theorem test_mix_table :
    [62767, -65536, -5, 101, 40].map (fun m => [saturate (mixScale 0 m), saturate (mixScale 1 m), saturate (mixScale 2 m)])
      = [[32767, 31384, 15692], [-32768, -32768, -16384], [-5, -2, -1], [101, 51, 25], [40, 20, 10]] := by decide

/-- R117: an odd count keeps its last sample, a mean is rounded down. -/
theorem test_halve : halve [3, -4, 1, 2, 9] = [-1, 1, 9] := by decide

/-- The settings of 7.5. -/
def floorSettings : Settings := { Settings.reset with threshold := 1200, attack := 2, hang := 3 }

/-- Steps of the floor detector over (frame, loud). -/
def floorRun : List (Nat × Bool) → Floor → Floor × List FloorNews
  | [], fl => (fl, [])
  | (f, loud) :: rest, fl =>
    let r := fl.step floorSettings f loud
    let more := floorRun rest r.1
    (more.1, r.2.toList ++ more.2)

/-- 7.5: frames 100 to 108. -/
theorem test_floor_table :
    (floorRun [(100, false), (101, true), (102, true), (103, false), (104, false), (105, false), (106, false),
      (107, true), (108, false)] Floor.reset).2 = [.begun 101, .ended 102] := by decide

/-- 5.12: slip 320 leaves the flag clear, 321 sets it; 161 keeps it, 160 clears it. -/
theorem test_drift :
    [(({ Mic.reset with slip := 319 }).take false true 65).drift, (({ Mic.reset with slip := 320 }).take false true 65).drift,
      (({ Mic.reset with slip := 162, drift := true }).take false true 63).drift,
      (({ Mic.reset with slip := 161, drift := true }).take false true 63).drift] = [false, true, true, false] := by
  decide

/-- R117, R124: sizes in a bay. -/
theorem test_sizes :
    [60, 64, 65, 68, 30, 34].map (fun n => pad4 (16 + 2 * n)) = [136, 144, 148, 152, 76, 84] ∧
      (MarkKind.hostMark 7 7 []).size = 28 ∧ (MarkKind.clockSet 0 0).size = 32 := by decide

/-- 12.5: the mark's first bytes and its text. -/
theorem test_host_mark_bytes :
    (Item.bytes (.mark { kind := .hostMark 7 7 [0x45, 0x58, 0x48, 0x2D, 0x31, 0x32, 0x41], frame := 120, time := 0 })) =
      [3, 23, 28, 0, 120, 0, 0, 0, 0, 0, 0, 0, 0, 0, 0, 0, 7, 0, 7, 0x45, 0x58, 0x48, 0x2D, 0x31, 0x32, 0x41, 0, 0] := by
  decide

/-- 12.5: the cell of that request. -/
theorem test_host_mark_cell :
    cellRequest ([1, 0, 0, 0, 0x44, 0, 81, 0, 7, 0, 7, 0x45, 0x58, 0x48, 0x2D, 0x31, 0x32, 0x41] ++ List.replicate 46 0) =
      .hostMark 7 7 [0x45, 0x58, 0x48, 0x2D, 0x31, 0x32, 0x41] := by decide

/-- R24 and 4.11: the round deadline at the nominal interval, and 2.9 at the longest. -/
theorem test_round_deadline : roundDeadline 393216 = 353894 ∧ roundDeadline 397148 = 357433 := by decide

/-- R34: the bits of POLL(1) as a control character: start, 0x81 from its least significant bit, mark 1, stop. -/
theorem test_character_bits : controlChar (pollChar 1) = 0b11100000010#11 := by decide

/-- R36: a false start bit is dropped, a stop bit of 0 is a framing error. -/
theorem test_receive : receive (BitVec.allOnes 88) = none ∧ receive 0 = some .framing := by decide

/-! ### Single steps -/

/-- A running part. -/
def running : State := { State.reset with timer := { Timer.reset with running := true, tick := 5 } }

/-- A part whose scanner has read a request under tag 7 from cell 0. -/
def taking (i : Instr) : State := { running with scan := { Scanner.reset with step := .taking 7 i } }

/-- The same in a sitting state. -/
def takingIn (st : SittingState) (i : Instr) : State :=
  { taking i with sitting := { Sitting.reset with state := st } }

/-- What a test looks at in an outcome. -/
def seen {α : Type} (o : Host.Outcome State Fault Refusal) (g : State → α) : Option α :=
  match o with
  | .next s => some (g s)
  | .fault _ => none
  | .refused _ => none

/-- What a scan step answers. -/
def answered : ScanStep → Option Result
  | .resultWrite a _ => some a.result
  | _ => none

/-- 2.9: TRIM FRAME with 400,000. -/
theorem test_trim :
    seen (exec (.trimFrame 400000) (taking (.trimFrame 400000))) (fun s => (s.timer.next, answered s.scan.step)) =
      some (397148, some { code := .doneClamped, w0 := 393216, w1 := 397148, w2 := 393216 }) := by decide

/-- R10: the flag asked is written, the one before answered. -/
theorem test_go_on_record :
    seen (exec .goOnRecord (takingIn .offRecord .goOnRecord)) (fun s => (s.sitting.next, answered s.scan.step)) =
      some (true, some { code := .done, w0 := 0, w1 := 0, w2 := 0 }) := by decide

/-- R13: the close of a sitting that has just opened. -/
theorem test_close_sitting :
    seen (exec .closeSitting (takingIn .onRecord .closeSitting)) (fun s => (s.sitting.state, s.sitting.lastFrame)) =
      some (.closing, some 0) := by decide

/-- R46: power ON of a DISABLED port waits for the boundary. -/
theorem test_port_on :
    seen (exec (.portControl 0 1 0xFFFFFFFF) (taking (.portControl 0 1 0xFFFFFFFF))) (fun s => s.portA.control) =
      some (some { power := .on, divisor := none }) := by decide

/-- R149: an address that is no multiple of 4,096 starts nothing. -/
theorem test_start_refused :
    seen (exec .controlStart { State.reset with bus := { Bus.reset with dirLo := 0x1800 } })
      (fun s => (s.timer.running, s.path.attn.pending)) = some (false, 0x100#10) := by decide

/-- R161: unmasking a pending cause sends one message. -/
theorem test_unmask :
    seen (exec (.attnMaskWrite 1) { State.reset with path := { Path.reset with attn := { Attention.reset with pending := 1 } } })
      (fun s => s.path.attn.messages) = some 1 := by decide

/-- R163: the warning in frame 8 begins its dip at frame 7. -/
theorem test_warning :
    seen (exec .supplyWarning { running with
        timer := { running.timer with boundary := 8 }, sitting := { Sitting.reset with state := .onRecord } })
      (fun s => s.supply) = some { warning := true, dipStart := some 7 } := by decide +kernel

/-- R65: a list not yet called is LATE at the deadline; PRESENT becomes MISSING. -/
theorem test_deadline :
    seen (exec (.roundDeadline .a) { running with
        portA := { Port.reset with state := .running, phase := .awaiting, remaining := [3] }
        path := { Path.reset with stations := Path.reset.stations.set 3 { Station.reset with state := .present } } })
      (fun s => s.path.stations[3].state) = some .missing := by decide

/-! ### States and operands that meet the hypotheses of the statements -/

/-- Port A in a state and a phase. -/
def portIn (st : PortState) (ph : RoundPhase) : Port := { Port.reset with state := st, phase := ph }

/-- A running part whose Port A is as given. -/
def withA (pt : Port) : State := { running with portA := pt }

/-- A running part in a sitting as given, at boundary 10. -/
def sittingAt (st : Sitting) : State :=
  { running with timer := { running.timer with boundary := 10 }, sitting := st }

/-- A sitting in ON_RECORD, opened at boundary 0. -/
def onRecord : Sitting := { Sitting.reset with state := .onRecord, comp := true, cur := true, next := true }

/-- The close target of a REQUEST with last frame 9. -/
def target9 : CloseTarget := { last := 9, reason := .request, cell := some 2, draining := false, sheets := 0 }

/-- A path with one bay as given. -/
def withBay (t : Fin 34) (b : Bay) : Path := { Path.reset with bays := { Bays.reset with bay := Bays.reset.bay.set t b } }

/-- A path with one channel as given. -/
def withChannel (c : Fin 32) (ch : Channel) : Path := { Path.reset with channels := Path.reset.channels.set c ch }

/-- A path with one station as given. -/
def withStation (k : Fin 16) (st : Station) : Path := { Path.reset with stations := Path.reset.stations.set k st }

/-- A mark for a bay. -/
def aMark : Mark := { kind := .onRecord, frame := 0, time := 0 }

/-- An arming at 0x10000. -/
def anArming : Arming := { sheetSize := 4096, ageLimit := 1, poolAddress := 0x10000, poolCount := 256 }

/-- An open sheet. -/
def aSheet : OpenSheet :=
  { index := 255, address := 0x20001, serial := 65535, used := 0, blocks := 0, first := none, last := none, opened := 0,
    pend := none, fullDue := false, powerDue := false }

/-- An arm record that passes every check: channel 0 and the mix seated. -/
def anArmRecord : ArmRecord :=
  { seating := 1, mixOn := true, shift := 5, age := 255, sheetSize := 65536, poolCount := 256, poolAddress := 0x10000,
    units := ((Vector.replicate 34 0).set 0 4).set 32 244 |>.set 33 8 }

/-- A bundle that a station may send, for tag 10. -/
def aBundle : Bundle :=
  { unit := 5, tag := 10, privacy := #v[false, false], present := #v[true, true],
    samples := #v[List.replicate 60 (-32768), List.replicate 68 32767] }

/-- An on-record snapshot of frame 9. -/
def snapshot9 : Snapshot := { frame := 9, settings := Settings.reset, onRecord := true }

/-- A seated channel with that snapshot. -/
def seated9 : Channel := { Channel.reset with seated := true, snapshots := [snapshot9] }

/-- Station 7 of Port A under call in a sitting at boundary 10, both microphones present and channel 15 seated, its frame 9
in computation. -/
def underCall (pt : Port) : State :=
  { sittingAt onRecord with
    portA := { pt with target := some { addr := 7, probe := false }, current := some Figures.reset }
    path := { withChannel 15 seated9 with
      stations := (withStation 7 { Station.reset with
        state := .present, unit := some 5, mics := Vector.replicate 2 { Mic.reset with present := true } }).stations } }

/-- The void run that stands pending before frame 9. -/
def pendingRun (length : Nat) (held : Bool) : VoidRun :=
  { cause := .late, first := 0, length := length, tail := 0, held := held }

theorem witness_step : ({ State.reset with pending := [.flush, .disarm] } : State).pending = .flush :: [.disarm] := rfl

theorem witness_tick :
    (State.reset.pending = [] ∧ State.reset.timer.running = false) ∧ (running.pending = [] ∧ running.timer.running = true) ∧
      (let s : State := { running with timer := { running.timer with tick := 393214 } }
       s.timer.tick + 1 < s.timer.interval) ∧
      (let s : State := { running with timer := { running.timer with tick := 393215 } }
       s.timer.interval ≤ s.timer.tick + 1) := by decide

/-- R24, R35, R42, R49, R57, R58, R60, R65: what a tick makes due on Port A, and that one tick before it is not; at D = 255
a character is 22,528 ticks. -/
theorem witness_due :
    let pend (n : Nat) (pt : Port) : Option (List Instr) :=
      seen (step { withA pt with timer := { running.timer with tick := n } }) State.pending
    let sent (st : PortState) (ph : RoundPhase) (d n : Nat) : Port :=
      { portIn st ph with sending := [controlChar frameChar, dataChar 10], divisor := d, txTicks := n }
    let window (d n : Nat) : Port := { portIn .running .awaiting with divisor := d, windowTicks := n }
    [pend 353893 (portIn .running .polling), pend 353892 (portIn .running .polling), pend 353893 (portIn .running .ended),
      pend 353893 { portIn .running .receiving with deadlinePassed := true }] = [some [.roundDeadline .a], some [], some [], some []] ∧
    [pend 5 (window 0 2111), pend 5 (window 0 2110), pend 5 (window 255 540671), pend 5 (window 255 540670)] =
      [some [.replyTimeout .a false], some [], some [.replyTimeout .a false], some []] ∧
    [pend 5 (sent .running .framing 0 175), pend 5 (sent .running .framing 0 174), pend 5 (sent .starting .idle 1 351),
      pend 5 (sent .running .polling 0 175), pend 5 (sent .running .polling 0 174)] =
      [some [.frameSent .a], some [], some [.frameSent .a], some [.pollSent .a], some []] ∧
    [pend 5 { portIn .running .ended with lowRun := 4096 }, pend 5 { portIn .running .ended with lowRun := 4095 }] =
      [some [.lineStuck .a], some []] ∧
    pend 5 { sent .testing .idle 0 87 with selfTest := some ⟨3, 0, 0, 0, 0, false⟩ } =
      some [.characterReceived .a (cleanSamples (controlChar frameChar))] ∧
    seen (step (withA (window 0 175))) (fun t => (t.portA.windowTicks, t.portA.window)) = some (176, 2) := by decide +kernel

theorem witness_registerWindow :
    State.reset.timer.running = false ∧ running.timer.running = true ∧
      (0x18#32 ∉ [0x04#32, 0x08#32, 0x0C#32, 0x10#32, 0x14#32]) ∧ (0#32 ∉ [0x04#32, 0x08#32, 0x0C#32, 0x10#32, 0x14#32]) ∧
      0x18 ∉ [0x00, 0x04, 0x08, 0x0C, 0x10, 0x14] := by decide

theorem witness_controlStart_address :
    (State.reset.timer.running = false ∧ State.reset.bus.directory = 0) ∧
      (let s : State := { State.reset with bus := { Bus.reset with dirLo := 4095 } }
       s.timer.running = false ∧ s.bus.directory.toNat % 4096 ≠ 0) := by decide

theorem witness_controlStart_accepted :
    let s : State := { State.reset with bus := { Bus.reset with dirLo := 4096 } }
    s.timer.running = false ∧ s.bus.directory ≠ 0 ∧ s.bus.directory.toNat % 4096 = 0 ∧ s.portA.state = .disabled ∧
      s.portA.control = none ∧ s.portB.state = .disabled ∧ s.portB.control = none ∧ s.scan.step = .idle ∧
      s.scan.held = [] ∧ ∀ t : Fin 34, s.writer.sheets[t] = none := by decide +kernel

theorem witness_recovery :
    (let s : State := { sittingAt onRecord with supply := { warning := true, dipStart := some 9 } }
     s.supply.warning = true ∧ s.supply.dipStart = some 9 ∧ s.sitting.isOpen = true ∧ s.sitting.close = none ∧
       0 < s.frame ∧ 9 ≤ s.frame - 1) ∧
    (let s : State := { running with sitting := onRecord, supply := { warning := true, dipStart := some 0 } }
     s.supply.warning = true ∧ s.sitting.isOpen = true ∧ s.sitting.close = none ∧ s.frame = 0) ∧
    ({ warning := true, dipStart := none } : Supply).dipStart = none ∧ State.reset.supply.warning = false := by decide

/-- R164: a dip that recovers in FINISHING ends at the lower of the frame in computation and the last frame; one that began
after the last frame has no mark, nor has one that recovers in DRAINING or outside a sitting. -/
theorem witness_recoveryInClosing :
    let s (b : Word64) (first : Nat) (draining : Bool) : State :=
      { sittingAt { onRecord with state := .closing, close := some { target9 with draining := draining } } with
        timer := { running.timer with boundary := b }, supply := { warning := true, dipStart := some first }
        path := withBay 33 { Bay.reset with units := 8 } }
    let after (s : State) : Option (List Item) := seen (exec .supplyRecovery s) (fun t => t.path.bays.bay[33].items)
    let dip (first last : Nat) : Item := .mark { kind := .powerDip first last, frame := last, time := running.timer.tod }
    (∀ b first draining, (s b first draining).supply.warning = true ∧ (s b first draining).supply.dipStart = some first ∧
      (s b first draining).sitting.state = .closing ∧
      (s b first draining).sitting.close = some { target9 with draining := draining }) ∧
    [(s 9 3 false).frame, (s 11 3 false).frame] = [9, 11] ∧
    [after (s 9 3 false), after (s 11 3 false), after (s 11 9 false)] =
      [some [dip 3 8], some [dip 3 9], some [dip 9 9]] ∧
    [after (s 11 10 false), after (s 0 0 false), after (s 11 3 true),
      after { s 11 3 false with sitting := { Sitting.reset with state := .armed } }] = [some [], some [], some [], some []] := by
  refine ⟨fun _ _ _ => ⟨rfl, rfl, rfl, rfl⟩, ?_⟩
  decide +kernel

theorem witness_onset :
    let s (ph : RoundPhase) (g : Option Target) : State := { sittingAt onRecord with
      portA := { portIn .running ph with remaining := [7], target := g, current := some Figures.reset }
      path := { withChannel 15 seated9 with stations := (withStation 7 { Station.reset with state := .present }).stations } }
    (∀ ph g, (s ph g).supply.warning = false ∧ ((s ph g).port .a).state = .running ∧ ((s ph g).port .a).phase = ph ∧
      ((s ph g).port .a).target = g ∧ ((s ph g).port .a).remaining = [7]) ∧
    ((15 : Fin 32) = channelOf (stationAt .a 7) 1 ∧ (s .polling none).ctx.polled = some 9 ∧
      (s .polling none).path.channels[15].snapshot 9 = some snapshot9 ∧ snapshot9.onRecord = true ∧
      (s .polling none).path.channels[15].seated = true ∧ (s .polling none).path.channels[15].settled = false ∧
      (s .polling none).path.channels[15].run = none ∧ (s .polling none).sitting.within 9 = true) ∧
    ((s .idle none).port .b).state ≠ .running ∧
    seen (exec .supplyWarning (s .awaiting (some { addr := 3, probe := false })))
      (fun t => (t.portA.phase, t.portA.remaining, t.path.channels[15].outcome)) =
      some (.awaiting, [], some (.void .power)) ∧
    seen (exec .supplyWarning (s .polling none)) (fun t => (t.portA.phase, t.portA.probeDone)) =
      some (.ended, true) := by
  refine ⟨fun ph g => ⟨rfl, rfl, rfl, rfl, rfl⟩, ?_⟩
  decide +kernel

theorem witness_boundary :
    (running.timer.running = true ∧ running.timer.boundary ≠ BitVec.allOnes 64 ∧ running.timer.clockSet = none) ∧
      State.reset.timer.running = false ∧
      ({ running with timer := { running.timer with clockSet := some 3600100000 } } : State).timer.clockSet =
        some 3600100000 := by decide

theorem witness_courtTime :
    let s : State := { running with timer := { running.timer with rem := 12287 } }
    s.timer.running = true ∧ s.timer.clockSet = none ∧ s.timer.rem < 12288 := by decide

theorem witness_opening :
    let s : State := { sittingAt { Sitting.reset with state := .armed, opening := some { number := 1, record := true } } with
      path := withBay 33 { Bay.reset with units := 8 } }
    s.timer.running = true ∧ s.timer.boundary ≠ BitVec.allOnes 64 ∧ s.sitting.state = .armed ∧
      s.sitting.opening = some { number := 1, record := true } ∧ s.path.bays.bay[markTrack].items = [] ∧
      8 ≤ s.path.bays.bay[markTrack].units := by decide

/-- R104, R163: the opening boundary under a warning: the dip start frame 0, no run, no loud frame, no mark withheld. A
boundary that opens no sitting keeps the dip start frame. -/
theorem witness_openingUnderAWarning :
    let s (opening : Option Opening) (w : Bool) : State := {
      sittingAt { Sitting.reset with state := .armed, opening := opening } with
      supply := { warning := w, dipStart := none }
      path := { withBay 33 { Bay.reset with units := 8 } with
        bays := { (withBay 33 { Bay.reset with units := 8 }).bays with withheld := 3 }
        fcu := { Fcu.reset with mixRun := some (pendingRun 2 true)
                                floors := Vector.replicate 32 { Floor.reset with firstLoud := some 1, lastLoud := some 2 } } } }
    let after (s : State) : Option (Supply × Nat × List Bool) :=
      seen (exec (.boundary true true) s) fun t => (t.supply, t.path.bays.withheld,
        [t.path.fcu.mixRun.isSome, t.path.fcu.floors[31].firstLoud.isSome, t.path.fcu.floors[31].lastLoud.isSome])
    let going : State := { sittingAt onRecord with supply := { warning := true, dipStart := some 4 } }
    after (s (some { number := 1, record := true }) true) =
      some ({ warning := true, dipStart := some 0 }, 0, [false, false, false]) ∧
    after (s (some { number := 1, record := true }) false) =
      some ({ warning := false, dipStart := none }, 0, [false, false, false]) ∧
    (s none true).sitting.opening = none ∧ (after (s none true)).map Prod.fst = some { warning := true, dipStart := none } ∧
    going.sitting.state ≠ .armed ∧ (after going).map Prod.fst = some { warning := true, dipStart := some 4 } := by
  decide +kernel

theorem witness_recordFlag :
    (let s := sittingAt { onRecord with openedAt := 10 }
     s.timer.running = true ∧ s.timer.boundary ≠ BitVec.allOnes 64 ∧ s.sitting.isOpen = true ∧ s.sitting.close = none ∧
       s.sitting.openedAt.toNat ≤ s.timer.boundary.toNat ∧ s.sitting.next = s.sitting.cur ∧
       s.frame + 1 ≠ 21599999) ∧
    (let s := sittingAt { onRecord with next := false }
     s.sitting.isOpen = true ∧ s.sitting.next ≠ s.sitting.cur) ∧
    (let s : State := { sittingAt onRecord with timer := { running.timer with boundary := 21599998 } }
     s.sitting.isOpen = true ∧ s.frame + 1 = 21599999) := by decide +kernel

theorem witness_lastFrame :
    let s := sittingAt { onRecord with state := .closing, close := some target9 }
    s.timer.running = true ∧ s.timer.boundary ≠ BitVec.allOnes 64 ∧ s.sitting.state = .closing ∧
      s.sitting.close = some target9 ∧ target9.draining = false ∧ s.sitting.openedAt.toNat ≤ s.timer.boundary.toNat ∧
      s.frame = target9.last + 1 := by decide

theorem witness_portAtABoundary :
    (∀ c : Option Control, c = none ∨ c = some { power := .on, divisor := some 0 } ∨
        c = some { power := .keep, divisor := some 255 } →
      (let s := withA { portIn .starting .idle with starting := 2, control := c }
       s.timer.running = true ∧ (s.port .a).control = c ∧ (s.port .a).state = .starting ∧ 2 ≤ (s.port .a).starting) ∧
      (let s := withA { portIn .starting .idle with starting := 1, control := c }
       (s.port .a).control = c ∧ (s.port .a).state = .starting ∧ (s.port .a).starting = 1) ∧
      (∀ low, (low = true →
        let s := withA { portIn .stuck .idle with idleFlag := true, lineLow := low, control := c }
        (s.port .a).control = c ∧ (s.port .a).state = .stuck ∧ (s.port .a).lineLow = true) ∧
       (low = false →
        let s := withA { portIn .stuck .idle with idleFlag := true, lineLow := low, control := c }
        (s.port .a).state = .stuck ∧ (s.port .a).idleFlag = true ∧ (s.port .a).lineLow = false)) ∧
      (let s := withA { portIn .running .ended with control := c }
       (s.port .a).control = c ∧ (s.port .a).state = .running)) ∧
    (let pt := portIn .stuck .idle
     pt.control = none ∧ pt.state = .stuck ∧ pt.idleFlag = false) ∧
    (let pt := portIn .testing .idle
     pt.control = none ∧ pt.state = .testing) ∧
    (let pt := { Port.reset with control := some { power := .off, divisor := some 255 } }
     pt.control = some { power := .off, divisor := some 255 }) ∧
    (∀ n, let pt := { Port.reset with control := some { power := .offThenOn, divisor := none }, cooldown := n }
      pt.control = some { power := .offThenOn, divisor := none } ∧ pt.cooldown = n) ∧
    (∀ n, let pt := { portIn .tripped .idle with control := some { power := .on, divisor := none }, cooldown := n }
      pt.control = some { power := .on, divisor := none } ∧ pt.state = .tripped ∧ pt.cooldown = n) ∧
    (let pt := { Port.reset with control := some { power := .on, divisor := some 3 }, cooldown := 1 }
     pt.control = some { power := .on, divisor := some 3 } ∧ pt.state = .disabled ∧ pt.cooldown ≤ 1) := by
  refine ⟨?_, by decide, by decide, by decide, fun _ => ⟨rfl, rfl⟩, fun _ => ⟨rfl, rfl, rfl⟩, by decide⟩
  rintro c (rfl | rfl | rfl) <;> decide

/-- R47, R49: a KEEP gives a DISABLED port its divisor, and the cell of each of two self-tests has its own counts. -/
theorem witness_keepAndSelfTestAtABoundary :
    let keep : Option Control := some { power := .keep, divisor := some 255 }
    let held (c : Fin 16) (r : Option Result) : Held := { cell := c, kind := 33, tag := 7, result := r, due := false }
    let s : State := { running with
      portA := { portIn .testing .idle with selfTest := some ⟨3, 257, 257, 255, 1, true⟩ }
      portB := { portIn .testing .idle with selfTest := some ⟨4, 0, 0, 0, 0, false⟩ }
      scan := { Scanner.reset with step := .head [], held := [held 3 none, held 4 none, held 5 none] } }
    (({ Port.reset with control := keep } : Port).control = keep ∧
      ({ portIn .tripped .idle with control := keep } : Port).state = .tripped) ∧
    ((s.port .a).state = .testing ∧ (s.port .a).selfTest = some ⟨3, 257, 257, 255, 1, true⟩ ∧
      (s.port .b).selfTest = some ⟨4, 0, 0, 0, 0, false⟩ ∧ held 3 none ∈ s.scan.held) ∧
    seen (exec (.boundary true true) (withA { Port.reset with control := keep }))
      (fun t => (t.portA.state, t.portA.divisor)) = some (.disabled, 255) ∧
    seen (exec (.boundary true true) s) (fun t => t.scan.held) =
      some [held 3 (some ⟨.done, 255, 1, 1⟩), held 4 (some ⟨.done, 0, 0, 0⟩), held 5 none] := by decide +kernel

theorem witness_cutAtABoundary :
    (∀ ph ∈ [RoundPhase.receiving, .quieting, .awaiting, .polling], ∀ probe,
      let s := withA { portIn .running ph with
        target := some { addr := 7, probe := probe }, deadlinePassed := true, current := some Figures.reset }
      s.timer.running = true ∧ s.sitting.state ≠ .armed ∧ (s.port .a).state = .running ∧ (s.port .a).control = none ∧
        (s.port .a).deadlinePassed = true ∧ (s.port .a).target = some { addr := 7, probe := probe } ∧
        (s.port .a).phase = ph ∧ (s.port .a).current = some Figures.reset) ∧
    (let s := withA (portIn .running .polling)
     (s.port .a).control = none ∧ (s.port .a).remaining = [] ∧ (s.port .a).phase = .polling ∧ (s.port .a).target = none) ∧
    (let s := withA { portIn .running .awaiting with
        control := some { power := .off, divisor := none }, target := some { addr := 0, probe := false }, current := some Figures.reset }
     s.sitting.state ≠ .armed ∧ (s.port .a).state = .running ∧
       (s.port .a).control = some { power := .off, divisor := none } ∧ (s.port .a).current = some Figures.reset) ∧
    (({ Sitting.reset with state := .armed, opening := some { number := 1, record := true } } : Sitting).opening ≠ none ∧
      Sitting.reset.opening = none) ∧
    (let l : Link := { port := { portIn .starting .idle with starting := 1 }, path := Path.reset }
     l.port.state = .starting ∧ l.port.control = none ∧ l.port.starting = 1) := by decide

/-- R69: the figures that a boundary latches of Port A: of an ended round, and of one in POLLING after the deadline with no
call, as they stood, of a call that a power OFF cuts with the boundary as the round end, and of a STUCK port what its round
of the interval left, or nothing. -/
theorem witness_latchedFigures :
    let fig : Figures := { Figures.reset with roundEnd := 1142 }
    let off (ph : RoundPhase) (deadline : Bool) (g : Option Target) : State := withA { portIn .running ph with
      control := some { power := .off, divisor := none }, current := some fig, deadlinePassed := deadline, target := g }
    let stuck (cur : Option Figures) : State := withA { portIn .stuck .idle with current := cur }
    let latched (s : State) : Option Nat := seen (exec (.boundary true true) s) fun t => t.portA.figures.roundEnd
    (∀ ph d g, ((off ph d g).port .a).state = .running ∧ ((off ph d g).port .a).current = some fig ∧
      ((off ph d g).port .a).control = some { power := .off, divisor := none }) ∧
    (∀ cur, ((stuck cur).port .a).state ≠ .running ∧ ((stuck cur).port .a).current = cur) ∧
    [latched (off .ended false none), latched (off .polling true none), latched (off .polling false none),
      latched (off .receiving true (some { addr := 3, probe := false })), latched (stuck (some fig)), latched (stuck none)] =
      [some 1142, some 1142, some 4468, some 4468, some 1142, some 0] := by
  refine ⟨fun _ _ _ => ⟨rfl, rfl, rfl⟩, fun _ => ⟨by simp [State.port, withA, portIn], rfl⟩, ?_⟩
  decide +kernel

/-- R66: the boundary cuts a reply being received: LATE, one late cut, the round end at the boundary. -/
theorem test_lateCut :
    seen (exec (.boundary true true) { withA { portIn .running .receiving with
        target := some { addr := 3, probe := false }, deadlinePassed := true, current := some Figures.reset } with
        path := withStation 3 { Station.reset with state := .present } })
      (fun t => (t.portA.lateCut, t.path.stations[3].state, t.portA.figures.roundEnd)) =
      some (1, .missing, 393216 / 88) := by decide +kernel

/-- R65, R66, R95: the void frames of a round that the boundary cuts: LATE of a station never called and of a call, CHECK of
a bundle in its quiet time. -/
theorem witness_cutCauses :
    let call (ph : RoundPhase) : State := underCall { portIn .running ph with deadlinePassed := true }
    let run (s : State) : Option (Option VoidCause) :=
      seen (exec (.boundary true true) s) fun t => t.path.channels[15].run.map VoidRun.cause
    let listed : State := underCall { portIn .running .polling with remaining := [7] }
    (∀ ph, ((call ph).port .a).state = .running ∧ ((call ph).port .a).control = none ∧
      ((call ph).port .a).deadlinePassed = true ∧ ((call ph).port .a).target = some { addr := 7, probe := false } ∧
      ((call ph).port .a).phase = ph) ∧
    ((listed.port .a).deadlinePassed = false ∧ 7 ∈ (listed.port .a).remaining) ∧
    (listed.timer.running = true ∧ listed.sitting.isOpen = true ∧ listed.sitting.close = none ∧
      listed.sitting.cur = true ∧ listed.writer.sheets[trackOf (soundTrack 15)] = none ∧ listed.ctx.polled = some 9) ∧
    [run listed, run (call .receiving), run (call .awaiting), run (call .polling), run (call .quieting)] =
      [some (some .late), some (some .late), some (some .late), some (some .late), some (some .check)] := by
  refine ⟨fun _ => ⟨rfl, rfl, rfl, rfl, rfl⟩, ?_⟩
  decide +kernel

/-- R43: a STUCK port whose line reads 0 up to the boundary does not start (assumption 23). -/
theorem test_stuckLine :
    seen (exec (.boundary true true) (withA { portIn .stuck .idle with idleFlag := true, lineLow := true }))
      (fun t => (t.portA.state, t.portA.idleFlag)) = some (.stuck, true) := by decide +kernel

theorem witness_frameSent :
    let s : State := { withA (portIn .running .framing) with path := withStation 7 { Station.reset with state := .joining } }
    (s.port .a).state = .running ∧ (s.port .a).phase = .framing ∧ (s.port .a).suppressed = false ∧
      (s.port .a).deadlinePassed = false ∧ (s.port .a).busy = false ∧ (s.port .a).probeDone = false ∧
      seen (exec (.frameSent .a) s) (fun t => (t.portA.pollList, t.portA.target)) =
        some ([7], some { addr := 7, probe := false }) := by decide +kernel

theorem witness_frameSent_empty :
    let s := withA (portIn .running .framing)
    seen (exec (.frameSent .a) s) (fun t => (t.portA.pollList, t.portA.target)) =
      some ([], some { addr := 0, probe := true }) := by decide +kernel

theorem witness_frameSent_noPoll :
    let s (warned : Bool) : State := { sittingAt onRecord with
      portA := { portIn .running .framing with suppressed := warned, deadlinePassed := !warned }
      path := { withChannel 15 seated9 with stations := (withStation 7 { Station.reset with state := .present }).stations } }
    (∀ warned, ((s warned).port .a).state = .running ∧ ((s warned).port .a).phase = .framing ∧
      ((s warned).port .a).target = none ∧ ((s warned).port .a).suppressed = warned ∧
      ((s warned).port .a).deadlinePassed = !warned) ∧
    (15 : Fin 32) = channelOf (stationAt .a 7) 1 ∧ (s true).ctx.polled = some 9 ∧
    (s true).path.channels[15].snapshot 9 = some snapshot9 ∧ snapshot9.onRecord = true ∧
    (s true).path.channels[15].seated = true ∧ (s true).path.channels[15].settled = false ∧
    (s true).path.channels[15].run = none ∧ (s true).sitting.within 9 = true ∧
    ((s true).path.stations[stationAt .a 7].mics[1].button || snapshot9.settings.privacy) = false ∧
    seen (exec (.frameSent .a) (s true)) (fun t => (t.portA.pollList, t.portA.phase, t.path.channels[15].outcome)) =
      some ([7], .ended, some (.void .power)) ∧
    seen (exec (.frameSent .a) (s false)) (fun t => (t.portA.phase, t.path.stations[7].state)) =
      some (.polling, .missing) := by
  refine ⟨fun w => ⟨rfl, rfl, rfl, rfl, rfl⟩, ?_⟩
  decide +kernel

theorem witness_lamp :
    (let s : State := { sittingAt onRecord with path := withChannel 31 { seated9 with snapshots := [{ snapshot9 with frame := 10 }] } }
     s.ctx.sitting.counting = true ∧ s.path.channels[31].snapshot s.ctx.frame = some { snapshot9 with frame := 10 }) ∧
    running.ctx.sitting.counting = false := by decide

theorem witness_portAlone :
    (portIn .starting .idle).state = .starting ∧ (portIn .stuck .idle).state = .stuck ∧
      (let pt := { portIn .running .polling with target := some { addr := 7, probe := true } }
       pt.state = .running ∧ pt.phase = .polling ∧ pt.target ≠ none) := by decide

theorem witness_replyTimeout :
    let s (probe : Bool) : State := { withA { portIn .running .awaiting with target := some { addr := 0, probe := probe } } with
      path := withStation 0 { Station.reset with state := .missing, missRun := 24 } }
    (∀ probe, ((s probe).port .a).state = .running ∧ ((s probe).port .a).phase = .awaiting ∧
      ((s probe).port .a).target = some { addr := 0, probe := probe }) ∧
      (s false).path.stations[stationAt .a 0].missed.2 ≠ none := by decide

theorem witness_roundDeadline :
    let s := withA { portIn .running .ended with phase := .polling, remaining := [0, 7] }
    (s.port .a).inRound = true ∧ (s.port .a).phase ≠ .framing ∧ (s.port .a).deadlinePassed = false ∧
      (s.port .a).remaining.count 7 = 1 ∧ 6 ∉ (s.port .a).remaining := by decide

theorem witness_lineQuiet :
    (let s : State := { withA { portIn .running .receiving with target := some { addr := 7, probe := false } } with
      path := withStation 7 { Station.reset with state := .joining, missRun := 24 } }
     (s.port .a).state = .running ∧ (s.port .a).sending = [] ∧ (s.port .a).phase = .receiving ∧
       (s.port .a).target = some { addr := 7, probe := false } ∧ s.path.stations[stationAt .a 7].missed.2 ≠ none) ∧
    (let s := withA { portIn .running .polling with busy := true, remaining := [3] }
     (s.port .a).state = .running ∧ (s.port .a).sending = [] ∧ (s.port .a).phase = .polling ∧ (s.port .a).busy = true ∧
       (s.port .a).remaining = 3 :: [] ∧ (s.port .a).deadlinePassed = false) ∧
    (let s := withA { portIn .running .polling with busy := true, deadlinePassed := true }
     (s.port .a).phase = .polling ∧ (s.port .a).busy = true ∧ (s.port .a).deadlinePassed = true) := by decide

/-- R59: after the list the probe passes over the addresses of the list, wrapping from 7 to 0; with all eight listed the
round ends and the cursor stays. -/
theorem witness_callOver :
    let present : Station := { Station.reset with state := .present }
    let s (stations : Vector Station 16) : State := { withA { portIn .running .awaiting with
        target := some { addr := 0, probe := false }, probeCursor := 6 } with
      path := { Path.reset with stations := stations } }
    let listed := (Vector.replicate 16 present).set 2 Station.reset
    (∀ st, ((s st).port .a).deadlinePassed = false ∧ ((s st).port .a).remaining = [] ∧
      ((s st).port .a).probeDone = false ∧ ((s st).port .a).probeCursor = 6) ∧
    (2 : Fin 8).val = ((6 : Fin 8).val + 1 + 3) % 8 ∧ listed[2].state = .vacant ∧
    seen (exec (.replyTimeout .a false) (s listed)) (fun t => (t.portA.target, t.portA.probeCursor)) =
      some (some { addr := 2, probe := true }, 2) ∧
    seen (exec (.replyTimeout .a false) (s (Vector.replicate 16 present)))
      (fun t => (t.portA.phase, t.portA.target, t.portA.probeCursor)) = some (.ended, none, 6) := by
  refine ⟨fun _ => ⟨rfl, rfl, rfl, rfl⟩, ?_⟩
  decide +kernel

/-- R57, R59, R71: a station that this round's list makes LOST is in the list still and is no probe of the round: the probe
goes to the next free address, or none is made. -/
theorem test_probePassesOverTheList :
    let gone : Station := { Station.reset with state := .missing, unit := some 5, missRun := 24 }
    let s (free : StationState) : State := { withA { portIn .running .awaiting with
        target := some { addr := 0, probe := false }, pollList := [0] } with
      path := { Path.reset with stations :=
        ((Vector.replicate 16 { Station.reset with state := .present }).set 0 gone).set 3 { Station.reset with state := free } } }
    seen (exec (.replyTimeout .a false) (s .vacant)) (fun t => (t.path.stations[0].state, t.portA.target)) =
      some (.lost, some { addr := 3, probe := true }) ∧
    seen (exec (.replyTimeout .a false) (s .present)) (fun t => (t.path.stations[0].state, t.portA.phase)) =
      some (.lost, .ended) := by decide +kernel

/-- R64, R65, R71, R95: the cause that a frame takes from each report, and R56: the figures of the round. -/
theorem witness_reportCauses :
    let cause (c : Instr) (pt : Port) : Option (Option FrameOutcome) :=
      seen (exec c (underCall pt)) fun t => t.path.channels[15].outcome
    let waits := { portIn .running .polling with remaining := [7] }
    ((15 : Fin 32) = channelOf (stationAt .a 7) 1 ∧ (underCall waits).ctx.polled = some 9 ∧
      (underCall waits).path.channels[15].snapshot 9 = some snapshot9 ∧ snapshot9.onRecord = true ∧
      (underCall waits).path.channels[15].seated = true ∧ (underCall waits).path.channels[15].settled = false ∧
      (underCall waits).path.channels[15].run = none ∧ (underCall waits).sitting.within 9 = true) ∧
    [cause (.replyTimeout .a false) (portIn .running .awaiting), cause (.roundDeadline .a) waits,
        cause (.lineQuiet .a) (portIn .running .receiving),
        cause (.characterReceived .a (cleanSamples (controlChar endChar))) (portIn .running .awaiting),
        cause (.frameSent .a) { portIn .running .framing with deadlinePassed := true }] =
      [some (some (.void .noReply)), some (some (.void .late)), some (some (.void .check)), some (some (.void .check)),
        some (some (.void .late))] ∧
    seen (exec (.replyTimeout .a false) (underCall { portIn .running .awaiting with remaining := [3] }))
      (fun t => t.portA.current.map fun f => (f.listPolls, f.probe)) = some (some (1, none)) ∧
    seen (exec (.replyTimeout .a false) (underCall (portIn .running .awaiting)))
      (fun t => t.portA.current.map fun f => (f.listPolls, f.probe)) = some (some (0, some 0)) := by decide +kernel

/-- R95: a good bundle's frame is SAMPLE where its full block fits the bay. -/
theorem witness_goodReport :
    let p : Path := { (underCall (portIn .running .receiving)).path with
      bays := (withBay 15 { Bay.reset with units := 4 }).bays }
    let st := (p.stations[7].listed aBundle.unit).1.takeBundle aBundle
    st.mics[1].present = true ∧ ((st.mics[1].button || snapshot9.settings.privacy) && !snapshot9.settings.bar) = false ∧
      firstCause false false false st (Report.good aBundle).lastCause = none ∧
      p.bays.bay[trackOf (soundTrack 15)].fill + pad4 (16 + 2 * aBundle.samples[1].length) ≤
        p.bays.bay[trackOf (soundTrack 15)].capacity ∧
      (p.report (sittingAt onRecord).ctx (some 9) 7 false (.good aBundle)).channels[15].outcome = some .sample := by
  decide +kernel

/-- R65: ROUND_DEADLINE in FRAMING. -/
theorem witness_deadlineInFraming :
    let s := withA (portIn .running .framing)
    (s.port .a).inRound = true ∧ (s.port .a).phase = .framing ∧ (s.port .a).deadlinePassed = false ∧
      seen (exec (.roundDeadline .a) s) (fun t => (t.portA.deadlinePassed, t.portA.phase)) = some (true, .framing) := by
  decide +kernel

theorem witness_characterReceived :
    receive (BitVec.allOnes 88) = none ∧
    (let s := withA { portIn .testing .idle with selfTest := some ⟨0, 0, 0, 0, 0, false⟩ }
     receive (cleanSamples (controlChar testChar)) = some (.control testChar) ∧ (s.port .a).state = .testing ∧
       (s.port .a).selfTest = some ⟨0, 0, 0, 0, 0, false⟩) ∧
    ((portIn .disabled .idle).state ≠ .testing ∧ (portIn .disabled .idle).state ≠ .running ∧
      ({ portIn .running .framing with sending := [0] } : Port).sending ≠ []) ∧
    ((portIn .stuck .idle).state = .stuck ∧ (0 : BitVec 88) ≠ BitVec.allOnes 88) ∧
    (let s := withA { portIn .running .awaiting with target := some { addr := 7, probe := false } }
     (s.port .a).state = .running ∧ (s.port .a).sending = [] ∧ (s.port .a).phase = .awaiting ∧
       receive (cleanSamples (controlChar 0x97)) = some (.control 0x97) ∧ bundleAddress 0x97 = some 7 ∧
       receive (cleanSamples (controlChar 0x98)) = some (.control 0x98) ∧ bundleAddress 0x98 = none ∧
       (0x98#8 : Byte) ≠ endChar ∧ receive (cleanSamples (controlChar endChar)) = some (.control endChar) ∧
       (s.port .a).target = some { addr := 7, probe := false }) ∧
    (let s := withA { portIn .running .receiving with reply := some { leader := none, data := List.replicate 281 0 } }
     (s.port .a).state = .running ∧ (s.port .a).sending = [] ∧ (s.port .a).phase = .receiving ∧
       receive (cleanSamples (dataChar 0)) = some (.data 0) ∧
       (s.port .a).reply = some { leader := none, data := List.replicate 281 0 } ∧
       receive (cleanSamples (controlChar 0xF0)) = some (.control 0xF0) ∧ (0xF0#8 : Byte) ≠ endChar ∧
       receive 0 = some .framing) ∧
    ∀ ph ∈ [RoundPhase.quieting, .polling, .ended],
      (portIn .running ph).state = .running ∧ (portIn .running ph).sending = [] ∧ (portIn .running ph).phase = ph := by
  decide +kernel

theorem aBundle_length : aBundle.body.length = 263 := (length_body aBundle).trans (by simp [aBundle])

theorem aBundle_check (c : BitVec 16) : readLE (aBundle.body ++ leBytes 2 c.toNat) 263 2 = c.toNat := by
  rw [← aBundle_length, show aBundle.body.length = aBundle.body.length + 0 from rfl, readLE_append_right,
    ← List.append_nil (leBytes 2 _), readLE_leBytes]
  exact c.isLt

theorem aBundle_head (c : BitVec 16) :
    bundleCount (aBundle.body ++ leBytes 2 c.toNat) 0 = 60 ∧ bundleCount (aBundle.body ++ leBytes 2 c.toNat) 1 = 68 ∧
      (aBundle.body ++ leBytes 2 c.toNat).getD 3 0 = 10 ∧ (aBundle.body ++ leBytes 2 c.toNat).getD 4 0 = 12 :=
  ⟨rfl, rfl, rfl, rfl⟩

theorem aBundle_good : bundleFault aBundle.encode 10 = none := by
  unfold Bundle.encode
  generalize hc : crc16 aBundle.body = c
  obtain ⟨h0, h1, h3, h4⟩ := aBundle_head c
  have ht : (aBundle.body ++ leBytes 2 c.toNat).take 263 = aBundle.body := by rw [← aBundle_length]; simp
  have hn : (aBundle.body ++ leBytes 2 c.toNat).length = 265 := by simp [aBundle_length]
  unfold bundleFault
  rw [h0, h1, hn, h3, h4, show 265 - 2 = 263 from rfl, ht, aBundle_check, hc]
  simp

theorem witness_finishedReply :
    let s (data : List Byte) : State := { withA { portIn .running .receiving with
        target := some { addr := 0, probe := false }, reply := some { leader := some 0, data := data } } with
      timer := { running.timer with boundary := 10 } }
    receive (cleanSamples (controlChar endChar)) = some (.control endChar) ∧
      (∀ data, ((s data).port .a).state = .running ∧ ((s data).port .a).sending = [] ∧
        ((s data).port .a).phase = .receiving ∧ ((s data).port .a).target = some { addr := 0, probe := false } ∧
        ((s data).port .a).reply = some { leader := some 0, data := data } ∧ ((s data).port .a).fault = none) ∧
      bundleFault aBundle.encode ((s []).timer.boundary.setWidth 8) = none ∧
      bundleFault [] ((s []).timer.boundary.setWidth 8) = some .length ∧
      (({ Station.reset with state := .present, unit := some 6 } : Station).listed (Bundle.parse aBundle.encode).unit).2 ≠ none ∧
      ({ Station.reset with state := .missing, missRun := 24 } : Station).missed.2 ≠ none :=
  ⟨by decide +kernel, fun _ => ⟨rfl, rfl, rfl, rfl, rfl, rfl⟩, aBundle_good, by decide +kernel,
    by decide +kernel, by decide⟩

/-- R61, R62: an END of a reply whose leader named another address. -/
theorem witness_faultStands :
    let s := withA { portIn .running .receiving with
      target := some { addr := 0, probe := true }, reply := some { leader := some 1, data := [] }, fault := some .address }
    (s.port .a).state = .running ∧ (s.port .a).sending = [] ∧ (s.port .a).phase = .receiving ∧
      (s.port .a).target = some { addr := 0, probe := true } ∧ (s.port .a).reply = some { leader := some 1, data := [] } ∧
      (s.port .a).fault = some .address ∧
      seen (exec (.characterReceived .a (cleanSamples (controlChar endChar))) s)
        (fun t => (t.portA.check, t.portA.lastReason)) = some (1, some .address) := by decide +kernel

theorem witness_stuckAndTripped :
    let low (ticks : Nat) := withA { portIn .running .idle with lineLow := true, lowTicks := ticks, lowRun := 4095 }
    (∀ n, (low n).pending = [] ∧ (low n).timer.running = true ∧ ((low n).port .a).state = .running ∧
      ((low n).port .a).lineLow = true) ∧
    (let s := withA { portIn .stuck .idle with lineLow := true, idleFlag := true }
     s.pending = [] ∧ s.timer.running = true ∧ (s.port .a).lineLow = true ∧ (s.port .a).state = .stuck) ∧
    ((low 6).portA.lowTicks + 1 < 8 * ((low 6).portA.divisor + 1) ∧
      8 * ((low 7).portA.divisor + 1) ≤ (low 7).portA.lowTicks + 1) ∧
    (low 7).portA.lowRun < 4096 ∧
    (({ portIn .running .idle with lowRun := 4096 } : Port).state = .running ∧
      ({ portIn .running .idle with lowRun := 4096 } : Port).lowRun = 4096) ∧
    (portIn .stuck .idle).state = .stuck ∧ (portIn .starting .idle).state ≠ .running :=
  ⟨fun _ => ⟨rfl, rfl, rfl, rfl⟩, by decide, by decide, by decide, by decide, by decide, by decide⟩

/-- R41: a station under call as the port leaves RUNNING, by its low run and by a power OFF at a boundary. -/
theorem witness_notRunning :
    let s (control : Option Control) : State := { sittingAt onRecord with
      portA := { portIn .running .awaiting with
        target := some { addr := 7, probe := false }, lowRun := 4096, control := control }
      path := { withChannel 15 seated9 with stations := (withStation 7 { Station.reset with state := .present }).stations } }
    let off := s (some { power := .off, divisor := none })
    (∀ control, ((s control).port .a).state = .running ∧ ((s control).port .a).lowRun = 4096 ∧
      ((s control).port .a).target = some { addr := 7, probe := false }) ∧
    off.timer.running = true ∧ (15 : Fin 32) = channelOf (stationAt .a 7) 1 ∧ off.ctx.polled = some 9 ∧
    off.path.channels[15].snapshot 9 = some snapshot9 ∧ snapshot9.onRecord = true ∧ off.path.channels[15].seated = true ∧
    off.path.channels[15].settled = false ∧ off.path.channels[15].run = none ∧ off.sitting.isOpen = true ∧
    off.sitting.close = none ∧ off.sitting.cur = true ∧ off.writer.sheets[trackOf (soundTrack 15)] = none ∧
    seen (exec (.lineStuck .a) (s none)) (fun t => t.path.channels[15].outcome) = some (some (.void .portDown)) ∧
    seen (exec (.boundary true true) off) (fun t => t.path.channels[15].run) =
      some (some { cause := .portDown, first := 9, length := 1, tail := 0, held := false }) := by
  refine ⟨fun _ => ⟨rfl, rfl, rfl⟩, ?_⟩
  decide +kernel

/-- R69: the round's figures after a port leaves RUNNING, the moment of leaving being tick 1,760, character time 20: an ended
round keeps them, a round cut short ends now. -/
theorem witness_figuresOnLeaving :
    let fig : Figures := { Figures.reset with roundEnd := 7 }
    let s (ph : RoundPhase) (deadline : Bool) (g : Option Target) : State :=
      { withA { portIn .running ph with lowRun := 4096, current := some fig, deadlinePassed := deadline, target := g } with
        timer := { running.timer with tick := 1760 } }
    let left (c : Instr) (ph : RoundPhase) (deadline : Bool) (g : Option Target) : Option (Option Nat) :=
      seen (exec c (s ph deadline g)) fun t => t.portA.current.map Figures.roundEnd
    (∀ ph d g, ((s ph d g).port .a).state = .running ∧ ((s ph d g).port .a).lowRun = 4096) ∧
    [left (.lineStuck .a) .ended false none, left (.overcurrent .a) .polling true none,
      left (.lineStuck .a) .polling false none, left (.overcurrent .a) .awaiting true (some { addr := 3, probe := false })] =
      [some (some 7), some (some 7), some (some 20), some (some 20)] := by
  refine ⟨fun _ _ _ => ⟨rfl, rfl⟩, ?_⟩
  decide +kernel

/-- R52: the overcurrent of a port outside RUNNING makes PORT_FAULT. -/
theorem test_portFault :
    seen (exec (.overcurrent .b) { sittingAt onRecord with
        portB := portIn .starting .idle, path := withBay 33 { Bay.reset with units := 4 } })
      (fun t => t.path.bays.bay[33].items) = some [.mark { kind := .portFault .b .tripped, frame := 10, time := 0 }] := by
  decide +kernel

theorem witness_characters :
    ∀ k, k < 11 → ∃ i ∈ [3, 4, 5], ∃ j ∈ [3, 4, 5], i ≠ j ∧
      (cleanSamples (charBits true 0x81)).getLsbD (8 * k + i) = (charBits true 0x81).getLsbD k ∧
      (cleanSamples (charBits true 0x81)).getLsbD (8 * k + j) = (charBits true 0x81).getLsbD k := by decide +kernel

theorem witness_bundle : aBundle.wf = true := by decide +kernel

/-- The data characters of a reply of two lots of 60 samples, before its check. -/
def aReply (tag flags : Byte) : List Byte := [0, 0, 0, tag, flags, 60, 60] ++ List.replicate 240 0

/-- R62: the reason is the first check that fails: LENGTH for 8 characters and for one too many, COUNT at 59 and at 69. -/
theorem witness_bundleReasons :
    let data (n m : Byte) (len : Nat) : List Byte := [0, 0, 0, 9, 0xF0, n, m] ++ List.replicate len 0
    bundleFault (List.replicate 8 0) 10 = some .length ∧ bundleFault (data 60 68 259) 10 = some .length ∧
      bundleFault (data 59 68 256) 10 = some .count ∧ bundleFault (data 69 60 260) 10 = some .count := by decide +kernel

/-- R62: CRC comes before TAG and TAG before FORMAT, each with the later ones failing too. -/
theorem witness_bundleChecked (tag flags : Byte) :
    (∀ c, c ≠ crc16 (aReply tag flags) →
      bundleFault (aReply tag flags ++ leBytes 2 c.toNat) 10 = some .crc) ∧
    bundleFault (aReply tag flags ++ leBytes 2 (crc16 (aReply tag flags)).toNat) 10 =
      if tag ≠ 10 then some .tag else if flags.toNat / 16 ≠ 0 then some .format else none := by
  have key (c : BitVec 16) : bundleFault (aReply tag flags ++ leBytes 2 c.toNat) 10 =
      if (crc16 (aReply tag flags)).toNat ≠ c.toNat then some .crc
      else if tag ≠ 10 then some .tag else if flags.toNat / 16 ≠ 0 then some .format else none := by
    have hl : (aReply tag flags).length = 247 := by
      unfold aReply; rw [List.length_append, List.length_replicate]; rfl
    have ht : (aReply tag flags ++ leBytes 2 c.toNat).take 247 = aReply tag flags := by rw [← hl]; simp
    have hn : (aReply tag flags ++ leBytes 2 c.toNat).length = 249 := by simp [hl]
    have hr : readLE (aReply tag flags ++ leBytes 2 c.toNat) 247 2 = c.toNat := by
      rw [← hl, show (aReply tag flags).length = (aReply tag flags).length + 0 from rfl, readLE_append_right,
        ← List.append_nil (leBytes 2 _), readLE_leBytes]
      exact c.isLt
    have h0 : bundleCount (aReply tag flags ++ leBytes 2 c.toNat) 0 = 60 := rfl
    have h1 : bundleCount (aReply tag flags ++ leBytes 2 c.toNat) 1 = 60 := rfl
    have h3 : (aReply tag flags ++ leBytes 2 c.toNat).getD 3 0 = tag := rfl
    have h4 : (aReply tag flags ++ leBytes 2 c.toNat).getD 4 0 = flags := rfl
    unfold bundleFault
    rw [h0, h1, hn, h3, h4, show 249 - 2 = 247 from rfl, ht, hr]
    simp
  refine ⟨fun c hc => ?_, ?_⟩
  · rw [key, if_pos fun e => hc (BitVec.eq_of_toNat_eq e).symm]
  · rw [key, if_neg (by simp)]

theorem witness_cell :
    WellFormed (.hostMark 7 32 (List.replicate 32 0x45)) = true ∧
      (postedCell 0x44 (.hostMark 7 32 (List.replicate 32 0x45))).isSome = true ∧
      (postedCell 0xFFFF (.setChannel 31 0xFFFFFFFF 0 8 255 1)).isSome = true := by decide

theorem witness_stations :
    (Station.reset.state = .vacant) ∧
    (let st : Station := { Station.reset with state := .lost, unit := some 5 }
     st.state = .lost ∧ st.unit = some 5 ∧ (5#24 : BitVec 24) ≠ 6) ∧
    (let st : Station := { Station.reset with state := .joining, unit := some 5, goodRun := 7, missRun := 24 }
     st.unit = some 5 ∧ st.state = .joining ∧ st.goodRun = 7 ∧ st.missRun = 24) ∧
    (let mic : Mic := { Mic.reset with slip := 32767 }
     mic.slip ≤ 32767 ∧ -32767 ≤ mic.slip ∧ mic.drift = false ∧ 32767 < mic.slip + 68 - 64) ∧
    (let mic : Mic := { Mic.reset with slip := -32767, drift := true }
     mic.slip ≤ 32767 ∧ -32767 ≤ mic.slip ∧ mic.drift = true ∧ mic.slip + 60 - 64 < -32767) := by decide

theorem witness_settling :
    let s : State := { sittingAt onRecord with path := withChannel 31 seated9 }
    s.path.channels[31].snapshot 9 = some snapshot9 ∧ s.path.channels[31].seated = true ∧
      s.ctx.sitting.within 9 = true ∧ s.path.channels[31].settled = false ∧ s.path.channels[31].captured < 4294967295 ∧
      s.path.channels[31].voids < 4294967295 ∧ ({ seated9 with settled := true }).settled = true := by decide

theorem witness_outcome :
    let p (st : StationState) : Path := { withChannel 31 seated9 with
      stations := (withStation 15 { Station.reset with state := st, mics := #v[Mic.reset, { Mic.reset with present := true }] }).stations
      bays := (withBay 31 { Bay.reset with units := 4 }).bays }
    (∀ st, (p st).channels[31].snapshot 9 = some snapshot9 ∧ snapshot9.onRecord = true ∧ (p st).channels[31].seated = true ∧
      (p st).channels[31].settled = false ∧ (sittingAt onRecord).ctx.sitting.within 9 = true ∧
      (p st).channels[31].run = none ∧ (p st).stations[stationOf 31].state = st ∧
      (p st).stations[stationOf 31].mics[micOf 31].present = true ∧
      (buttonPart (.report .bad) (p st).stations[stationOf 31].mics[micOf 31] (micOf 31) || snapshot9.settings.privacy) = false ∧
      (p st).bays.bay[trackOf (soundTrack 31)].fill + pad4 (16 + 2 * aBundle.samples[micOf 31].length) ≤
        (p st).bays.bay[trackOf (soundTrack 31)].capacity) ∧
      (sittingAt onRecord).ctx.warning = false := by
  refine ⟨fun st => ?_, by decide⟩
  cases st <;> decide +kernel

theorem witness_outcome_pending :
    let p (st : StationState) (r : VoidRun) (units : Nat) : Path := { withChannel 31 { seated9 with run := some r } with
      stations := (withStation 15 { Station.reset with state := st, mics := #v[Mic.reset, { Mic.reset with present := true }] }).stations
      bays := (withBay 31 { Bay.reset with units := units }).bays }
    let after (st : StationState) (r : VoidRun) (units : Nat) (report : Report) : Channel :=
      ((p st r units).settle (sittingAt onRecord).ctx 9 (.report report) 31).channels[31]
    (∀ length ∈ [65533, 65534], ∀ held units, units ∈ [0, 4] →
      (p .present (pendingRun length held) units).channels[31].snapshot 9 = some snapshot9 ∧
      (p .present (pendingRun length held) units).channels[31].seated = true ∧
      (p .present (pendingRun length held) units).channels[31].settled = false ∧
      (p .present (pendingRun length held) units).channels[31].run = some (pendingRun length held) ∧
      (p .present (pendingRun length held) units).stations[stationOf 31].mics[micOf 31].present = true) ∧
    (∀ r, ((p .present (pendingRun 65533 false) 4).setChannel 31 { seated9 with run := none }).bays =
        (p .present r 4).bays) ∧
    ((((p .present (pendingRun 65533 false) 4).setChannel 31 { seated9 with run := none }).settle
      (sittingAt onRecord).ctx 9 (.report .late) 31).channels[31].outcome = some (.void .late)) ∧
    (after .present (pendingRun 65533 false) 4 .late).run = some (pendingRun 65534 false) ∧
    (after .present (pendingRun 65534 false) 4 .late).run = none ∧
    (after .present (pendingRun 65534 false) 0 .late).run = some (pendingRun 65535 true) ∧
    (after .present (pendingRun 2 false) 4 .bad).run = some { cause := .check, first := 9, length := 1, tail := 0, held := false } ∧
    (after .present (pendingRun 2 false) 0 .bad).run = some { pendingRun 2 true with tail := 1 } ∧
    (after .present (pendingRun 2 true) 4 (.good aBundle)).outcome = some (.void .noRoom) ∧
    (after .present (pendingRun 2 false) 4 (.good aBundle)).outcome = some .sample := by
  refine ⟨by decide +kernel, fun _ => rfl, ?_⟩
  decide +kernel

/-- R118, R119, R122: a frame of 64 samples offered to a bay of 1,024 bytes, without a run and with one that it ends first:
full to a fill of 752 and in economy from 768, and with the flag set in economy above 256, admitted where it just fits and
NO_ROOM one item later. -/
theorem witness_outcome_economy :
    let b : Bundle := { aBundle with samples := #v[[], List.replicate 64 0] }
    let bay (n : Nat) (economy : Bool) : Bay :=
      { units := 4, items := List.replicate n (.voidRun 31 (pendingRun 1 false)), economy := economy }
    let p (run : Option VoidRun) (n : Nat) (economy : Bool) : Path :=
      { withChannel 31 { seated9 with run := run } with
        stations := (withStation 15 { Station.reset with
          state := .present, mics := #v[Mic.reset, { Mic.reset with present := true }] }).stations
        bays := (withBay 31 (bay n economy)).bays }
    let out (run : Option VoidRun) (n : Nat) (economy : Bool) : Option FrameOutcome × Bool × Option Nat :=
      let q := (p run n economy).settle (sittingAt onRecord).ctx 9 (.report (.good b)) 31
      (q.channels[31].outcome, q.bays.bay[31].economy, q.channels[31].run.map VoidRun.length)
    let one := some (pendingRun 2 false)
    ([(bay 47 false).offersEconomy 752, (bay 48 false).offersEconomy 768, (bay 16 true).offersEconomy 256,
      (bay 17 true).offersEconomy 272] = [false, true, false, true]) ∧
    [out none 47 false, out none 48 false, out none 16 true, out none 59 true] =
      [(some .sample, false, none), (some .sample, true, none), (some .sample, false, none), (some .sample, true, none)] ∧
    [out none 60 true, out none 60 false, out one 59 true, out one 59 false] =
      [(some (.void .noRoom), true, some 1), (some (.void .noRoom), true, some 1), (some (.void .noRoom), true, some 1),
        (some (.void .noRoom), true, some 1)] ∧
    [out one 58 true, out one 46 false, out one 15 true] =
      [(some .sample, true, none), (some .sample, false, none), (some .sample, false, none)] := by decide +kernel

/-- R105 to R109, R117 to R119: a frame sampled at a gain of 2, with a run before it and without, full and in economy, and
one that does not fit. -/
theorem witness_sample :
    let loud : Snapshot := { snapshot9 with settings := { Settings.reset with gain := 8192 } }
    let b : Bundle := { aBundle with samples := #v[[], 16384 :: -3 :: List.replicate 58 0] }
    let p (run : Option VoidRun) (units : Nat) (economy : Bool) (items : List Item) : Path :=
      { withChannel 31 { seated9 with snapshots := [loud], run := run } with
        stations := (withStation 15 { Station.reset with
          state := .present, mics := #v[Mic.reset, { Mic.reset with present := true }] }).stations
        bays := (withBay 31 { units := units, items := items, economy := economy }).bays }
    let q (run : Option VoidRun) (units : Nat) (economy : Bool) (items : List Item) : Path :=
      (p run units economy items).settle (sittingAt onRecord).ctx 9 (.report (.good b)) 31
    let block (economy : Bool) (samples : List Int) : Item :=
      .sample { track := 31, frame := 9, economy := economy, clip := true, delivered := 60, contributors := 0, samples := samples }
    (∀ run units economy items, (p run units economy items).channels[31].snapshot 9 = some loud ∧ loud.onRecord = true ∧
      (p run units economy items).channels[31].seated = true ∧ (p run units economy items).channels[31].settled = false ∧
      (p run units economy items).channels[31].run = run ∧ (p run units economy items).stations[15].state = .present ∧
      (p run units economy items).stations[15].mics[1].present = true ∧ (p run units economy items).fcu.floors[31].offLast = false) ∧
    ((sittingAt onRecord).ctx.warning = false ∧ (sittingAt onRecord).ctx.sitting.within 9 = true ∧
      ((buttonPart (.report (.good b)) Mic.reset (micOf 31) || loud.settings.privacy) && !loud.settings.bar) = false) ∧
    (q none 4 false []).bays.bay[31].items = [block false (32767 :: -6 :: List.replicate 58 0)] ∧
    (q none 0 true []).channels[31].outcome = some (.void .noRoom) ∧
    (q (some (pendingRun 2 false)) 1 false []).bays.bay[31].items =
      [.voidRun 31 (pendingRun 2 false), block false (32767 :: -6 :: List.replicate 58 0)] ∧
    (q none 1 true (List.replicate 5 (.mark aMark))).bays.bay[31].items =
      List.replicate 5 (.mark aMark) ++ [block true (16380 :: List.replicate 29 0)] ∧
    ((q none 4 false []).channels[31].clips, (q none 4 false []).channels[31].captured, (q none 4 false []).channels[31].voids,
      (q none 4 false []).fcu.floors[31].lastPeak) = (1, 1, 0, 32767) ∧
    ((q none 0 true []).channels[31].captured, (q none 0 true []).channels[31].voids,
      (q none 0 true []).fcu.floors[31].lastPeak, (q none 0 true []).fcu.floors[31].loudRun) = (0, 1, 32767, 0) := by
  refine ⟨fun _ _ _ _ => ⟨rfl, rfl, rfl, rfl, rfl, rfl, rfl, rfl⟩, ?_⟩
  decide +kernel

theorem witness_recordReport :
    let p := withStation 7 { Station.reset with state := .missing, unit := some 6, missRun := 24 }
    (onRecord.marks 9 = true ∧ (sittingAt onRecord).ctx.sitting.marks 9 = true ∧ running.ctx.sitting.marks 9 = false) ∧
    p.stations[7].missed.2 = some (.lost 6) ∧ (p.stations[7].listed aBundle.unit).2 = some (.replaced 6 5) ∧
    (Station.reset.probed aBundle.unit).2 = some (.joined 5) ∧
    (let st : Station := { Station.reset with
      state := .present, unit := some 5, mics := #v[Mic.reset, { Mic.reset with slip := 320 }] }
     (st.listed aBundle.unit).2 = none ∧ (st.listed aBundle.unit).1.mics[1].drift = false ∧
       ((st.listed aBundle.unit).1.takeBundle aBundle).mics[1].drift = true) := by decide +kernel

/-- R76, R81, R82: STATION_REPLACED at the frame polled. -/
theorem test_replaced :
    ((withBay 33 { Bay.reset with units := 4 }).setStation 7 { Station.reset with state := .present, unit := some 6 }
      |>.recordReport (sittingAt onRecord).ctx (some 9) 7 false (.good aBundle)).bays.bay[33].items =
      [.mark { kind := .stationReplaced 7 6 5, frame := 9, time := 0 }] := by decide +kernel

theorem witness_privacy :
    let p := withChannel 31 { seated9 with snapshots := [{ snapshot9 with settings := { Settings.reset with privacy := true } }] }
    p.channels[31].snapshot 9 = some { snapshot9 with settings := { Settings.reset with privacy := true } } ∧
      ({ Settings.reset with privacy := true }).bar = false ∧
      ({ aBundle with samples := #v[[], []] }).privacy = aBundle.privacy := by decide

theorem witness_gain :
    (4096 * (1202 : Int) ≤ 801 * (6144 : Nat) + 2048 ∧ 801 * ((6144 : Nat) : Int) + 2048 < 4096 * (1202 + 1)) ∧
    (4096 * (33000 : Int) ≤ 22000 * (6144 : Nat) + 2048 ∧ 22000 * ((6144 : Nat) : Int) + 2048 < 4096 * (33000 + 1)) ∧
    (4096 * (-32769 : Int) ≤ -21846 * (6144 : Nat) + 2048 ∧
      -21846 * ((6144 : Nat) : Int) + 2048 < 4096 * (-32769 + 1)) := by decide

theorem witness_floor :
    (Floor.reset.speaking = false ∧ Floor.reset.loudRun + 1 < Settings.reset.attack ∧
      Floor.reset.firstLoud = (if Floor.reset.loudRun = 0 then Floor.reset.firstLoud else some 0)) ∧
    (let fl := { Floor.reset with loudRun := 1, firstLoud := some 101 }
     fl.speaking = false ∧ Settings.reset.attack ≤ fl.loudRun + 1 ∧
       fl.firstLoud = if fl.loudRun = 0 then fl.firstLoud else some 101) ∧
    (let fl := { Floor.reset with speaking := true, lastLoud := some 102, quietRun := 49 }
     fl.speaking = true ∧ fl.lastLoud = some 102 ∧ fl.quietRun + 1 ≤ Settings.reset.hang) ∧
    (let fl := { Floor.reset with speaking := true, lastLoud := some 102, quietRun := 50 }
     fl.speaking = true ∧ fl.lastLoud = some 102 ∧ Settings.reset.hang < fl.quietRun + 1 ∧
       fl.step Settings.reset 103 false = (fl.quiet, some (.ended 102)) ∧
       (sittingAt onRecord).ctx.sitting.marks 102 = true) := by decide

theorem witness_mixScaling :
    let u : Fcu := { Fcu.reset with shift := 1, sums := Vector.replicate 64 (-5) }
    u.shift ≤ 5 ∧ ∀ k : Fin 64,
      (2 : Int) ^ u.shift * 2 * (-2) ≤ 2 * u.sums[k] + (if u.shift = 0 then 0 else 2 ^ u.shift) ∧
        2 * u.sums[k] + (if u.shift = 0 then 0 else 2 ^ u.shift) < (2 : Int) ^ u.shift * 2 * (-2 + 1) := by decide +kernel

theorem witness_halving :
    ([1, 2, 3] : List Int).length % 2 = 1 ∧ ∀ s ∈ ([-32768, 32767] : List Int), -32768 ≤ s ∧ s ≤ 32767 := by decide

/-- A path whose mix is on, with contributors, a run of track 32 and marks in bay 32. -/
def mixing (contributors : Nat) (run : Option VoidRun) (items : Nat) : Path :=
  { withBay 32 { units := 4, items := List.replicate items (.mark aMark), economy := false } with
    fcu := { Fcu.reset with mixOn := true, contributors := contributors, mixRun := run } }

/-- An OPEN run of track 32. -/
def aRun : VoidRun := { cause := .noSources, first := 1, length := 65533, tail := 0, held := false }

theorem witness_mix :
    (∀ n r i, (mixing n r i).fcu.mixOn = true ∧ (mixing n r i).fcu.contributors = n ∧ (mixing n r i).fcu.mixRun = r) ∧
    (let bay (n : Nat) := (mixing 1 none n).bays.bay[trackOf mixTrack]
     (bay 55).fill + 144 ≤ (bay 55).capacity ∧ (bay 60).capacity < (bay 60).fill + 80 ∧
       (bay 54).fill + 160 ≤ (bay 54).capacity ∧ (bay 64).capacity < (bay 64).fill + 16 ∧
       (bay 63).fill + 16 ≤ (bay 63).capacity) ∧
    (aRun.held = false ∧ aRun.cause = .noSources ∧ aRun.length < 65534 ∧ aRun.cause ≠ .power ∧
      ({ aRun with held := true } : VoidRun).held = true) ∧
    ((sittingAt onRecord).ctx.warning = false ∧
      ({ sittingAt onRecord with supply := { warning := true, dipStart := none } } : State).ctx.warning = true) :=
  ⟨fun _ _ _ => ⟨rfl, rfl, rfl⟩, by decide +kernel, by decide, by decide⟩

theorem witness_contribution :
    let p : Path := { withChannel 31 seated9 with
      stations := (withStation 15 { Station.reset with state := .present, mics := #v[Mic.reset, { Mic.reset with present := true }] }).stations
      bays := (withBay 31 { Bay.reset with units := 4 }).bays
      fcu := { Fcu.reset with mixOn := true } }
    p.channels[31].snapshot 9 = some snapshot9 ∧ p.channels[31].seated = true ∧ p.channels[31].settled = false ∧
      (sittingAt onRecord).ctx.sitting.within 9 = true ∧ snapshot9.onRecord = true ∧
      (p.settle (sittingAt onRecord).ctx 9 (.report (.good aBundle)) 31).channels[31].outcome = some .sample ∧
      snapshot9.settings.inMix = true ∧ p.fcu.mixOn = true := by decide +kernel

theorem witness_closeOfAFrame :
    (running.sitting.counting = false ∧
      (sittingAt { onRecord with openedAt := 9 }).timer.boundary.toNat < (9#64).toNat + 2 ∧
      (let s := sittingAt { onRecord with state := .closing, close := some { target9 with last := 7 } }
       s.sitting.close = some { target9 with last := 7 } ∧ 7 < s.timer.boundary.toNat - 2 - s.sitting.openedAt.toNat)) ∧
    ((sittingAt onRecord).sitting.isOpen = true ∧ (sittingAt onRecord).sitting.close = none ∧
      (sittingAt onRecord).timer.boundary.toNat = (sittingAt onRecord).sitting.openedAt.toNat + 8 + 2) ∧
    (let p : Path := withChannel 31 seated9
     p.channels[31].snapshot 9 = some snapshot9 ∧ p.channels[31].seated = true ∧ p.channels[31].settled = false ∧
       snapshot9.onRecord = true ∧ p.channels[31].run = none) ∧
    (let p : Path := { withChannel 31 { seated9 with settled := true, run := some aRun } with
      fcu := { Fcu.reset with floors := Fcu.reset.floors.set 31 { Floor.reset with speaking := true, lastLoud := some 8 } }
      bays := (withBay 31 { units := 4, items := List.replicate 63 (.mark aMark), economy := false }).bays }
     p.channels[31].settled = true ∧ p.channels[31].run = some aRun ∧ p.fcu.floors[31].speaking = true ∧
       p.fcu.floors[31].lastLoud = some 8 ∧ (sittingAt onRecord).ctx.sitting.marks 8 = true ∧
       p.bays.bay[trackOf (soundTrack 31)].fill + 16 ≤ p.bays.bay[trackOf (soundTrack 31)].capacity) ∧
    (let bay : Bay := { units := 4, items := List.replicate 64 (.mark aMark), economy := false }
     bay.capacity < bay.fill + 16) := by decide +kernel

/-- R97, R12, R14, R112: the boundary closes frame 9: the channel of a port that reports after the close and of one that made
no round; the end of a stretch, and the last frame of a sitting. -/
theorem witness_closeAtABoundary :
    let s (ran : Bool) : State := underCall { portIn .running .ended with ranRound := ran }
    let loud (st : Sitting) : State := { sittingAt st with path := { withChannel 15 seated9 with
      fcu := { Fcu.reset with floors := Fcu.reset.floors.set 15 { Floor.reset with speaking := true, loudRun := 3 } } } }
    let stretch : Sitting := { onRecord with cur := false, next := false, state := .offRecord }
    let ended : Sitting := { onRecord with state := .closing, close := some target9 }
    ((s true).timer.running = true ∧ (s true).timer.boundary ≠ BitVec.allOnes 64 ∧ (s true).ctx.polled = some 9 ∧
      (s true).sitting.within 9 = true ∧ (s true).path.stations[stationAt .a 7].mics[1].button = false ∧
      (s true).path.channels[15].snapshot 9 = some snapshot9) ∧
    ((loud stretch).ctx.polled = some 9 ∧ stretch.comp = true ∧ stretch.cur = false ∧ (loud ended).ctx.polled = some 9 ∧
      ended.within 9 = true ∧ target9.last = 9 ∧ (loud ended).path.channels[15].seated = true) ∧
    [true, false].map (fun ran => seen (exec (.boundary false false) (s ran))
        fun t => t.path.channels[15].run.map VoidRun.cause) =
      [some (some .late), some (some .portDown)] ∧
    [stretch, ended].map (fun st => seen (exec (.boundary true true) (loud st))
        fun t => (t.path.fcu.floors[15].speaking, t.path.fcu.floors[15].loudRun)) =
      [some (false, 0), some (false, 0)] := by decide +kernel

/-- R28, R30, R31, R91: the marks of one boundary at the frame that begins, and the bar mark of frame 0. -/
theorem witness_marksAtABoundary :
    let barred : Channel := { seated9 with
      settings := { Settings.reset with bar := true }, snapshots := [{ snapshot9 with frame := 10 }] }
    let s : State := { sittingAt onRecord with
      timer := { (sittingAt onRecord).timer with next := 389284, clockSet := some 1 }
      path := { withChannel 31 barred with bays := (withBay 33 { Bay.reset with units := 4 }).bays } }
    let armed : State := { s with
      timer := { s.timer with next := 393216, clockSet := none }
      sitting := { Sitting.reset with state := .armed, opening := some { number := 1, record := true } } }
    let marks (s : State) : Option (List Mark) :=
      seen (exec (.boundary true true) s) fun t => t.path.bays.bay[33].items.filterMap fun i =>
        match i with
        | .mark m => some m
        | .sample _ | .voidRun _ _ => none
    (s.timer.running = true ∧ s.timer.boundary ≠ BitVec.allOnes 64 ∧ s.sitting.isOpen = true ∧ s.sitting.close = none ∧
      s.sitting.openedAt.toNat ≤ s.timer.boundary.toNat ∧ s.frame = 10 ∧ s.timer.next ≠ s.timer.interval ∧
      s.timer.clockSet = some 1 ∧ s.path.channels[31].snapshot 10 = some { snapshot9 with frame := 10 } ∧
      s.path.channels[31].seated = true ∧ s.path.channels[31].settings.bar = true ∧ snapshot9.settings.bar = false) ∧
    (armed.timer.running = true ∧ armed.sitting.state = .armed ∧
      armed.sitting.opening = some { number := 1, record := true }) ∧
    marks s = some [⟨.trimSet 393216 389284, 11, 1⟩, ⟨.clockSet 4000 1, 11, 1⟩, ⟨.barSet 31, 11, 1⟩] ∧
    marks armed = some [⟨.sittingOpen 1, 0, 4000⟩, ⟨.onRecord, 0, 4000⟩, ⟨.barSet 31, 0, 4000⟩] := by decide +kernel

theorem witness_marks :
    ((sittingAt onRecord).timer.boundary ≠ BitVec.allOnes 64 ∧ (sittingAt onRecord).sitting.isOpen = true ∧
      (sittingAt onRecord).sitting.openedAt.toNat ≤ (sittingAt onRecord).timer.boundary.toNat ∧
      running.sitting.isOpen = false ∧
      ({ (sittingAt onRecord).timer with next := 389284, clockSet := some 1 } : Timer).next ≠
        (sittingAt onRecord).timer.interval) ∧
    (let p := withChannel 31 { seated9 with settings := { Settings.reset with bar := true } }
     p.channels[31].snapshot (10 - 1) = some snapshot9 ∧ snapshot9.settings.bar = false ∧
       p.channels[31].settings.bar = true ∧ p.channels[31].seated = true ∧
       (sittingAt onRecord).ctx.sitting.marks 10 = true) ∧
    (let p : Path := { withChannel 31 { seated9 with privacy := true } with
      fcu := { Fcu.reset with floors := Fcu.reset.floors.set 31 { Floor.reset with speaking := true, lastLoud := some 8 } } }
     p.channels[31].privacy = true ∧ p.fcu.floors[31].speaking = true ∧ p.fcu.floors[31].lastLoud = some 8 ∧
       Fcu.reset.floors[31].speaking = false ∧ Path.reset.channels[31].privacy = false) ∧
    (let sn := { snapshot9 with settings := { Settings.reset with bar := true } }
     (withChannel 31 { seated9 with snapshots := [sn] }).channels[31].snapshot 9 = some sn ∧ sn.settings.bar = true ∧
       (sittingAt onRecord).ctx.sitting.within 9 = true) := by decide +kernel

theorem witness_economy :
    let full : Bay := { units := 4, items := List.replicate 48 (.mark aMark), economy := false }
    let quarter : Bay := { units := 4, items := List.replicate 16 (.mark aMark), economy := true }
    (withBay 32 full).bays.bay[trackOf mixTrack] = full ∧ 3 * full.capacity ≤ 4 * full.fill ∧
      ((withBay 32 full).economyTest (sittingAt onRecord).ctx mixTrack 9).2 = true ∧
      ((withBay 32 quarter).economyTest (sittingAt onRecord).ctx mixTrack 9).2 = false ∧
      (sittingAt onRecord).ctx.sitting.marks 9 = true := by decide +kernel

theorem witness_admission :
    let bs (n : Nat) := (withBay 33 { units := 8, items := List.replicate n (.mark aMark), economy := false }).bays
    let held : Mark := { kind := .sittingClose .limit, frame := 9, time := 0 }
    (4 * ((bs 94).bay[markTrack].fill + (MarkKind.hostMark 7 13 []).size) ≤ 3 * (bs 94).bay[markTrack].capacity ∧
      3 * (bs 95).bay[markTrack].capacity < 4 * ((bs 95).bay[markTrack].fill + (MarkKind.hostMark 7 13 []).size) ∧
      4 * ((bs 126).bay[markTrack].fill + (MarkKind.barSet 31).size) ≤ 4 * (bs 126).bay[markTrack].capacity ∧
      4 * (bs 127).bay[markTrack].capacity < 4 * ((bs 127).bay[markTrack].fill + (MarkKind.barSet 31).size)) ∧
    ((sittingAt { onRecord with next := false }).sitting.next ≠ (sittingAt { onRecord with next := false }).sitting.cur ∧
      (bs 127).bay[markTrack].fill + 16 ≤ (bs 127).bay[markTrack].capacity ∧
      (bs 128).bay[markTrack].capacity < (bs 128).bay[markTrack].fill + 16) ∧
    ({ onRecord with finalMark := some held }.finalMark = some held ∧ held.kind = .sittingClose .limit ∧
      (bs 126).withheld = 0 ∧ (bs 126).bay[markTrack].fill + 20 ≤ (bs 126).bay[markTrack].capacity ∧
      (bs 127).bay[markTrack].capacity < (bs 127).bay[markTrack].fill + 20) := by decide +kernel

theorem witness_armRecordChecks :
    anArmRecord.failure = none ∧
      [{ anArmRecord with sheetSize := 4095 }, { anArmRecord with poolCount := 257 }, { anArmRecord with poolAddress := 8 },
        { anArmRecord with mixOn := false }, { anArmRecord with units := anArmRecord.units.set 0 3 },
        { anArmRecord with units := anArmRecord.units.set 33 7 }, { anArmRecord with units := anArmRecord.units.set 33 9 }].map
        (fun r => r.failure.map fun res => (res.w0, res.w1)) =
      [some (1, 0), some (2, 0), some (3, 0), some (4, 32), some (5, 0), some (6, 33), some (7, 0)] := by decide +kernel

theorem witness_arm :
    let s (step : ScanStep) : State := { running with scan := { Scanner.reset with step := step } }
    ((takingIn .armed (.arm 0)).sitting.state ≠ .idle ∧ (takingIn .armed (.arm 0)).scan.step = .taking 7 (.arm 0)) ∧
      (s (.armRead 7 0x1000)).scan.step = .armRead 7 0x1000 ∧
      (s (.armChecked 7 0 anArmRecord none)).scan.step = .armChecked 7 0 anArmRecord none ∧
      (s (.armChecked 7 0 anArmRecord none)).sitting.state = .idle ∧
      (s (.armChecked 7 0 anArmRecord (some (Result.plain .refusedRoom)))).sitting.state = .idle :=
  ⟨⟨by decide, rfl⟩, rfl, rfl, rfl, rfl⟩

theorem witness_disarm :
    let q : Queued := { index := 255, address := 0 }
    let s : State := { takingIn .armed .disarm with
      writer := { Writer.reset with arming := some anArming, queue := [q], owner := Writer.reset.owner.set 255 .standby } }
    (s.scan.step = .taking 7 .disarm ∧ s.sitting.state = .armed ∧ s.sitting.opening = none ∧
      s.writer.queue.filter (fun e => s.writer.owner[e.index] == .standby) = [q]) ∧
    ((takingIn .armed .disarm).scan.step = .taking 7 .disarm ∧ (takingIn .armed .disarm).sitting.state = .armed ∧
      (takingIn .armed .disarm).sitting.opening = none ∧
      (takingIn .armed .disarm).writer.queue.filter
        (fun e => (takingIn .armed .disarm).writer.owner[e.index] == .standby) = []) ∧
    (takingIn .idle .disarm).sitting.state ≠ .armed ∧
    (let s2 : State := { s with scan := { s.scan with step := .freeing 7 [q] 0 0 } }
     s2.writer.arming = some anArming ∧ s2.scan.step = .freeing 7 (q :: []) 0 0) := by decide +kernel

theorem witness_openAndClose :
    ((takingIn .armed (.openSitting 1 1)).scan.step = .taking 7 (.openSitting 1 1) ∧
      (takingIn .armed (.openSitting 1 1)).sitting.state = .armed ∧
      (takingIn .armed (.openSitting 1 1)).sitting.opening = none) ∧
    (takingIn .idle (.openSitting 1 1)).sitting.state ≠ .armed ∧
    ((takingIn .offRecord .closeSitting).scan.step = .taking 7 .closeSitting ∧
      (takingIn .offRecord .closeSitting).sitting.state = .offRecord) ∧
    (takingIn .closing .closeSitting).sitting.state = .closing := by decide

theorem witness_goOnAndOff :
    ((takingIn .onRecord .goOffRecord).scan.step = .taking 7 .goOffRecord ∧
      (takingIn .onRecord .goOffRecord).sitting.state = .onRecord) ∧
    ((takingIn .closing .goOnRecord).scan.step = .taking 7 .goOnRecord ∧
      (takingIn .closing .goOnRecord).sitting.state = .closing) := by decide

theorem witness_abandon :
    let drain : Sitting := { onRecord with
      state := .closing, close := some { target9 with draining := true }, finalMark := some aMark }
    let s : State := { taking .abandonStaged with sitting := drain }
    (s.sitting.draining = true ∧ s.sitting.abandon = none ∧ s.writer.turn = none ∧ s.sitting.finalMark ≠ none ∧
      s.scan.step = .taking 7 .abandonStaged) ∧
    (let s2 : State := { s with writer := { s.writer with turn := some { track := 33, write := .item } } }
     s2.sitting.draining = true ∧ s2.sitting.abandon = none ∧ s2.writer.turn ≠ none ∧ s2.sitting.finalMark ≠ none ∧
       s2.scan.step = .taking 7 .abandonStaged) ∧
    (let s4 : State := { s with
       sitting := { drain with finalMark := none }, path := withBay 33 { Bay.reset with units := 4, items := [.mark aMark] }
       writer := { s.writer with turn := some { track := 33, write := .item } } }
     s4.sitting.draining = true ∧ s4.sitting.abandon = none ∧ s4.writer.turn ≠ none ∧ s4.sitting.finalMark = none ∧
       s4.path.bays.bay[33].items ≠ []) ∧
    (taking .abandonStaged).sitting.draining = false ∧
    (let s3 : State := { s with sitting := { drain with finalMark := none } }
     (∀ t : Fin 34, s3.path.bays.bay[t].items = []) ∧ (∀ c : Fin 32, s3.path.channels[c].run = none) ∧
       s3.path.fcu.mixRun = none ∧ s3.sitting.finalMark = none) := by decide +kernel

theorem witness_abandonWaits :
    let s (w : Option Abandon) : State := { running with
      sitting := { onRecord with state := .closing, close := some { target9 with draining := true }, abandon := w }
      path := withBay 33 { Bay.reset with units := 4, items := [.mark aMark, .mark aMark] }
      writer := { Writer.reset with
        arming := some anArming, sheets := Writer.reset.sheets.set 33 (some aSheet)
        turn := some { track := 33, write := .item } } }
    (s (some { cells := [3], discarded := none })).sitting.abandon = some { cells := [3], discarded := none } ∧
    (s (some { cells := [3], discarded := none })).writer.turn ≠ none ∧
    seen (exec .itemWriteDone (s none)) (fun u => u.writer.turn) = some none ∧
    seen (exec .itemWriteDone (s (some { cells := [3], discarded := none }))) (fun v => v.sitting.abandon) =
      some (some { cells := [3], discarded := some { channels := 0, mix := 0, marks := 16 } }) := by decide +kernel

theorem witness_clockAndTrim :
    (taking (.trimFrame 389283)).scan.step = .taking 7 (.trimFrame 389283) ∧ (389283#32).toNat < 389284 ∧
      397148 < (397149#32).toNat ∧ (389284 ≤ (389284#32).toNat ∧ (397148#32).toNat ≤ 397148) ∧
      (taking (.setClock 1)).scan.step = .taking 7 (.setClock 1) := by decide

/-- R46, check 3: the divisor against each projected state. -/
theorem witness_projected :
    let asked (st : PortState) (c : Option Control) : Option (Option Result) :=
      seen (exec (.portControl 0 0 5) { taking (.portControl 0 0 5) with portA := { portIn st .idle with control := c } })
        fun t => (answered t.scan.step).map fun r => { r with w0 := 0 }
    let done : Option (Option Result) := some (some ⟨.done, 0, 0, 0⟩)
    let refused : Option (Option Result) := some (some ⟨.refusedState, 0, 0, 0⟩)
    asked .disabled none = done ∧ asked .disabled (some ⟨.keep, some 3⟩) = done ∧
      asked .running (some ⟨.off, none⟩) = done ∧ asked .disabled (some ⟨.on, none⟩) = refused ∧
      asked .tripped (some ⟨.on, none⟩) = refused ∧ asked .stuck (some ⟨.on, none⟩) = refused ∧
      asked .disabled (some ⟨.offThenOn, none⟩) = refused ∧ asked .starting none = refused ∧
      asked .stuck none = refused ∧ asked .tripped (some ⟨.keep, none⟩) = refused := by decide +kernel

theorem witness_portControl :
    let off : Port := { Port.reset with control := some { power := .off, divisor := none } }
    1 < (2#32).toNat ∧ 2 < (3#32).toNat ∧ (255 < (256#32).toNat ∧ 256#32 ≠ 0xFFFFFFFF#32) ∧
      ((255#32).toNat ≤ 255 ∧ (2#32).toNat ≤ 2) ∧ (portIn .testing .idle).state = .testing ∧
      ((portIn .running .idle).state = .running ∧ (portIn .running .idle).control = none) ∧
      (({ off with state := .running, cooldown := 1 } : Port).state ≠ .testing ∧
        ({ off with state := .running, cooldown := 1 } : Port).control = some { power := .off, divisor := none } ∧
        ({ off with state := .running, cooldown := 1 } : Port).cooldown ≠ 0) ∧
      (Port.reset.state = .disabled ∧ Port.reset.control = none ∧ Port.reset.cooldown = 0) := by decide

theorem witness_selfTestAndCounters :
    1 < (2#32).toNat ∧ (0#32).toNat = portNumber .a ∧ (1#32).toNat = portNumber .b ∧
      (portIn .testing .idle).state = .testing ∧ (portIn .tripped .idle).state ≠ .testing ∧
      (portIn .tripped .idle).state ≠ .disabled ∧ (Port.reset.state = .disabled ∧ Port.reset.control = none) ∧
      (taking (.portSelfTest 1)).scan.step = .taking 7 (.portSelfTest 1) ∧
      (taking (.readCounters 0 2)).scan.step = .taking 7 (.readCounters 0 2) := by decide

theorem witness_loopback :
    let t : SelfTest := { cell := 0, sent := 256, received := 256, pass := 255, mismatch := 0, leader := true }
    let s := withA { portIn .testing .idle with
      selfTest := some t, sending := List.replicate 257 (dataChar 255), txTicks := 257 * 88 - 1 }
    s.pending = [] ∧ s.timer.running = true ∧ (s.port .a).state = .testing ∧ (s.port .a).selfTest = some t ∧
      (s.port .a).sending[t.received]? = some (dataChar 255) ∧ (s.port .a).sending.isEmpty = false ∧ t.received < 257 ∧
      (t.received + 1) * (88 * ((s.port .a).divisor + 1)) ≤ (s.port .a).txTicks + 1 := by decide +kernel

/-- R49: TEST first, then character i against value i and mark bit i mod 2. -/
theorem test_selfTestTake :
    (SelfTest.mk 0 0 0 0 0 false).take (.control 0xF5) = ⟨0, 1, 1, 0, 0, true⟩ ∧
      (SelfTest.mk 0 0 0 0 0 false).take .framing = ⟨0, 1, 1, 0, 0, false⟩ ∧
      (SelfTest.mk 0 1 1 0 0 true).take (.data 0) = ⟨0, 2, 2, 1, 0, true⟩ ∧
      (SelfTest.mk 0 256 256 255 0 true).take (.data 255) = ⟨0, 257, 257, 255, 1, true⟩ ∧
      (SelfTest.mk 0 256 256 255 0 true).take (.control 255) = ⟨0, 257, 257, 256, 0, true⟩ ∧
      (SelfTest.mk 0 257 257 256 0 true).take .framing = ⟨0, 257, 257, 256, 0, true⟩ := by decide

theorem witness_releasePrivacyBar :
    15 < (16#32).toNat ∧ (15#32).toNat = (15 : Fin 16).val ∧ Path.reset.stations[15].state ≠ .lost ∧
      (withStation 15 { Station.reset with state := .lost }).stations[15].state = .lost ∧
      31 < (32#32).toNat ∧ (31#32).toNat = (31 : Fin 32).val ∧
      Path.reset.channels[31].settings = Settings.reset ∧
      (taking (.releaseStation 15)).scan.step = .taking 7 (.releaseStation 15) ∧
      (taking (.setBar 31 1)).scan.step = .taking 7 (.setBar 31 1) ∧
      (taking (.setPrivacy 31 1)).scan.step = .taking 7 (.setPrivacy 31 1) := by decide

theorem witness_setChannel :
    (taking (.setChannel 31 16384 32768 0 256 2)).scan.step = .taking 7 (.setChannel 31 16384 32768 0 256 2) ∧
      (31#32).toNat = (31 : Fin 32).val ∧ running.path.channels[31].settings = Settings.reset ∧
      31 < (32#32).toNat := by decide

theorem witness_flush :
    let s : State := { takingIn .onRecord .flush with
      path := withBay 33 { Bay.reset with units := 8, items := [.mark aMark] } }
    (s.scan.step = .taking 7 .flush ∧ s.sitting.counting = true ∧ s.writer.flush = none ∧
      s.path.bays.bay[33].items ≠ []) ∧
    ((takingIn .closing .flush).sitting.counting = true ∧
      ∀ t : Fin 34, (takingIn .closing .flush).path.bays.bay[t].items = [] ∧
        (takingIn .closing .flush).writer.sheets[t] = none) ∧
    (takingIn .armed .flush).sitting.state = .armed ∧
    (let f : Flush := ⟨[3], Vector.replicate 34 0, [], 0, 0, false, false⟩
     let s2 : State := { s with writer := { s.writer with flush := some f } }
     s2.sitting.counting = true ∧ s2.writer.flush = some f ∧ f.complete = false ∧ s2.scan.step = .taking 7 .flush) := by
  decide +kernel

theorem witness_hostMark :
    ((takingIn .onRecord (.hostMark 7 32 [])).sitting.isOpen = true ∧ (32#8).toNat ≤ 32 ∧
      (takingIn .onRecord (.hostMark 7 32 [])).scan.step = .taking 7 (.hostMark 7 32 [])) ∧
    32 < (33#8).toNat ∧ (takingIn .armed (.hostMark 7 32 [])).sitting.isOpen = false ∧
    (taking (.requestRefusedKind 8)).scan.step = .taking 7 (.requestRefusedKind 8) := by decide

theorem witness_reads :
    let s : State := { running with scan := { Scanner.reset with step := .cell } }
    let posted := [1, 0, 0, 0, 7, 0, 80, 0] ++ List.replicate 56 0
    let arm := [1, 0, 0, 0, 7, 0, 1, 0] ++ List.replicate 56 0
    s.scan.step = .cell ∧ cellState posted = 1 ∧ cellRequest posted = .flush ∧ cellRequest arm = .arm 0 ∧
      s.sitting.state = .idle ∧ cellState (List.replicate 64 0) ≠ 1 ∧
      (1 : Fin 16).val = s.scan.cursor.val + 1 ∧ s.scan.held = [] ∧ s.scan.poolDue = false ∧
      (let s2 : State := { s with
        scan := { s.scan with poolDue := true, step := .armRead 7 0 }, writer := { s.writer with arming := some anArming } }
       s2.scan.step = .armRead 7 0 ∧ s2.scan.poolDue = true ∧ s2.writer.arming = some anArming ∧
         1 ≤ anArming.poolCount ∧ s2.writer.queue.length < 64) := by decide

theorem witness_boardStep :
    let waits (c : Fin 16) : Held := { cell := c, kind := 80, tag := 7, result := none, due := false }
    let done (c : Fin 16) : Held := { cell := c, kind := 80, tag := 7, result := some (Result.plain .done), due := true }
    (running.timer.running = true ∧ running.scan.step = .idle ∧ running.scan.held = [] ∧
      ({ Scanner.reset with step := .cell } : Scanner).step ≠ .idle) ∧
    (let sc : Scanner := { Scanner.reset with held := [waits 14, done 15] }
     (∀ d : Fin 16, 14 ≤ d.val → d < 15 → sc.passedOver d) ∧ ¬sc.passedOver 15 ∧ sc.heldAt 15 = some (done 15) ∧
       (done 15).result = some (Result.plain .done) ∧ sc.heldAt 13 = none ∧ ¬sc.passedOver 13) ∧
    (let sc : Scanner := { Scanner.reset with held := [waits 14, waits 15] }
     ∀ d : Fin 16, 14 ≤ d.val → sc.passedOver d) := by
  intro waits done
  have h14 : ∀ l : List Held, ({ Scanner.reset with held := waits 14 :: l } : Scanner).passedOver 14 :=
    fun l => ⟨waits 14, rfl, .inl rfl⟩
  refine ⟨by decide, ⟨fun d h1 h2 => ?_, ?_, rfl, rfl, rfl, ?_⟩, fun d h => ?_⟩
  · have : d = 14 := by omega
    subst this; exact h14 _
  · rintro ⟨h, hh, hr⟩
    have : h = done 15 := by simpa [Scanner.heldAt, waits, done] using hh.symm
    subst this; simp [done] at hr
  · rintro ⟨h, hh, _⟩; simp [Scanner.heldAt, waits, done] at hh
  · have : d = 14 ∨ d = 15 := by omega
    rcases this with rfl | rfl
    · exact h14 _
    · exact ⟨waits 15, rfl, .inl rfl⟩

theorem witness_completionWrites :
    let a : Answer := { kind := 80, tag := 7, result := Result.plain .done }
    let s (step : ScanStep) : State := { running with scan := { Scanner.reset with step := step } }
    ((s (.resultWrite a (List.replicate 32 0))).scan.step = .resultWrite a (List.replicate 32 0) ∧
      (List.replicate 32 (0 : Byte)).length ≤ 32) ∧
    (s (.stateWrite a)).scan.step = .stateWrite a ∧
    (let f : Flush := ⟨[3], Vector.replicate 34 0, [], 0, 0, false, false⟩
     (∃ c ∈ f.cells, c ≠ (0 : Fin 16)) ∧ f.complete = false) ∧
    (let f : Flush := ⟨[0], Vector.replicate 34 0, [], 0, 0, false, true⟩
     (∀ c ∈ f.cells, c = (0 : Fin 16)) ∧ f.complete = true ∧
     seen (exec (.resultAreaWrite .failed) { s (.resultWrite a (List.replicate 32 0)) with
       writer := { Writer.reset with flush := some f } }) (fun t => (t.writer.flush, t.scan.step, t.scan.cursor)) =
         some (none, .cell, 1)) := by decide +kernel

theorem witness_scanWrites :
    let s (step : ScanStep) : State := { running with
      scan := { Scanner.reset with step := step }, writer := { Writer.reset with arming := some anArming } }
    (s .takenWrite).scan.step = .takenWrite ∧
      ((s (.head (List.replicate 64 0))).scan.step = .head (List.replicate 64 0) ∧
        (List.replicate 64 (0 : Byte)).length ≤ 64) ∧
      (∀ e : Fin 50, (s (.panel e [])).scan.step = .panel e []) ∧ (48 : Fin 50).val + 1 = (49 : Fin 50).val ∧
      ((s (.tamper 255 [2, 0, 0, 0] 255)).scan.step = .tamper 255 [2, 0, 0, 0] 255 ∧
        (s .takenWrite).writer.arming = some anArming ∧ 255 < anArming.poolCount ∧
        (s .takenWrite).writer.queue.length < 64 ∧ anArming.poolCount ≤ 256) := by
  refine ⟨rfl, ⟨rfl, by decide⟩, fun _ => rfl, rfl, rfl, rfl, by decide, by decide, by decide⟩

theorem witness_poolScan :
    let s (o : Owner) (w : Option Turn) : State := { running with
      scan := { Scanner.reset with step := .poolRead 255 }
      writer := { Writer.reset with
        arming := some anArming, poolCursor := 255, owner := Writer.reset.owner.set 255 o, turn := w
        sheets := Writer.reset.sheets.set 33 (some aSheet) } }
    (∀ o w, (s o w).scan.step = .poolRead 255 ∧ (s o w).writer.arming = some anArming ∧
      (s o w).writer.poolCursor = 255 ∧ (s o w).writer.owner[255] = o ∧ (s o w).writer.sheets[33] = some aSheet) ∧
    (∀ o, ¬(s o none).writesEntry 255 ∧ ¬(s o (some { track := 33, write := .item })).writesEntry 255 ∧
      (s o (some { track := 33, write := .closed .full })).writesEntry 255 ∧
      (s o (some { track := 32, write := .writing ⟨255, 0⟩ })).writesEntry 255) ∧
    (0 : Fin 256).val = (if (255 : Fin 256).val + 1 < anArming.poolCount then 256 else 0) ∧
    (PoolEntry.parse [0, 0, 0, 0, 0, 0, 0, 0, 1, 0, 0, 0, 0, 0, 0, 0]).status = 1 ∧
    (let s2 (n : Nat) : State := { running with
      scan := { Scanner.reset with step := .standby ⟨255, 0⟩ 255 }
      writer := { Writer.reset with arming := some anArming, queue := List.replicate n ⟨0, 0⟩ } }
     (∀ n, (s2 n).scan.step = .standby ⟨255, 0⟩ 255 ∧ (s2 n).writer.arming = some anArming) ∧
       (s2 62).writer.queue.length < 63 ∧ (s2 63).writer.queue.length = 63 ∧ 255 < anArming.poolCount ∧
       anArming.poolCount ≤ 256) := by
  refine ⟨fun o w => ⟨rfl, rfl, rfl, by simp, by simp⟩, fun o => ⟨?_, ?_, ?_, ?_⟩, by decide, by decide, fun _ => ⟨rfl, rfl⟩,
    by decide, by decide, by decide, by decide⟩
  · rintro (⟨_, _, h, _⟩ | ⟨_, _, _, _, ⟨_, h⟩ | h⟩) <;> cases h
  · rintro (⟨_, _, h, _⟩ | ⟨_, _, _, _, ⟨_, h⟩ | h⟩) <;> cases h
  · exact .inr ⟨33, aSheet, by simp, rfl, .inl ⟨.full, rfl⟩⟩
  · exact .inl ⟨32, ⟨255, 0⟩, rfl, rfl⟩

/-- A running part in a sitting with an arming, an open sheet of track 33 and one mark in its bay. -/
def writing : State :=
  { sittingAt onRecord with
    path := withBay 33 { Bay.reset with units := 8, items := [.mark aMark] }
    writer := { Writer.reset with
      arming := some anArming, sheets := Writer.reset.sheets.set 33 (some aSheet), queue := [⟨3, 0x30000⟩]
      owner := (Writer.reset.owner.set 255 (.writing 33)).set 3 .standby } }

/-- R14, R16, R135, R146: a turn falls due with a ready track and none in progress, and each completion with its
conditions. -/
theorem witness_writerDue :
    let pend (s : State) : Option (List Instr) := seen (step s) State.pending
    let closing (a : Option Abandon) : State := sittingAt
      { onRecord with state := .closing, close := some { target9 with draining := true }, abandon := a }
    let flush : Flush := { cells := [4], remaining := Vector.replicate 34 0, sheets := [], closed := 1, counted := 2,
                           abandoned := false, complete := false }
    let flushing (f : Flush) : State := { sittingAt onRecord with writer := { Writer.reset with flush := some f } }
    pend writing = some [.writerTurn] ∧
    pend { writing with writer := { writing.writer with turn := some { track := 33, write := .item } } } = some [] ∧
    pend (closing none) = some [.drainComplete] ∧
    pend { closing none with path := withChannel 31 { Channel.reset with run := some (pendingRun 2 true) } } = some [] ∧
    pend (closing (some { cells := [5], discarded := none })) = some [] ∧
    pend (closing (some { cells := [5], discarded := some { channels := 0, mix := 0, marks := 0 } })) =
      some [.abandonComplete] ∧
    pend (flushing flush) = some [.flushComplete] ∧ pend (flushing { flush with complete := true }) = some [] ∧
    pend (flushing { flush with sheets := [{ index := 255, serial := 65535 }] }) = some [] := by decide +kernel

theorem witness_writerTurn :
    (writing.writer.turn = none ∧ writing.ready 33 = true ∧ (33 : Fin 34).val = (writing.writer.lastServed.val + 34) % 34 ∧
      writing.supply.warning = false ∧ writing.writer.sheets[33] = some aSheet ∧ writing.closeDue 33 = none ∧
      writing.path.bays.bay[33].items = .mark aMark :: [] ∧
      (∀ (u : Fin 34) (e : Fin 34), 1 ≤ e.val → u.val = (writing.writer.lastServed.val + e.val) % 34 →
        writing.ready u = false) ∧
      aSheet.used + aMark.kind.size ≤ anArming.sheetSize - 64) ∧
    (let s : State := { writing with writer := { writing.writer with sheets := Vector.replicate 34 none } }
     s.ready 33 = true ∧ s.writer.sheets[33] = none ∧ s.writer.queue = ⟨3, 0x30000⟩ :: []) ∧
    (let s : State := { writing with
      path := Path.reset
      writer := { writing.writer with sheets := Writer.reset.sheets.set 33 (some { aSheet with powerDue := true }) } }
     s.ready 33 = true ∧ s.closeDue 33 = some .power) ∧
    ∀ t : Fin 34, running.ready t = false := by decide +kernel

theorem witness_closesAndStarving :
    (let due (o : OpenSheet) : State := { writing with
      writer := { writing.writer with sheets := Writer.reset.sheets.set 33 (some o) } }
     (due { aSheet with fullDue := true }).writer.sheets[33] = some { aSheet with fullDue := true } ∧
       (due { aSheet with pend := some ⟨.flush, 0⟩ }).closeDue 33 = some .flush ∧
       (due { aSheet with pend := some ⟨.age, 1⟩, powerDue := true }).closeDue 33 = some .power ∧
       writing.closeDue 33 = none ∧ writing.path.bays.bay[33].items ≠ []) ∧
    (let s : State := { writing with path := Path.reset }
     s.path.bays.bay[33].items = [] ∧ s.closeDue 33 = none ∧ s.sitting.draining = false ∧
       ({ s with sitting := { onRecord with state := .closing, close := some { target9 with draining := true } } } :
         State).sitting.draining = true) ∧
    (let s : State := { writing with writer := { writing.writer with sheets := Vector.replicate 34 none, queue := [] } }
     s.path.bays.bay[33].items ≠ [] ∧ s.writer.sheets[33] = none ∧ s.writer.queue = [] ∧ s.writer.starving[33] = false) ∧
    (let s : State := { writing with
      timer := { writing.timer with boundary := 250 }
      path := { withChannel 31 { seated9 with run := some aRun } with
        bays := (withBay 31 { units := 4, items := List.replicate 63 (.mark aMark), economy := false }).bays }
      writer := { writing.writer with sheets := Writer.reset.sheets.set 31 (some aSheet) } }
     s.writer.arming = some anArming ∧ s.writer.sheets[31] = some aSheet ∧ aSheet.pend = none ∧
       250 * anArming.ageLimit ≤ s.frame - aSheet.opened ∧ s.path.runOf 31 = some aRun ∧ aRun.held = false ∧
       s.path.bays.bay[31].fill + 16 ≤ s.path.bays.bay[31].capacity ∧
       ({ s with timer := { s.timer with boundary := 249 } } : State).frame - aSheet.opened < 250 * anArming.ageLimit) := by
  decide +kernel

/-- R145: the set is right at a state with one starving track, and the WRITING write of its last queued entry, failed, makes
mark track 33 starve and raises STARVING. -/
theorem witness_starvingKept :
    let s (turn : Option Turn) (q : List Queued) (starving : Bool) : State := { writing with
      pending := [.writingWrite .failed]
      writer := { writing.writer with
        sheets := Vector.replicate 34 none, queue := q, turn := turn
        starving := (Vector.replicate 34 false).set 33 starving } }
    let opening : State := s (some { track := 33, write := .writing ⟨3, 0x30000⟩ }) [] false
    (s none [] true).starvingRight ∧ (s none [⟨3, 0x30000⟩] false).starvingRight ∧
      seen (step opening) (fun v => (v.writer.starving[33], v.path.attn.pending.getLsbD Cause.starving.position)) =
        some (true, true) := by
  unfold State.starvingRight
  decide +kernel

/-- R142: the boundary that begins frame 250 begins the age close of a sheet opened in frame 0. -/
theorem witness_ageAtABoundary :
    let s (b : Word64) : State := { writing with
      timer := { writing.timer with boundary := b, running := true }, sitting := onRecord
      path := withBay 33 { units := 4, items := [.mark aMark], economy := false }
      writer := { writing.writer with sheets := Writer.reset.sheets.set 33 (some aSheet), turn := none } }
    (∀ b, (s b).timer.running = true ∧ (s b).writer.arming = some anArming ∧ (s b).writer.sheets[33] = some aSheet ∧
      (s b).sitting.close = none ∧ aSheet.pend = none) ∧
    seen (exec (.boundary true true) (s 249)) (fun v => (v.frame, v.writer.sheets[33])) =
      some (250, some { aSheet with pend := some { reason := .age, drain := 1 } }) ∧
    seen (exec (.boundary true true) (s 248)) (fun v => (v.frame, v.writer.sheets[33])) = some (249, some aSheet) := by
  refine ⟨fun _ => ⟨rfl, rfl, rfl, rfl, rfl⟩, ?_⟩
  decide +kernel

theorem witness_writingWrite :
    let s : State := { writing with writer := { writing.writer with
      sheets := Vector.replicate 34 none, turn := some { track := 33, write := .writing ⟨3, 0x30000⟩ } } }
    s.writer.turn = some { track := 33, write := .writing ⟨3, 0x30000⟩ } ∧ s.writer.arming = some anArming ∧
      s.path.bays.bay[33].items = .mark aMark :: [] ∧ (Item.mark aMark).size ≤ anArming.sheetSize - 64 ∧
      s.sitting.abandon = none := by decide +kernel

theorem witness_itemWriteDone :
    let s : State := { writing with writer := { writing.writer with turn := some { track := 33, write := .item } } }
    s.writer.turn = some { track := 33, write := .item } ∧ s.writer.sheets[33] = some aSheet ∧
      s.path.bays.bay[33].items = .mark aMark :: [] ∧ s.sitting.abandon = none ∧
      (Item.mark aMark).bytes.length ≤ 4096 ∧ s.path.runOfTrack 33 = none ∧ s.path.bays.withheld = 0 ∧
      s.sitting.finalMark = none := by decide +kernel

theorem witness_itemRelease :
    (({ sittingAt onRecord with supply := { warning := true, dipStart := none } } : State).sitting.draining = false ∧
      aSheet.pend = none ∧ aSheet.fullDue = false ∧
      ({ onRecord with state := .closing, close := some { target9 with draining := true } } : Sitting).draining = true) ∧
    (let p := withChannel 31 { seated9 with run := some { aRun with held := true } }
     (31 : Fin 34) = trackOf 31 ∧ p.runOf 31 = some { aRun with held := true } ∧
       itemsBytes (List.replicate 63 (.mark aMark)) + 16 ≤ 256 * 4 ∧
       256 * 4 < itemsBytes (List.replicate 64 (.mark aMark)) + 16) ∧
    (128 * 8 < itemsBytes (List.replicate 65 (.mark aMark)) ∧ itemsBytes (List.replicate 64 (.mark aMark)) ≤ 128 * 8 ∧
      itemsBytes (List.replicate 126 (.mark aMark)) + 20 ≤ 256 * 8 ∧
      256 * 8 < itemsBytes (List.replicate 127 (.mark aMark)) + 20) := by decide +kernel

theorem witness_closedAndFaulted :
    let s (w : TurnWrite) : State := { writing with writer := { writing.writer with turn := some { track := 33, write := w } } }
    (∀ w, (s w).writer.turn = some { track := 33, write := w }) ∧ writing.writer.sheets[33] = some aSheet ∧
      writing.writer.arming = some anArming ∧ writing.sitting.abandon = none ∧ writing.writer.closedTotal < 4294967295 ∧
      (List.replicate 64 (0 : Byte)).length ≤ 64 ∧ SheetReason.full ≠ .fault := by
  refine ⟨fun _ => rfl, ?_⟩
  decide +kernel

/-- R146: a sheet ended as FAULTED, or closed for another reason, leaves the set of a flush in flight and is not counted; an
item written is counted. -/
theorem witness_flushInFlight :
    let id : SheetId := { index := 255, serial := 65535 }
    let flush (sheets : List SheetId) (left : Nat) : Flush :=
      { cells := [4], remaining := (Vector.replicate 34 0).set 33 left, sheets := sheets, closed := 1, counted := 2,
        abandoned := false, complete := false }
    let s (w : TurnWrite) : State := { writing with
      writer := { writing.writer with turn := some { track := 33, write := w }, flush := some (flush [id, ⟨7, 0⟩] 2) } }
    let view (t : State) : Option Flush × Nat × List Queued := (t.writer.flush, t.writer.closedTotal, t.writer.queue)
    (∀ w, (s w).writer.flush = some (flush [id, ⟨7, 0⟩] 2)) ∧ writing.writer.flush = none ∧
    seen (exec (.faultedWrite .done) (s .faulted)) view = some (some (flush [⟨7, 0⟩] 2), 0, [⟨3, 0x30000⟩]) ∧
    seen (exec (.closedWrite .done) (s (.closed .age))) view = some (some (flush [⟨7, 0⟩] 2), 1, [⟨3, 0x30000⟩]) ∧
    seen (exec (.closedWrite .done) (s (.closed .flush))) view =
      some (some { flush [⟨7, 0⟩] 2 with closed := 2 }, 1, [⟨3, 0x30000⟩]) ∧
    seen (exec .itemWriteDone (s .item)) view = some (some (flush [id, ⟨7, 0⟩] 1), 0, [⟨3, 0x30000⟩]) := by
  refine ⟨fun _ => rfl, ?_⟩
  decide +kernel

theorem witness_completions :
    let drain : Sitting := { onRecord with state := .closing, close := some { target9 with draining := true } }
    (let s := sittingAt drain
     s.sitting.state = .closing ∧ s.sitting.close = some { target9 with draining := true } ∧ s.writer.turn = none ∧
       (∀ t : Fin 34, s.writer.sheets[t] = none) ∧ s.sitting.abandon = none ∧ s.sitting.finalMark = none ∧
       (∀ t : Fin 34, s.path.bays.bay[t].items = []) ∧ (∀ c : Fin 32, s.path.channels[c].run = none) ∧
       s.path.fcu.mixRun = none) ∧
    (let s := sittingAt { drain with abandon := some { cells := [4], discarded := some ⟨1, 2, 3⟩ } }
     s.sitting.abandon = some { cells := [4], discarded := some ⟨1, 2, 3⟩ } ∧
       (∀ t : Fin 34, s.path.bays.bay[t].items = [])) ∧
    (let held (c : Fin 16) (r : Option Result) : Held := { cell := c, kind := 7, tag := 9, result := r, due := false }
     let f : Flush := ⟨[3], Vector.replicate 34 0, [], 5, 6, true, false⟩
     let s : State := { sittingAt { drain with abandon := some { cells := [4], discarded := some ⟨1, 2, 3⟩ } } with
       writer := { Writer.reset with flush := some f }
       scan := { Scanner.reset with held := [held 2 none, held 3 none, held 4 none, held 5 none] } }
     s.writer.flush = some f ∧ f.abandoned = true ∧ f.complete = false ∧
       seen (exec .abandonComplete s) (fun t => (t.sitting.state, t.writer.flush, t.scan.held)) =
         some (.armed, some { f with complete := true }, [held 2 (some ⟨.done, 9, 6, 65536⟩),
           held 3 (some ⟨.done, 5, 6, 1⟩), held 4 (some ⟨.done, 1, 2, 3⟩), held 5 none])) ∧
    (let f : Flush := ⟨[3], Vector.replicate 34 0, [], 0, 0, false, false⟩
     f.sheets = [] ∧ (∀ t : Fin 34, f.remaining[t] = 0) ∧ f.complete = false ∧ f.abandoned = false) := by decide +kernel

theorem witness_invariants :
    State.reset.baysFit ∧ State.reset.switchesRight ∧ State.reset.queueFits ∧ State.reset.starvingRight ∧
      State.reset.countsInRange ∧ State.reset.stationsInRange ∧ State.reset.tracksInRange ∧
      step State.reset = .next State.reset := by
  refine ⟨?_, ⟨rfl, rfl⟩, Nat.zero_le _, by unfold State.starvingRight; decide +kernel,
    ⟨Nat.zero_le _, Nat.zero_le _⟩, fun k => ?_, ?_, rfl⟩
  · unfold State.baysFit; decide +kernel
  · have h : State.reset.path.stations[k] = Station.reset := by
      show (Vector.replicate 16 Station.reset)[k] = _
      simp
    rw [h]
    exact ⟨⟨rfl, rfl, rfl, rfl⟩, by decide⟩
  · unfold State.tracksInRange Path.tracksInRange; decide +kernel

end Sys2Proof.Tests
end

