-- ==== Sys2Proof/Proofs/Standing.lean ====
section
/-! PROOF. What every command keeps: the queue of waiting commands, the image of the part's acknowledged writes and the
state of the sitting, for each shared operation once and then for each command (R4 to R16, R19, R150; assumptions 1 and
9). -/
namespace Sys2Proof.Machine

/-- From `s` to `t` the waiting commands stayed; so did the image of acknowledged writes unless `mem`, and the state of the
sitting unless `moved`. -/
structure Standing (mem moved : Bool) (s t : State) : Prop where
  pending : t.pending = s.pending
  hostMem : mem = false → t.hostMem = s.hostMem
  state : moved = false → t.sitting.state = s.sitting.state

namespace Standing

variable {m w : Bool} {s t u : State}

theorem refl (s : State) : Standing m w s s := ⟨rfl, fun _ => rfl, fun _ => rfl⟩

theorem trans (h1 : Standing m w s t) (h2 : Standing m w t u) : Standing m w s u :=
  ⟨h2.pending.trans h1.pending, fun e => (h2.hostMem e).trans (h1.hostMem e), fun e => (h2.state e).trans (h1.state e)⟩

/-- Two states that agree on the three. -/
theorem of_eq (h1 : t.pending = s.pending) (h2 : t.hostMem = s.hostMem) (h3 : t.sitting.state = s.sitting.state) :
    Standing m w s t := ⟨h1, fun _ => h2, fun _ => h3⟩

/-- What is kept after a change that leaves the three. -/
theorem after (h : Standing m w t u) (h1 : t.pending = s.pending) (h2 : m = false → t.hostMem = s.hostMem)
    (h3 : w = false → t.sitting.state = s.sitting.state) : Standing m w s u :=
  ⟨h.pending.trans h1, fun e => (h.hostMem e).trans (h2 e), fun e => (h.state e).trans (h3 e)⟩

/-- A fold of operations that each keep the three keeps them. -/
theorem foldl {α : Type} (g : State → α → State) (h : ∀ (s : State) (a : α), Standing m w s (g s a)) (l : List α) (s : State) :
    Standing m w s (l.foldl g s) := by
  induction l generalizing s with
  | nil => exact refl s
  | cons a l ih => exact (h s a).trans (ih _)

end Standing

/-! ### The shared operations -/

section Shared
variable {m w : Bool}

theorem State.raise_standing (s : State) (c : Cause) : Standing m w s (s.raise c) := .of_eq rfl rfl rfl

theorem State.refresh_standing (s : State) : Standing m w s s.refresh := by
  rw [State.refresh_eq]; exact .of_eq rfl rfl rfl

theorem State.setPort_standing (s : State) (p : PortId) (q : Port) : Standing m w s (s.setPort p q) :=
  .of_eq (by simp) (by simp) (by simp)

theorem State.withLink_standing (s : State) (p : PortId) (l : Link) : Standing m w s (s.withLink p l) :=
  .of_eq (by simp) (by simp) (by simp)

theorem State.onLink_standing (s : State) (p : PortId) (g : Link → Link) : Standing m w s (s.onLink p g) :=
  (s.withLink_standing p _).trans (State.refresh_standing _)

theorem State.setEmptyCloses_standing (s : State) : Standing m w s s.setEmptyCloses :=
  .of_eq (by simp) (by simp) (by simp)

theorem State.offerFinal_standing (s : State) : Standing m w s s.offerFinal := by
  rw [State.offerFinal_only]; exact .of_eq rfl rfl rfl

theorem State.released_standing (s : State) (t : Fin 34) : Standing m w s (s.released t) := by
  obtain ⟨_, _, _, e⟩ := s.released_only t
  rw [e]; exact .of_eq rfl rfl rfl

theorem State.setTurn_standing (s : State) (t : Option Turn) : Standing m w s (s.setTurn t) := .of_eq rfl rfl rfl

theorem State.startHeader_standing (s : State) (t : Fin 34) (o : OpenSheet) (r : SheetReason) :
    Standing m w s (s.startHeader t o r) := .of_eq rfl rfl rfl

theorem State.startItem_standing (s : State) (t : Fin 34) : Standing m w s (s.startItem t) := by
  unfold State.startItem
  repeat' split
  all_goals exact .of_eq rfl rfl rfl

theorem State.serve_standing (s : State) (t : Fin 34) : Standing m w s (s.serve t) := by
  unfold State.serve; dsimp only
  repeat' split
  · exact .of_eq rfl rfl rfl
  · exact (State.startItem_standing _ t).after rfl (fun _ => rfl) fun _ => rfl
  all_goals exact .of_eq rfl rfl rfl

theorem State.discardIfWaiting_standing (s : State) : Standing m w s s.discardIfWaiting := by
  unfold State.discardIfWaiting
  repeat' split
  all_goals exact .of_eq rfl rfl rfl

theorem State.turnEnded_standing (s : State) : Standing m w s s.turnEnded :=
  ((s.setTurn_standing none).trans (State.discardIfWaiting_standing _)).trans (State.refresh_standing _)

theorem State.nextCell_standing (s : State) : Standing m w s s.nextCell := .of_eq rfl rfl rfl

theorem State.beginScan_standing (s : State) : Standing m w s s.beginScan := .of_eq rfl rfl rfl

theorem State.countClosed_standing (s : State) : Standing m w s s.countClosed := by
  rw [State.countClosed_only]; exact .of_eq rfl rfl rfl

/-- The end of a bus write: only an acknowledged one reaches the image (assumption 9). -/
theorem State.writeEnds_standing (s : State) (how : WriteEnd) (a : Word64) (b : List Byte) :
    Standing (decide (how = .done)) w s (s.writeEnds how a b) := by
  cases how
  · exact ⟨rfl, nofun, fun _ => rfl⟩
  · exact .of_eq rfl rfl rfl

/-- A request keeps what its owning block keeps (R154). -/
theorem State.take_standing (s : State) (c : Instr) (owner : State → State × Taken) (h : Standing m w s (owner s).1) :
    Standing m w s (s.take c owner) := by
  unfold State.take
  split
  · split
    · dsimp only
      split
      · exact h.trans (.of_eq rfl rfl rfl)
      · exact h.trans (.of_eq rfl rfl rfl)
    · exact .refl s
  · exact .refl s

end Shared

/-! ### A boundary and a reset (R19, R22) -/

section Boundary
variable {m w : Bool}

theorem State.portWork_standing (s : State) (p : PortId) : Standing m w s (s.portWork p) :=
  .of_eq (by unfold State.portWork; simp) (by unfold State.portWork; simp) (by unfold State.portWork; simp)

theorem State.ageClose_standing (s : State) (t : Fin 34) : Standing m w s (s.ageClose t) := by
  rw [State.ageClose_eq]
  split <;> exact .of_eq rfl rfl rfl

theorem State.beginInterval_standing (s : State) : Standing m w s s.beginInterval :=
  ((((s.portWork_standing .a).trans (State.portWork_standing _ .b)).trans
    (Standing.foldl State.ageClose State.ageClose_standing _ _)).trans (State.refresh_standing _)).trans
    (State.beginScan_standing _)

theorem State.roundsOver_standing (s : State) (e : Timer) (a b : Bool) : Standing m w s (s.roundsOver e a b) := by
  have step (u : State) (p : PortId) : Standing m w u (u.roundOver e p) := u.withLink_standing p _
  cases a <;> cases b
  · exact .refl s
  · exact step s .b
  · exact step s .a
  · exact (step s .a).trans (step _ .b)

theorem State.closeFrame_standing (s : State) : Standing m w s s.closeFrame := by
  have drain (st : Sitting) (tod : Word64) : (st.startDrain tod).state = st.state := by
    unfold Sitting.startDrain; split <;> rfl
  unfold State.closeFrame; dsimp only
  split
  · exact .refl s
  · split
    · exact ((State.offerFinal_standing _).trans (State.setEmptyCloses_standing _)).after rfl (fun _ => rfl) fun _ => drain _ _
    · exact .of_eq rfl rfl rfl

/-- The sitting's own move at a boundary changes the state of the sitting, and neither the queue nor the image (R4, R9, R11,
R15). -/
theorem State.moveSitting_standing (s : State) : Standing m true s s.moveSitting := by
  have shift : Standing m true s s.shiftFlag := by
    unfold State.shiftFlag; dsimp only
    repeat' split
    all_goals exact ⟨rfl, fun _ => rfl, nofun⟩
  have limit (u : State) : Standing m true u u.limitClose := by
    unfold State.limitClose
    split <;> exact ⟨rfl, fun _ => rfl, nofun⟩
  unfold State.moveSitting
  split
  · exact shift.trans (limit _)
  · exact shift.trans (limit _)
  · exact ⟨rfl, fun _ => rfl, nofun⟩
  · split
    · exact ⟨by simp, fun _ => by simp, nofun⟩
    · exact .refl s
  · exact .refl s

theorem State.openInterval_standing (s : State) : Standing m w s s.openInterval := by
  have snapshots : Standing m w s s.takeSnapshots := by
    unfold State.takeSnapshots; split <;> exact .of_eq rfl rfl rfl
  exact snapshots.trans ((State.beginInterval_standing _).after (by simp) (fun _ => by simp) fun _ => by simp)

theorem State.boundary_standing (s : State) (a b : Bool) : Standing m true s (s.boundary a b) := by
  have ended : Standing m true s (s.endInterval a b) :=
    (((State.roundsOver_standing s.advanceTimer s.timer a b).trans (State.closeFrame_standing _)).trans
      (State.roundsOver_standing _ _ _ _)).after (by simp) (fun _ => by simp) nofun
  rw [State.boundary_parts]
  exact (ended.trans (State.moveSitting_standing _)).trans (State.openInterval_standing _)

theorem State.onset_standing (s : State) : Standing m w s s.onset := by
  unfold State.onset; dsimp only
  exact ((State.setEmptyCloses_standing _).trans ((State.withLink_standing _ .a _).trans
    ((State.withLink_standing _ .b _).trans (State.refresh_standing _)))).after rfl (fun _ => rfl) fun _ => rfl

/-- A reset writes nothing into host memory and leaves the commands that wait (R19, R150). -/
theorem State.afterReset_standing (s : State) (lo hi : Word32) (low : Bool) : Standing m true s (s.afterReset lo hi low) := by
  unfold State.afterReset; dsimp only
  split
  · exact (State.onset_standing _).after rfl (fun _ => rfl) nofun
  · exact ⟨rfl, fun _ => rfl, nofun⟩

theorem State.startWritten_standing (s : State) : Standing m w s s.startWritten := by
  unfold State.startWritten State.start
  split
  · exact .refl s
  · split
    · exact (State.beginInterval_standing _).after rfl (fun _ => rfl) fun _ => rfl
    · exact s.raise_standing _

/-- A register write reaches the sitting through a RESET in CONTROL alone (R148, R150). -/
theorem State.registerWritten_standing (s : State) (offset value : Word32) :
    Standing m (decide (offset = 4)) s (s.registerWritten offset value) := by
  unfold State.registerWritten
  split
  · rename_i h
    have : offset = 4 := BitVec.eq_of_toNat_eq h
    subst this
    unfold State.controlWritten State.softReset
    split
    · exact s.afterReset_standing _ _ _
    · split
      · exact s.startWritten_standing
      · exact .refl s
  · split <;> exact .of_eq rfl rfl rfl
  · split <;> exact .of_eq rfl rfl rfl
  all_goals exact .of_eq rfl rfl rfl

end Boundary
end Sys2Proof.Machine
end

