-- ==== Sys2Proof/Proofs/StandingRequests.lean ====
section
/-! PROOF. What every command keeps, command by command (R4 to R16, R19, R150; assumptions 1 and 9). -/
namespace Sys2Proof.Machine

/-- Whether a command is the acknowledged end of a write of the part (assumption 9). -/
def stores : Instr → Bool
  | .takenWrite how | .resultAreaWrite how | .stateWordWrite how | .disarmFreeWrite how | .standbyWrite how
  | .tamperRewrite how | .headWrite how | .panelWrite how | .writingWrite how | .headerWrite how | .closedWrite how
  | .faultedWrite how => decide (how = .done)
  | .itemWriteDone => true
  | _ => false

/-- Whether a command can change the state of the sitting (R4 to R16, R19). -/
def movesSitting : Instr → Bool
  | .boundary _ _ | .arm _ | .disarm | .disarmFreeWrite _ | .closeSitting | .drainComplete | .abandonComplete
  | .softReset | .functionReset | .brownOut | .powerOnReset _ => true
  | .registerWrite offset _ => decide (offset = 4)
  | _ => false

/-! ### The requests (R5 to R16, R27 to R29, R46 to R51, R78, R87 to R91, R128, R146) -/

section Requests
variable {m w : Bool}

/-- A DISARM's next step ends in a FREE write or in the removal of the arming (R7). -/
theorem State.freeNext_standing (s : State) (tag : Word16) (l : List Queued) (n k : Nat) :
    Standing m true s (s.freeNext tag l n k) := by
  cases l <;> exact ⟨rfl, fun _ => rfl, nofun⟩

theorem State.recordOpening_standing (s : State) (n r : Word32) : Standing m w s (s.recordOpening n r).1 := by
  unfold State.recordOpening; split <;> exact .of_eq rfl rfl rfl

theorem State.askFlag_standing (s : State) (on : Bool) : Standing m w s (s.askFlag on).1 := by
  unfold State.askFlag; split <;> exact .of_eq rfl rfl rfl

theorem State.beginClose_standing (s : State) : Standing m true s s.beginClose.1 := by
  unfold State.beginClose; split <;> exact ⟨rfl, fun _ => rfl, nofun⟩

theorem State.beginAbandon_standing (s : State) : Standing m w s s.beginAbandon.1 := by
  unfold State.beginAbandon; dsimp only
  split
  · exact ((State.discardIfWaiting_standing _).trans (State.refresh_standing _)).after rfl (fun _ => rfl) fun _ => rfl
  · exact .refl s

theorem State.control_standing (s : State) (p pw d : Word32) : Standing m w s (s.control p pw d).1 := by
  unfold State.control; dsimp only
  repeat' split
  any_goals exact .refl s
  exact s.setPort_standing _ _

theorem State.selfTest_standing (s : State) (p : Word32) : Standing m w s (s.selfTest p).1 := by
  unfold State.selfTest; dsimp only
  repeat' split
  any_goals exact .refl s
  exact s.setPort_standing _ _

theorem State.counters_standing (s : State) (p clear : Word32) : Standing m w s (s.counters p clear).1 := by
  unfold State.counters; dsimp only
  split
  · exact .refl s
  · dsimp only
    split
    · exact .refl s
    · exact s.setPort_standing _ _

theorem State.releaseAt_standing (s : State) (k : Word32) : Standing m w s (s.releaseAt k).1 := by
  unfold State.releaseAt; dsimp only
  repeat' split
  all_goals exact .of_eq rfl rfl rfl

theorem State.writeSettings_standing (s : State) (c g th a h i : Word32) :
    Standing m w s (s.writeSettings c g th a h i).1 := by
  unfold State.writeSettings; split <;> exact .of_eq rfl rfl rfl

theorem State.writePrivacy_standing (s : State) (c f : Word32) : Standing m w s (s.writePrivacy c f).1 := by
  unfold State.writePrivacy; split <;> exact .of_eq rfl rfl rfl

theorem State.writeBar_standing (s : State) (c f : Word32) : Standing m w s (s.writeBar c f).1 := by
  unfold State.writeBar; split <;> exact .of_eq rfl rfl rfl

theorem State.takeFlush_standing (s : State) : Standing m w s s.takeFlush.1 := by
  unfold State.takeFlush
  by_cases h : s.sitting.counting = true
  · rw [if_pos h]
    cases s.writer.flush with
    | some f => exact .of_eq rfl rfl rfl
    | none =>
      dsimp only
      by_cases h' : s.path.bays.allEmpty = true ∧ s.writer.noSheet = true
      · rw [if_pos h']; exact .refl s
      · rw [if_neg h']; exact .of_eq (by simp) (by simp) (by simp)
  · rw [if_neg h]; exact .refl s

theorem State.hostMark_standing (s : State) (code : Word16) (n : Byte) (text : List Byte) :
    Standing m w s (s.hostMark code n text).1 := by
  unfold State.hostMark
  by_cases h : s.sitting.isOpen = true
  · rw [if_pos h]
    by_cases h' : 32 < n.toNat
    · rw [if_pos h']; exact .refl s
    · rw [if_neg h']; exact (State.refresh_standing _).after rfl (fun _ => rfl) fun _ => rfl
  · rw [if_neg h]; exact .refl s

end Requests
end Sys2Proof.Machine
end

