-- ==== Sys2Proof/Proofs/StandingCommands.lean ====
section
/-! PROOF. What every command keeps, command by command (R4 to R16, R19, R150; assumptions 1 and 9). -/
namespace Sys2Proof.Machine

/-- A command completes with a state that keeps what it keeps (assumption 1). -/
def Ends (mem moved : Bool) (s : State) (o : Host.Outcome State Fault Refusal) : Prop :=
  ∃ t, o = .next t ∧ Standing mem moved s t

theorem Standing.ends {m w : Bool} {s t : State} (h : Standing m w s t) : Ends m w s (.next t) := ⟨t, rfl, h⟩

/-- A command with a condition, without effect where the condition fails. -/
theorem Standing.ends_ite {m w : Bool} {s t : State} (c : Prop) [Decidable c] (h : Standing m w s t) :
    Ends m w s (.next (if c then t else s)) := by
  split
  · exact h.ends
  · exact (Standing.refl s).ends

/-! ### The ends of the scanner's bus accesses (R5, R132 to R134, R152 to R159) -/

section Scan
variable {m w : Bool} (s : State) (how : WriteEnd)

theorem State.recovered_standing : Standing m w s s.recovered := by
  unfold State.recovered; exact .of_eq rfl rfl rfl

theorem State.boardStops_standing : Standing m w s s.boardStops := by
  unfold State.boardStops; exact .of_eq rfl rfl rfl

theorem execCellRead_ends (bytes : List Byte) : Ends m w s (execCellRead bytes s) := by
  refine Standing.ends ?_
  split
  · split
    · exact .of_eq rfl rfl rfl
    · exact s.nextCell_standing
  · exact .refl s

theorem execTakenWrite_ends : Ends (decide (how = .done)) w s (execTakenWrite how s) := by
  refine Standing.ends ?_
  split
  · exact (s.writeEnds_standing how _ _).trans (State.nextCell_standing _)
  · exact .refl s

theorem execResultAreaWrite_ends : Ends (decide (how = .done)) w s (execResultAreaWrite how s) := by
  refine Standing.ends ?_
  split
  · cases how
    · exact ⟨rfl, nofun, fun _ => rfl⟩
    · exact .of_eq rfl rfl rfl
  · exact .refl s

theorem execStateWordWrite_ends : Ends (decide (how = .done)) w s (execStateWordWrite how s) := by
  refine Standing.ends ?_
  split
  · cases how
    · exact ⟨rfl, nofun, fun _ => rfl⟩
    · exact .of_eq rfl rfl rfl
  · exact .refl s

theorem execPoolEntryRead_ends (bytes : List Byte) : Ends m w s (execPoolEntryRead bytes s) := by
  refine Standing.ends ?_
  split
  · dsimp only
    repeat' split
    all_goals exact .of_eq rfl rfl rfl
  · exact .refl s

theorem execStandbyWrite_ends : Ends (decide (how = .done)) w s (execStandbyWrite how s) := by
  refine Standing.ends ?_
  split
  · cases how
    · dsimp only
      rw [State.refresh_eq]
      exact ⟨rfl, nofun, fun _ => rfl⟩
    · exact .of_eq rfl rfl rfl
  · exact .refl s

theorem execTamperRewrite_ends : Ends (decide (how = .done)) w s (execTamperRewrite how s) := by
  refine Standing.ends ?_
  split
  · exact (s.writeEnds_standing how _ _).trans (.of_eq rfl rfl rfl)
  · exact .refl s

theorem execHeadWrite_ends : Ends (decide (how = .done)) w s (execHeadWrite how s) := by
  refine Standing.ends ?_
  split
  · exact (s.writeEnds_standing how _ _).trans (.of_eq rfl rfl rfl)
  · exact .refl s

theorem execPanelWrite_ends : Ends (decide (how = .done)) w s (execPanelWrite how s) := by
  refine Standing.ends ?_
  split
  · exact (s.writeEnds_standing how _ _).trans (.of_eq rfl rfl rfl)
  · exact .refl s

end Scan

/-! ### The Record Writer's turns and the completions (R14, R16, R135 to R146) -/

section Turns
variable {m w : Bool} (s : State) (how : WriteEnd)

theorem execWriterTurn_ends : Ends m w s (execWriterTurn s) := by
  refine Standing.ends ?_
  split
  · exact (s.serve_standing _).trans (State.refresh_standing _)
  · exact .refl s

theorem execWritingWrite_ends : Ends (decide (how = .done)) w s (execWritingWrite how s) := by
  refine Standing.ends ?_
  split
  · cases how
    · dsimp only
      split
      · exact ((State.startItem_standing _ _).trans (State.turnEnded_standing _)).after rfl nofun fun _ => rfl
      · exact ((State.startItem_standing _ _).trans (State.refresh_standing _)).after rfl nofun fun _ => rfl
    · unfold State.openFailed
      exact (State.turnEnded_standing _).after rfl (fun _ => rfl) fun _ => rfl
  · exact .refl s

theorem execItemWriteDone_ends : Ends true w s (execItemWriteDone s) := by
  refine Standing.ends ?_
  split
  · split
    · exact ((State.released_standing _ _).trans (State.turnEnded_standing _)).after rfl nofun fun _ => rfl
    · exact s.turnEnded_standing
  · exact .refl s

theorem execItemWriteFailed_ends : Ends m w s (execItemWriteFailed s) := by
  refine Standing.ends ?_
  split
  · split
    · exact (State.startHeader_standing _ _ _ _).after rfl (fun _ => rfl) fun _ => rfl
    · exact (State.turnEnded_standing _).after rfl (fun _ => rfl) fun _ => rfl
  · exact .refl s

theorem execHeaderWrite_ends : Ends (decide (how = .done)) w s (execHeaderWrite how s) := by
  refine Standing.ends ?_
  split
  · split
    · have h (a : Word64) (b : List Byte) := s.writeEnds_standing (w := w) how a b
      dsimp only
      split
      · exact (h _ _).trans (State.setTurn_standing _ _)
      · cases how
        · exact (h _ _).trans (State.setTurn_standing _ _)
        · exact (h _ _).trans (State.startHeader_standing _ _ _ _)
    · exact s.turnEnded_standing
  · exact .refl s

theorem execClosedWrite_ends : Ends (decide (how = .done)) w s (execClosedWrite how s) := by
  refine Standing.ends ?_
  split
  · split
    · cases how
      · exact (State.turnEnded_standing _).after (State.countClosed_standing (m := true) (w := w) _).pending nofun
          fun _ => rfl
      · exact (State.turnEnded_standing _).after rfl (fun _ => rfl) fun _ => rfl
    · exact s.turnEnded_standing
  · exact .refl s

theorem execFaultedWrite_ends : Ends (decide (how = .done)) w s (execFaultedWrite how s) := by
  refine Standing.ends ?_
  split
  · split
    · exact (s.writeEnds_standing how _ _).trans ((State.turnEnded_standing _).after rfl (fun _ => rfl) fun _ => rfl)
    · exact s.turnEnded_standing
  · exact .refl s

/-- The end of a sitting changes its state, and neither the queue nor the image (R14). -/
theorem State.reachArmed_standing (t : CloseTarget) (d a : Nat) : Standing m true s (s.reachArmed t d a) :=
  ⟨rfl, fun _ => rfl, nofun⟩

theorem execDrainComplete_ends : Ends m true s (execDrainComplete s) := by
  refine Standing.ends ?_
  split
  · split
    · exact (s.reachArmed_standing _ _ _).trans (State.refresh_standing _)
    · exact .refl s
  · exact .refl s

theorem execAbandonComplete_ends : Ends m true s (execAbandonComplete s) := by
  have done (a : Abandon) (d : Discarded) (t : CloseTarget) : Standing m true s (s.completeAbandon a d t) := by
    unfold State.completeAbandon; dsimp only
    repeat' split
    all_goals exact ⟨rfl, fun _ => rfl, nofun⟩
  refine Standing.ends ?_
  split
  · split
    · exact (done _ _ _).trans (State.refresh_standing _)
    · exact .refl s
  · exact .refl s

theorem execFlushComplete_ends : Ends m w s (execFlushComplete s) := by
  refine Standing.ends ?_
  split
  · split
    · exact .of_eq rfl rfl rfl
    · exact .refl s
  · exact .refl s

end Turns
/-! ### The links (R36, R42 to R44, R57 to R67) -/

section Links
variable {m w : Bool} (s : State) (p : PortId)

theorem execFrameSent_ends : Ends m w s (execFrameSent p s) := by
  refine Standing.ends ?_
  split
  · exact s.onLink_standing p _
  · split
    · exact s.setPort_standing p _
    · exact .refl s

theorem execCharacterReceived_ends (samples : BitVec 88) : Ends m w s (execCharacterReceived p samples s) := by
  refine Standing.ends ?_
  split
  · unfold State.loopbackSamples
    split
    · exact .refl s
    · exact s.setPort_standing p _
  · unfold State.lineSamples; dsimp only
    split
    · exact s.setPort_standing p _
    · split
      · exact (s.setPort_standing p _).trans (State.onLink_standing _ p _)
      · exact s.setPort_standing p _

end Links

/-! ### Arming (R5 to R7) -/

section Arming
variable {m : Bool} (s : State)

theorem execArm_ends (a : Word64) : Ends m true s (execArm a s) := by
  refine Standing.ends ?_
  repeat' split
  all_goals exact ⟨rfl, fun _ => rfl, nofun⟩

theorem execDisarm_ends : Ends m true s (execDisarm s) := by
  refine Standing.ends ?_
  split
  · split
    · split
      · exact s.freeNext_standing _ _ _ _
      · exact .of_eq rfl rfl rfl
    · exact .refl s
  · exact .refl s

theorem execDisarmFreeWrite_ends (how : WriteEnd) : Ends (decide (how = .done)) true s (execDisarmFreeWrite how s) := by
  refine Standing.ends ?_
  split
  · have h (a : Word64) (b : List Byte) := s.writeEnds_standing (w := true) how a b
    cases how <;> exact (h _ _).trans (State.freeNext_standing _ _ _ _ _)
  · exact .refl s

end Arming

/-- Every command completes and keeps the queue, the image where it is no acknowledged write, and the state of the sitting
where it moves none. -/
theorem exec_ends (c : Instr) (s : State) : Ends (stores c) (movesSitting c) s (exec c s) := by
  cases c with
  | controlStart => exact s.startWritten_standing.ends
  | softReset => exact (s.afterReset_standing _ _ _).ends
  | functionReset => exact (s.afterReset_standing _ _ _).ends
  | attentionWrite v => exact Standing.ends (.of_eq rfl rfl rfl)
  | attnMaskWrite v => exact Standing.ends (.of_eq rfl rfl rfl)
  | registerWrite offset value => exact (s.registerWritten_standing offset value).ends
  | powerOnReset low => exact (s.afterReset_standing _ _ _).ends
  | brownOut =>
    have h : Standing false true s
        ({ s with draws := s.draws + 1 }.afterReset 0 0 (Config.supplyLowAfterBrownOut s.draws)) :=
      (State.afterReset_standing _ _ _ _).after rfl (fun _ => rfl) nofun
    exact h.ends
  | supplyWarning =>
    refine Standing.ends ?_
    split
    · exact .refl s
    · exact s.onset_standing
  | supplyRecovery => exact ((s.recovered_standing).trans (State.refresh_standing _)).ends_ite _
  | boundary a b => exact (s.boundary_standing a b).ends_ite _
  | frameSent p => exact execFrameSent_ends s p
  | pollSent p => exact (s.setPort_standing p _).ends_ite _
  | replyTimeout p busy => exact (s.onLink_standing p _).ends_ite _
  | roundDeadline p => exact (s.onLink_standing p _).ends_ite _
  | lineQuiet p => exact (s.onLink_standing p _).ends_ite _
  | characterReceived p samples => exact execCharacterReceived_ends s p samples
  | lineStuck p => exact (s.onLink_standing p _).ends_ite _
  | overcurrent p => exact (s.onLink_standing p _).ends_ite _
  | cellRead bytes => exact execCellRead_ends s bytes
  | cellReadFailed =>
    refine Standing.ends ?_
    split
    · exact s.boardStops_standing
    · exact .refl s
  | armRecordRead bytes =>
    refine Standing.ends ?_
    split
    · exact .of_eq rfl rfl rfl
    · exact .refl s
  | armRecordReadFailed =>
    refine Standing.ends ?_
    split
    · exact s.boardStops_standing
    · exact .refl s
  | takenWrite how => exact execTakenWrite_ends s how
  | resultAreaWrite how => exact execResultAreaWrite_ends s how
  | stateWordWrite how => exact execStateWordWrite_ends s how
  | requestRefusedKind k => exact (s.take_standing _ _ (.refl s)).ends
  | arm a => exact execArm_ends s a
  | disarm => exact execDisarm_ends s
  | disarmFreeWrite how => exact execDisarmFreeWrite_ends s how
  | openSitting n r => exact (s.take_standing _ _ (s.recordOpening_standing n r)).ends
  | goOnRecord => exact (s.take_standing _ _ (s.askFlag_standing true)).ends
  | goOffRecord => exact (s.take_standing _ _ (s.askFlag_standing false)).ends
  | closeSitting => exact (s.take_standing _ _ s.beginClose_standing).ends
  | abandonStaged => exact (s.take_standing _ _ s.beginAbandon_standing).ends
  | setClock t => exact (s.take_standing _ _ (.of_eq rfl rfl rfl)).ends
  | trimFrame n => exact (s.take_standing _ _ (.of_eq rfl rfl rfl)).ends
  | portControl p pw d => exact (s.take_standing _ _ (s.control_standing p pw d)).ends
  | portSelfTest p => exact (s.take_standing _ _ (s.selfTest_standing p)).ends
  | readCounters p clear => exact (s.take_standing _ _ (s.counters_standing p clear)).ends
  | releaseStation k => exact (s.take_standing _ _ (s.releaseAt_standing k)).ends
  | setChannel c g th a h i => exact (s.take_standing _ _ (s.writeSettings_standing c g th a h i)).ends
  | setPrivacy c f => exact (s.take_standing _ _ (s.writePrivacy_standing c f)).ends
  | setBar c f => exact (s.take_standing _ _ (s.writeBar_standing c f)).ends
  | flush => exact (s.take_standing _ _ s.takeFlush_standing).ends
  | hostMark code n text => exact (s.take_standing _ _ (s.hostMark_standing code n text)).ends
  | poolEntryRead bytes => exact execPoolEntryRead_ends s bytes
  | poolReadFailed =>
    refine Standing.ends ?_
    split
    · exact .of_eq rfl rfl rfl
    · exact .refl s
  | standbyWrite how => exact execStandbyWrite_ends s how
  | tamperRewrite how => exact execTamperRewrite_ends s how
  | headWrite how => exact execHeadWrite_ends s how
  | panelWrite how => exact execPanelWrite_ends s how
  | writerTurn => exact execWriterTurn_ends s
  | writingWrite how => exact execWritingWrite_ends s how
  | itemWriteDone => exact execItemWriteDone_ends s
  | itemWriteFailed => exact execItemWriteFailed_ends s
  | headerWrite how => exact execHeaderWrite_ends s how
  | closedWrite how => exact execClosedWrite_ends s how
  | faultedWrite how => exact execFaultedWrite_ends s how
  | drainComplete => exact execDrainComplete_ends s
  | abandonComplete => exact execAbandonComplete_ends s
  | flushComplete => exact execFlushComplete_ends s
  | idleIntervalFlagCleared p => exact (s.setPort_standing p _).ends_ite _
  | lowRunReset p => exact (s.setPort_standing p _).ends

/-- Only the acknowledged end of a write writes the image. -/
theorem stores_of_not_mem (c : Instr)
    (h : c ∉ [.takenWrite .done, .resultAreaWrite .done, .stateWordWrite .done, .disarmFreeWrite .done, .standbyWrite .done,
      .tamperRewrite .done, .headWrite .done, .panelWrite .done, .writingWrite .done, .itemWriteDone,
      .headerWrite .done, .closedWrite .done, .faultedWrite .done]) : stores c = false := by
  cases c <;> simp_all [stores]

/-- The commands that can change the state of the sitting. -/
theorem mem_of_movesSitting (c : Instr) (h : movesSitting c = true) :
    (∃ a b, c = .boundary a b) ∨ (∃ a, c = .arm a) ∨ c = .disarm ∨ (∃ how, c = .disarmFreeWrite how) ∨
      c = .closeSitting ∨ c = .drainComplete ∨ c = .abandonComplete ∨ c = .softReset ∨ c = .functionReset ∨
      c = .brownOut ∨ (∃ low, c = .powerOnReset low) ∨ ∃ w, c = .registerWrite 0x04 w := by
  cases c with
  | boundary a b => exact .inl ⟨a, b, rfl⟩
  | arm a => exact .inr (.inl ⟨a, rfl⟩)
  | disarmFreeWrite how => simp
  | powerOnReset low => simp
  | registerWrite offset w => obtain rfl : offset = 4 := of_decide_eq_true h; simp
  | disarm | closeSitting | drainComplete | abandonComplete | softReset | functionReset | brownOut => simp
  | _ => cases h

/-- Settles O60: `exec_ends`, read through the two lists of the statement. -/
theorem whatEveryCommandKeeps : Obligations.WhatEveryCommandKeeps := by
  intro c s
  obtain ⟨t, ht, h⟩ := exec_ends c s
  refine ⟨t, ht, h.pending, fun hc => h.hostMem (stores_of_not_mem c hc), fun hne => mem_of_movesSitting c ?_⟩
  by_contra still
  exact hne (h.state (by simpa using still))

end Sys2Proof.Machine
end

