-- ==== Sys2Proof/Proofs/SittingRequests.lean ====
section
/-! PROOF. The resets (R19, R148, R150, R162, R166), the requests of the sitting (R8, R10, R13) and the admission to a bay
(R11, R14, R122, R126). -/
namespace Sys2Proof.Machine

/-! ### The state of the sitting -/

theorem Sitting.isOpen_iff (st : Sitting) : st.isOpen = true ↔ st.state = .onRecord ∨ st.state = .offRecord := by
  unfold Sitting.isOpen; cases st.state <;> simp

theorem Sitting.not_isOpen_iff (st : Sitting) :
    ¬st.isOpen = true ↔ st.state = .idle ∨ st.state = .armed ∨ st.state = .closing := by
  unfold Sitting.isOpen; cases st.state <;> simp

/-! ### OPEN_SITTING, CLOSE_SITTING, GO_ON_RECORD and GO_OFF_RECORD (R8, R10, R13) -/

theorem State.recordOpening_taken (s : State) (number record : Word32) (h1 : s.sitting.state = .armed)
    (h2 : s.sitting.opening = none) :
    s.recordOpening number record =
      ({ s with sitting := { s.sitting with opening := some { number := number, record := decide (record ≠ 0) } } },
        .short { code := .done, w0 := number, w1 := BitVec.ofNat 32 (s.timer.boundary.toNat + 1), w2 := 0 }) := by
  have low (n : Nat) : BitVec.ofNat 32 (n % 4294967296) = BitVec.ofNat 32 n := BitVec.eq_of_toNat_eq (by simp)
  unfold State.recordOpening Result.mk3
  rw [if_pos ⟨h1, h2⟩, BitVec.ofNat_toNat, BitVec.setWidth_eq, low]
  rfl

theorem State.recordOpening_refused (s : State) (number record : Word32)
    (h : s.sitting.state ≠ .armed ∨ s.sitting.opening ≠ none) :
    s.recordOpening number record = (s, .short (Result.plain .refusedState)) := by
  unfold State.recordOpening
  exact if_neg fun ⟨h1, h2⟩ => h.elim (· h1) (· h2)

/-- Settles O37. -/
theorem openAndCloseSitting : Obligations.OpenAndCloseSitting := by
  refine ⟨fun s number record => ⟨fun h1 h2 => ?_, fun h => ?_⟩, fun s => ⟨fun h => ?_, fun h => ?_⟩⟩
  · exact answersAtOnce_of_take rfl (s.recordOpening_taken number record h1 h2) rfl
  · exact answersAtOnce_of_take rfl (s.recordOpening_refused number record h) rfl
  · exact heldLong_of_take (owner := fun s => s.beginClose) rfl (if_pos ((s.sitting.isOpen_iff).mpr h)) rfl
  · exact answersAtOnce_of_take (owner := fun s => s.beginClose) rfl (if_neg ((s.sitting.not_isOpen_iff).mpr h)) rfl

theorem State.askFlag_taken (s : State) (on : Bool) (h : s.sitting.isOpen = true) :
    s.askFlag on = ({ s with sitting := { s.sitting with next := on } },
      .short { code := .done, w0 := if s.sitting.next then 1 else 0, w1 := 0, w2 := 0 }) := by
  unfold State.askFlag
  rw [if_pos h]
  cases s.sitting.next <;> rfl

/-- Settles O38. -/
theorem goOnAndOffRecord : Obligations.GoOnAndOffRecord := by
  intro s on
  have run : exec (if on then .goOnRecord else .goOffRecord) s =
      .next (s.take (if on then .goOnRecord else .goOffRecord) fun s => s.askFlag on) := by
    cases on <;> rfl
  exact ⟨fun h => answersAtOnce_of_take run (s.askFlag_taken on ((s.sitting.isOpen_iff).mpr h)) rfl,
    fun h => answersAtOnce_of_take run (if_neg ((s.sitting.not_isOpen_iff).mpr h)) rfl⟩

/-! ### The resets -/

/-- With no sheet open no close falls due (R143, R144). -/
theorem State.setEmptyCloses_none (s : State) (h : ∀ k : Fin 34, s.writer.sheets[k] = none) : s.setEmptyCloses = s := by
  obtain ⟨v, e, hv⟩ := s.setEmptyCloses_eq
  have same : v = s.writer.sheets := by
    ext1 i hi
    have hk := h ⟨i, hi⟩
    rw [show v[i] = s.emptyClosed ⟨i, hi⟩ from hv ⟨i, hi⟩]
    exact (show s.emptyClosed ⟨i, hi⟩ = none by simp [State.emptyClosed, hk]).trans hk.symm
  rw [e, same]

/-- A port that is not RUNNING takes no notice of the onset (R68). -/
theorem Link.onset_still (x : Ctx) (p : PortId) (l : Link) (h : l.port.state ≠ .running) : l.onset x p = l := if_neg h

/-- A part without open sheets, items and running ports takes an onset as its flag and POWER alone (R162, R163). -/
theorem State.onset_still (s : State) (hs : ∀ k : Fin 34, s.writer.sheets[k] = none)
    (hb : ∀ k : Fin 34, s.path.bays.bay[k].items = []) (ha : s.portA.state ≠ .running) (hp : s.portB.state ≠ .running) :
    s.onset = { s with
      supply := { warning := true, dipStart := s.dipStart }, path := s.path.raise .power
      writer := { s.writer with starving := Vector.replicate 34 false } } := by
  unfold State.onset
  dsimp only
  rw [State.setEmptyCloses_none { s with
    supply := { warning := true, dipStart := s.dipStart }, path := s.path.raise .power } hs]
  rw [Link.onset_still _ .a _ ha, Link.onset_still _ .b _ hp]
  exact State.refresh_empty _ hb

/-- A cause raised with the mask at its reset value sends no message (R161). -/
theorem Attention.raise_power_reset (n : Nat) : ({ Attention.reset with messages := n } : Attention).raise .power =
    { pending := 0x40#10, mask := 0#10, messages := n } := by
  simp [Attention.raise, Attention.update, Attention.reset, Cause.mask, Cause.position]

/-- A reset with the supply low leaves the part at its reset values, the warning standing and POWER pending (R162). -/
theorem State.afterReset_eq (s : State) (lo hi : Word32) (low : Bool) : s.afterReset lo hi low = s.resetFrom lo hi low := by
  cases low with
  | false => rfl
  | true =>
    have still : Port.reset.state ≠ .running := by decide
    refine (State.onset_still _ (fun k => ?_) (fun k => ?_) still still).trans ?_
    · exact Vector.getElem_replicate ..
    · exact congrArg Bay.items (Vector.getElem_replicate ..)
    · unfold Path.raise State.resetFrom
      dsimp only
      rw [Attention.raise_power_reset]
      rfl

/-- Settles O3. -/
theorem resetsReturnEveryBlock : Obligations.ResetsReturnEveryBlock := by
  intro s
  refine ⟨?_, ?_, fun low => ?_, Config.supplyLowAfterBrownOut s.draws, ?_⟩
  all_goals exact congrArg _ (State.afterReset_eq _ _ _ _)

/-! ### Admission (R122, R126) -/

theorem MarkKind.isReserve_iff (k : MarkKind) : k.isReserve = true ↔
    (∃ c f, k = .floorBegin c f) ∨ (∃ c f, k = .floorEnd c f) ∨ ∃ code length text, k = .hostMark code length text := by
  cases k <;> simp [MarkKind.isReserve]

/-- R126: the level of a mark's class in quarters of the bay. -/
theorem MarkKind.four_level (k : MarkKind) (b : Bay) :
    4 * k.level b = (if k.isReserve then 3 else 4) * b.capacity := by
  unfold MarkKind.level Bay.capacity
  split <;> omega

theorem State.shiftFlag_taken (s : State) (hn : s.sitting.next ≠ s.sitting.cur)
    (h : s.path.bays.bay[markTrack].fill + 16 ≤ s.path.bays.bay[markTrack].capacity) :
    s.shiftFlag = { s with
      path := { s.path with bays := s.path.bays.set markTrack { s.path.bays.bay[markTrack] with
        items := s.path.bays.bay[markTrack].items ++
          [.mark { kind := markOfFlag s.sitting.next, frame := s.frame, time := s.timer.tod }] } }
      sitting := { s.sitting with comp := s.sitting.cur, cur := s.sitting.next, state := stateOfFlag s.sitting.next } } := by
  have placed := (s.path.bays.place_eq_some _ { kind := markOfFlag s.sitting.next, frame := s.frame, time := s.timer.tod }).mpr
    ⟨by cases s.sitting.next <;> exact h, rfl⟩
  unfold State.shiftFlag
  dsimp only
  rw [if_neg hn, placed]

theorem State.shiftFlag_waits (s : State) (hn : s.sitting.next ≠ s.sitting.cur)
    (h : s.path.bays.bay[markTrack].capacity < s.path.bays.bay[markTrack].fill + 16) :
    s.shiftFlag = { s with
      sitting := { s.sitting with comp := s.sitting.cur, state := stateOfFlag s.sitting.cur } } := by
  have full := (s.path.bays.place_eq_none { kind := markOfFlag s.sitting.next, frame := s.frame, time := s.timer.tod }).mpr
    (by cases s.sitting.next <;> exact h)
  unfold State.shiftFlag
  dsimp only
  rw [if_neg hn, full]

theorem State.offerFinal_held (s : State) (m : Mark) (hm : s.sitting.finalMark = some m)
    (h : s.path.bays.withheld ≠ 0 ∨ s.path.bays.place m = none) : s.offerFinal = s := by
  unfold State.offerFinal
  rw [hm]; dsimp only
  rcases h with h | h
  · rw [if_neg h]
  · split
    · rw [h]
    · rfl

theorem State.offerFinal_admitted (s : State) (m : Mark) (bs : Bays) (hm : s.sitting.finalMark = some m)
    (hw : s.path.bays.withheld = 0) (h : s.path.bays.place m = some bs) :
    s.offerFinal = { s with path := { s.path with bays := bs }, sitting := { s.sitting with finalMark := none } } := by
  unfold State.offerFinal
  rw [hm]; dsimp only
  rw [if_pos hw, h]

/-- Settles O33. -/
theorem admissionToABay : Obligations.AdmissionToABay := by
  refine ⟨Bays.push_eq_some, Bays.set_bay, fun bs m reserve hr _ _ _ _ _ => ?_, fun s bay m hb hn hm => ?_,
    fun s bay m reason hb hm hk => ?_⟩
  · have class_eq : m.kind.isReserve = reserve := by
      rw [Bool.eq_iff_iff, m.kind.isReserve_iff, hr]
    rw [← class_eq, ← m.kind.four_level]
    constructor <;> intro h
    · exact Option.getD_eq_iff.mpr (.inl ((bs.place_eq_some _ m).mpr ⟨by omega, rfl⟩))
    · exact Option.getD_eq_iff.mpr (.inr ⟨(bs.place_eq_none m).mpr (by omega), rfl⟩)
  · subst hb hm
    constructor <;> intro h
    · rw [s.shiftFlag_taken hn h]; cases s.sitting.next <;> rfl
    · rw [s.shiftFlag_waits hn h]; cases s.sitting.cur <;> rfl
  · subst hb
    have fits : m.kind.size = 20 ∧ m.kind.level s.path.bays.bay[markTrack] = s.path.bays.bay[markTrack].capacity := by
      rw [hk]; exact ⟨rfl, rfl⟩
    refine ⟨fun hw h => ?_, fun h => s.offerFinal_held m hm (h.imp_right fun h => ?_)⟩
    · exact s.offerFinal_admitted m _ hm hw ((s.path.bays.place_eq_some _ m).mpr ⟨by omega, rfl⟩)
    · exact (s.path.bays.place_eq_none m).mpr (by omega)

end Sys2Proof.Machine
end

