-- ==== Sys2Proof/Proofs/ArmRecord.lean ====
section
/-! PROOF. The arm record (R5, R6): which track each check is about, the first check that fails, and what it seats. -/
namespace Sys2Proof.Machine

/-- A track is a channel's, the mix's or the mark track. -/
theorem track_cases (t : Fin 34) : (∃ c : Fin 32, t = trackOf (soundTrack c)) ∨ t = trackOf mixTrack ∨ t = markTrack := by
  rcases Nat.lt_or_ge t.val 32 with h | h
  · exact .inl ⟨⟨t.val, h⟩, rfl⟩
  · rcases (show t.val = 32 ∨ t.val = 33 by omega) with h | h
    · exact .inr (.inl (Fin.ext h))
    · exact .inr (.inr (Fin.ext h))

theorem trackOf_sound_inj {c d : Fin 32} : trackOf (soundTrack c) = trackOf (soundTrack d) ↔ c = d :=
  ⟨fun h => soundTrack_injective (trackOf_injective h), fun h => h ▸ rfl⟩

theorem trackOf_sound_ne_mix (c : Fin 32) : trackOf (soundTrack c) ≠ trackOf mixTrack :=
  fun h => soundTrack_ne_mix c (trackOf_injective h)

/-- A channel's or the mix's track of a record that seats it (R6). -/
def ArmRecord.Seated (r : ArmRecord) (t : Fin 34) : Prop :=
  (∃ c : Fin 32, t = trackOf (soundTrack c) ∧ r.seating.getLsbD c.val = true) ∨ (t = trackOf mixTrack ∧ r.mixOn = true)

theorem ArmRecord.seats_sound (r : ArmRecord) (c : Fin 32) : r.seats (trackOf (soundTrack c)) = r.seating.getLsbD c.val :=
  if_pos c.isLt

theorem ArmRecord.seated_sound (r : ArmRecord) (c : Fin 32) :
    r.Seated (trackOf (soundTrack c)) ↔ r.seating.getLsbD c.val = true := by
  simp [ArmRecord.Seated, trackOf_sound_inj, trackOf_sound_ne_mix]

theorem ArmRecord.seated_mix (r : ArmRecord) : r.Seated (trackOf mixTrack) ↔ r.mixOn = true := by
  simp [ArmRecord.Seated, (trackOf_sound_ne_mix _).symm]

theorem ArmRecord.not_seated_mark (r : ArmRecord) : ¬r.Seated markTrack := by
  rintro (⟨c, h, _⟩ | ⟨h, _⟩) <;> exact trackOf_ne_mark _ h.symm

/-- Below track 33 the record seats what the statements call seated. -/
theorem ArmRecord.seats_iff (r : ArmRecord) (t : Fin 34) (h : t ≠ markTrack) : r.seats t = true ↔ r.Seated t := by
  rcases track_cases t with ⟨c, rfl⟩ | rfl | rfl
  · rw [r.seats_sound, r.seated_sound]
  · exact r.seated_mix.symm
  · exact absurd rfl h

/-- Check 4 on a track (R5). -/
theorem ArmRecord.strayBay_iff (r : ArmRecord) (t : Fin 34) : r.strayBay t = true ↔ r.failsAt 4 t := by
  have stray : r.failsAt 4 t ↔ t ≠ markTrack ∧ ¬r.Seated t ∧ r.units[t] ≠ 0 := by
    simp [ArmRecord.failsAt, ArmRecord.Seated]
  rw [stray]
  by_cases h : t = markTrack
  · subst h; simp [ArmRecord.strayBay, show r.seats markTrack = true from rfl]
  · simp [ArmRecord.strayBay, h, ← r.seats_iff t h]

/-- Check 5 on a track (R5). -/
theorem ArmRecord.smallBay_iff (r : ArmRecord) (t : Fin 34) : r.smallBay t = true ↔ r.failsAt 5 t := by
  have small : r.failsAt 5 t ↔ r.Seated t ∧ r.units[t] < 4 := by
    simp [ArmRecord.failsAt, ArmRecord.Seated]
  rw [small]
  by_cases h : t = markTrack
  · subst h
    exact ⟨fun e => by simp [ArmRecord.smallBay, markTrack] at e, fun e => absurd e.1 r.not_seated_mark⟩
  · have below : t.val < 33 := by
      have : t.val ≠ 33 := fun e => h (Fin.ext e)
      omega
    simp [ArmRecord.smallBay, below, ← r.seats_iff t h]

theorem ArmRecord.passes_four_iff (r : ArmRecord) : r.passes 4 ↔ ∀ t, r.strayBay t = false := by
  constructor
  · rintro ⟨sound, mix⟩ t
    rcases track_cases t with ⟨c, rfl⟩ | rfl | rfl
    · have := sound c
      simp_all [ArmRecord.strayBay, r.seats_sound]
    · have : r.mixOn = false → r.units[trackOf mixTrack] = 0 := mix
      simp_all [ArmRecord.strayBay, show r.seats (trackOf mixTrack) = r.mixOn from rfl]
    · rfl
  · intro h
    refine ⟨fun c hc => ?_, fun hm => ?_⟩
    · simpa [ArmRecord.strayBay, r.seats_sound, show r.seating[c.val] = false from hc] using h (trackOf (soundTrack c))
    · simpa [ArmRecord.strayBay, show r.seats (trackOf mixTrack) = r.mixOn from rfl, hm] using h (trackOf mixTrack)

theorem ArmRecord.passes_five_iff (r : ArmRecord) : r.passes 5 ↔ ∀ t, r.smallBay t = false := by
  constructor
  · rintro ⟨sound, mix⟩ t
    by_contra h
    rcases (r.smallBay_iff t).mp (by simpa using h) with ⟨h, _⟩ | ⟨_, h, few⟩
    · exact absurd h (by decide)
    · rcases h with ⟨c, rfl, hc⟩ | ⟨rfl, hm⟩
      · exact absurd (sound c hc) (by omega)
      · exact absurd (mix hm) (by omega)
  · intro h
    have enough (t : Fin 34) (ht : r.Seated t) : 4 ≤ r.units[t] := by
      by_contra few
      have := (r.smallBay_iff t).mpr (.inr ⟨rfl, ht, by omega⟩)
      rw [h t] at this; cases this
    exact ⟨fun c hc => enough _ ((r.seated_sound c).mpr hc), fun hm => enough _ (r.seated_mix.mpr hm)⟩

/-- A check of R5 that fails, every one before it passing. -/
structure ArmRecord.FirstFails (r : ArmRecord) (k : Nat) : Prop where
  fails : ¬r.passes k
  before : ∀ j, 1 ≤ j → j < k → r.passes j

/-- R5: the result that a failed check gives; checks 4 and 5 name the lowest track that fails them. -/
theorem ArmRecord.failure_spec (r : ArmRecord) :
    (r.failure = none ∧ ∀ k, 1 ≤ k → k ≤ 7 → r.passes k) ∨
    ∃ k track : Nat, 1 ≤ k ∧ k ≤ 7 ∧ r.FirstFails k ∧
      r.failure = r.fails (if k = 7 then .refusedRoom else .refusedRange) k track ∧
      (k = 1 ∨ k = 2 ∨ k = 3 ∨ k = 7 → track = 0) ∧ (k = 6 → track = 33) ∧
      (k = 4 ∨ k = 5 → ∃ t : Fin 34, track = t.val ∧ r.failsAt k t ∧ ∀ u, u < t → ¬r.failsAt k u) := by
  have none_before : ∀ j, 1 ≤ j → j < 1 → r.passes j := fun j h1 h2 => by omega
  have next {k : Nat} (hk : ∀ j, 1 ≤ j → j < k → r.passes j) (h : r.passes k) : ∀ j, 1 ≤ j → j < k + 1 → r.passes j :=
    fun j h1 h2 => by
      rcases Nat.lt_succ_iff_lt_or_eq.mp h2 with h2 | rfl
      · exact hk j h1 h2
      · exact h
  unfold ArmRecord.failure
  rw [← Fin.find?_eq_find?_finRange, ← Fin.find?_eq_find?_finRange]
  split
  · rename_i h
    exact .inr ⟨1, 0, by omega, by omega, ⟨fun p => by simp only [ArmRecord.passes] at p; omega, none_before⟩, rfl, by simp⟩
  rename_i h1
  have p1 := next none_before (show r.passes 1 by simp only [ArmRecord.passes]; omega)
  split
  · rename_i h
    exact .inr ⟨2, 0, by omega, by omega, ⟨fun p => by simp only [ArmRecord.passes] at p; omega, p1⟩, rfl, by simp⟩
  rename_i h2
  have p2 := next p1 (show r.passes 2 by simp only [ArmRecord.passes]; omega)
  split
  · rename_i h
    exact .inr ⟨3, 0, by omega, by omega, ⟨h, p2⟩, rfl, by simp⟩
  rename_i h3
  have p3 := next p2 (show r.passes 3 from not_not.mp h3)
  split
  · rename_i t h
    obtain ⟨ht, lower⟩ := Fin.find?_eq_some_iff.mp h
    refine .inr ⟨4, t.val, by omega, by omega, ⟨fun p => ?_, p3⟩, rfl, by simp, by simp, fun _ =>
      ⟨t, rfl, (r.strayBay_iff t).mp ht, fun u hu hf => ?_⟩⟩
    · rw [r.passes_four_iff.mp p t] at ht; cases ht
    · have := lower u hu
      rw [(r.strayBay_iff u).mpr hf] at this; cases this
  rename_i h4
  have p4 := next p3 (r.passes_four_iff.mpr (Fin.find?_eq_none_iff.mp h4))
  split
  · rename_i t h
    obtain ⟨ht, lower⟩ := Fin.find?_eq_some_iff.mp h
    refine .inr ⟨5, t.val, by omega, by omega, ⟨fun p => ?_, p4⟩, rfl, by simp, by simp, fun _ =>
      ⟨t, rfl, (r.smallBay_iff t).mp ht, fun u hu hf => ?_⟩⟩
    · rw [r.passes_five_iff.mp p t] at ht; cases ht
    · have := lower u hu
      rw [(r.smallBay_iff u).mpr hf] at this; cases this
  rename_i h5
  have p5 := next p4 (r.passes_five_iff.mpr (Fin.find?_eq_none_iff.mp h5))
  split
  · rename_i h
    exact .inr ⟨6, 33, by omega, by omega, ⟨fun p => absurd h (Nat.not_lt.mpr p), p5⟩, rfl, by simp, by simp, by simp⟩
  rename_i h6
  have p6 := next p5 (show r.passes 6 from Nat.not_lt.mp h6)
  split
  · rename_i h
    exact .inr ⟨7, 0, by omega, by omega, ⟨fun p => absurd h (Nat.not_lt.mpr p), p6⟩, rfl, by simp⟩
  rename_i h7
  have p7 := next p6 (show r.passes 7 from Nat.not_lt.mp h7)
  exact .inl ⟨rfl, fun k h1 h2 => p7 k h1 (by omega)⟩

/-- Settles O34. -/
theorem armRecordChecks : Obligations.ArmRecordChecks := by
  intro r
  rcases r.failure_spec with ⟨h, pass⟩ | ⟨k, track, h1, h7, ⟨fails, before⟩, h, word, six, lowest⟩
  · exact ⟨⟨fun _ => pass, fun _ => h⟩, fun res hr => by rw [h] at hr; cases hr⟩
  · refine ⟨⟨fun e => ?_, fun pass => absurd (pass k h1 h7) fails⟩, fun res hr => ?_⟩
    · rw [h] at e; cases e
    · rw [h] at hr
      cases hr
      refine ⟨k, h1, h7, fails, before, rfl, rfl, rfl, fun hk => ?_, fun hk => ?_, fun hk => ?_⟩
      · rw [word hk]; rfl
      · rw [six hk]; rfl
      · obtain ⟨t, rfl, ht, low⟩ := lowest hk
        exact ⟨t, rfl, ht, low⟩

/-- R6: the seated channels, the mix where it is on, and track 33. -/
theorem ArmRecord.seatedCount_eq (r : ArmRecord) : r.seatedCount =
    ((List.finRange 32).filter fun c => r.seating.getLsbD c.val).length + (if r.mixOn then 1 else 0) + 1 := by
  have tracks : List.finRange 34 = (List.finRange 32).map (fun c => trackOf (soundTrack c)) ++ [trackOf mixTrack, markTrack] := by
    decide
  unfold ArmRecord.seatedCount
  rw [tracks, List.filter_append, List.length_append, List.filter_map, List.length_map]
  have sound : (r.seats ∘ fun c => trackOf (soundTrack c)) = fun c : Fin 32 => r.seating.getLsbD c.val :=
    funext r.seats_sound
  rw [sound]
  cases h : r.mixOn <;> simp [show r.seats (trackOf mixTrack) = r.mixOn from rfl, show r.seats markTrack = true from rfl, h]

end Sys2Proof.Machine
end

