-- ==== Sys2Proof/Proofs/Arming.lean ====
section
/-! PROOF. ARM and DISARM (R5 to R7). -/
namespace Sys2Proof.Machine

/-! ### ARM -/

/-- R5: an ARM taken outside IDLE. -/
theorem execArm_refused (s : State) (tag : Word16) (a : Word64) (h : s.scan.step = .taking tag (.arm a))
    (hs : s.sitting.state ≠ .idle) : exec (.arm a) s = .next (s.answer tag 1 (Result.plain .refusedState)) := by
  show Host.Outcome.next _ = _
  rw [h]
  exact congrArg _ (if_pos ⟨rfl, hs⟩)

/-- R5: an ARM in IDLE whose record failed a check. -/
theorem execArm_failed (s : State) (tag : Word16) (a : Word64) (r : ArmRecord) (res : Result)
    (h : s.scan.step = .armChecked tag a r (some res)) (hs : s.sitting.state = .idle) :
    exec (.arm a) s = .next (s.answer tag 1 res) := by
  show Host.Outcome.next _ = _
  rw [h]
  dsimp only
  rw [if_pos rfl, if_neg (not_not.mpr hs)]

/-- R6: an ARM in IDLE whose record passed every check. -/
theorem execArm_accepted (s : State) (tag : Word16) (a : Word64) (r : ArmRecord)
    (h : s.scan.step = .armChecked tag a r none) (hs : s.sitting.state = .idle) :
    exec (.arm a) s = .next ((s.putInForce r).answer tag 1 r.accepted) := by
  show Host.Outcome.next _ = _
  rw [h]
  dsimp only
  rw [if_pos rfl, if_neg (not_not.mpr hs)]

/-- R6: the channels seated, the mix and the bays of an arming put in force. -/
theorem State.putInForce_path (s : State) (r : ArmRecord) : (s.putInForce r).path = { s.path with
    channels := Vector.ofFn fun c : Fin 32 => { s.path.channels[c] with seated := r.seating.getLsbD c.val }
    fcu := { s.path.fcu with mixOn := r.mixOn, shift := min 5 r.shift }
    bays := { s.path.bays with
      partition := true
      bay := r.units.map fun n => { units := n, items := [], economy := false } } } := by
  unfold State.putInForce; rfl

theorem ArmRecord.clamped_iff (r : ArmRecord) :
    r.clamped = true ↔ ¬(r.age = max 1 (min 255 r.age) ∧ r.shift = min 5 r.shift) := by
  unfold ArmRecord.clamped ArmRecord.ageTaken ArmRecord.shiftTaken
  simp only [Bool.or_eq_true, decide_eq_true_eq]
  omega

/-- R6: the words of an accepted ARM. -/
theorem ArmRecord.accepted_eq (r : ArmRecord) : r.accepted =
    { code := if r.age = max 1 (min 255 r.age) ∧ r.shift = min 5 r.shift then .done else .doneClamped
      w0 := BitVec.ofNat 32 (r.units.toList.sum * 256)
      w1 := BitVec.ofNat 32 (((List.finRange 32).filter fun c => r.seating.getLsbD c.val).length
        + (if r.mixOn then 1 else 0) + 1)
      w2 := BitVec.ofNat 32 (max 1 (min 255 r.age) + 65536 * min 5 r.shift) } := by
  have code : (if r.clamped then ResultCode.doneClamped else .done) =
      if r.age = max 1 (min 255 r.age) ∧ r.shift = min 5 r.shift then .done else .doneClamped := by
    by_cases h : r.age = max 1 (min 255 r.age) ∧ r.shift = min 5 r.shift
    · rw [if_pos h, if_neg (mt r.clamped_iff.mp (not_not.mpr h))]
    · rw [if_neg h, if_pos (r.clamped_iff.mpr h)]
  unfold ArmRecord.accepted Result.mk3 halves
  rw [code, r.seatedCount_eq]
  rfl

/-- Settles O35. -/
theorem armPutsTheArmingInForce : Obligations.ArmPutsTheArmingInForce := by
  intro s tag a
  refine ⟨fun hs tag' h => ?_, fun bytes h => ?_, fun r failure h hs => ?_⟩
  · exact ⟨_, execArm_refused s tag' a h hs, rfl, answer_answered rfl _ _ _⟩
  · show Host.Outcome.next _ = _
    rw [h]
  · cases failure with
    | some res =>
      refine ⟨_, execArm_failed s tag a r res h hs, fun res' hf => ?_, fun e => (nomatch e)⟩
      cases hf
      exact ⟨rfl, answer_answered rfl _ _ _⟩
    | none =>
      refine ⟨_, execArm_accepted s tag a r h hs, fun _ e => (nomatch e), fun _ => ?_⟩
      rw [State.answer_path, State.putInForce_path]
      refine ⟨?_, rfl, rfl, rfl, fun c => Vector.getElem_ofFn .., rfl, rfl, fun k => Vector.getElem_map .., ?_⟩
      · unfold State.answer State.putInForce; rfl
      · rw [← r.accepted_eq]
        exact answer_answered (s' := s.putInForce r) rfl _ _ _

/-! ### DISARM -/

/-- R7: a DISARM taken, or refused. -/
theorem execDisarm_taken (s : State) (tag : Word16) (h : s.scan.step = .taking tag .disarm) :
    exec .disarm s = .next
      (if s.sitting.state = .armed ∧ s.sitting.opening = none then s.freeNext tag s.writer.standbyEntries 0 0
      else s.answer tag 2 (Result.plain .refusedState)) := by
  show Host.Outcome.next _ = _
  rw [h]
  rfl

/-- R7: with no entry left the arming is removed and DISARM answered. -/
theorem State.freeNext_disarmed (s : State) (tag : Word16) (n k : Nat) : Disarmed s (s.freeNext tag [] n k) tag n k := by
  refine ⟨rfl, rfl, rfl, fun c => ?_, rfl, rfl, fun t => ?_, rfl, ?_⟩
  · exact Vector.getElem_map ..
  · exact Vector.getElem_map ..
  · exact answer_answered (s := { s with scan := { s.scan with poolDue := false } }) (s' := s.removeArming) rfl tag 2 _

/-- R7: what follows a FREE write leaves host memory, the bus and attention. -/
theorem State.freeNext_frame (s : State) (tag : Word16) (l : List Queued) (n k : Nat) :
    (s.freeNext tag l n k).hostMem = s.hostMem ∧ (s.freeNext tag l n k).bus = s.bus ∧
      (s.freeNext tag l n k).path.attn = s.path.attn := by
  cases l <;> exact ⟨rfl, rfl, rfl⟩

/-- R7: the end of a FREE write. -/
theorem execDisarmFreeWrite_next (s : State) (tag : Word16) (arming : Arming) (q : Queued) (rest : List Queued) (n k : Nat)
    (ha : s.writer.arming = some arming) (h : s.scan.step = .freeing tag (q :: rest) n k) (how : WriteEnd) :
    exec (.disarmFreeWrite how) s = .next
      ((s.writeEnds how (arming.status q.index) (statusBytes .free 0 0)).freeNext tag rest
        (if how = .done then n + 1 else n) (if how = .done then k else k + 1)) := by
  show Host.Outcome.next _ = _
  rw [ha, h]
  cases how <;> rfl

/-- Settles O36. -/
theorem disarmReturnsTheSheets : Obligations.DisarmReturnsTheSheets := by
  intro s tag
  refine ⟨fun hs tag' h => ?_, fun left h h1 h2 hl => ?_, fun arming q rest n k ha h how => ?_⟩
  · have unmet : ¬(s.sitting.state = .armed ∧ s.sitting.opening = none) := fun h => hs.elim (· h.1) (· h.2)
    have run := execDisarm_taken s tag' h
    rw [if_neg unmet] at run
    exact ⟨_, run, rfl, answer_answered rfl _ _ _⟩
  · have run : exec .disarm s = .next (s.freeNext tag left 0 0) := by
      rw [execDisarm_taken s tag h, if_pos ⟨h1, h2⟩, ← hl]
      rfl
    refine ⟨fun hne => ?_, fun he => ?_⟩
    · obtain ⟨q, rest, rfl⟩ := List.exists_cons_of_ne_nil hne
      exact run
    · subst he
      exact ⟨_, run, s.freeNext_disarmed tag 0 0, rfl, rfl, rfl⟩
  · obtain ⟨hostMem, bus, attn⟩ := (s.writeEnds how (arming.status q.index) (statusBytes .free 0 0)).freeNext_frame tag rest
      (if how = .done then n + 1 else n) (if how = .done then k else k + 1)
    refine ⟨_, if how = .done then n + 1 else n, if how = .done then k else k + 1, execDisarmFreeWrite_next s tag arming q rest n k ha h how, fun hd => ?_, fun hf => ?_, fun hr => ?_,
      fun hr => ?_⟩
    · subst hd
      rw [hostMem, bus, attn]
      exact ⟨rfl, rfl, stored_memWrite _ _ _ (by simp [statusBytes]), rfl, rfl⟩
    · subst hf
      rw [hostMem, bus, attn]
      exact ⟨rfl, rfl, rfl, rfl, rfl⟩
    · obtain ⟨q', rest', rfl⟩ := List.exists_cons_of_ne_nil hr
      cases how <;> rfl
    · subst hr
      cases how
      · exact State.freeNext_disarmed (s.writeEnds .done _ _) tag _ _
      · exact State.freeNext_disarmed (s.writeEnds .failed _ _) tag _ _

end Sys2Proof.Machine
end

