-- ==== Sys2Proof/Proofs/Ticks.lean ====
section
/-! PROOF. A tick on an empty queue (R14, R16, R20, R22, R24, R35, R42, R49, R57, R58, R60, R65, R135, R146): what waits
after it, each command once, and which port each command is about. -/
namespace Sys2Proof.Machine

/-! ### What a tick leaves of a port -/

section Port
variable (pt : Port)

@[simp] theorem Port.tick_sending : pt.tick.sending = pt.sending := by rw [pt.tick_only _ rfl]
@[simp] theorem Port.tick_state : pt.tick.state = pt.state := by rw [pt.tick_only _ rfl]
@[simp] theorem Port.tick_divisor : pt.tick.divisor = pt.divisor := by rw [pt.tick_only _ rfl]
@[simp] theorem Port.tick_phase : pt.tick.phase = pt.phase := by rw [pt.tick_only _ rfl]
@[simp] theorem Port.tick_deadlinePassed : pt.tick.deadlinePassed = pt.deadlinePassed := by rw [pt.tick_only _ rfl]
@[simp] theorem Port.tick_txTicks : pt.tick.txTicks = if pt.sending = [] then pt.txTicks else pt.txTicks + 1 := by
  rw [pt.tick_only _ rfl]
@[simp] theorem Port.tick_windowTicks :
    pt.tick.windowTicks = if pt.phase = .awaiting then pt.windowTicks + 1 else pt.windowTicks := by
  rw [pt.tick_only _ rfl]

/-- R65: a round is under way. -/
theorem Port.inRound_iff : pt.inRound = true ↔ pt.state = .running ∧ pt.phase ≠ .idle ∧ pt.phase ≠ .ended := by
  unfold Port.inRound
  cases pt.phase <;> simp

/-- R49: the character of the loopback that has been sent and not yet received. -/
theorem Port.loopedBack_iff (x : BitVec 88) : pt.loopedBack = some x ↔ pt.state = .testing ∧ ∃ g c, pt.selfTest = some g ∧
    g.received < g.sent ∧ pt.sending[g.received]? = some c ∧ x = cleanSamples c := by
  unfold Port.loopedBack
  cases hs : pt.selfTest with
  | none => cases pt.state <;> simp
  | some g =>
    cases pt.state with
    | testing => simp [eq_comm (a := x)]
    | _ => simp

end Port

/-! ### The queue after a tick -/

/-- The port that a command of a link is about. -/
def portEvent : Instr → Option PortId
  | .frameSent p | .pollSent p | .replyTimeout p _ | .roundDeadline p | .lineStuck p | .characterReceived p _ => some p
  | _ => none

theorem Port.portEvent_of_due {pt : Port} {p : PortId} {n i : Nat} {c : Instr} (h : c ∈ pt.due p n i) :
    portEvent c = some p := by
  rcases (pt.mem_due p n i c).mp h with ⟨rfl, _⟩ | ⟨rfl, _⟩ | ⟨rfl, _⟩ | ⟨rfl, _⟩ | ⟨rfl, _⟩ | ⟨x, rfl, _⟩ <;> rfl

theorem State.portEvent_of_writerDue {s : State} {c : Instr} (h : c ∈ s.writerDue) : portEvent c = none := by
  rcases (s.mem_writerDue c).mp h with ⟨rfl, _⟩ | ⟨rfl, _⟩ | ⟨rfl, _⟩ | ⟨rfl, _⟩ <;> rfl

/-- The commands that a tick makes due (assumption 2). -/
def State.dueAtTick (s : State) : List Instr :=
  s.writerDue ++ s.portA.tick.due .a (s.timer.tick + 1) s.timer.interval
    ++ s.portB.tick.due .b (s.timer.tick + 1) s.timer.interval
    ++ (if s.timer.interval ≤ s.timer.tick + 1 then [.boundary true true] else [])

theorem State.idle_running (s : State) (h : s.timer.running = true) : s.idle = { s.countTick with pending := s.dueAtTick } := by
  unfold State.idle
  rw [if_pos h]
  rfl

theorem State.mem_dueAtTick (s : State) (c : Instr) : c ∈ s.dueAtTick ↔ c ∈ s.writerDue ∨
    (∃ p, c ∈ (s.port p).tick.due p (s.timer.tick + 1) s.timer.interval) ∨
    (c = .boundary true true ∧ s.timer.interval ≤ s.timer.tick + 1) := by
  have ports : (∃ p, c ∈ (s.port p).tick.due p (s.timer.tick + 1) s.timer.interval) ↔
      c ∈ s.portA.tick.due .a (s.timer.tick + 1) s.timer.interval ∨
        c ∈ s.portB.tick.due .b (s.timer.tick + 1) s.timer.interval :=
    ⟨fun ⟨p, h⟩ => by cases p <;> simp_all [State.port], fun h => h.elim (fun h => ⟨.a, h⟩) fun h => ⟨.b, h⟩⟩
  unfold State.dueAtTick
  rw [ports]
  simp only [List.mem_append, List.mem_ite_nil_right, List.mem_singleton, or_assoc, and_comm]

/-- A command of a port's link is due exactly where its port makes it due. -/
theorem State.mem_dueAtTick_port (s : State) (c : Instr) (p : PortId) (h : portEvent c = some p) :
    c ∈ s.dueAtTick ↔ c ∈ (s.port p).tick.due p (s.timer.tick + 1) s.timer.interval := by
  rw [State.mem_dueAtTick]
  constructor
  · rintro (w | ⟨q, w⟩ | ⟨rfl, _⟩)
    · rw [State.portEvent_of_writerDue w] at h; cases h
    · rw [Port.portEvent_of_due w] at h; cases h; exact w
    · cases h
  · exact fun w => .inr (.inl ⟨p, w⟩)

/-- A command of the Record Writer and of the completions is due exactly where they make it due. -/
theorem State.mem_dueAtTick_writer (s : State) (c : Instr) (h : portEvent c = none) (hb : c ≠ .boundary true true) :
    c ∈ s.dueAtTick ↔ c ∈ s.writerDue := by
  rw [State.mem_dueAtTick]
  constructor
  · rintro (w | ⟨q, w⟩ | ⟨rfl, _⟩)
    · exact w
    · rw [Port.portEvent_of_due w] at h; cases h
    · exact absurd rfl hb
  · exact .inl

theorem State.boundary_mem_dueAtTick (s : State) :
    .boundary true true ∈ s.dueAtTick ↔ s.timer.interval ≤ s.timer.tick + 1 := by
  rw [State.mem_dueAtTick]
  constructor
  · rintro (w | ⟨p, w⟩ | ⟨_, h⟩)
    · rcases (s.mem_writerDue _).mp w with ⟨e, _⟩ | ⟨e, _⟩ | ⟨e, _⟩ | ⟨e, _⟩ <;> cases e
    · cases Port.portEvent_of_due w
    · exact h
  · exact fun h => .inr (.inr ⟨rfl, h⟩)

/-! ### Each command once -/

theorem ite_singleton_sublist (c : Prop) [Decidable c] (i : Instr) : (if c then [i] else []).Sublist [i] := by
  split
  · exact .refl _
  · exact List.nil_sublist _

theorem Port.due_sublist (pt : Port) (p : PortId) (n i : Nat) : (pt.due p n i).Sublist
    ([.frameSent p] ++ [.pollSent p] ++ [.replyTimeout p false] ++ [.roundDeadline p] ++ [.lineStuck p] ++
      (pt.loopedBack.map (Instr.characterReceived p)).toList) := by
  unfold Port.due
  refine .append (.append (.append (.append (.append ?_ ?_) ?_) ?_) ?_) (.refl _)
  all_goals exact ite_singleton_sublist _ _

theorem State.writerDue_sublist (s : State) :
    s.writerDue.Sublist ([.writerTurn] ++ [.drainComplete] ++ [.abandonComplete] ++ [.flushComplete]) := by
  unfold State.writerDue
  refine .append (.append (.append ?_ ?_) ?_) ?_
  iterate 3 exact ite_singleton_sublist _ _
  split
  · exact ite_singleton_sublist _ _
  · exact List.nil_sublist _

theorem State.dueAtTick_nodup (s : State) : s.dueAtTick.Nodup := by
  refine List.Nodup.sublist (((s.writerDue_sublist.append (Port.due_sublist _ .a _ _)).append
    (Port.due_sublist _ .b _ _)).append (ite_singleton_sublist _ _)) ?_
  cases s.portA.tick.loopedBack <;> cases s.portB.tick.loopedBack <;> simp

theorem State.countTick_port (s : State) (p : PortId) : s.countTick.port p = (s.port p).tick := by cases p <;> rfl

/-- Settles O2. -/
theorem emptyQueueCountsATick : Obligations.EmptyQueueCountsATick := by
  intro s hq
  have run : step s = .next s.idle := by unfold step; rw [hq]
  refine ⟨fun h => ?_, fun h => ?_⟩
  · rw [run]; unfold State.idle; rw [if_neg (by simp [h])]
  rw [run, s.idle_running h]
  refine ⟨_, rfl, rfl, fun below => ⟨?_, ?_⟩, fun atI => ⟨?_, ?_⟩, s.dueAtTick_nodup, fun c hc => ?_, ?_, ?_, ?_, ?_, ?_⟩
  · show min (s.timer.tick + 1) (s.timer.interval - 1) = _; omega
  · exact fun w => absurd (s.boundary_mem_dueAtTick.mp w) (by omega)
  · show min (s.timer.tick + 1) (s.timer.interval - 1) = _; omega
  · show s.dueAtTick.getLast? = _
    unfold State.dueAtTick; rw [if_pos atI]; exact List.getLast?_concat
  · rcases (s.mem_dueAtTick c).mp hc with w | ⟨p, w⟩ | ⟨rfl, _⟩
    · left
      rcases (s.mem_writerDue c).mp w with ⟨rfl, _⟩ | ⟨rfl, _⟩ | ⟨rfl, _⟩ | ⟨rfl, _⟩ <;> simp
    · right
      rcases (Port.mem_due _ p _ _ c).mp w with ⟨rfl, _⟩ | ⟨rfl, _⟩ | ⟨rfl, _⟩ | ⟨rfl, _⟩ | ⟨rfl, _⟩ | ⟨x, rfl, _⟩
      · exact .inl ⟨p, by simp⟩
      · exact .inl ⟨p, by simp⟩
      · exact .inl ⟨p, by simp⟩
      · exact .inl ⟨p, by simp⟩
      · exact .inl ⟨p, by simp⟩
      · exact .inr ⟨p, x, rfl⟩
    · left; simp
  · intro p pt character sent hp hc hs
    have char_eq : charTicks pt.divisor = character := hc.symm
    have port_eq : State.port { s.countTick with pending := s.dueAtTick } p = pt.tick := by
      rw [← hp]; exact s.countTick_port p
    have due (c : Instr) (h : portEvent c = some p) := (s.mem_dueAtTick_port c p h).trans (Port.mem_due _ p _ _ c)
    rw [hp] at due
    rw [port_eq]
    refine ⟨?_, ?_, ?_, ?_, ?_, ?_, fun x => ?_⟩
    · rw [← char_eq]; exact pt.tick_only sent hs
    · exact (due _ rfl).trans (by simp [Port.inRound_iff, and_assoc])
    · refine (due _ rfl).trans ?_
      by_cases waiting : pt.phase = .awaiting <;> simp [char_eq, waiting]
    · exact (due _ rfl).trans (by simp [char_eq, ← hs])
    · exact (due _ rfl).trans (by simp [char_eq, ← hs])
    · exact (due _ rfl).trans (by simp)
    · exact (due _ rfl).trans (by simp [Port.loopedBack_iff])
  · exact (s.mem_dueAtTick_writer _ rfl (by simp)).trans ((s.mem_writerDue _).trans (by simp))
  · exact (s.mem_dueAtTick_writer _ rfl (by simp)).trans ((s.mem_writerDue _).trans (by simp [s.drained_iff]))
  · exact (s.mem_dueAtTick_writer _ rfl (by simp)).trans ((s.mem_writerDue _).trans (by simp [s.abandoned_iff]))
  · exact (s.mem_dueAtTick_writer _ rfl (by simp)).trans ((s.mem_writerDue _).trans (by simp))
end Sys2Proof.Machine
end

