-- ==== Sys2Proof/Proofs/Completing.lean ====
section
/-! PROOF. The completions of a drain, an abandon and a flush (R14 to R16, R88, R92, R146). -/
namespace Sys2Proof.Machine

/-- With every bay, run and sheet gone and no turn in progress, a sitting in DRAINING without an abandon has drained (R14). -/
theorem State.drained_of (s : State) (g : CloseTarget) (hs : s.sitting.state = .closing) (hc : s.sitting.close = some g)
    (hg : g.draining = true) (hturn : s.writer.turn = none) (hsheets : ∀ t : Fin 34, s.writer.sheets[t] = none)
    (ha : s.sitting.abandon = none) (hf : s.sitting.finalMark = none) (hb : ∀ t : Fin 34, s.path.bays.bay[t].items = [])
    (hr : ∀ c : Fin 32, s.path.channels[c].run = none) (hm : s.path.fcu.mixRun = none) : s.drained = true := by
  refine s.drained_iff.mpr ⟨?_, ha, hf, hturn, hb, hsheets, fun k => ?_⟩
  · unfold Sitting.draining; rw [hs, hc]; exact hg
  · unfold Path.runOf
    split
    · rename_i hk
      exact hr ⟨k.val, hk⟩
    · exact hm

/-- R14, R15, R88, R92: the audio path of a sitting that has ended. -/
theorem State.reachArmed_path (s : State) (g : CloseTarget) (n m : Nat) : (s.reachArmed g n m).path =
    { s.path.sittingEnded with attn := if g.reason = .limit then s.path.attn.raise .sitting else s.path.attn } := by
  unfold State.reachArmed
  cases g.reason <;> rfl

/-- R88, R92: a channel keeps neither snapshots nor privacy past the sitting. -/
theorem Path.sittingEnded_channel (p : Path) (c : Fin 32) : p.sittingEnded.channels[c] =
    { p.channels[c] with snapshots := [], privacy := false, outcome := none, settled := false } :=
  Vector.getElem_map ..

/-- R14: the CLOSE cell has its result. -/
theorem State.reachArmed_scan (s : State) (g : CloseTarget) (n m : Nat) : (s.reachArmed g n m).scan =
    match g.cell with
    | some c => s.scan.finish c (g.result n m)
    | none => s.scan := by
  unfold State.reachArmed; rfl

theorem execDrainComplete_drained (s : State) (g : CloseTarget) (hc : s.sitting.close = some g) (h : s.drained = true) :
    exec .drainComplete s = .next (s.reachArmed g 0 0).refresh := by
  show Host.Outcome.next _ = _
  rw [hc]
  exact congrArg _ (if_pos h)

theorem execAbandonComplete_abandoned (s : State) (cells : List (Fin 16)) (d : Discarded) (g : CloseTarget)
    (ha : s.sitting.abandon = some { cells := cells, discarded := some d }) (hc : s.sitting.close = some g)
    (h : s.abandoned = true) :
    exec .abandonComplete s = .next (s.completeAbandon { cells := cells, discarded := some d } d g).refresh := by
  show Host.Outcome.next _ = _
  rw [ha, hc]
  exact congrArg _ (if_pos h)

/-- R145, R160: the starving set brought up to date keeps every cause that is pending. -/
theorem State.refresh_raised (s : State) (c : Cause) (h : Raised s c) : Raised s.refresh c := by
  unfold Raised State.refresh
  dsimp only
  split
  · exact Attention.raise_pending_of _ _ _ h
  · exact h

/-- R16: what the completion of an abandon and the starving set brought up to date change of the part. -/
theorem State.completeAbandon_refresh (s : State) (a : Abandon) (d : Discarded) (g : CloseTarget) (v : State)
    (hv : (s.completeAbandon a d g).refresh = v) : v = { s with
      sitting := { s.sitting with state := .armed, close := none, finalMark := none, abandon := none }
      path := v.path, scan := { s.scan with held := v.scan.held }, supply := { s.supply with dipStart := none }
      writer := { s.writer with
        starving := v.writer.starving
        flush := s.writer.flush.map fun f =>
          if f.abandoned = true ∧ f.complete = false then { f with complete := true } else f } } := by
  have e := (s.completeAbandon a d g).refresh_eq
  rw [hv] at e
  generalize v.path.attn = attn at e
  generalize v.writer.starving = starving at e
  subst e
  rw [s.completeAbandon_only a d g]

theorem State.completeAbandon_path (s : State) (a : Abandon) (d : Discarded) (g : CloseTarget) :
    (s.completeAbandon a d g).path = { s.path.sittingEnded with
      attn := if g.reason = .limit then s.path.attn.raise .sitting else s.path.attn } := by
  rw [s.completeAbandon_only a d g]

/-- R146: a flush that is due completes. -/
theorem execFlushComplete_due (s : State) (f : Flush) (hf : s.writer.flush = some f) (h : f.due = true) :
    exec .flushComplete s = .next (s.completeFlush f) := by
  show Host.Outcome.next _ = _
  rw [hf]
  exact congrArg _ (if_pos h)

/-- Settles O55. -/
theorem completions : Obligations.Completions := by
  refine ⟨fun s g hs hc hg hturn hsheets => ⟨fun ha hf hb hr hm => ?_, fun cells d ha => ?_⟩, fun s f hf hsheets hrem hc ha => ?_⟩
  · have empty : ∀ k : Fin 34, (s.reachArmed g 0 0).path.bays.bay[k].items = [] := by
      rw [s.reachArmed_path]; exact hb
    refine ⟨_, execDrainComplete_drained s g hc (s.drained_of g hs hc hg hturn hsheets ha hf hb hr hm), ?_⟩
    rw [State.refresh_empty _ empty]
    refine ⟨rfl, ?_⟩
    dsimp only
    rw [s.reachArmed_path, s.reachArmed_scan]
    refine ⟨s.path.sittingEnded_channel, rfl, rfl, rfl, rfl, fun hn => by rw [hn], fun cell hcell => ?_⟩
    rw [hcell]
    rfl
  · have due : s.abandoned = true := s.abandoned_iff.mpr ⟨hturn, hsheets, cells, d, ha⟩
    refine ⟨_, execAbandonComplete_abandoned s cells d g ha hc due, s.completeAbandon_refresh _ d g _ rfl, ?_⟩
    rw [State.refresh_channels, State.refresh_bays, State.refresh_stations, State.refresh_fcu, State.refresh_scan]
    have held := s.completeAbandon_held cells d g
    have path := s.completeAbandon_path { cells := cells, discarded := some d } d g
    generalize s.completeAbandon { cells := cells, discarded := some d } d g = u at held path ⊢
    rw [path]
    refine ⟨s.path.sittingEnded_channel, rfl, rfl, rfl, fun hl => ?_, fun hb => ?_, ?_⟩
    · refine u.refresh_raised .sitting ?_
      unfold Raised
      rw [path, if_pos hl]
      exact Attention.raise_pending_self _ _
    · rw [State.refresh_empty u (by rw [path]; exact hb), path]
    · rintro emptied flushed _ _ h1 h2 rfl rfl
      exact held emptied flushed h1 h2
  · have due : f.due = true := by
      unfold Flush.due
      rw [f.emptied_iff.mpr ⟨hsheets, hrem⟩, hc, ha]
      rfl
    refine ⟨_, execFlushComplete_due s f hf due, ?_⟩
    unfold State.completeFlush Flush.result Result.mk3
    rw [Scanner.finishAll_eq, ha]
    rfl

end Sys2Proof.Machine
end

