-- ==== Sys2Proof/Proofs/Abandoning.lean ====
section
/-! PROOF. ABANDON_STAGED: the discard, at once or at the end of the turn in progress (R16, R129, R144, R146). -/
namespace Sys2Proof.Machine

/-! ### The request -/

theorem Path.anyRun_eq_true (p : Path) :
    p.anyRun = true ↔ (∃ c : Fin 32, p.channels[c].run ≠ none) ∨ p.fcu.mixRun ≠ none := by
  have none : p.anyRun = false ↔ (∀ c : Fin 32, p.channels[c].run = none) ∧ p.fcu.mixRun = none := by
    unfold Path.anyRun
    rw [Bool.or_eq_false_iff, List.any_eq_false, forall_mem_toList p.channels fun c => ¬c.run.isSome = true]
    simp
  rw [← Bool.not_eq_false, none, not_and_or, not_forall]

/-- R16: what counts as staged. -/
theorem State.staged_iff (s : State) : s.staged = true ↔ (∃ t : Fin 34, s.path.bays.bay[t].items ≠ []) ∨
    (∃ c : Fin 32, s.path.channels[c].run ≠ none) ∨ s.path.fcu.mixRun ≠ none ∨ s.sitting.finalMark ≠ none := by
  have bays : s.path.bays.allEmpty = false ↔ ∃ t : Fin 34, s.path.bays.bay[t].items ≠ [] := by
    rw [← Bool.not_eq_true, s.path.bays.allEmpty_iff, not_forall]
  unfold State.staged
  rw [Bool.or_eq_true, Bool.or_eq_true, Bool.not_eq_true', bays, s.path.anyRun_eq_true, or_assoc, or_assoc,
    Option.isSome_iff_ne_none]

/-- An abandon that waits for the end of the turn in progress. -/
def State.awaitAbandon (s : State) : State :=
  { s with sitting := { s.sitting with abandon := some { cells := [s.scan.cursor], discarded := none } } }

/-- R16: an abandon taken. -/
theorem State.beginAbandon_taken (s : State) (hd : s.sitting.draining = true) (hs : s.staged = true)
    (ha : s.sitting.abandon = none) : s.beginAbandon = (s.awaitAbandon.discardIfWaiting.refresh, .long none) := by
  unfold State.beginAbandon
  rw [if_pos ⟨hd, hs⟩, ha]
  rfl

/-- R144: the sheet of a track after a discard is due to be closed with reason SITTING_CLOSED. -/
theorem State.closeDue_discarded {u v : State} {cells : List (Fin 16)} (h : Discards u v cells) (k : Fin 34)
    (hk : (v.writer.sheets[k]).isSome) : v.closeDue k = some .sittingClosed := by
  obtain ⟨_, _, _, _, _, _, _, sheets⟩ := h
  have hs := sheets k
  cases ho : u.writer.sheets[k] with
  | none => rw [hs, ho] at hk; cases hk
  | some o =>
    unfold State.closeDue
    rw [hs, ho]
    rfl

/-- A discard does not depend on the scanner. -/
theorem Discards.setScan {u v : State} {cells : List (Fin 16)} (h : Discards u v cells) (sc : Scanner) :
    Discards u { v with scan := sc } cells := by
  obtain ⟨only, rest⟩ := h
  exact ⟨congrArg (fun x : State => { x with scan := sc }) only, rest⟩

theorem State.discardIfWaiting_attn (s : State) : s.discardIfWaiting.path.attn = s.path.attn := by
  unfold State.discardIfWaiting
  repeat' split
  all_goals rfl

/-- After a discard no bay holds an item, so that nothing is raised (R145). -/
theorem Discards.refresh_attn {u w : State} {cells : List (Fin 16)} (h : Discards u w.refresh cells) :
    w.refresh.path.attn = w.path.attn := by
  obtain ⟨_, bays, _⟩ := h
  have empty (k : Fin 34) : w.path.bays.bay[k].items = [] := by
    rw [← State.refresh_bays, bays k]
  rw [w.refresh_empty empty]

theorem State.discardIfWaiting_busy (s : State) (h : s.writer.turn ≠ none) : s.discardIfWaiting = s := by
  unfold State.discardIfWaiting
  repeat' split
  · contradiction
  all_goals rfl

theorem abandonStaged_request (s : State) :
    (s.sitting.draining = true → s.sitting.abandon = none → s.writer.turn = none → s.staged = true →
      ∀ tag, s.scan.step = .taking tag .abandonStaged → ∃ t, exec .abandonStaged s = .next t ∧
        HeldFor s t tag 7 none ∧ Discards s t [s.scan.cursor] ∧ t.path.attn = s.path.attn ∧
        ∀ k : Fin 34, (t.writer.sheets[k]).isSome → t.closeDue k = some .sittingClosed) ∧
    (s.sitting.draining = true → s.sitting.abandon = none → s.writer.turn ≠ none → s.staged = true →
      ∀ tag, s.scan.step = .taking tag .abandonStaged → ∃ t, exec .abandonStaged s = .next t ∧
        HeldFor s t tag 7 none ∧
        t.sitting = { s.sitting with abandon := some { cells := [s.scan.cursor], discarded := none } } ∧
        t.path.bays = s.path.bays) := by
  refine ⟨fun hd ha ht hs tag h => ?_, fun hd ha ht hs tag h => ?_⟩
  · obtain ⟨discards, scan⟩ := State.discard_discards s.awaitAbandon s [s.scan.cursor] rfl ht rfl
    obtain ⟨t, run, only, held⟩ := heldLong_of_take (c := .abandonStaged) rfl (s.beginAbandon_taken hd hs ha) scan tag h
    have after : Discards s t [s.scan.cursor] := by rw [only]; exact discards.setScan t.scan
    refine ⟨t, run, held, after, ?_, State.closeDue_discarded after⟩
    rw [only]
    exact discards.refresh_attn.trans (State.discardIfWaiting_attn _)
  · have taken : s.beginAbandon = (s.awaitAbandon.refresh, .long none) := by
      rw [s.beginAbandon_taken hd hs ha, s.awaitAbandon.discardIfWaiting_busy ht]
    obtain ⟨t, run, only, held⟩ :=
      heldLong_of_take (c := .abandonStaged) rfl taken s.awaitAbandon.refresh_scan tag h
    refine ⟨t, run, held, ?_, ?_⟩ <;> rw [only]
    · exact s.awaitAbandon.refresh_sitting
    · exact s.awaitAbandon.refresh_bays

theorem abandonStaged_refused (s : State) (h : s.sitting.draining = false ∨ ¬s.staged = true) :
    AnswersAtOnce .abandonStaged s s { code := .refusedState, w0 := 0, w1 := 0, w2 := 0 } := by
  have refused : s.beginAbandon = (s, .short (Result.plain .refusedState)) :=
    if_neg fun ⟨hd, hs⟩ => h.elim (fun h => by rw [h] at hd; cases hd) (· hs)
  exact answersAtOnce_of_take rfl refused rfl

/-! ### The end of the turn that an abandon waits for -/

/-- The part with no abandon waiting. -/
def State.withoutAbandon (s : State) : State := { s with sitting := { s.sitting with abandon := none } }

theorem State.startItem_withoutAbandon (s : State) (t : Fin 34) :
    s.withoutAbandon.startItem t = (s.startItem t).withoutAbandon := by
  unfold State.startItem State.withoutAbandon
  dsimp only
  repeat' split
  all_goals rfl

theorem State.setEmptyClose_withoutAbandon (s : State) (t : Fin 34) :
    s.withoutAbandon.setEmptyClose t = (s.setEmptyClose t).withoutAbandon := by
  rw [State.setEmptyClose_eq, State.setEmptyClose_eq]
  rfl

theorem State.offerFinal_withoutAbandon (s : State) : s.withoutAbandon.offerFinal = s.offerFinal.withoutAbandon := by
  unfold State.offerFinal State.withoutAbandon
  dsimp only
  repeat' split
  all_goals rfl

/-- MARKS_WITHHELD does not read the abandon (R127). -/
theorem Bays.countMark_withoutAbandon (s : State) (bs : Bays) : bs.countMark s.withoutAbandon.ctx = bs.countMark s.ctx := by
  unfold Bays.countMark; rfl

theorem State.released_withoutAbandon (s : State) (t : Fin 34) :
    s.withoutAbandon.released t = (s.released t).withoutAbandon := by
  have hand : s.withoutAbandon.handRelease t = (s.handRelease t).withoutAbandon := by
    unfold State.handRelease
    dsimp only
    split
    · rfl
    · rw [Bays.countMark_withoutAbandon]
      exact State.offerFinal_withoutAbandon { s with
        path := { s.path.release t with bays := (s.path.release t).bays.countMark s.ctx } }
  unfold State.released
  rw [hand, State.setEmptyClose_withoutAbandon]

theorem State.countClosed_withoutAbandon (s : State) : s.withoutAbandon.countClosed = s.countClosed.withoutAbandon := by
  unfold State.countClosed State.withoutAbandon
  dsimp only
  split <;> rfl

@[simp] theorem State.withoutAbandon_writer (s : State) : s.withoutAbandon.writer = s.writer := rfl

@[simp] theorem State.withoutAbandon_path (s : State) : s.withoutAbandon.path = s.path := rfl

/-- A command ends the turn in progress, with an abandon waiting as without. -/
def EndsTurn (c : Instr) (s : State) : Prop :=
  ∃ x : State, exec c s = .next x.turnEnded ∧ exec c s.withoutAbandon = .next x.withoutAbandon.turnEnded ∧
    x.sitting.abandon = s.sitting.abandon

/-- Without an abandon a command leaves a turn in progress. -/
def LeavesTurn (c : Instr) (s : State) : Prop := ∃ u : State, exec c s.withoutAbandon = .next u ∧ u.writer.turn ≠ none

theorem EndsTurn.discards {c : Instr} {s u : State} {cells : List (Fin 16)} (h : EndsTurn c s)
    (ha : s.sitting.abandon = some { cells := cells, discarded := none }) (hu : exec c s.withoutAbandon = .next u) :
    ∃ v, exec c s = .next v ∧ Discards u v cells ∧ v.scan = u.scan := by
  obtain ⟨x, run, bare, abandon⟩ := h
  obtain ⟨discards, scan⟩ := x.turnEnded_discards cells (abandon.trans ha)
  rw [bare] at hu
  cases hu
  refine ⟨_, run, discards, scan.trans ?_⟩
  rw [x.withoutAbandon.turnEnded_only rfl]
  rfl

/-- A command that is not of the turn's write under way leaves the turn. -/
theorem LeavesTurn.of_still {c : Instr} {s : State} (ht : s.writer.turn ≠ none)
    (h : exec c s.withoutAbandon = .next s.withoutAbandon) : LeavesTurn c s := ⟨_, h, ht⟩

/-- Two states that a command's turn ends in, one without the abandon of the other. -/
theorem EndsTurn.of_eq {c : Instr} {s x y : State} (run : exec c s = .next x.turnEnded)
    (bare : exec c s.withoutAbandon = .next y.turnEnded) (hy : y = x.withoutAbandon)
    (abandon : x.sitting.abandon = s.sitting.abandon) : EndsTurn c s :=
  ⟨x, run, hy ▸ bare, abandon⟩

/-! #### WRITING_WRITE (R136) -/

/-- The sheet of a done WRITING write. -/
def State.sheetOpened (s : State) (a : Arming) (t : Fin 34) (q : Queued) : State :=
  { s.write (a.status q.index) (statusBytes .writing t.val s.writer.serials[t]) with
    writer := s.writer.opened t q s.frame }

/-- A WRITING write that failed: the entry is forgotten. -/
def State.entryForgotten (s : State) (q : Queued) : State :=
  { s.accessFailed with writer := s.writer.setOwner q.index .notHeld }

theorem execWritingWrite_done (s : State) (a : Arming) (t : Fin 34) (q : Queued)
    (hw : s.writer.turn = some { track := t, write := .writing q }) (ha : s.writer.arming = some a) :
    exec (.writingWrite .done) s = .next (if ((s.sheetOpened a t q).startItem t).writer.turn = none
      then ((s.sheetOpened a t q).startItem t).turnEnded else ((s.sheetOpened a t q).startItem t).refresh) := by
  show Host.Outcome.next _ = _
  rw [hw, ha]; rfl

theorem execWritingWrite_failed (s : State) (a : Arming) (t : Fin 34) (q : Queued)
    (hw : s.writer.turn = some { track := t, write := .writing q }) (ha : s.writer.arming = some a) :
    exec (.writingWrite .failed) s = .next (s.entryForgotten q).turnEnded := by
  show Host.Outcome.next _ = _
  rw [hw, ha]; rfl

theorem execWritingWrite_still (s : State) (how : WriteEnd)
    (h : s.writer.arming = none ∨ ∀ t q, s.writer.turn ≠ some { track := t, write := .writing q }) :
    exec (.writingWrite how) s = .next s := by
  show Host.Outcome.next _ = _
  split
  · rename_i hw ha
    exact absurd hw (h.elim (fun h => by rw [h] at ha; cases ha) fun h => h _ _)
  · rfl

theorem State.startItem_sitting (s : State) (t : Fin 34) : (s.startItem t).sitting = s.sitting := by
  unfold State.startItem
  repeat' split
  all_goals rfl

theorem writingWrite_turn (s : State) (how : WriteEnd) (ht : s.writer.turn ≠ none) :
    EndsTurn (.writingWrite how) s ∨ LeavesTurn (.writingWrite how) s := by
  by_cases still : s.writer.arming = none ∨ ∀ t q, s.writer.turn ≠ some { track := t, write := .writing q }
  · exact .inr (.of_still ht (execWritingWrite_still _ how still))
  · push Not at still
    obtain ⟨armed, t, q, hw⟩ := still
    obtain ⟨a, ha⟩ := Option.ne_none_iff_exists'.mp armed
    cases how with
    | failed =>
      exact .inl (.of_eq (execWritingWrite_failed s a t q hw ha) (execWritingWrite_failed s.withoutAbandon a t q hw ha)
        rfl rfl)
    | done =>
      have run := execWritingWrite_done s a t q hw ha
      have bare := execWritingWrite_done s.withoutAbandon a t q hw ha
      rw [show s.withoutAbandon.sheetOpened a t q = (s.sheetOpened a t q).withoutAbandon from rfl,
        State.startItem_withoutAbandon] at bare
      have sitting := (s.sheetOpened a t q).startItem_sitting t
      by_cases ended : ((s.sheetOpened a t q).startItem t).writer.turn = none
      · exact .inl (.of_eq (run.trans (congrArg _ (if_pos ended))) (bare.trans (congrArg _ (if_pos ended))) rfl
          (congrArg Sitting.abandon sitting))
      · refine .inr ⟨_, bare.trans (congrArg _ (if_neg ended)), ?_⟩
        rw [State.refresh_eq]; exact ended

/-! #### ITEM_WRITE_DONE and ITEM_WRITE_FAILED (R137, R141) -/

/-- The item in its sheet, and the records that count it. -/
def State.itemStored (s : State) (t : Fin 34) (o : OpenSheet) (i : Item) : State :=
  { s.write (sheetBase o.address + BitVec.ofNat 64 (64 + o.used)) i.bytes with writer := s.writer.itemWritten t o i }

theorem execItemWriteDone_stored (s : State) (t : Fin 34) (o : OpenSheet) (i : Item) (rest : List Item)
    (hw : s.writer.turn = some { track := t, write := .item }) (ho : s.writer.sheets[t] = some o)
    (hi : s.path.bays.bay[t].items = i :: rest) :
    exec .itemWriteDone s = .next ((s.itemStored t o i).released t).turnEnded := by
  show Host.Outcome.next _ = _
  rw [hw]; dsimp only
  rw [ho, hi]; rfl

theorem execItemWriteDone_none (s : State) (t : Fin 34) (hw : s.writer.turn = some { track := t, write := .item })
    (h : s.writer.sheets[t] = none ∨ s.path.bays.bay[t].items = []) : exec .itemWriteDone s = .next s.turnEnded := by
  show Host.Outcome.next _ = _
  rw [hw]; dsimp only
  rcases h with h | h
  · rw [h]
  · rw [h]; cases s.writer.sheets[t] <;> rfl

theorem execItemWriteFailed_faults (s : State) (t : Fin 34) (o : OpenSheet)
    (hw : s.writer.turn = some { track := t, write := .item }) (ho : s.writer.sheets[t] = some o) :
    exec .itemWriteFailed s = .next (s.accessFailed.startHeader t o .fault) := by
  show Host.Outcome.next _ = _
  rw [hw]; dsimp only
  rw [ho]

theorem execItemWriteFailed_none (s : State) (t : Fin 34) (hw : s.writer.turn = some { track := t, write := .item })
    (h : s.writer.sheets[t] = none) : exec .itemWriteFailed s = .next s.accessFailed.turnEnded := by
  show Host.Outcome.next _ = _
  rw [hw]; dsimp only
  rw [h]

theorem execItemWrite_still (s : State) (h : ∀ t, s.writer.turn ≠ some { track := t, write := .item }) :
    exec .itemWriteDone s = .next s ∧ exec .itemWriteFailed s = .next s := by
  constructor
  · show Host.Outcome.next _ = _
    split
    · rename_i hw; exact absurd hw (h _)
    · rfl
  · show Host.Outcome.next _ = _
    split
    · rename_i hw; exact absurd hw (h _)
    · rfl

theorem itemWriteDone_turn (s : State) (ht : s.writer.turn ≠ none) :
    EndsTurn .itemWriteDone s ∨ LeavesTurn .itemWriteDone s := by
  by_cases still : ∀ t, s.writer.turn ≠ some { track := t, write := .item }
  · exact .inr (.of_still ht (execItemWrite_still s.withoutAbandon still).1)
  · push Not at still
    obtain ⟨t, hw⟩ := still
    left
    by_cases lost : s.writer.sheets[t] = none ∨ s.path.bays.bay[t].items = []
    · exact .of_eq (execItemWriteDone_none s t hw lost) (execItemWriteDone_none s.withoutAbandon t hw lost) rfl rfl
    · push Not at lost
      obtain ⟨opened, staged⟩ := lost
      obtain ⟨o, ho⟩ := Option.ne_none_iff_exists'.mp opened
      obtain ⟨i, rest, hi⟩ := List.exists_cons_of_ne_nil staged
      refine .of_eq (execItemWriteDone_stored s t o i rest hw ho hi)
        (execItemWriteDone_stored s.withoutAbandon t o i rest hw ho hi) ((s.itemStored t o i).released_withoutAbandon t) ?_
      obtain ⟨_, _, _, e⟩ := (s.itemStored t o i).released_only t
      rw [e]; rfl

theorem itemWriteFailed_turn (s : State) (ht : s.writer.turn ≠ none) :
    EndsTurn .itemWriteFailed s ∨ LeavesTurn .itemWriteFailed s := by
  by_cases still : ∀ t, s.writer.turn ≠ some { track := t, write := .item }
  · exact .inr (.of_still ht (execItemWrite_still s.withoutAbandon still).2)
  · push Not at still
    obtain ⟨t, hw⟩ := still
    cases ho : s.writer.sheets[t] with
    | none =>
      exact .inl (.of_eq (execItemWriteFailed_none s t hw ho) (execItemWriteFailed_none s.withoutAbandon t hw ho) rfl rfl)
    | some o => exact .inr ⟨_, execItemWriteFailed_faults s.withoutAbandon t o hw ho, nofun⟩

/-! #### CLOSED_WRITE and FAULTED_WRITE (R139, R141) -/

/-- A sheet ended by a fault, its FAULTED write or its CLOSED write ended as `how` says. -/
def State.sheetFaulted (s : State) (how : WriteEnd) (a : Arming) (t : Fin 34) (o : OpenSheet) (bytes : List Byte) : State :=
  { s.writeEnds how (a.status o.index) bytes with writer := s.writer.sheetEnded t o .fault }

/-- A sheet closed and counted. -/
def State.sheetClosed (s : State) (a : Arming) (t : Fin 34) (o : OpenSheet) (reason : SheetReason) : State :=
  let s1 := (s.write (a.status o.index) (statusBytes .closed t.val o.serial)).countClosed
  State.raise { s1 with writer := s1.writer.sheetEnded t o reason, sitting := s.sitting.countSheet reason } .sheet

theorem State.sheetClosed_withoutAbandon (s : State) (a : Arming) (t : Fin 34) (o : OpenSheet) (reason : SheetReason) :
    s.withoutAbandon.sheetClosed a t o reason = (s.sheetClosed a t o reason).withoutAbandon := by
  unfold State.sheetClosed
  rw [show s.withoutAbandon.write (a.status o.index) (statusBytes .closed t.val o.serial) =
    (s.write (a.status o.index) (statusBytes .closed t.val o.serial)).withoutAbandon from rfl,
    State.countClosed_withoutAbandon]
  rfl

theorem execClosedWrite_closed (s : State) (a : Arming) (t : Fin 34) (o : OpenSheet) (reason : SheetReason)
    (hw : s.writer.turn = some { track := t, write := .closed reason }) (ha : s.writer.arming = some a)
    (ho : s.writer.sheets[t] = some o) :
    exec (.closedWrite .done) s = .next (s.sheetClosed a t o reason).turnEnded ∧
      exec (.closedWrite .failed) s =
        .next (s.sheetFaulted .failed a t o (statusBytes .closed t.val o.serial)).turnEnded := by
  constructor <;>
  · show Host.Outcome.next _ = _
    rw [hw, ha]; dsimp only
    rw [ho]; rfl

theorem execClosedWrite_none (s : State) (how : WriteEnd) (a : Arming) (t : Fin 34) (reason : SheetReason)
    (hw : s.writer.turn = some { track := t, write := .closed reason }) (ha : s.writer.arming = some a)
    (ho : s.writer.sheets[t] = none) : exec (.closedWrite how) s = .next s.turnEnded := by
  show Host.Outcome.next _ = _
  rw [hw, ha]; dsimp only
  rw [ho]

theorem execClosedWrite_still (s : State) (how : WriteEnd)
    (h : s.writer.arming = none ∨ ∀ t r, s.writer.turn ≠ some { track := t, write := .closed r }) :
    exec (.closedWrite how) s = .next s := by
  show Host.Outcome.next _ = _
  split
  · rename_i hw ha
    exact absurd hw (h.elim (fun h => by rw [h] at ha; cases ha) fun h => h _ _)
  · rfl

theorem closedWrite_turn (s : State) (how : WriteEnd) (ht : s.writer.turn ≠ none) :
    EndsTurn (.closedWrite how) s ∨ LeavesTurn (.closedWrite how) s := by
  by_cases still : s.writer.arming = none ∨ ∀ t r, s.writer.turn ≠ some { track := t, write := .closed r }
  · exact .inr (.of_still ht (execClosedWrite_still _ how still))
  · push Not at still
    obtain ⟨armed, t, reason, hw⟩ := still
    obtain ⟨a, ha⟩ := Option.ne_none_iff_exists'.mp armed
    left
    cases ho : s.writer.sheets[t] with
    | none =>
      exact .of_eq (execClosedWrite_none s how a t reason hw ha ho)
        (execClosedWrite_none s.withoutAbandon how a t reason hw ha ho) rfl rfl
    | some o =>
      obtain ⟨done, failed⟩ := execClosedWrite_closed s a t o reason hw ha ho
      obtain ⟨done', failed'⟩ := execClosedWrite_closed s.withoutAbandon a t o reason hw ha ho
      cases how with
      | done => exact .of_eq done done' (s.sheetClosed_withoutAbandon a t o reason) rfl
      | failed => exact .of_eq failed failed' rfl rfl

theorem execFaultedWrite_faulted (s : State) (how : WriteEnd) (a : Arming) (t : Fin 34) (o : OpenSheet)
    (hw : s.writer.turn = some { track := t, write := .faulted }) (ha : s.writer.arming = some a)
    (ho : s.writer.sheets[t] = some o) : exec (.faultedWrite how) s =
      .next (s.sheetFaulted how a t o (statusBytes .faulted t.val o.serial)).turnEnded := by
  show Host.Outcome.next _ = _
  rw [hw, ha]; dsimp only
  rw [ho]
  cases how <;> rfl

theorem execFaultedWrite_none (s : State) (how : WriteEnd) (a : Arming) (t : Fin 34)
    (hw : s.writer.turn = some { track := t, write := .faulted }) (ha : s.writer.arming = some a)
    (ho : s.writer.sheets[t] = none) : exec (.faultedWrite how) s = .next s.turnEnded := by
  show Host.Outcome.next _ = _
  rw [hw, ha]; dsimp only
  rw [ho]

theorem execFaultedWrite_still (s : State) (how : WriteEnd)
    (h : s.writer.arming = none ∨ ∀ t, s.writer.turn ≠ some { track := t, write := .faulted }) :
    exec (.faultedWrite how) s = .next s := by
  show Host.Outcome.next _ = _
  split
  · rename_i hw ha
    exact absurd hw (h.elim (fun h => by rw [h] at ha; cases ha) fun h => h _)
  · rfl

theorem faultedWrite_turn (s : State) (how : WriteEnd) (ht : s.writer.turn ≠ none) :
    EndsTurn (.faultedWrite how) s ∨ LeavesTurn (.faultedWrite how) s := by
  by_cases still : s.writer.arming = none ∨ ∀ t, s.writer.turn ≠ some { track := t, write := .faulted }
  · exact .inr (.of_still ht (execFaultedWrite_still _ how still))
  · push Not at still
    obtain ⟨armed, t, hw⟩ := still
    obtain ⟨a, ha⟩ := Option.ne_none_iff_exists'.mp armed
    left
    cases ho : s.writer.sheets[t] with
    | none =>
      exact .of_eq (execFaultedWrite_none s how a t hw ha ho) (execFaultedWrite_none s.withoutAbandon how a t hw ha ho)
        rfl rfl
    | some o =>
      refine .of_eq (execFaultedWrite_faulted s how a t o hw ha ho)
        (execFaultedWrite_faulted s.withoutAbandon how a t o hw ha ho) ?_ ?_ <;>
      cases how <;> rfl

/-- R16: each command that ends a turn. -/
theorem turn_ends_or_stays (s : State) (c : Instr) (ht : s.writer.turn ≠ none)
    (hc : c ∈ [.writingWrite .done, .writingWrite .failed, .itemWriteDone, .itemWriteFailed, .closedWrite .done,
      .closedWrite .failed, .faultedWrite .done, .faultedWrite .failed]) : EndsTurn c s ∨ LeavesTurn c s := by
  simp only [List.mem_cons, List.not_mem_nil, or_false] at hc
  rcases hc with rfl | rfl | rfl | rfl | rfl | rfl | rfl | rfl
  · exact writingWrite_turn s .done ht
  · exact writingWrite_turn s .failed ht
  · exact itemWriteDone_turn s ht
  · exact itemWriteFailed_turn s ht
  · exact closedWrite_turn s .done ht
  · exact closedWrite_turn s .failed ht
  · exact faultedWrite_turn s .done ht
  · exact faultedWrite_turn s .failed ht

/-- Settles O39. -/
theorem abandonStaged : Obligations.AbandonStaged := by
  refine ⟨fun s => ⟨fun hd ha ht hs => ?_, fun hd ha ht hs => ?_, fun h => ?_⟩, fun s u cells c hc ha ht hu hturn => ?_⟩
  · exact (abandonStaged_request s).1 hd ha ht (s.staged_iff.mpr hs)
  · exact (abandonStaged_request s).2 hd ha ht (s.staged_iff.mpr hs)
  · refine abandonStaged_refused s (h.imp_right fun ⟨items, run, mix, mark⟩ staged => ?_)
    rcases s.staged_iff.mp staged with ⟨t, h⟩ | ⟨c, h⟩ | h | h
    · exact h (items t)
    · exact h (run c)
    · exact h mix
    · exact h mark
  · rcases turn_ends_or_stays s c ht hc with h | ⟨u', run, still⟩
    · exact h.discards ha hu
    · have : u' = u := by
        have := run.symm.trans hu
        cases this; rfl
      exact absurd hturn (this ▸ still)

end Sys2Proof.Machine
end

