-- ==== Sys2Proof/Proofs/BoardStep.lean ====
section
/-! PROOF. The board step of a scan, CELL_READ and the two failed reads of the request board (R5, R151 to R156; assumptions
13 and 66). -/
namespace Sys2Proof.Machine

/-! ### The held-cell set and the board step (R152, R153) -/

theorem Scanner.passes_iff (sc : Scanner) (c : Fin 16) : sc.passes c = true ↔ sc.passedOver c := by
  unfold Scanner.passes Scanner.passedOver
  cases h : sc.heldAt c with
  | none => simp
  | some e => cases e.due <;> cases e.result <;> simp_all

/-- The first cell from `i` onward that is not passed over. -/
theorem Scanner.firstCell_eq_some (sc : Scanner) (i : Nat) (c : Fin 16)
    (hi : i ≤ c.val) (before : ∀ d : Fin 16, i ≤ d.val → d < c → sc.passedOver d) (hc : ¬sc.passedOver c) :
    ((List.finRange 16).find? fun c => decide (i ≤ c.val) && !sc.passes c) = some c := by
  rw [← Fin.find?_eq_find?_finRange, Fin.find?_eq_some_iff]
  refine ⟨by simpa [hi, ← sc.passes_iff] using hc, fun d hd => ?_⟩
  by_cases hid : i ≤ d.val
  · simp [hid, (sc.passes_iff d).mpr (before d hid hd)]
  · simp [hid]

theorem Scanner.firstCell_eq_none (sc : Scanner) (i : Nat) (h : ∀ d : Fin 16, i ≤ d.val → sc.passedOver d) :
    ((List.finRange 16).find? fun c => decide (i ≤ c.val) && !sc.passes c) = none := by
  rw [← Fin.find?_eq_find?_finRange, Fin.find?_eq_none_iff]
  intro d
  by_cases hid : i ≤ d.val
  · simp [hid, (sc.passes_iff d).mpr (h d hid)]
  · simp [hid]

/-- R153: the first cell not passed over is read where it is not held. -/
theorem State.boardFrom_read (s : State) (i : Nat) (c : Fin 16) (hi : i ≤ c.val)
    (before : ∀ d : Fin 16, i ≤ d.val → d < c → s.scan.passedOver d) (hc : s.scan.heldAt c = none) :
    s.boardFrom i = { s.scan with cursor := c, step := .cell } := by
  have hp : ¬s.scan.passedOver c := fun ⟨e, he, _⟩ => by rw [hc] at he; cases he
  unfold State.boardFrom
  rw [s.scan.firstCell_eq_some i c hi before hp]
  dsimp only
  rw [hc]

/-- R153, R155: the first cell not passed over is completed where it is held. -/
theorem State.boardFrom_complete (s : State) (i : Nat) (c : Fin 16) (hi : i ≤ c.val)
    (before : ∀ d : Fin 16, i ≤ d.val → d < c → s.scan.passedOver d) (hp : ¬s.scan.passedOver c) (h : Held) (r : Result)
    (hc : s.scan.heldAt c = some h) (hr : h.result = some r) :
    s.boardFrom i = s.startCompletion c { kind := h.kind, tag := h.tag, result := r } := by
  unfold State.boardFrom
  rw [s.scan.firstCell_eq_some i c hi before hp]
  dsimp only
  rw [hc]
  dsimp only
  rw [hr]

/-- R152: after the last cell the pool or the head follows. -/
theorem State.boardFrom_over (s : State) (i : Nat) (h : ∀ d : Fin 16, i ≤ d.val → s.scan.passedOver d) :
    s.boardFrom i = s.startPool := by
  unfold State.boardFrom
  rw [s.scan.firstCell_eq_none i h]

/-- R133: the pool scan when it may begin, else the head. -/
theorem State.startPool_spec (s : State) :
    (∀ a, s.scan.poolDue = true → s.writer.arming = some a → 1 ≤ a.poolCount → s.writer.queue.length < 64 →
      s.startPool = { s.scan with step := .poolRead 0 }) ∧
    (s.scan.poolDue = false ∨ s.writer.arming = none ∨ 64 ≤ s.writer.queue.length →
      s.startPool = { s.scan with step := .head (headBytes s) }) := by
  unfold State.startPool
  refine ⟨fun a hd ha hc hq => ?_, fun h => ?_⟩
  · rw [if_pos hd]
    exact (s.poolNext_spec a ha 0).1 hc hq
  · cases hd : s.scan.poolDue with
    | false => rfl
    | true =>
      rw [if_pos rfl]
      cases ha : s.writer.arming with
      | none => unfold State.poolNext; rw [ha]; rfl
      | some a =>
        refine (s.poolNext_spec a ha 0).2 (.inr (h.elim (fun h => ?_) fun h => h.elim (fun h => ?_) id))
        · rw [hd] at h; cases h
        · rw [ha] at h; cases h

/-! ### The scan that begins at a boundary (R151) -/

/-- The scanner as a scan begins. -/
def State.scanBegun (s : State) : Scanner :=
  { s.scan with
    cursor := 0, poolDue := s.writer.arming.isSome, held := s.scan.held.map fun h => { h with due := h.result.isSome } }

theorem State.beginScan_busy (s : State) (h : s.scan.step ≠ .idle) : s.beginScan = s := by
  unfold State.beginScan
  dsimp only
  rw [if_neg h]

theorem State.beginScan_idle (s : State) (h : s.scan.step = .idle) :
    s.beginScan = { s with scan := ({ s with scan := s.scanBegun } : State).boardFrom 0 } := by
  unfold State.beginScan
  dsimp only
  rw [if_pos h]
  rfl

/-- Assumption 13: a held cell is due exactly where its result stands as the scan begins. -/
theorem State.heldAt_scanBegun (s : State) (c : Fin 16) (h : Held) : s.scanBegun.heldAt c = some h ↔
    ∃ g, s.scan.heldAt c = some g ∧ h = { g with due := g.result.isSome } := by
  unfold Scanner.heldAt State.scanBegun
  rw [List.find?_map]
  simp only [Option.map_eq_some_iff, eq_comm (a := h)]
  rfl

/-! ### The scanner through a boundary (R22, R151) -/

/-- The scanner and the arming stayed. -/
def SameScan (s t : State) : Prop := t.scan = s.scan ∧ t.writer.arming = s.writer.arming

theorem SameScan.trans {s t u : State} (h1 : SameScan s t) (h2 : SameScan t u) : SameScan s u :=
  ⟨h2.1.trans h1.1, h2.2.trans h1.2⟩

theorem SameScan.refl (s : State) : SameScan s s := ⟨rfl, rfl⟩

theorem State.roundsOver_sameScan (s : State) (e : Timer) (a b : Bool) : SameScan s (s.roundsOver e a b) := by
  have round (u : State) (p : PortId) : SameScan u (u.roundOver e p) := by
    unfold State.roundOver SameScan; simp
  cases a <;> cases b
  · exact .refl s
  · exact round s .b
  · exact round s .a
  · exact (round s .a).trans (round _ .b)

theorem State.offerFinal_sameScan (s : State) : SameScan s s.offerFinal := by
  rw [State.offerFinal_only]; exact ⟨rfl, rfl⟩

theorem State.closeFrame_sameScan (s : State) : SameScan s s.closeFrame := by
  have closes (u : State) : SameScan u u.setEmptyCloses := by
    rw [State.setEmptyCloses_only]; exact ⟨rfl, rfl⟩
  have begun (u : State) (h1 : u.scan = s.scan) (h2 : u.writer.arming = s.writer.arming) :
      SameScan s u.offerFinal.setEmptyCloses :=
    SameScan.trans ⟨h1, h2⟩ (u.offerFinal_sameScan.trans (closes _))
  unfold State.closeFrame
  dsimp only
  split
  · exact .refl s
  · split
    · exact begun _ rfl rfl
    · exact ⟨rfl, rfl⟩

theorem State.moveSitting_sameScan (s : State) : SameScan s s.moveSitting := by
  unfold State.moveSitting State.limitClose State.shiftFlag State.openSitting
  dsimp only
  repeat' split
  all_goals exact ⟨rfl, rfl⟩

theorem State.ageCloses_sameScan (s : State) : SameScan s s.ageCloses := by
  have step (u : State) (t : Fin 34) : SameScan u (u.ageClose t) := by
    rw [State.ageClose_eq]; split <;> exact ⟨rfl, rfl⟩
  unfold State.ageCloses
  generalize List.finRange 34 = l
  induction l generalizing s with
  | nil => exact .refl s
  | cons t l ih => exact (step s t).trans (ih _)

theorem State.takeSnapshots_sameScan (s : State) : SameScan s s.takeSnapshots.ownMix := by
  refine ⟨(State.ownMix_scan _).trans ?_, (congrArg Writer.arming (State.ownMix_writer _)).trans ?_⟩ <;>
  · unfold State.takeSnapshots
    split <;> rfl

/-- A port's boundary work hands back at most the result of a self-test (R49). -/
theorem State.portWork_scan (s : State) (p : PortId) :
    (s.portWork p).writer.arming = s.writer.arming ∧ ∃ l, (s.portWork p).scan = { s.scan with held := l } ∧
      (s.scan.held = [] → l = []) := by
  refine ⟨by unfold State.portWork; simp, ?_⟩
  unfold State.portWork
  dsimp only
  rw [State.withLink_scan]
  split
  · exact ⟨_, rfl, fun h => by rw [h]; rfl⟩
  · exact ⟨s.scan.held, rfl, id⟩

/-- A boundary's work before its scan leaves of the scanner all but results of held cells. -/
theorem State.boundary_scan (s : State) (a b : Bool) : ∃ (u : State) (l : List Held), s.boundary a b = u.beginScan ∧
    u.scan = { s.scan with held := l } ∧ (s.scan.held = [] → l = []) ∧ u.writer.arming = s.writer.arming := by
  have ended : SameScan s (s.endInterval a b).moveSitting := by
    have timer : SameScan s s.advanceTimer := ⟨State.advanceTimer_scan s, congrArg Writer.arming s.advanceTimer_writer⟩
    exact (((timer.trans (State.roundsOver_sameScan _ _ _ _)).trans (State.closeFrame_sameScan _)).trans
      (State.roundsOver_sameScan _ _ _ _)).trans (State.moveSitting_sameScan _)
  have snapshots : SameScan s (s.endInterval a b).moveSitting.takeSnapshots.ownMix := by
    exact ended.trans (State.takeSnapshots_sameScan _)
  have parts : s.boundary a b = (s.endInterval a b).moveSitting.takeSnapshots.ownMix.beginInterval := rfl
  rw [parts]
  generalize (s.endInterval a b).moveSitting.takeSnapshots.ownMix = x at snapshots ⊢
  obtain ⟨armA, la, scanA, emptyA⟩ := x.portWork_scan .a
  obtain ⟨armB, lb, scanB, emptyB⟩ := (x.portWork .a).portWork_scan .b
  have aged := ((x.portWork .a).portWork .b).ageCloses_sameScan
  refine ⟨_, lb, rfl, ?_, ?_, ?_⟩
  · rw [State.refresh_scan, aged.1, scanB, scanA, snapshots.1]
  · intro h
    refine emptyB ?_
    rw [scanA]
    exact emptyA (by rw [snapshots.1]; exact h)
  · have : ((x.portWork .a).portWork .b).ageCloses.refresh.writer.arming =
        ((x.portWork .a).portWork .b).ageCloses.writer.arming := by rw [State.refresh_eq]
    rw [this, aged.2, armB, armA, snapshots.2]

/-! ### The reads of the request board (R5, R153, R154, R156) -/

theorem execCellRead_taken (s : State) (bytes : List Byte) (h : s.scan.step = .cell) (hp : cellState bytes = 1)
    (ha : (∀ a, cellRequest bytes ≠ .arm a) ∨ s.sitting.state ≠ .idle) : exec (.cellRead bytes) s =
      .next { s with scan := { s.scan with step := .taking (cellTag bytes) (cellRequest bytes) } } := by
  show Host.Outcome.next _ = _
  rw [h]
  dsimp only
  rw [if_pos (show cellState bytes = postedState from hp)]
  split
  · rename_i a e
    rw [if_neg (ha.elim (fun h => absurd e (h a)) id), e]
  · rfl

theorem execCellRead_arm (s : State) (bytes : List Byte) (h : s.scan.step = .cell) (hp : cellState bytes = 1) (a : Word64)
    (ha : cellRequest bytes = .arm a) (hs : s.sitting.state = .idle) : exec (.cellRead bytes) s =
      .next { s with scan := { s.scan with step := .armRead (cellTag bytes) a } } := by
  show Host.Outcome.next _ = _
  rw [h]
  dsimp only
  rw [if_pos (show cellState bytes = postedState from hp), ha]
  dsimp only
  rw [if_pos hs]

theorem execCellRead_passed (s : State) (bytes : List Byte) (h : s.scan.step = .cell) (hp : cellState bytes ≠ 1) :
    exec (.cellRead bytes) s = .next { s with scan := s.boardFrom (s.scan.cursor.val + 1) } := by
  show Host.Outcome.next _ = _
  rw [h]
  dsimp only
  rw [if_neg (show cellState bytes ≠ postedState from hp)]
  rfl

/-- R156: a read that fails stops the board step. -/
theorem readFailed_stops (s : State) (c : Instr) (h : (c = .cellReadFailed ∧ s.scan.step = .cell) ∨
    (c = .armRecordReadFailed ∧ ∃ tag a, s.scan.step = .armRead tag a)) : exec c s = .next s.boardStops := by
  rcases h with ⟨rfl, h⟩ | ⟨rfl, tag, a, h⟩
  all_goals
    show Host.Outcome.next _ = _
    rw [h]

/-- R156: the pool scan or the head begins with the scanner as it stands. -/
theorem State.startPool_only (s : State) : s.startPool = { s.scan with step := s.startPool.step } := by
  unfold State.startPool State.poolNext State.startHead
  repeat' split
  all_goals rfl

/-- Settles O46. -/
theorem theBoardStepAndItsReads : Obligations.TheBoardStepAndItsReads := by
  refine ⟨fun s a b hrun => ?_, fun s => ⟨s.beginScan_busy, fun h => ?_,
      fun i => ⟨fun c hi before hp => ⟨fun hc => ?_, fun h r hc hr => ?_⟩, fun past => ?_⟩⟩,
    fun s bytes h => ⟨fun hp => ⟨fun a ha hs => ?_, fun ha => ?_⟩, fun hp => ⟨?_, ?_⟩⟩, fun s c h => ?_⟩
  · obtain ⟨u, l, eq, scan, empty, armed⟩ := s.boundary_scan a b
    refine ⟨s.boundary a b, congrArg _ (if_pos hrun), fun hs => ?_, fun hs hh => ?_⟩
    · have busy : u.scan.step ≠ .idle := by rw [scan]; exact hs
      rw [eq, u.beginScan_busy busy, scan]
      exact ⟨rfl, rfl, rfl⟩
    · have idle : u.scan.step = .idle := by rw [scan]; exact hs
      have bare : u.scanBegun.held = [] := by
        unfold State.scanBegun; rw [scan, empty hh]; rfl
      have first : u.scanBegun.heldAt 0 = none := by unfold Scanner.heldAt; rw [bare]; rfl
      rw [eq, u.beginScan_idle idle]
      refine (State.boardFrom_read { u with scan := u.scanBegun } 0 0 (Nat.le_refl 0)
        (fun d _ hd => absurd hd (by simp)) first).trans ?_
      show ({ u.scanBegun with cursor := 0, step := .cell } : Scanner) = _
      rw [← bare, ← armed]
      rfl
  · exact ⟨s.scanBegun, s.beginScan_idle h, congrArg (fun st => { s.scanBegun with step := st }) h, s.heldAt_scanBegun⟩
  · exact s.boardFrom_read i c hi before hc
  · exact s.boardFrom_complete i c hi before hp h r hc hr
  · rw [s.boardFrom_over i past]
    exact s.startPool_spec
  · exact execCellRead_arm s bytes h hp a ha hs
  · exact execCellRead_taken s bytes h hp ha
  · exact execCellRead_passed s bytes h hp
  · refine ⟨_, execCellRead_passed s bytes h hp, rfl, s.boardFrom_held _, fun c hc hh => ?_⟩
    have free : s.scan.heldAt c = none := by unfold Scanner.heldAt; rw [hh]; rfl
    have read := s.boardFrom_read (s.scan.cursor.val + 1) c hc.ge
      (fun d hd hlt => absurd (Fin.lt_def.mp hlt) (by omega)) free
    dsimp only
    rw [read]
    exact ⟨rfl, rfl⟩
  · refine ⟨_, readFailed_stops s c h, rfl, s.accessFailed.startPool_only, fun a hd ha hc hq => ?_, fun hn => ?_⟩
    · exact congrArg Scanner.step (s.accessFailed.startPool_spec.1 a hd ha hc hq)
    · refine (congrArg Scanner.step (s.accessFailed.startPool_spec.2 hn)).trans ?_
      exact congrArg ScanStep.head (headBytes_setScan s.accessFailed s.accessFailed.startPool).symm

end Sys2Proof.Machine
end

