-- ==== Sys2Proof/Proofs/ItemWritten.lean ====
section
/-! PROOF. ITEM_WRITE_DONE (R14, R100, R123, R127, R137, R140, R143, R144, R146): the release, what it hands on to, and the
close that it makes due. -/
namespace Sys2Proof.Machine

/-! ### The release (R123) -/

theorem Path.release_bay (p : Path) (t u : Fin 34) : (p.release t).bays.bay[u] =
    if u = t then { p.bays.bay[t] with items := p.bays.bay[t].items.drop 1 } else p.bays.bay[u] := Bays.set_bay ..

theorem State.handRelease_sound (s : State) (k : Fin 33) :
    s.handRelease (trackOf k) = { s with path := (s.path.release (trackOf k)).offerHeld k } := dif_pos k.isLt

/-- The path after a release of bay 33, with the count of withheld marks taken (R127). -/
def State.markReleased (s : State) : State :=
  { s with path := { s.path.release markTrack with bays := (s.path.release markTrack).bays.countMark s.ctx } }

theorem State.handRelease_mark (s : State) : s.handRelease markTrack = s.markReleased.offerFinal := by
  unfold State.handRelease
  exact dif_neg (by decide)

theorem track_sound_or_mark (t : Fin 34) : (∃ k : Fin 33, t = trackOf k) ∨ t = markTrack := by
  by_cases h : t.val < 33
  · exact .inl ⟨⟨t.val, h⟩, rfl⟩
  · exact .inr (Fin.ext (by show t.val = 33; omega))

/-! ### A HELD run offered again (R100) -/

theorem Path.offerHeld_none (p : Path) (k : Fin 33) (h : p.runOf k = none) : p.offerHeld k = p := by
  unfold Path.offerHeld; rw [h]

/-- R100: a run that waits for room is admitted where it fits; an OPEN one, and one that does not fit, stays. -/
theorem Path.offerHeld_spec (p : Path) (k : Fin 33) (r : VoidRun) (h : p.runOf k = some r) :
    (r.held = true → p.bays.bay[trackOf k].fill + 16 ≤ p.bays.bay[trackOf k].capacity →
      (p.offerHeld k).bays.bay[trackOf k].items = p.bays.bay[trackOf k].items ++ [.voidRun k r] ∧
        (p.offerHeld k).runOf k = none) ∧
    (r.held = false ∨ p.bays.bay[trackOf k].capacity < p.bays.bay[trackOf k].fill + 16 →
      (p.offerHeld k).bays.bay[trackOf k].items = p.bays.bay[trackOf k].items ∧ (p.offerHeld k).runOf k = some r) := by
  unfold Path.offerHeld
  rw [h]
  dsimp only
  refine ⟨fun hr fits => ?_, fun stays => ?_⟩
  · rw [if_pos hr]
    rcases p.offerRun_cases k r with ⟨_, e⟩ | ⟨full, _⟩
    · rw [e, Path.runOf_setRun, if_pos rfl, Path.setRun_bays]
      dsimp only
      rw [Bays.set_bay, if_pos rfl]
      exact ⟨rfl, rfl⟩
    · omega
  · cases hr : r.held with
    | false => exact ⟨rfl, h⟩
    | true =>
      rw [if_pos rfl]
      rcases p.offerRun_cases k r with ⟨fits, _⟩ | ⟨_, e⟩
      · rcases stays with stays | stays
        · rw [hr] at stays; cases stays
        · omega
      · have same : ({ r with held := true } : VoidRun) = r := by rw [← hr]
        rw [e, same, Path.runOf_setRun, if_pos rfl, Path.setRun_bays]
        exact ⟨rfl, rfl⟩

/-! ### MARKS_WITHHELD and a held SITTING_CLOSE (R14, R127) -/

theorem Bays.countMark_skips (x : Ctx) (bs : Bays)
    (h : bs.withheld = 0 ∨ bs.bay[markTrack].units * 128 < bs.bay[markTrack].fill) : bs.countMark x = bs := by
  unfold Bays.countMark
  rw [if_neg]
  rintro ⟨h1, h2⟩
  rcases h with h | h
  · exact h1 h
  · omega

/-- The frame of MARKS_WITHHELD: the current one, or the last frame once that has passed (R127). -/
def Ctx.countFrame (x : Ctx) : Nat :=
  match x.sitting.close with
  | some g => min x.frame g.last
  | none => x.frame

theorem Bays.countMark_takes (x : Ctx) (bs : Bays) (h1 : bs.withheld ≠ 0)
    (h2 : bs.bay[markTrack].fill ≤ bs.bay[markTrack].units * 128) (h3 : 1 ≤ bs.bay[markTrack].units) :
    bs.countMark x = { bs.set markTrack { bs.bay[markTrack] with items := bs.bay[markTrack].items ++
      [.mark { kind := .marksWithheld bs.withheld, frame := x.countFrame, time := x.tod }] } with withheld := 0 } := by
  have placed := (bs.place_eq_some _ { kind := .marksWithheld bs.withheld, frame := x.countFrame, time := x.tod }).mpr
    ⟨show bs.bay[markTrack].fill + 20 ≤ bs.bay[markTrack].units * 256 by omega, rfl⟩
  unfold Bays.countMark
  rw [if_pos ⟨h1, h2⟩]
  exact congrArg (fun o : Option Bays => match o with
    | some bs' => { bs' with withheld := 0 }
    | none => bs) placed

/-- R14: a held SITTING_CLOSE with the count at 0. -/
theorem State.offerFinal_spec (s : State) (m : Mark) (reason : CloseReason) (hm : s.sitting.finalMark = some m)
    (hk : m.kind = .sittingClose reason) (hw : s.path.bays.withheld = 0) :
    (s.path.bays.bay[markTrack].fill + 20 ≤ s.path.bays.bay[markTrack].capacity →
      s.offerFinal.path.bays.bay[markTrack].items = s.path.bays.bay[markTrack].items ++ [.mark m] ∧
        s.offerFinal.sitting.finalMark = none) ∧
    (s.path.bays.bay[markTrack].capacity < s.path.bays.bay[markTrack].fill + 20 → s.offerFinal = s) := by
  have fits : m.kind.size = 20 ∧ m.kind.level s.path.bays.bay[markTrack] = s.path.bays.bay[markTrack].capacity := by
    rw [hk]; exact ⟨rfl, rfl⟩
  refine ⟨fun h => ?_, fun h => s.offerFinal_held m hm (.inr ((s.path.bays.place_eq_none m).mpr (by omega)))⟩
  rw [s.offerFinal_admitted m _ hm hw ((s.path.bays.place_eq_some _ m).mpr ⟨by omega, rfl⟩)]
  dsimp only
  rw [Bays.set_bay, if_pos rfl]
  exact ⟨rfl, rfl⟩

theorem State.offerFinal_none (s : State) (h : s.sitting.finalMark = none) : s.offerFinal = s := by
  unfold State.offerFinal; rw [h]

@[simp] theorem State.offerFinal_withheld (s : State) : s.offerFinal.path.bays.withheld = s.path.bays.withheld := by
  unfold State.offerFinal
  split
  · rfl
  · split
    · split
      · rename_i m _ _ bs h
        obtain ⟨_, rfl⟩ := (Bays.place_eq_some _ _ _).mp h
        rfl
      · rfl
    · rfl

/-! ### What a release leaves of the bays -/

theorem Bays.place_other {bs bs' : Bays} {m : Mark} (h : bs.place m = some bs') (u : Fin 34) (hu : u ≠ markTrack) :
    bs'.bay[u] = bs.bay[u] := by
  obtain ⟨_, rfl⟩ := (Bays.place_eq_some _ _ _).mp h
  rw [Bays.set_bay, if_neg hu]

theorem Bays.countMark_other (x : Ctx) (bs : Bays) (u : Fin 34) (hu : u ≠ markTrack) :
    (bs.countMark x).bay[u] = bs.bay[u] := by
  unfold Bays.countMark
  split
  · dsimp only
    split
    · rename_i h; exact Bays.place_other h u hu
    · rfl
  · rfl

theorem State.offerFinal_other (s : State) (u : Fin 34) (hu : u ≠ markTrack) :
    s.offerFinal.path.bays.bay[u] = s.path.bays.bay[u] := by
  unfold State.offerFinal
  split
  · rfl
  · split
    · split
      · rename_i h; exact Bays.place_other h u hu
      · rfl
    · rfl

theorem State.offerFinal_grows (s : State) : s.path.bays.Grows s.offerFinal.path.bays := by
  unfold State.offerFinal
  split
  · exact .refl _
  · split
    · split
      · rename_i h; exact Bays.grows_place h
      · exact .refl _
    · exact .refl _

theorem Path.offerRun_other (p : Path) (k : Fin 33) (r : VoidRun) (u : Fin 34) (hu : u ≠ trackOf k) :
    (p.offerRun k r).bays.bay[u] = p.bays.bay[u] := by
  rcases p.offerRun_cases k r with ⟨_, e⟩ | ⟨_, e⟩ <;> rw [e, Path.setRun_bays]
  exact (Bays.set_bay ..).trans (if_neg hu)

theorem Path.offerHeld_other (p : Path) (k : Fin 33) (u : Fin 34) (hu : u ≠ trackOf k) :
    (p.offerHeld k).bays.bay[u] = p.bays.bay[u] := by
  unfold Path.offerHeld
  split
  · rename_i r _
    cases r.held with
    | true => exact p.offerRun_other k r u hu
    | false => rfl
  · rfl

/-- R123: a release takes its bay's oldest item and leaves the other bays; what it hands on to stands at the end. -/
theorem State.handRelease_bays (s : State) (t : Fin 34) :
    (∀ u : Fin 34, u ≠ t → (s.handRelease t).path.bays.bay[u] = s.path.bays.bay[u]) ∧
      ∃ more, (s.handRelease t).path.bays.bay[t].items = s.path.bays.bay[t].items.drop 1 ++ more := by
  have others (u : Fin 34) (hu : u ≠ t) : (s.path.release t).bays.bay[u] = s.path.bays.bay[u] :=
    (s.path.release_bay t u).trans (if_neg hu)
  have own : (s.path.release t).bays.bay[t].items = s.path.bays.bay[t].items.drop 1 := by
    rw [Path.release_bay, if_pos rfl]
  rcases track_sound_or_mark t with ⟨k, rfl⟩ | rfl
  · rw [s.handRelease_sound k]
    refine ⟨fun u hu => ((s.path.release _).offerHeld_other k u hu).trans (others u hu), ?_⟩
    rw [← own]
    exact ((s.path.release _).keeps_offerHeld k).bays.items _
  · rw [s.handRelease_mark]
    refine ⟨fun u hu => ?_, ?_⟩
    · exact ((s.markReleased.offerFinal_other u hu).trans (Bays.countMark_other _ _ u hu)).trans (others u hu)
    · rw [← own]
      exact ((Bays.grows_countMark s.ctx _).trans s.markReleased.offerFinal_grows).items _

/-- R123: with nothing that waits for room a release is all. -/
theorem State.handRelease_alone (s : State) (t : Fin 34) (hr : s.path.runOfTrack t = none) (hw : s.path.bays.withheld = 0)
    (hf : s.sitting.finalMark = none) : (s.handRelease t).path = s.path.release t := by
  rcases track_sound_or_mark t with ⟨k, rfl⟩ | rfl
  · have none : (s.path.release (trackOf k)).runOf k = none := (dif_pos k.isLt).symm.trans hr
    rw [s.handRelease_sound k]
    exact Path.offerHeld_none _ k none
  · rw [s.handRelease_mark, s.markReleased.offerFinal_none hf]
    unfold State.markReleased
    rw [Bays.countMark_skips _ (s.path.release markTrack).bays (.inl hw)]

/-- R14, R127: what a release of bay 33 hands on to: MARKS_WITHHELD with the count, then a held SITTING_CLOSE. -/
theorem State.handRelease_mark_spec (s : State) (i : Item) (rest : List Item) (units : Nat)
    (hi : s.path.bays.bay[markTrack].items = i :: rest) (hu : s.path.bays.bay[markTrack].units = units) (counted : Item)
    (hc : counted = .mark { kind := .marksWithheld s.path.bays.withheld, time := s.timer.tod, frame := s.ctx.countFrame }) :
    let v := s.handRelease markTrack
    (s.path.bays.withheld ≠ 0 → 128 * units < itemsBytes rest →
      v.path.bays.bay[markTrack].items = rest ∧ v.path.bays.withheld = s.path.bays.withheld ∧
      v.sitting.finalMark = s.sitting.finalMark) ∧
    (s.path.bays.withheld ≠ 0 → itemsBytes rest ≤ 128 * units → 1 ≤ units → v.path.bays.withheld = 0 ∧
      (s.sitting.finalMark = none → v.path.bays.bay[markTrack].items = rest ++ [counted] ∧ v.sitting.finalMark = none) ∧
      ∀ m reason, s.sitting.finalMark = some m → m.kind = .sittingClose reason →
        v.path.bays.bay[markTrack].items = rest ++ [counted, .mark m] ∧ v.sitting.finalMark = none) ∧
    (s.path.bays.withheld = 0 → v.path.bays.withheld = 0 ∧
      ∀ m reason, s.sitting.finalMark = some m → m.kind = .sittingClose reason →
        (itemsBytes rest + 20 ≤ 256 * units →
          v.path.bays.bay[markTrack].items = rest ++ [.mark m] ∧ v.sitting.finalMark = none) ∧
        (256 * units < itemsBytes rest + 20 →
          v.path.bays.bay[markTrack].items = rest ∧ v.sitting.finalMark = some m)) := by
  intro v
  have hv : v = s.markReleased.offerFinal := s.handRelease_mark
  have bay : (s.path.release markTrack).bays.bay[markTrack] =
      { s.path.bays.bay[markTrack] with items := rest } := by
    rw [Path.release_bay, if_pos rfl, hi]; rfl
  have fill : (s.path.release markTrack).bays.bay[markTrack].fill = itemsBytes rest := by rw [bay]; rfl
  have size : (s.path.release markTrack).bays.bay[markTrack].units = units := by rw [bay]; exact hu
  have skipped (h : s.path.bays.withheld = 0 ∨ 128 * units < itemsBytes rest) :
      s.markReleased = { s with path := s.path.release markTrack } := by
    unfold State.markReleased
    rw [Bays.countMark_skips _ (s.path.release markTrack).bays (h.imp id fun h => by rw [fill, size]; omega)]
  rw [hv]
  refine ⟨fun hw hfill => ?_, fun hw hfill hunits => ?_, fun hw => ?_⟩
  · have stays : s.markReleased.offerFinal = s.markReleased := by
      cases hm : s.sitting.finalMark with
      | none => exact State.offerFinal_none _ hm
      | some m => exact State.offerFinal_held _ m hm (.inl (by rw [skipped (.inr hfill)]; exact hw))
    rw [stays, skipped (.inr hfill)]
    exact ⟨congrArg Bay.items bay, rfl, rfl⟩
  · have taken : s.markReleased.path.bays = { (s.path.release markTrack).bays.set markTrack
        { s.path.bays.bay[markTrack] with items := rest ++ [counted] } with withheld := 0 } := by
      have h := Bays.countMark_takes s.ctx (s.path.release markTrack).bays hw (by rw [fill, size]; omega)
        (by rw [size]; exact hunits)
      rw [bay] at h
      rw [hc]
      exact h
    have after : s.markReleased.path.bays.bay[markTrack] = { s.path.bays.bay[markTrack] with items := rest ++ [counted] } := by
      rw [taken]; exact (Bays.set_bay ..).trans (if_pos rfl)
    have zero : s.markReleased.path.bays.withheld = 0 := by rw [taken]
    refine ⟨(State.offerFinal_withheld _).trans zero, fun hm => ?_, fun m reason hm hk => ?_⟩
    · rw [s.markReleased.offerFinal_none hm, after]; exact ⟨rfl, hm⟩
    · have admitted := (s.markReleased.offerFinal_spec m reason hm hk zero).1 (by
        rw [after, hc]
        unfold Bay.fill Bay.capacity
        rw [itemsBytes_append, hu]
        show itemsBytes rest + 20 + 20 ≤ units * 256
        omega)
      rw [after] at admitted
      exact ⟨admitted.1.trans (List.append_assoc _ _ _), admitted.2⟩
  · have skip := skipped (.inl hw)
    refine ⟨?_, fun m reason hm hk => ?_⟩
    · rw [State.offerFinal_withheld, skip]; exact hw
    · have spec := s.markReleased.offerFinal_spec m reason hm hk (by rw [skip]; exact hw)
      have fits : s.markReleased.path.bays.bay[markTrack].fill = itemsBytes rest ∧
          s.markReleased.path.bays.bay[markTrack].capacity = 256 * units := by
        rw [skip]; exact ⟨fill, by unfold Bay.capacity; rw [size]; omega⟩
      have items : s.markReleased.path.bays.bay[markTrack].items = rest := by rw [skip]; exact congrArg Bay.items bay
      rw [fits.1, fits.2, items] at spec
      refine ⟨spec.1, fun h => ?_⟩
      rw [spec.2 h]
      exact ⟨items, by rw [skip]; exact hm⟩

/-! ### The close that a release makes due (R143, R144) -/

/-- R143, R144: what becomes of the close pending and of POWER due on an open sheet. -/
theorem State.emptyClosed_spec (s : State) (t : Fin 34) (o : OpenSheet) (ho : s.writer.sheets[t] = some o) :
    ∃ (pend : Option PendingClose) (powerDue : Bool),
      s.emptyClosed t = some { o with pend := pend, powerDue := powerDue } ∧
      (s.path.bays.bay[t].items ≠ [] ∨ o.fullDue = true ∨ (∃ c, o.pend = some c ∧ c.drain = 0) ∨
          (s.supply.warning = false ∧ s.sitting.draining = false) → pend = o.pend ∧ powerDue = o.powerDue) ∧
      (s.path.bays.bay[t].items = [] → o.pend = none → o.fullDue = false →
        (s.sitting.draining = false → s.supply.warning = true → pend = none ∧ powerDue = true) ∧
        (s.sitting.draining = true → s.path.runOfTrack t = none → (t.val < 33 ∨ s.sitting.finalMark = none) →
          pend = some { reason := .sittingClosed, drain := 0 })) := by
  have full (h : o.fullDue = true) : s.closeDue t ≠ none := by
    unfold State.closeDue; rw [ho]; dsimp only; rw [if_pos h]; exact nofun
  have due (h : ∃ c, o.pend = some c ∧ c.drain = 0) : s.closeDue t ≠ none := by
    obtain ⟨c, hc, hd⟩ := h
    unfold State.closeDue; rw [ho]; dsimp only
    split
    · exact nofun
    · rw [hc, Option.filter_some, if_pos (by simp [hd])]; exact nofun
  have free (hp : o.pend = none) (hf : o.fullDue = false) (h : (o.powerDue && !s.sitting.draining) = false) :
      s.closeDue t = none := by
    unfold State.closeDue; rw [ho]; dsimp only; rw [hf, hp, Option.filter_none, h]; rfl
  unfold State.emptyClosed
  rw [ho]
  by_cases idle : s.path.bays.bay[t].items = [] ∧ s.closeDue t = none
  · rw [if_pos idle]
    obtain ⟨hi, hc⟩ := idle
    have quiet : ¬(s.path.bays.bay[t].items ≠ [] ∨ o.fullDue = true ∨ (∃ c, o.pend = some c ∧ c.drain = 0)) := by
      rintro (h | h | h)
      · exact h hi
      · exact full h hc
      · exact due h hc
    cases hd : s.sitting.draining with
    | true =>
      rw [if_pos rfl]
      have none_of (h : s.path.bays.bay[t].items ≠ [] ∨ o.fullDue = true ∨ (∃ c, o.pend = some c ∧ c.drain = 0) ∨
          (s.supply.warning = false ∧ true = false)) : False := quiet (by simpa using h)
      by_cases waits : s.path.runOfTrack t = none ∧ (t.val < 33 ∨ s.sitting.finalMark = none)
      · rw [if_pos waits]
        exact ⟨_, _, rfl, fun h => (none_of h).elim, fun _ _ _ => ⟨nofun, fun _ _ _ => rfl⟩⟩
      · rw [if_neg waits]
        exact ⟨_, _, rfl, fun _ => ⟨rfl, rfl⟩, fun _ _ _ => ⟨nofun, fun _ h1 h2 => absurd ⟨h1, h2⟩ waits⟩⟩
    | false =>
      rw [if_neg nofun]
      cases hw : s.supply.warning with
      | true =>
        rw [if_pos rfl]
        exact ⟨_, _, rfl, fun h => (quiet (by simpa using h)).elim, fun _ hp _ => ⟨fun _ _ => ⟨hp, rfl⟩, nofun⟩⟩
      | false =>
        rw [if_neg nofun]
        exact ⟨_, _, rfl, fun _ => ⟨rfl, rfl⟩, fun _ _ _ => ⟨nofun, nofun⟩⟩
  · rw [if_neg idle]
    refine ⟨_, _, rfl, fun _ => ⟨rfl, rfl⟩, fun hi hp hf => ⟨fun hd _ => ⟨hp, ?_⟩, fun hd _ _ => ?_⟩⟩
    · by_contra hn
      exact idle ⟨hi, free hp hf (by simp [hn])⟩
    · exact absurd ⟨hi, free hp hf (by simp [hd])⟩ idle

/-- R137, R140, R143: the close due on a track whose sheet is not full. -/
theorem State.closeDue_of (s : State) (t : Fin 34) (o : OpenSheet) (ho : s.writer.sheets[t] = some o)
    (hf : o.fullDue = false) :
    (∀ p, o.pend = some p → p.drain = 0 → s.closeDue t = some p.reason) ∧
    (o.pend = none → o.powerDue = true → s.sitting.draining = false → s.closeDue t = some .power) := by
  unfold State.closeDue
  rw [ho]
  dsimp only
  rw [if_neg (by simp [hf])]
  refine ⟨fun p hp hd => ?_, fun hp hw hd => ?_⟩
  · rw [hp, Option.filter_some, if_pos (by simp [hd])]
  · rw [hp, Option.filter_none, hw, hd]; rfl

/-! ### ITEM_WRITE_DONE (R137) -/

theorem State.itemStored_sheet (s : State) (t u : Fin 34) (o : OpenSheet) (i : Item) :
    (s.itemStored t o i).writer.sheets[u] = if u = t then some (o.wrote i) else s.writer.sheets[u] :=
  Writer.setSheet_get s.writer t u (some (o.wrote i))

/-- What a release and the end of its turn leave, in terms of what the release hands on to. -/
theorem State.released_turnEnded (s : State) (t : Fin 34) (ha : s.sitting.abandon = none) : ∃ attn starving,
    (s.released t).turnEnded = { s with
      path := { (s.handRelease t).path with attn := attn }
      sitting := { s.sitting with finalMark := (s.handRelease t).sitting.finalMark }
      writer := { s.writer.setSheet t ((s.handRelease t).emptyClosed t) with turn := none, starving := starving } } := by
  have still : (s.released t).sitting.abandon = none := by
    obtain ⟨_, _, _, e⟩ := s.released_only t
    rw [e]; exact ha
  have ended := (s.released t).turnEnded_only still
  generalize (s.released t).turnEnded.path.attn = attn at ended
  generalize (s.released t).turnEnded.writer.starving = starving at ended
  refine ⟨attn, starving, ended.trans ?_⟩
  have only := s.handRelease_only t
  unfold State.released
  rw [State.setEmptyClose_eq]
  generalize s.handRelease t = y at only ⊢
  generalize y.emptyClosed t = sheet
  generalize y.path = path at only ⊢
  generalize y.sitting.finalMark = mark at only ⊢
  subst only
  rfl

theorem Flush.wrote_remaining (f : Flush) (t u : Fin 34) :
    (f.wrote t).remaining[u] = if u = t then f.remaining[u] - 1 else f.remaining[u] := by
  unfold Flush.wrote
  simp only [Fin.getElem_fin, Vector.getElem_set]
  by_cases h : u = t
  · subst h; simp
  · have h' : ¬t.val = u.val := fun e => h (Fin.ext e.symm)
    simp [h, h']

/-- Settles O53. -/
theorem itemWriteDone : Obligations.ItemWriteDone := by
  intro s t o i rest hturn ho hi ha hlen
  refine ⟨_, execItemWriteDone_stored s t o i rest hturn ho hi, ?_⟩
  have sheet : ((s.itemStored t o i).handRelease t).writer.sheets[t] = some (o.wrote i) := by
    rw [State.handRelease_writer]; exact (s.itemStored_sheet t t o i).trans (if_pos rfl)
  obtain ⟨attn, starving, hv⟩ := (s.itemStored t o i).released_turnEnded t ha
  obtain ⟨others, more⟩ := (s.itemStored t o i).handRelease_bays t
  obtain ⟨pend, powerDue, closed, kept, falls⟩ := ((s.itemStored t o i).handRelease t).emptyClosed_spec t _ sheet
  have alone := (s.itemStored t o i).handRelease_alone t
  have mark := (s.itemStored t o i).handRelease_mark_spec i rest
  have only := (s.itemStored t o i).handRelease_only t
  have supply := (s.itemStored t o i).handRelease_supply t
  have draining : ((s.itemStored t o i).handRelease t).sitting.draining = s.sitting.draining := by rw [only]; rfl
  have sound (k : Fin 33) (hk : t = trackOf k) :
      ((s.itemStored t o i).handRelease t).path = (s.path.release t).offerHeld k := by
    subst hk; rw [State.handRelease_sound]; rfl
  rw [closed] at hv
  rw [supply, draining] at kept falls
  generalize ((s.itemStored t o i).released t).turnEnded = v at hv ⊢
  have own : (s.path.release t).bays.bay[t].items = rest := by rw [Path.release_bay, if_pos rfl, hi]; rfl
  have path : v.path = { ((s.itemStored t o i).handRelease t).path with attn := attn } := by rw [hv]
  have sheets (u : Fin 34) : v.writer.sheets[u] =
      if u = t then some { o.wrote i with pend := pend, powerDue := powerDue } else s.writer.sheets[u] := by
    rw [hv]
    refine (Writer.setSheet_get _ _ _ _).trans ?_
    by_cases hu : u = t
    · rw [if_pos hu, if_pos hu]
    · rw [if_neg hu, if_neg hu]; exact (s.itemStored_sheet t u o i).trans (if_neg hu)
  have sheet_t := (sheets t).trans (if_pos rfl)
  have bays : v.path.bays = ((s.itemStored t o i).handRelease t).path.bays := by rw [path]
  have final : v.sitting.finalMark = ((s.itemStored t o i).handRelease t).sitting.finalMark := by rw [hv]
  have draining_v : v.sitting.draining = s.sitting.draining := by rw [hv]; rfl
  have runs : v.path.runOfTrack t = ((s.itemStored t o i).handRelease t).path.runOfTrack t := by rw [path]; rfl
  refine ⟨?_, ?_, ⟨pend, powerDue, sheets, fun h => ?_, fun he hp hf => ⟨fun hd hw => ?_, fun hd hr hm => ?_⟩⟩, fun hf => ?_,
    fun f hf => ?_, fun u hu => ?_, ?_, fun hr hw hm => ?_, fun k r hk hr => ?_, fun hm units counted hu hc => ?_⟩
  · rw [hv]; rfl
  · rw [hv]; exact stored_memWrite _ _ _ (by omega)
  · refine kept (h.imp (fun h => by rw [← bays]; exact h) (Or.imp_right (Or.imp_left ?_)))
    rintro ⟨c, hc, hd⟩
    exact ⟨{ c with drain := c.drain - 1 }, by simp [OpenSheet.wrote, hc], by show c.drain - 1 = 0; omega⟩
  · obtain ⟨h1, h2⟩ := (falls (by rw [← bays]; exact he) (by simp [OpenSheet.wrote, hp]) hf).1 hd hw
    exact ⟨h1, h2, (v.closeDue_of t _ sheet_t hf).2 h1 h2 (draining_v.trans hd)⟩
  · have h1 := (falls (by rw [← bays]; exact he) (by simp [OpenSheet.wrote, hp]) hf).2 hd (runs ▸ hr) ?_
    · exact ⟨h1, (v.closeDue_of t _ sheet_t hf).1 _ h1 rfl⟩
    · rcases track_sound_or_mark t with ⟨k, rfl⟩ | rfl
      · exact .inl k.isLt
      · exact .inr (final ▸ hm rfl)
  · rw [hv]; show s.writer.flush.map _ = none; rw [hf]; rfl
  · refine ⟨f.wrote t, ?_, rfl, fun u => ?_⟩
    · rw [hv]; show s.writer.flush.map _ = _; rw [hf]; rfl
    · exact f.wrote_remaining t u
  · rw [bays]; exact others u hu
  · rw [bays]
    obtain ⟨l, hl⟩ := more
    exact ⟨l, hl.trans (congrArg (fun x => List.drop 1 x ++ l) hi)⟩
  · have released := alone hr hw hm
    rw [path, released]
    exact ⟨own, hw, rfl⟩
  · subst hk
    have bay : (s.path.release (trackOf k)).bays.bay[trackOf k] =
        { s.path.bays.bay[trackOf k] with items := rest } := by
      rw [Path.release_bay, if_pos rfl, hi]; rfl
    have spec := (s.path.release (trackOf k)).offerHeld_spec k r hr
    rw [bay] at spec
    rw [path, sound k rfl]
    exact spec
  · subst hm
    rw [bays, final]
    exact mark units hi hu counted (hc.trans (by unfold Ctx.countFrame; rfl))

end Sys2Proof.Machine
end

