-- ==== Sys2Proof/Proofs/SettlingOnce.lean ====
section
/-! PROOF. Settling covers each on-record frame of a seated channel once and counts it once (R18, R98, R99, R101). -/
namespace Sys2Proof.Machine

/-! ### What a channel covers and counts -/

theorem Path.covered_congr {p q : Path} {c : Fin 32} (hr : q.channels[c].run = p.channels[c].run)
    (hi : q.bays.bay[trackOf (soundTrack c)].items = p.bays.bay[trackOf (soundTrack c)].items) :
    q.covered c = p.covered c := by
  unfold Path.covered; rw [hr, hi]

/-- From `p` to `q` channel `c` covers and counts what it did. -/
structure Path.Still (p q : Path) (c : Fin 32) : Prop where
  covered : q.covered c = p.covered c
  settled : q.channels[c].settled = p.channels[c].settled
  captured : q.channels[c].captured = p.channels[c].captured
  voids : q.channels[c].voids = p.channels[c].voids

/-- From `p` to `q` channel `c` covers one frame more and counts it as captured or as void. -/
structure Path.Takes (p q : Path) (c : Fin 32) : Prop where
  covered : q.covered c = p.covered c + 1
  settled : q.channels[c].settled = p.channels[c].settled
  counted : (q.channels[c].captured = min 4294967295 (p.channels[c].captured + 1) ∧
      q.channels[c].voids = p.channels[c].voids) ∨
    (q.channels[c].captured = p.channels[c].captured ∧ q.channels[c].voids = min 4294967295 (p.channels[c].voids + 1))

theorem Path.Still.refl (p : Path) (c : Fin 32) : p.Still p c := ⟨rfl, rfl, rfl, rfl⟩

theorem Path.Still.trans {a b d : Path} {c : Fin 32} (h1 : a.Still b c) (h2 : b.Still d c) : a.Still d c :=
  ⟨h2.covered.trans h1.covered, h2.settled.trans h1.settled, h2.captured.trans h1.captured, h2.voids.trans h1.voids⟩

theorem Path.Still.takes {a b d : Path} {c : Fin 32} (h1 : a.Still b c) (h2 : b.Takes d c) : a.Takes d c :=
  ⟨by rw [h2.covered, h1.covered], h2.settled.trans h1.settled, by rw [← h1.captured, ← h1.voids]; exact h2.counted⟩

theorem Path.Takes.still {a b d : Path} {c : Fin 32} (h1 : a.Takes b c) (h2 : b.Still d c) : a.Takes d c :=
  ⟨by rw [h2.covered, h1.covered], h2.settled.trans h1.settled, by rw [h2.captured, h2.voids]; exact h1.counted⟩

/-- A change that leaves the channel and its bay's items. -/
theorem Path.Still.of_eq {p q : Path} {c : Fin 32} (hc : q.channels[c] = p.channels[c])
    (hi : q.bays.bay[trackOf (soundTrack c)].items = p.bays.bay[trackOf (soundTrack c)].items) : p.Still q c :=
  ⟨Path.covered_congr (by rw [hc]) hi, by rw [hc], by rw [hc], by rw [hc]⟩

/-- A change of the channel's run that keeps what the channel covers. -/
theorem Path.Still.of_runMoved {p q : Path} {c : Fin 32} (h : p.RunMoved q c) (hq : q.covered c = p.covered c) :
    p.Still q c := by
  obtain ⟨r, bs, rfl⟩ := h
  have get : (Path.channels { p.setChannel c { p.channels[c] with run := r } with bays := bs })[c] =
      { p.channels[c] with run := r } := (Path.setChannel_get ..).trans (if_pos rfl)
  exact ⟨hq, by rw [get], by rw [get], by rw [get]⟩

/-! ### Runs (R98, R99) -/

/-- A channel's run set: what it covers besides its bay. -/
theorem Path.covered_setRun (p : Path) (c : Fin 32) (r : Option VoidRun) : (p.setRun (soundTrack c) r).covered c =
    (p.bays.bay[trackOf (soundTrack c)].items.map Item.covers).sum + runCovers r := by
  unfold Path.covered
  rw [Path.setRun_bays, Path.setRun_sound, Path.setChannel_get, if_pos rfl]

/-- R99: a run offered covers as many frames in the bay as it did. -/
theorem Path.covered_offerRun (p : Path) (c : Fin 32) (r : VoidRun) (hr : p.channels[c].run = some r) :
    (p.offerRun (soundTrack c) r).covered c = p.covered c := by
  rcases p.offerRun_cases (soundTrack c) r with ⟨_, e⟩ | ⟨_, e⟩
  · rw [e, Path.covered_setRun]
    unfold Path.covered
    dsimp only
    rw [Bays.set_bay, if_pos rfl, hr]
    simp [Item.covers, runCovers]
  · rw [e, Path.covered_setRun]
    unfold Path.covered
    rw [hr]
    rfl

theorem Path.still_endRun (p : Path) (c : Fin 32) : p.Still (p.endRun (soundTrack c)) c := by
  refine .of_runMoved (p.runMoved_endRun c) ?_
  unfold Path.endRun
  rw [Path.runOf_sound]
  cases hr : p.channels[c].run with
  | none => rfl
  | some r =>
    dsimp only
    cases r.held with
    | true => rfl
    | false => exact p.covered_offerRun c r hr

/-- R98: a void frame taken into the channel's run is one frame more. -/
theorem Path.covered_takeVoid (p : Path) (c : Fin 32) (cause : VoidCause) (f : Nat) :
    (p.takeVoid (soundTrack c) cause f).1.covered c = p.covered c + 1 := by
  have set (q : Path) (r : Option VoidRun) (n : Nat) (h : runCovers r = runCovers q.channels[c].run + n) :
      (q.setRun (soundTrack c) r).covered c = q.covered c + n := by
    rw [Path.covered_setRun, h, ← Nat.add_assoc]; rfl
  unfold Path.takeVoid
  rw [Path.runOf_sound]
  cases hr : p.channels[c].run with
  | none => exact set p _ 1 (by rw [hr]; rfl)
  | some r =>
    dsimp only
    by_cases held : r.held = true
    · rw [if_pos held]
      exact set p _ 1 (by rw [hr]; rfl)
    · rw [if_neg held]
      by_cases same : r.cause = cause ∧ r.length < 65535
      · rw [if_pos same]
        have longer : (p.setRun (soundTrack c) (some { r with length := r.length + 1 })).covered c = p.covered c + 1 :=
          set p _ 1 (by rw [hr]; show r.length + 1 + r.tail = r.length + r.tail + 1; omega)
        dsimp only
        split
        · exact (Path.still_endRun _ c).covered.trans longer
        · exact longer
      · rw [if_neg same]
        have ended := (p.still_endRun c).covered
        rw [Path.runOf_sound]
        cases hq : (p.endRun (soundTrack c)).channels[c].run with
        | none => exact (set _ _ 1 (by rw [hq]; rfl)).trans (by rw [ended])
        | some r' => exact (set _ _ 1 (by rw [hq]; rfl)).trans (by rw [ended])

/-! ### A void frame and a frame to be sampled (R96, R98, R101, R117 to R119) -/

/-- A void frame leaves of its channel all but the run, the void count and the outcome. -/
theorem Path.voidFrame_record (p : Path) (c : Fin 32) (f : Nat) (cause : VoidCause) :
    (p.voidFrame c f cause).channels[c] = { p.channels[c] with
      run := (p.takeVoid (soundTrack c) cause f).1.channels[c].run
      voids := min 4294967295 (p.channels[c].voids + 1)
      outcome := some (.void (p.takeVoid (soundTrack c) cause f).2) } := by
  obtain ⟨r, bs, e⟩ := p.runMoved_takeVoid c cause f
  have taken : (p.takeVoid (soundTrack c) cause f).1.channels[c] = { p.channels[c] with run := r } := by
    rw [e]; exact (Path.setChannel_get ..).trans (if_pos rfl)
  have counted : (p.voidFrame c f cause).channels[c] =
      (p.takeVoid (soundTrack c) cause f).1.channels[c].countVoid (p.takeVoid (soundTrack c) cause f).2 :=
    (Path.setChannel_get ..).trans (if_pos rfl)
  rw [counted, taken]
  rfl

theorem Path.takes_voidFrame (p : Path) (c : Fin 32) (f : Nat) (cause : VoidCause) : p.Takes (p.voidFrame c f cause) c := by
  have record := p.voidFrame_record c f cause
  refine ⟨?_, by rw [record], .inr ⟨by rw [record], by rw [record]⟩⟩
  rw [← p.covered_takeVoid c cause f]
  exact Path.covered_congr (by rw [record]) rfl

theorem Path.still_stepFloor (p : Path) (x : Ctx) (c : Fin 32) (f : Nat) (sn : Snapshot) (loud : Bool) (peak : Nat) :
    p.Still (p.stepFloor x c f sn loud peak) c := by
  obtain ⟨channels, _, bays⟩ := p.stepFloor_view x c f sn loud peak
  exact .of_eq (by rw [channels]) (by rw [bays])

/-- R118, R119: a block offered: admitted, it covers its frame; else the channel covers what it did. -/
theorem Path.offerBlock_covers {p q : Path} {x : Ctx} {c : Fin 32} {f : Nat} {clip : Bool} {g : List Int} {ok : Bool}
    (h : p.offerBlock x (soundTrack c) f clip 0 g = (q, ok)) :
    q.channels = p.channels ∧ q.covered c = p.covered c + if ok then 1 else 0 := by
  obtain ⟨channels, _, bay, _⟩ := p.economyTest_view x (soundTrack c) f
  have tested : (p.economyTest x (soundTrack c) f).1.covered c = p.covered c :=
    Path.covered_congr (by rw [channels]) (by rw [bay])
  unfold Path.offerBlock at h
  dsimp only at h
  generalize p.economyTest x (soundTrack c) f = r at h channels tested
  unfold Path.push at h
  cases hp : r.1.bays.push (trackOf (soundTrack c)) (.sample (blockOf (soundTrack c) f r.2 clip 0 g)) with
  | none =>
    rw [hp] at h
    cases h
    exact ⟨channels, tested⟩
  | some bs =>
    rw [hp] at h
    cases h
    refine ⟨channels, ?_⟩
    rw [← tested, ((Bays.push_eq_some _ _ _ _).mp hp).2]
    unfold Path.covered
    dsimp only
    rw [Bays.set_bay, if_pos rfl]
    simp only [List.map_append, List.sum_append, List.map_cons, List.map_nil, List.sum_cons, List.sum_nil, Item.covers,
      if_true]
    omega

theorem Path.takes_sampleFrame (p : Path) (x : Ctx) (c : Fin 32) (f : Nat) (sn : Snapshot) (samples : List Int) :
    p.Takes (p.sampleFrame x c f sn samples) c := by
  have void (q : Path) (h : p.Still q c) (peak : Nat) :
      p.Takes ((q.voidFrame c f .noRoom).stepFloor x c f sn false peak) c :=
    (h.takes (q.takes_voidFrame c f .noRoom)).still (Path.still_stepFloor _ x c f sn false peak)
  have ended := p.still_endRun c
  unfold Path.sampleFrame Path.offerUnlessHeld
  dsimp only
  generalize p.endRun (soundTrack c) = q at ended ⊢
  split
  · exact void q ended _
  · generalize gained sn.settings.gain samples = g
    generalize saturatedCount sn.settings.gain samples = n
    generalize ho : q.offerBlock x (soundTrack c) f (decide (n ≠ 0)) 0 g = offer
    obtain ⟨u, admitted⟩ := offer
    obtain ⟨channels, covered⟩ := Path.offerBlock_covers ho
    cases admitted with
    | false => exact void u (ended.trans ⟨covered, by rw [channels], by rw [channels], by rw [channels]⟩) _
    | true =>
      obtain ⟨record, _, bays⟩ := u.takeSample_view x c f sn g n
      refine ended.takes ⟨?_, ?_, .inl ⟨?_, ?_⟩⟩
      · rw [← show u.covered c = q.covered c + 1 from covered]
        exact Path.covered_congr (by rw [if_pos rfl, record]; rfl) (by rw [if_pos rfl, bays])
      · rw [if_pos rfl, record, ← channels]; rfl
      · rw [if_pos rfl, record, ← channels]; rfl
      · rw [if_pos rfl, record, ← channels]; rfl

/-! ### The settling of a frame (R89, R95 to R98) -/

/-- R89: privacy settled, on or off the record: the channel keeps all but its privacy and that it is settled, and its bay
stays. -/
theorem Path.settlePrivacy_record (p : Path) (x : Ctx) (c : Fin 32) (f : Nat) (sn : Snapshot) (button : Bool) :
    ((p.resumeFloor c sn).settlePrivacy x c f sn button).channels[c] =
        { p.channels[c] with privacy := (button || sn.settings.privacy) && !sn.settings.bar, settled := true } ∧
      ∀ t : Fin 33, ((p.resumeFloor c sn).settlePrivacy x c f sn button).bays.bay[trackOf t] = p.bays.bay[trackOf t] := by
  have resumed : (p.resumeFloor c sn).channels = p.channels ∧ (p.resumeFloor c sn).bays = p.bays := by
    unfold Path.resumeFloor
    dsimp only
    split <;> exact ⟨rfl, rfl⟩
  obtain ⟨channels, bays⟩ := resumed
  generalize p.resumeFloor c sn = q at channels bays ⊢
  unfold Path.settlePrivacy
  dsimp only
  rw [channels]
  have record : (q.setChannel c { p.channels[c] with
      privacy := (button || sn.settings.privacy) && !sn.settings.bar, settled := true }).channels[c] = _ :=
    (Path.setChannel_get ..).trans (if_pos rfl)
  have bay (t : Fin 33) : (q.setChannel c { p.channels[c] with
      privacy := (button || sn.settings.privacy) && !sn.settings.bar, settled := true }).bays.bay[trackOf t] =
      p.bays.bay[trackOf t] := by rw [Path.setChannel_bays, bays]
  generalize q.setChannel c { p.channels[c] with
    privacy := (button || sn.settings.privacy) && !sn.settings.bar, settled := true } = u at record bay ⊢
  split
  · obtain ⟨h1, h2⟩ := u.forceFloor_view x sn.onRecord c
    exact ⟨(Path.mark_channel ..).trans (by rw [h1, record]), fun t => (Path.mark_bay ..).trans ((h2 t).trans (bay t))⟩
  · split
    · exact ⟨(Path.mark_channel ..).trans record, fun t => (Path.mark_bay ..).trans (bay t)⟩
    · exact ⟨record, bay⟩

/-- R95 to R98: an on-record frame is taken once, an off-record frame not at all. -/
theorem Path.settle_takes (p : Path) (x : Ctx) (f : Nat) (how : Settling) (c : Fin 32) (sn : Snapshot)
    (hsn : p.channels[c].snapshot f = some sn) (hse : p.channels[c].seated = true) (hun : p.channels[c].settled = false)
    (hwi : x.sitting.within f = true) : ∃ q : Path, q.covered c = p.covered c ∧ q.channels[c].settled = true ∧
      q.channels[c].captured = p.channels[c].captured ∧ q.channels[c].voids = p.channels[c].voids ∧
      if sn.onRecord then q.Takes (p.settle x f how c) c else q.Still (p.settle x f how c) c := by
  obtain ⟨record, bay⟩ := p.settlePrivacy_record x c f sn
    (buttonPart how p.stations[stationOf c].mics[micOf c] (micOf c))
  refine ⟨_, Path.covered_congr (by rw [record]) (by rw [bay]), by rw [record], by rw [record], by rw [record], ?_⟩
  unfold Path.settle
  dsimp only
  rw [hsn]
  dsimp only
  rw [show (if p.channels[c].seated = true ∧ p.channels[c].settled = false ∧ x.sitting.within f = true then _ else p) = _
    from if_pos ⟨hse, hun, hwi⟩]
  generalize (p.resumeFloor c sn).settlePrivacy x c f sn
    (buttonPart how p.stations[stationOf c].mics[micOf c] (micOf c)) = q
  have void (cause : VoidCause) : q.Takes ((q.voidFrame c f cause).stepFloor x c f sn false 0) c :=
    (q.takes_voidFrame c f cause).still (Path.still_stepFloor _ x c f sn false 0)
  cases sn.onRecord with
  | true =>
    rw [if_pos rfl, if_pos rfl]
    split
    · exact void _
    · split
      · exact void _
      · exact q.takes_sampleFrame x c f sn _
  | false =>
    rw [if_neg nofun, if_neg nofun]
    split
    · exact q.still_stepFloor x c f sn _ _
    · exact q.still_stepFloor x c f sn _ _

/-- Settles O24: each operation of a settling takes one frame of its channel, or none. -/
theorem settlingCoversAFrameOnce : Obligations.SettlingCoversAFrameOnce := by
  intro x f how p c sn hsn hse hwi
  refine ⟨fun hs => p.settle_not x f how c (.inr (.inl hs)), fun hun => ?_⟩
  obtain ⟨q, covered, settled, captured, voids, taken⟩ := p.settle_takes x f how c sn hsn hse hun hwi
  have others (d : Fin 32) (hd : d ≠ c) : (p.settle x f how c).covered d = p.covered d := by
    obtain ⟨h1, h2⟩ := p.beside_settle x f how c d (fun e => hd (soundTrack_injective e))
    exact Path.covered_congr (by rw [h1]) (by rw [h2])
  generalize p.settle x f how c = v at taken others ⊢
  revert taken
  cases sn.onRecord with
  | true =>
    intro (taken : q.Takes v c)
    refine ⟨taken.settled.trans settled, by rw [taken.covered, covered]; rfl, others, fun h1 h2 => ?_⟩
    rw [if_pos rfl]
    rcases taken.counted with ⟨e1, e2⟩ | ⟨e1, e2⟩ <;> rw [e1, e2, captured, voids] <;> omega
  | false =>
    intro (taken : q.Still v c)
    refine ⟨taken.settled.trans settled, taken.covered.trans covered, others, fun _ _ => ?_⟩
    rw [taken.captured, taken.voids, captured, voids]
    rfl

end Sys2Proof.Machine
end

