-- ==== Sys2Proof/Proofs/FlagWindow.lean ====
section
/-! PROOF. A boundary in an open sitting: the frame, the flag window and its mark, the limit and the snapshots (R2, R4, R11,
R15, R85, R88); and the boundary that begins the drain of a closing one (R14). -/
namespace Sys2Proof.Machine

/-! ### Bays that grew (R122) -/

theorem Bays.Grows.mem {bs bs' : Bays} (h : bs.Grows bs') {t : Fin 34} {i : Item} (hi : i ∈ bs.bay[t].items) :
    i ∈ bs'.bay[t].items := by
  obtain ⟨more, e⟩ := h.items t
  rw [e]; exact List.mem_append_left _ hi

/-- Where an item did not fit it does not fit a bay that grew. -/
theorem Bays.Grows.full {bs bs' : Bays} (h : bs.Grows bs') {t : Fin 34} {n : Nat}
    (hf : bs.bay[t].capacity < bs.bay[t].fill + n) : bs'.bay[t].capacity < bs'.bay[t].fill + n := by
  obtain ⟨more, e⟩ := h.items t
  have fill : bs'.bay[t].fill = bs.bay[t].fill + itemsBytes more := by unfold Bay.fill; rw [e, itemsBytes_append]
  have capacity : bs'.bay[t].capacity = bs.bay[t].capacity := by unfold Bay.capacity; rw [h.units]
  omega

/-! ### The interval that begins (R88, R114, R142) -/

/-- A port's boundary work leaves the path, or makes PORT_RESTORED of it (R52). -/
theorem State.portWork_path (s : State) (p : PortId) : (s.portWork p).path = s.path ∨
    (s.portWork p).path = (s.path.mark s.ctx (.portRestored p) s.frame).raise .port := by
  unfold State.portWork Link.boundaryWork Link.portMark
  dsimp only
  rw [State.withLink_path]
  split
  · exact .inr rfl
  · exact .inl rfl

theorem State.keeps_portWork (s : State) (p : PortId) : s.path.Keeps (s.portWork p).path := by
  rcases s.portWork_path p with e | e <;> rw [e]
  · exact .refl _
  · exact (Path.keeps_mark s.ctx (.portRestored p) s.frame s.path).trans (Path.keeps_raise _ .port)

theorem State.keeps_ageCloses (s : State) : s.path.Keeps s.ageCloses.path := by
  have step (u : State) (t : Fin 34) : u.path.Keeps (u.ageClose t).path := by
    rw [State.ageClose_eq]
    split
    · unfold Path.ageEnded
      dsimp only
      split
      · exact u.path.keeps_endRun _
      · exact .refl _
    · exact .refl _
  unfold State.ageCloses
  generalize List.finRange 34 = l
  induction l generalizing s with
  | nil => exact .refl _
  | cons t l ih => exact (step s t).trans (ih _)

theorem State.keeps_refresh (s : State) : s.path.Keeps s.refresh.path := by
  unfold State.refresh
  dsimp only
  split
  · exact s.path.keeps_raise .starving
  · exact .refl _

theorem State.keeps_beginInterval (s : State) : s.path.Keeps s.beginInterval.path := by
  unfold State.beginInterval
  rw [State.beginScan_path]
  exact (((s.keeps_portWork .a).trans (State.keeps_portWork _ .b)).trans (State.keeps_ageCloses _)).trans
    (State.keeps_refresh _)

theorem State.keeps_ownMix (s : State) : s.path.Keeps s.ownMix.path := by
  unfold State.ownMix
  exact Path.keeps_fcu _ _ rfl rfl id fun h r hr => h.2 r hr

theorem State.keeps_begun (s : State) : s.takeSnapshots.path.Keeps s.openInterval.path :=
  (State.keeps_ownMix _).trans (State.keeps_beginInterval _)

/-- The snapshots of a boundary change channels and bays alone. -/
theorem Path.takeSnapshots_only (x : Ctx) (f : Nat) (on : Bool) (p : Path) : p.takeSnapshots x f on = { p with
    channels := (p.takeSnapshots x f on).channels, bays := (p.takeSnapshots x f on).bays } := by
  have step (q : Path) (c : Fin 32) : q.snapshotChannel x f on c = { q with
      channels := (q.snapshotChannel x f on c).channels, bays := (q.snapshotChannel x f on c).bays } := by
    unfold Path.snapshotChannel Path.mark Path.setChannel
    dsimp only
    repeat' split
    all_goals rfl
  unfold Path.takeSnapshots
  generalize List.finRange 32 = l
  induction l generalizing p with
  | nil => rfl
  | cons c l ih => rw [List.foldl_cons, ih, step p c]

theorem State.takeSnapshots_audio (s : State) : s.takeSnapshots.path.attn = s.path.attn ∧
    s.takeSnapshots.path.stations = s.path.stations := by
  unfold State.takeSnapshots
  split
  · dsimp only
    rw [Path.takeSnapshots_only]
    exact ⟨rfl, rfl⟩
  · exact ⟨rfl, rfl⟩

/-- A cause pending as an interval begins stays pending (R160). -/
theorem State.openInterval_raised (s : State) (c : Cause) (h : Raised s c) : Raised s.openInterval c :=
  s.keeps_begun.pending _ (by rw [s.takeSnapshots_audio.1]; exact h)

theorem State.takeSnapshots_channel (s : State) (hc : s.sitting.counting = true) (hw : s.sitting.within s.frame = true)
    (c : Fin 32) : s.takeSnapshots.path.channels[c] = s.path.channels[c].takeSnapshot s.frame s.sitting.cur := by
  unfold State.takeSnapshots
  rw [if_pos ⟨hc, hw⟩]
  exact (s.path.takeSnapshots_view s.ctx s.frame s.sitting.cur c).1

/-- R85, R88: the snapshots that a channel holds beside the one just taken are of the frame before. -/
theorem Channel.takeSnapshot_spec (ch : Channel) (f : Nat) (on : Bool) :
    (ch.takeSnapshot f on).snapshot f = some { frame := f, settings := ch.settings, onRecord := on } ∧
      (ch.takeSnapshot f on).snapshots.length ≤ 2 ∧
      ∀ sn ∈ (ch.takeSnapshot f on).snapshots, sn.frame = f ∨ sn.frame + 1 = f := by
  unfold Channel.takeSnapshot Channel.snapshot
  dsimp only
  cases h : ch.snapshots.find? fun sn => decide (sn.frame + 1 = f) with
  | none => simp
  | some sn =>
    have before : sn.frame + 1 = f := by simpa using List.find?_some h
    have other : sn.frame ≠ f := by omega
    simp [before, other]

/-! ### The ended interval (R14, R22) -/

/-- The close of a frame changes of the sitting its close target and the held SITTING_CLOSE alone (R14). -/
theorem State.closeFrame_target (s : State) : s.closeFrame.sitting = { s.sitting with
    close := s.closeFrame.sitting.close, finalMark := s.closeFrame.sitting.finalMark } := by
  have drain (st : Sitting) (w : Word64) : st.startDrain w = { st with
      close := (st.startDrain w).close, finalMark := (st.startDrain w).finalMark } := by
    unfold Sitting.startDrain; split <;> rfl
  unfold State.closeFrame
  dsimp only
  split
  · rfl
  · split
    · rw [State.setEmptyCloses_sitting, State.offerFinal_only]
      dsimp only
      rw [drain]
    · rfl

theorem State.endInterval_target (s : State) (a b : Bool) : (s.endInterval a b).sitting = { s.sitting with
    close := (s.endInterval a b).sitting.close, finalMark := (s.endInterval a b).sitting.finalMark } := by
  unfold State.endInterval
  rw [(State.roundsOver_court _ _ _ _).sitting, State.closeFrame_target, (State.roundsOver_court _ _ _ _).sitting,
    State.advanceTimer_sitting]

theorem Sitting.counting_congr {st st' : Sitting} (h : st'.state = st.state) : st'.counting = st.counting := by
  unfold Sitting.counting; rw [h]

/-- R2: the frame while record frames are counted. -/
theorem State.frame_counting (s : State) (h : s.sitting.counting = true) :
    s.frame = s.timer.boundary.toNat - s.sitting.openedAt.toNat := if_pos h

theorem State.endInterval_state (s : State) (a b : Bool) : (s.endInterval a b).sitting.state = s.sitting.state ∧
    (s.endInterval a b).sitting.openedAt = s.sitting.openedAt := by
  rw [s.endInterval_target a b]; exact ⟨rfl, rfl⟩

/-- R2: the frame that begins. -/
theorem State.endInterval_frame (s : State) (a b : Bool) (hb : s.timer.boundary ≠ BitVec.allOnes 64)
    (hc : s.sitting.counting = true) (ho : s.sitting.openedAt.toNat ≤ s.timer.boundary.toNat) :
    (s.endInterval a b).frame = s.frame + 1 := by
  obtain ⟨state, openedAt⟩ := s.endInterval_state a b
  have advanced := s.advance_boundary hb
  rw [State.frame_counting _ ((Sitting.counting_congr state).trans hc), s.frame_counting hc, openedAt,
    (s.endInterval_supply a b).2]
  omega

/-! ### The sitting's own move in an open sitting (R4, R11, R15) -/

/-- R4, R11: what the shift of the flag window leaves. -/
theorem State.shiftFlag_spec (s : State) : ∃ (cur : Bool) (bs : Bays), s.shiftFlag = { s with
      path := { s.path with bays := bs }
      sitting := { s.sitting with comp := s.sitting.cur, cur := cur, state := stateOfFlag cur } } ∧
    (s.sitting.next = s.sitting.cur → cur = s.sitting.cur) ∧
    (s.sitting.next ≠ s.sitting.cur →
      (cur = s.sitting.next ∧ .mark { kind := markOfFlag s.sitting.next, frame := s.frame, time := s.timer.tod } ∈
        bs.bay[markTrack].items) ∨
      (cur = s.sitting.cur ∧ bs.bay[markTrack].capacity < bs.bay[markTrack].fill + 16)) := by
  by_cases same : s.sitting.next = s.sitting.cur
  · exact ⟨s.sitting.cur, s.path.bays, if_pos same, fun _ => rfl, fun h => absurd same h⟩
  · by_cases fits : s.path.bays.bay[markTrack].fill + 16 ≤ s.path.bays.bay[markTrack].capacity
    · refine ⟨s.sitting.next, _, s.shiftFlag_taken same fits, fun h => absurd h same, fun _ => .inl ⟨rfl, ?_⟩⟩
      rw [Bays.set_bay, if_pos rfl]
      exact List.mem_append_right _ List.mem_cons_self
    · exact ⟨s.sitting.cur, s.path.bays, s.shiftFlag_waits same (by omega), fun h => absurd h same,
        fun _ => .inr ⟨rfl, by omega⟩⟩

theorem Sitting.counting_flag (st : Sitting) (cur : Bool) :
    Sitting.counting { st with comp := st.cur, cur := cur, state := stateOfFlag cur } = true := by
  cases cur <;> rfl

/-- What the move of an open sitting leaves, `cur` being the flag of the frame that begins: the window shifted, a changed
flag marked or put off, and at the limit frame the close (R4, R11, R15). -/
structure State.FlagMoved (s t : State) (cur : Bool) : Prop where
  timer : t.timer = s.timer
  sitting : t.sitting = { s.sitting with
    comp := s.sitting.cur, cur := cur, state := t.sitting.state, close := t.sitting.close, lastFrame := t.sitting.lastFrame }
  channels : t.path.channels = s.path.channels
  counting : t.sitting.counting = true
  stays : s.sitting.next = s.sitting.cur → cur = s.sitting.cur
  changes : s.sitting.next ≠ s.sitting.cur →
    (cur = s.sitting.next ∧ .mark { kind := markOfFlag s.sitting.next, frame := s.frame, time := s.timer.tod } ∈
      t.path.bays.bay[markTrack].items) ∨
    (cur = s.sitting.cur ∧ t.path.bays.bay[markTrack].capacity < t.path.bays.bay[markTrack].fill + 16)
  ordinary : s.frame ≠ 21599999 → t.sitting.state = stateOfFlag cur ∧ t.sitting.close = s.sitting.close ∧
    t.sitting.lastFrame = s.sitting.lastFrame
  limit : s.frame = 21599999 → t.sitting.state = .closing ∧ t.sitting.lastFrame = some 21599999 ∧
    t.sitting.close = some { last := 21599999, reason := .limit, cell := none, draining := false, sheets := 0 } ∧
    Raised t .sitting

theorem State.moveSitting_open (s : State) (h : s.sitting.isOpen = true) : s.moveSitting = s.shiftFlag.limitClose := by
  unfold State.moveSitting
  rcases s.sitting.isOpen_iff.mp h with state | state <;> rw [state]

theorem State.moveSitting_flag (s : State) (h : s.sitting.isOpen = true) : ∃ cur, s.FlagMoved s.moveSitting cur := by
  obtain ⟨cur, bs, shifted, stays, changes⟩ := s.shiftFlag_spec
  have counting : s.shiftFlag.sitting.counting = true := by rw [shifted]; exact Sitting.counting_flag _ _
  have frame : s.shiftFlag.frame = s.frame := by
    rw [State.frame_counting _ counting, s.frame_counting (Sitting.counting_of_isOpen h), shifted]
  refine ⟨cur, ?_⟩
  rw [s.moveSitting_open h]
  by_cases limit : s.frame = 21599999
  · rw [show s.shiftFlag.limitClose = _ from if_pos (frame.trans limit), shifted]
    exact ⟨rfl, rfl, rfl, rfl, stays, changes, fun h => absurd limit h,
      fun _ => ⟨rfl, rfl, rfl, Attention.raise_pending_self _ _⟩⟩
  · rw [show s.shiftFlag.limitClose = _ from if_neg (fun h => limit (frame.symm.trans h)), shifted]
    exact ⟨rfl, rfl, rfl, Sitting.counting_flag _ _, stays, changes, fun _ => ⟨rfl, rfl, rfl⟩, fun h => absurd h limit⟩

theorem State.FlagMoved.frame {s t : State} {cur : Bool} (h : s.FlagMoved t cur) (hc : s.sitting.counting = true) :
    t.frame = s.frame := by
  rw [State.frame_counting _ h.counting, State.frame_counting _ hc, h.sitting, h.timer]

/-- R13, R17: in an open sitting the frame that begins is within it, and takes marks. -/
theorem State.FlagMoved.within {s t : State} {cur : Bool} (h : s.FlagMoved t cur) (hn : s.sitting.close = none) :
    t.sitting.within s.frame = true ∧ t.sitting.marks s.frame = true := by
  unfold Sitting.within Sitting.marks
  by_cases limit : s.frame = 21599999
  · obtain ⟨state, _, close, _⟩ := h.limit limit
    rw [state, close, limit]
    exact ⟨rfl, rfl⟩
  · obtain ⟨state, close, _⟩ := h.ordinary limit
    rw [state, close, hn]
    cases cur <;> exact ⟨rfl, rfl⟩

theorem exec_boundary (s : State) (a b : Bool) (h : s.timer.running = true) :
    exec (.boundary a b) s = .next (s.boundary a b) := congrArg Host.Outcome.next (if_pos h)

/-- The frame closed at a boundary is not the one that ended with it (R97). -/
theorem State.closing_before (s : State) (a b : Bool) (hb : s.timer.boundary ≠ BitVec.allOnes 64)
    (hc : s.sitting.counting = true) (g : Nat) (h : (s.advanceTimer.roundsOver s.timer a b).closingFrame = some g) : g ≠ s.frame := by
  have court := s.advanceTimer.roundsOver_court s.timer a b
  have advanced := s.advance_boundary hb
  unfold State.closingFrame at h
  rw [court.sitting, court.timer, advanced, State.advanceTimer_sitting] at h
  rw [s.frame_counting hc]
  split at h
  · dsimp only at h
    split at h
    · cases h; omega
    · cases h
  · cases h

/-- R88: the snapshots that a boundary of an open sitting leaves a channel. -/
theorem State.boundary_snapshots (s : State) (a b : Bool) (hb : s.timer.boundary ≠ BitVec.allOnes 64)
    (ho : s.sitting.isOpen = true) (hn : s.sitting.close = none)
    (hat : s.sitting.openedAt.toNat ≤ s.timer.boundary.toNat) (c : Fin 32) :
    (s.boundary a b).path.channels[c].settings = s.path.channels[c].settings ∧
    ∃ ch : Channel, ch.settings = s.path.channels[c].settings ∧ (s.boundary a b).path.channels[c].snapshots =
      (ch.takeSnapshot (s.frame + 1) (s.boundary a b).sitting.cur).snapshots := by
  have counting := Sitting.counting_of_isOpen ho
  have frame := s.endInterval_frame a b hb counting hat
  have same := s.endInterval_sitting a b hn
  have settings := ((s.endInterval_settings a b hn fun f hf hc g hg => hf ▸ s.closing_before a b hb hc g hg).2 c).2.1
  rw [State.boundary_parts]
  generalize s.endInterval a b = v at *
  obtain ⟨cur, moved⟩ := v.moveSitting_flag (by rw [same]; exact ho)
  have vcounting : v.sitting.counting = true := by rw [same]; exact counting
  have frame2 := moved.frame vcounting
  have taken := v.moveSitting.takeSnapshots_channel moved.counting
    (by rw [frame2]; exact (moved.within (by rw [same]; exact hn)).1) c
  have kept := v.moveSitting.keeps_begun
  rw [kept.settings, kept.snapshots, taken, (v.moveSitting.openInterval_court).sitting]
  refine ⟨?_, v.moveSitting.path.channels[c], ?_, ?_⟩
  · rw [moved.channels, ← settings]; rfl
  · rw [moved.channels, ← settings]
  · rw [← frame, ← frame2]

/-- Settles O10, by the three parts of a boundary: the interval ended, the sitting moved, the interval begun. -/
theorem recordFlagAndSnapshotsAtABoundary : Obligations.RecordFlagAndSnapshotsAtABoundary := by
  refine ⟨fun s a b hrun hb ho hat => ⟨s.boundary a b, exec_boundary s a b hrun, ?_⟩,
    fun s a b hrun hb ho hn hat => ⟨s.boundary a b, exec_boundary s a b hrun, fun c => ?_⟩⟩
  · have counting := Sitting.counting_of_isOpen ho
    have frame := s.endInterval_frame a b hb counting hat
    have target := s.endInterval_target a b
    have same := s.endInterval_sitting a b
    rw [State.boundary_parts]
    generalize s.endInterval a b = v at *
    obtain ⟨cur, moved⟩ := v.moveSitting_flag (by rw [target]; exact ho)
    have frame2 := moved.frame (by rw [target]; exact counting)
    have court := v.moveSitting.openInterval_court
    have grows := v.moveSitting.openInterval_course.bays
    have raised := v.moveSitting.openInterval_raised .sitting
    generalize v.moveSitting.openInterval = t at *
    generalize v.moveSitting = w at *
    have sitting : t.sitting = { v.sitting with
        comp := v.sitting.cur, cur := cur, state := w.sitting.state, close := w.sitting.close,
        lastFrame := w.sitting.lastFrame } := court.sitting.trans moved.sitting
    have next : v.sitting.next = s.sitting.next := by rw [target]
    have old : v.sitting.cur = s.sitting.cur := by rw [target]
    refine ⟨?_, ?_, fun h => ?_, fun h => ?_, fun h => ?_, fun h => ?_, fun hn => ?_⟩
    · rw [← frame, ← frame2]
      unfold State.frame
      rw [court.sitting, court.timer]
    · rw [sitting, target]
    · rw [sitting, ← old]
      exact moved.stays (by rw [next, old]; exact h)
    · rw [show t.sitting.cur = cur by rw [sitting], ← next, ← old, ← frame, court.timer, moved.timer]
      rcases moved.changes (by rw [next, old]; exact h) with ⟨e, m⟩ | ⟨e, m⟩
      · exact .inl ⟨e, grows.mem m⟩
      · exact .inr ⟨e, grows.full m⟩
    · obtain ⟨state, _⟩ := moved.ordinary (by rw [frame]; exact h)
      rw [sitting]
      exact state
    · obtain ⟨state, last, close, r⟩ := moved.limit (frame.trans h)
      exact ⟨by rw [sitting]; exact state, by rw [sitting]; exact last, by rw [sitting]; exact close, raised r⟩
    · rw [same hn] at sitting
      refine ⟨by rw [sitting], fun h => ?_⟩
      obtain ⟨_, close, last⟩ := moved.ordinary (by rw [frame]; exact h)
      rw [sitting]
      exact ⟨close.trans ((congrArg Sitting.close (same hn)).trans hn), last.trans (congrArg Sitting.lastFrame (same hn))⟩
  · obtain ⟨settings, ch, hch, snapshots⟩ := s.boundary_snapshots a b hb ho hn hat c
    obtain ⟨new, few, frames⟩ := ch.takeSnapshot_spec (s.frame + 1) (s.boundary a b).sitting.cur
    unfold Channel.snapshot at new ⊢
    rw [snapshots, ← hch]
    exact ⟨new, settings.trans hch.symm, few, fun sn h => (frames sn h).imp id (by omega)⟩

end Sys2Proof.Machine
end

