-- ==== Sys2Proof/Proofs/DrainBegins.lean ====
section
/-! PROOF. The boundary that closes the last frame of a closing sitting: DRAINING, and SITTING_CLOSE held or last in bay 33
(R14, R17). -/
namespace Sys2Proof.Machine

/-! ### What makes no mark (R17) -/

/-- The sitting takes no mark of any frame (R17). -/
def Sitting.silent (st : Sitting) : Prop := ∀ f, st.marks f = false

theorem Sitting.silent_draining {st : Sitting} {g : CloseTarget} (hs : st.state = .closing) (hc : st.close = some g)
    (hd : g.draining = true) : st.silent := by
  intro f
  unfold Sitting.marks
  rw [hs, hc]
  simp [hd]

theorem Path.mark_silent (x : Ctx) (h : x.sitting.silent) (k : MarkKind) (f : Nat) (p : Path) : p.mark x k f = p :=
  if_neg (by rw [h f]; exact nofun)

theorem Path.stationMark_silent (x : Ctx) (h : x.sitting.silent) (polled : Option Nat) (k : MarkKind) (p : Path) :
    p.stationMark x polled k = p.raise .station := by
  unfold Path.stationMark
  split
  · rw [Path.mark_silent x h]
  · rfl

theorem Path.recordReport_silent (x : Ctx) (h : x.sitting.silent) (polled : Option Nat) (k : Fin 16) (probe : Bool)
    (r : Report) (p : Path) :
    (p.recordReport x polled k probe r).channels = p.channels ∧ (p.recordReport x polled k probe r).bays = p.bays := by
  unfold Path.recordReport Path.driftMark
  simp only [Path.stationMark_silent x h]
  repeat' split
  all_goals exact ⟨rfl, rfl⟩

/-- A report for a frame of which no channel holds a snapshot makes neither item nor mark where R17 allows none (R95). -/
theorem Path.report_silent (x : Ctx) (h : x.sitting.silent) (f : Nat) (k : Fin 16) (probe : Bool) (r : Report) (p : Path)
    (hn : ∀ c : Fin 32, p.channels[c].snapshot f = none) :
    (p.report x (some f) k probe r).channels = p.channels ∧ (p.report x (some f) k probe r).bays = p.bays := by
  have hand (u : Path) (b : Bool) (m : Fin 2) (hu : u.channels[channelOf k m].snapshot f = none) :
      u.handOff x f k r b m = u := by
    have pressed : u.pressed x f k r b m = u := by
      unfold Path.pressed Path.refusePress
      cases r with
      | good _ => dsimp only; rw [hu]
      | _ => rfl
    rw [Path.handOff_pressed, pressed, Path.settle_not _ _ _ _ _ (.inl hu)]
  obtain ⟨channels, bays⟩ := p.recordReport_silent x h (some f) k probe r
  have none (m : Fin 2) : (p.recordReport x (some f) k probe r).channels[channelOf k m].snapshot f = none := by
    rw [channels]; exact hn _
  unfold Path.report
  dsimp only
  rw [hand _ _ 0 (none 0), hand _ _ 1 (none 1)]
  exact ⟨channels, bays⟩

theorem State.roundOver_silent (s : State) (e : Timer) (p : PortId) (h : s.sitting.silent) (f : Nat)
    (hx : (s.endedCtx e).polled = some f) (hn : ∀ c : Fin 32, s.path.channels[c].snapshot f = none) :
    (s.roundOver e p).path.channels = s.path.channels ∧ (s.roundOver e p).path.bays = s.path.bays := by
  rw [State.roundOver_path]
  refine Link.roundOver_rel
    (fun a b => (∀ c : Fin 32, a.channels[c].snapshot f = none) → b.channels = a.channels ∧ b.bays = a.bays)
    (fun _ _ => ⟨rfl, rfl⟩) (fun a b d h1 h2 h0 => ?_) (s.endedCtx e) p
    (fun q _ => ⟨(q.portLost_channels p).1, (q.portLost_channels p).2.1⟩) (fun q a r h0 => ?_) (s.link p) hn
  · obtain ⟨e1, e2⟩ := h1 h0
    obtain ⟨e3, e4⟩ := h2 (by rw [e1]; exact h0)
    exact ⟨e3.trans e1, e4.trans e2⟩
  · rw [hx]
    exact q.report_silent (s.endedCtx e) h f _ false r h0

/-- R97, R17: the rounds that end after the close of the last frame leave the bays. -/
theorem State.roundsOver_silent (s : State) (e : Timer) (a b : Bool) (h : s.sitting.silent) (f : Nat)
    (hx : (s.endedCtx e).polled = some f) (hn : ∀ c : Fin 32, s.path.channels[c].snapshot f = none) :
    (s.roundsOver e a b).path.bays = s.path.bays := by
  have step (u : State) (court : SameCourt s u) (channels : u.path.channels = s.path.channels) (p : PortId) :
      (u.roundOver e p).path.channels = u.path.channels ∧ (u.roundOver e p).path.bays = u.path.bays := by
    refine u.roundOver_silent e p (by rw [court.sitting]; exact h) f ?_ (by rw [channels]; exact hn)
    rw [← hx]
    unfold State.endedCtx State.ctx
    rw [court.supply, court.sitting, court.timer]
  obtain ⟨channels, bays⟩ := step s (.refl s) rfl .a
  cases a <;> cases b
  · rfl
  · exact (step s (.refl s) rfl .b).2
  · exact bays
  · exact (step _ (s.roundOver_court e .a) channels .b).2.trans bays

/-- The interval that begins after the last frame leaves bay 33 (R17, R88, R142). -/
theorem State.openInterval_silent (s : State) (h : s.sitting.silent) (hw : s.sitting.within s.frame = false) :
    s.openInterval.path.bays.bay[markTrack] = s.path.bays.bay[markTrack] := by
  have snapshots : s.takeSnapshots = s := if_neg fun h => by rw [hw] at h; exact absurd h.2 nofun
  have work (u : State) (p : PortId) (hu : u.sitting.silent) : (u.portWork p).path.bays = u.path.bays := by
    rcases u.portWork_path p with e | e <;> rw [e]
    rw [Path.mark_silent u.ctx hu]
    rfl
  have age (u : State) : u.ageCloses.path.bays.bay[markTrack] = u.path.bays.bay[markTrack] := by
    unfold State.ageCloses
    generalize List.finRange 34 = l
    induction l generalizing u with
    | nil => rfl
    | cons t l ih =>
      rw [List.foldl_cons, ih, State.ageClose_eq]
      split
      · unfold Path.ageEnded
        dsimp only
        split
        · exact (u.path.endRun_track _ markTrack (trackOf_ne_mark _).symm).1
        · rfl
      · rfl
  unfold State.openInterval State.beginInterval
  rw [State.beginScan_path, State.refresh_only]
  dsimp only
  rw [age, work _ .b (by rw [(State.portWork_court _ _).sitting, State.ownMix_sitting, snapshots]; exact h),
    work _ .a (by rw [State.ownMix_sitting, snapshots]; exact h), snapshots]
  rfl

/-! ### The close of the last frame (R14, R97) -/

/-- R14: DRAINING begins with SITTING_CLOSE held, and offers it. -/
theorem State.offerFinal_last (s : State) (m : Mark) (h : s.sitting.finalMark = some m) :
    s.offerFinal.sitting = { s.sitting with finalMark := s.offerFinal.sitting.finalMark } ∧
      (s.offerFinal.sitting.finalMark = some m ∨ (s.offerFinal.sitting.finalMark = none ∧
        s.offerFinal.path.bays.bay[markTrack].items.getLast? = some (.mark m))) := by
  refine ⟨by rw [State.offerFinal_only], ?_⟩
  by_cases hw : s.path.bays.withheld = 0
  · cases hp : s.path.bays.place m with
    | none =>
      rw [s.offerFinal_held m h (.inr hp)]
      exact .inl h
    | some bs =>
      rw [s.offerFinal_admitted m bs h hw hp]
      obtain ⟨_, rfl⟩ := (s.path.bays.place_eq_some _ m).mp hp
      refine .inr ⟨rfl, ?_⟩
      dsimp only
      rw [Bays.set_bay, if_pos rfl]
      exact List.getLast?_concat
  · rw [s.offerFinal_held m h (.inl hw)]
    exact .inl h

/-- R14, R97: at the close of the last frame the phase becomes DRAINING. -/
theorem State.closeFrame_drains (s : State) (g : CloseTarget) (hc : s.sitting.close = some g)
    (hf : s.closingFrame = some g.last) (m : Mark)
    (hm : m = { kind := .sittingClose g.reason, frame := g.last, time := s.timer.tod }) :
    s.closeFrame.sitting = { s.sitting with
        close := some { g with draining := true }, finalMark := s.closeFrame.sitting.finalMark } ∧
    (s.closeFrame.sitting.finalMark = some m ∨ (s.closeFrame.sitting.finalMark = none ∧
      s.closeFrame.path.bays.bay[markTrack].items.getLast? = some (.mark m))) := by
  have last : s.sitting.isLast g.last = true := by unfold Sitting.isLast; rw [hc]; simp
  have drain : s.sitting.startDrain s.timer.tod = { s.sitting with
      close := some { g with draining := true }, finalMark := some m } := by
    unfold Sitting.startDrain; rw [hc, hm]
  unfold State.closeFrame
  rw [hf]
  dsimp only
  rw [if_pos last, State.setEmptyCloses_sitting, State.setEmptyCloses_path, drain]
  exact State.offerFinal_last _ m rfl

/-- The frame that a boundary of a sitting closes, where it is within it (R97). -/
theorem State.closingFrame_advanced (s : State) (a b : Bool) (hb : s.timer.boundary ≠ BitVec.allOnes 64)
    (hc : s.sitting.counting = true) (f : Nat) (hf : s.timer.boundary.toNat = s.sitting.openedAt.toNat + f + 1)
    (hw : s.sitting.within f = true) : (s.advanceTimer.roundsOver s.timer a b).closingFrame = some f := by
  have court := s.advanceTimer.roundsOver_court s.timer a b
  have advanced := s.advance_boundary hb
  unfold State.closingFrame
  rw [court.sitting, court.timer, advanced, State.advanceTimer_sitting, if_pos ⟨hc, by omega⟩]
  dsimp only
  rw [show s.timer.boundary.toNat + 1 - 2 - s.sitting.openedAt.toNat = f by omega, if_pos hw]

/-- The frame in computation as a round ends at a boundary (R2, R26). -/
theorem State.endedCtx_polled (s t : State) (state : t.sitting.state = s.sitting.state)
    (openedAt : t.sitting.openedAt = s.sitting.openedAt) : (t.endedCtx s.timer).polled = s.ctx.polled := by
  unfold Ctx.polled
  show (if t.sitting.counting = true ∧ t.sitting.openedAt.toNat < s.timer.boundary.toNat then _ else _) = _
  rw [Sitting.counting_congr state, openedAt]
  show (if _ then some (s.timer.boundary.toNat - 1 - t.sitting.openedAt.toNat) else none) = _
  rw [openedAt]
  rfl

theorem State.polled_counting (s : State) (hc : s.sitting.counting = true) (f : Nat)
    (hf : s.timer.boundary.toNat = s.sitting.openedAt.toNat + f + 1) : s.ctx.polled = some f := by
  unfold Ctx.polled
  refine (if_pos ⟨hc, show s.sitting.openedAt.toNat < s.timer.boundary.toNat by omega⟩).trans ?_
  exact congrArg some (show s.timer.boundary.toNat - 1 - s.sitting.openedAt.toNat = f by omega)

/-- R97: after the close of a frame no channel holds its snapshot. -/
theorem State.closeFrame_noSnapshot (s : State) (f : Nat) (h : s.closingFrame = some f) (c : Fin 32) :
    s.closeFrame.path.channels[c].snapshot f = none := by
  obtain ⟨bs, e, _⟩ := s.closeFrame_at f h
  rw [e]
  exact ((Path.closeFrame_forgets _ f _ _ _ _ _ s.path).1 c).2.2

/-- R14: the state as the interval that closes the last frame ends. -/
theorem State.endInterval_drains (s : State) (a b : Bool) (g : CloseTarget) (hb : s.timer.boundary ≠ BitVec.allOnes 64)
    (hs : s.sitting.state = .closing) (hc : s.sitting.close = some g)
    (hf : s.timer.boundary.toNat = s.sitting.openedAt.toNat + g.last + 1) (m : Mark)
    (hm : m = { kind := .sittingClose g.reason, frame := g.last, time := s.advanceTimer.timer.tod }) :
    (s.endInterval a b).sitting = { s.sitting with
        close := some { g with draining := true }, finalMark := (s.endInterval a b).sitting.finalMark } ∧
    ((s.endInterval a b).sitting.finalMark = some m ∨ ((s.endInterval a b).sitting.finalMark = none ∧
      (s.endInterval a b).path.bays.bay[markTrack].items.getLast? = some (.mark m))) := by
  have counting : s.sitting.counting = true := by unfold Sitting.counting; rw [hs]
  have closing := s.closingFrame_advanced a b hb counting g.last (by omega) (by unfold Sitting.within; rw [hc]; simp)
  have court := s.advanceTimer.roundsOver_court s.timer a b
  unfold State.endInterval
  generalize s.advanceTimer.roundsOver s.timer a b = w at closing court ⊢
  have same : w.sitting = s.sitting := court.sitting.trans s.advanceTimer_sitting
  obtain ⟨sitting, final⟩ := w.closeFrame_drains g (by rw [same]; exact hc) closing m (by rw [hm, court.timer])
  have none := w.closeFrame_noSnapshot g.last closing
  have silent : w.closeFrame.sitting.silent := by
    rw [sitting]; exact Sitting.silent_draining ((congrArg Sitting.state same).trans hs) rfl rfl
  have polled : (w.closeFrame.endedCtx s.timer).polled = some g.last := by
    rw [s.endedCtx_polled w.closeFrame (by rw [sitting, same]) (by rw [sitting, same])]
    exact s.polled_counting counting g.last hf
  rw [(State.roundsOver_court _ _ _ _).sitting, State.roundsOver_silent _ _ _ _ silent g.last polled none, ← same]
  exact ⟨sitting, final⟩

/-- Settles O11: the close of the last frame begins the drain, and nothing marks after it. -/
theorem lastFrameCloses : Obligations.LastFrameCloses := by
  intro s a b g hrun hb hs hc hd hat hf
  have counting : s.sitting.counting = true := by unfold Sitting.counting; rw [hs]
  have now := s.frame_counting counting
  have frame := s.endInterval_frame a b hb counting hat
  have timer := (s.endInterval_supply a b).2
  obtain ⟨sitting, final⟩ := s.endInterval_drains a b g hb hs hc (by omega) _ rfl
  refine ⟨s.boundary a b, exec_boundary s a b hrun, ?_⟩
  rw [State.boundary_parts]
  generalize s.endInterval a b = v at *
  have closing : v.sitting.state = .closing := by rw [sitting]; exact hs
  have moved : v.moveSitting = { v with sitting := { v.sitting with comp := v.sitting.cur } } := by
    unfold State.moveSitting; rw [closing]
  have vcounting : v.sitting.counting = true := by unfold Sitting.counting; rw [closing]
  have court := v.moveSitting.openInterval_court
  have bay : v.moveSitting.openInterval.path.bays.bay[markTrack] = v.path.bays.bay[markTrack] := by
    rw [State.openInterval_silent]
    · rw [moved]
    · rw [moved]
      exact Sitting.silent_draining closing (by rw [sitting]) rfl
    · rw [moved]
      show Sitting.within _ v.frame = false
      unfold Sitting.within
      rw [frame, sitting]
      simp
      omega
  generalize v.moveSitting.openInterval = t at *
  have last : t.sitting = { v.sitting with comp := v.sitting.cur } := court.sitting.trans (by rw [moved])
  have clock : t.timer = s.advanceTimer.timer := court.timer.trans ((by rw [moved] : v.moveSitting.timer = v.timer).trans timer)
  refine ⟨by rw [last]; exact closing, ?_, by rw [last, sitting], ?_⟩
  · rw [show t.frame = v.frame by unfold State.frame; rw [last, clock, timer]; rfl, frame, hf]
  · rw [bay, clock, show t.sitting.finalMark = v.sitting.finalMark by rw [last]]
    exact final

end Sys2Proof.Machine
end

