-- ==== Sys2Proof/Proofs/SittingOpens.lean ====
section
/-! PROOF. The boundary that opens a sitting (R9, R104, R126, R163). -/
namespace Sys2Proof.Machine

/-! ### The interval before the opening (R2, R97) -/

theorem Sitting.polled_none (s : State) (e : Timer) (h : s.sitting.counting = false) : (s.endedCtx e).polled = none :=
  if_neg fun ⟨hc, _⟩ => absurd (h.symm.trans hc) Bool.false_ne_true

/-- Outside a sitting the ends of the rounds change no bay. -/
theorem State.roundsOver_bays (s : State) (e : Timer) (a b : Bool) (h : s.sitting.counting = false) :
    (s.roundsOver e a b).path.bays = s.path.bays := by
  have step (u : State) (hu : u.sitting.counting = false) (p : PortId) : (u.roundOver e p).path.bays = u.path.bays := by
    rw [State.roundOver_path]
    exact Link.roundOver_bays _ (Sitting.polled_none u e hu) p (u.link p)
  cases a <;> cases b
  · rfl
  · exact step s h .b
  · exact step s h .a
  · exact (step (s.roundOver e .a) (by rw [(s.roundOver_court e .a).sitting]; exact h) .b).trans (step s h .a)

theorem State.closeFrame_idle (s : State) (h : s.sitting.counting = false) : s.closeFrame = s := by
  have none : s.closingFrame = none := if_neg fun ⟨hc, _⟩ => absurd (h.symm.trans hc) Bool.false_ne_true
  unfold State.closeFrame
  rw [none]

/-- What the interval before an opening leaves: the sitting, the bays, seating and settings (R9). -/
theorem State.endInterval_idle (s : State) (a b : Bool) (h : s.sitting.counting = false) :
    (s.endInterval a b).sitting = s.sitting ∧ (s.endInterval a b).path.bays = s.path.bays ∧
      s.path.Holds (s.endInterval a b).path := by
  have open_none : s.sitting.isOpen = false :=
    Bool.eq_false_iff.mpr fun ho => absurd (h.symm.trans (Sitting.counting_of_isOpen ho)) Bool.false_ne_true
  have timer : s.advanceTimer.path = s.path := if_neg (by rw [show s.ctx.sitting = s.sitting from rfl, open_none]; exact nofun)
  have court := s.advanceTimer.roundsOver_court s.timer a b
  have bays := s.advanceTimer.roundsOver_bays s.timer a b (by rw [s.advanceTimer_sitting]; exact h)
  have holds := s.advanceTimer.roundsOver_holds s.timer a b
  unfold State.endInterval
  generalize s.advanceTimer.roundsOver s.timer a b = w at *
  have same : w.sitting = s.sitting := court.sitting.trans s.advanceTimer_sitting
  have idle : w.sitting.counting = false := by rw [same]; exact h
  rw [w.closeFrame_idle idle, (State.roundsOver_court _ _ _ _).sitting, w.roundsOver_bays s.timer _ _ idle, bays, same]
  refine ⟨rfl, by rw [timer], ?_⟩
  rw [timer] at holds
  exact holds.trans (w.roundsOver_holds s.timer _ _)

/-! ### The opening itself (R9) -/

theorem State.moveSitting_opens (s : State) (o : Opening) (h : s.sitting.state = .armed) (ho : s.sitting.opening = some o) :
    s.moveSitting = s.openSitting o := by
  unfold State.moveSitting; rw [h]; dsimp only; rw [ho]

/-- R9 on one channel, its detector and the microphones of one station. -/
theorem Path.opening_channel (p : Path) (c : Fin 32) : p.opening.channels[c] = p.channels[c].opening ∧
    p.opening.fcu.floors[c] = p.fcu.floors[c].opening := by
  unfold Path.opening; simp

theorem Path.opening_mic (p : Path) (k : Fin 16) (m : Fin 2) : p.opening.stations[k].mics[m] =
    { p.stations[k].mics[m] with slip := 0, drift := false } := by
  unfold Path.opening Station.opening; simp

theorem Path.opening_bay (p : Path) (t : Fin 34) : p.opening.bays.bay[t] = { p.bays.bay[t] with economy := false } := by
  unfold Path.opening; simp

theorem Path.opening_runs (p : Path) (k : Fin 33) : p.opening.runOf k = none := by
  unfold Path.runOf
  split
  · exact congrArg Channel.run (p.opening_channel ⟨k.val, by assumption⟩).1
  · rfl

/-- R126: an ordinary mark that fits stands last. -/
theorem Bays.offer_fits (bs : Bays) (m : Mark) (hk : m.kind.isReserve = false)
    (h : bs.bay[markTrack].fill + m.kind.size ≤ bs.bay[markTrack].capacity) :
    (bs.offer m).bay[markTrack] = { bs.bay[markTrack] with items := bs.bay[markTrack].items ++ [.mark m] } ∧
      (bs.offer m).withheld = bs.withheld := by
  have level : m.kind.level bs.bay[markTrack] = bs.bay[markTrack].capacity := by
    unfold MarkKind.level; rw [hk]; rfl
  rcases bs.offer_cases m with ⟨_, e⟩ | ⟨full, _⟩
  · rw [e, Bays.set_bay, if_pos rfl]
    exact ⟨rfl, rfl⟩
  · omega

/-- R9, R126: the two marks that head an empty mark bay of eight units or more. -/
theorem State.openSitting_marks (s : State) (o : Opening) (he : s.path.bays.bay[markTrack].items = [])
    (hu : 8 ≤ s.path.bays.bay[markTrack].units) :
    (s.openSitting o).path.bays.bay[markTrack] = { s.path.bays.bay[markTrack] with
      economy := false
      items := [.mark { kind := .sittingOpen o.number, frame := 0, time := s.timer.tod },
        .mark { kind := markOfFlag o.record, frame := 0, time := s.timer.tod }] } ∧
    (s.openSitting o).path.bays.withheld = 0 := by
  have bay := s.path.opening_bay markTrack
  obtain ⟨first, count⟩ := s.path.opening.bays.offer_fits { kind := .sittingOpen o.number, frame := 0, time := s.timer.tod }
    rfl (by rw [bay]; unfold Bay.fill Bay.capacity; rw [he]; show 0 + 20 ≤ _; dsimp only; omega)
  have flag : (markOfFlag o.record).isReserve = false ∧ (markOfFlag o.record).size = 16 := by
    cases o.record <;> exact ⟨rfl, rfl⟩
  rw [bay, he] at first
  obtain ⟨second, count2⟩ := (s.path.opening.bays.offer { kind := .sittingOpen o.number, frame := 0, time := s.timer.tod })
    |>.offer_fits { kind := markOfFlag o.record, frame := 0, time := s.timer.tod } flag.1 (by
      rw [first]; unfold Bay.fill Bay.capacity; rw [flag.2]; show 20 + 0 + 16 ≤ _; dsimp only; omega)
  rw [first] at second
  exact ⟨second, count2.trans count⟩

/-- R9: the marks of the opening stand in bay 33 alone. -/
theorem State.openSitting_other (s : State) (o : Opening) (t : Fin 33) :
    (s.openSitting o).path.bays.bay[trackOf t] = { s.path.bays.bay[trackOf t] with economy := false } := by
  unfold State.openSitting
  dsimp only
  rw [Bays.offer_other _ _ _ (trackOf_ne_mark t), Bays.offer_other _ _ _ (trackOf_ne_mark t), Path.opening_bay]

/-- R9: but for the bays the opening's path. -/
theorem State.openSitting_path (s : State) (o : Opening) :
    (s.openSitting o).path = { s.path.opening with bays := (s.openSitting o).path.bays } := rfl

/-! ### The first interval of a sitting (R88, R126, R142) -/

/-- The bays of the sound tracks are left by snapshots and marks. -/
theorem Path.takeSnapshots_sound (x : Ctx) (f : Nat) (on : Bool) (p : Path) (t : Fin 33) :
    (p.takeSnapshots x f on).bays.bay[trackOf t] = p.bays.bay[trackOf t] := by
  have step (q : Path) (c : Fin 32) : (q.snapshotChannel x f on c).bays.bay[trackOf t] = q.bays.bay[trackOf t] := by
    unfold Path.snapshotChannel
    dsimp only
    split
    · exact Path.mark_bay ..
    · split
      · exact Path.mark_bay ..
      · rfl
  unfold Path.takeSnapshots
  generalize List.finRange 32 = l
  induction l generalizing p with
  | nil => rfl
  | cons c l ih => rw [List.foldl_cons, ih, step]

/-- What an interval that begins with no run pending leaves of the path: the Frame Computation Unit but for the frame of its
accumulator, the bays of the sound tracks, and of bay 33 room for all but 680 bytes. -/
structure Path.Starts (p q : Path) : Prop where
  fcu : ∃ f, q.fcu = { p.fcu with sumsFrame := f }
  sound : ∀ t : Fin 33, q.bays.bay[trackOf t] = p.bays.bay[trackOf t]
  room : p.Room q 680

theorem State.starts_openInterval (s : State) (h : ∀ k : Fin 33, s.path.runOf k = none) :
    s.path.Starts s.openInterval.path := by
  have snapshots : s.path.Room s.takeSnapshots.path 640 ∧ s.takeSnapshots.path.fcu = s.path.fcu ∧
      ∀ t : Fin 33, s.takeSnapshots.path.bays.bay[trackOf t] = s.path.bays.bay[trackOf t] := by
    unfold State.takeSnapshots
    split
    · dsimp only
      exact ⟨s.path.room_takeSnapshots s.ctx s.frame s.sitting.cur, (Path.takeSnapshots_view _ _ _ _ 0).2, Path.takeSnapshots_sound _ _ _ _⟩
    · exact ⟨.refl _ _, rfl, fun _ => rfl⟩
  have mixed (u : State) : u.ownMix.path.fcu = { u.path.fcu with sumsFrame := u.ownMix.path.fcu.sumsFrame } := by
    unfold State.ownMix Fcu.belongTo; rfl
  have mix (u : State) : u.path.Room u.ownMix.path 0 := ⟨rfl, rfl, fun _ => rfl, rfl, fun _ h1 h2 _ => ⟨h1, h2⟩⟩
  have work (u : State) (p : PortId) : (u.portWork p).path.fcu = u.path.fcu ∧
      ∀ t : Fin 33, (u.portWork p).path.bays.bay[trackOf t] = u.path.bays.bay[trackOf t] := by
    rcases u.portWork_path p with e | e <;> rw [e]
    · exact ⟨rfl, fun _ => rfl⟩
    · exact ⟨Path.mark_fcu .., fun t => Path.mark_bay ..⟩
  have room : s.path.Room ((s.takeSnapshots.ownMix.portWork .a).portWork .b).path 680 :=
    ((snapshots.1.trans (mix _)).trans (State.room_portWork _ .a)).trans (State.room_portWork _ .b)
  have quiet (k : Fin 33) : ((s.takeSnapshots.ownMix.portWork .a).portWork .b).path.runOf k = none := by
    have before := h k
    unfold Path.runOf at before ⊢
    split at before
    · rename_i hk; rw [dif_pos hk]; exact (room.runs ⟨k.val, hk⟩).trans before
    · rename_i hk; rw [dif_neg hk]; exact room.mixRun.trans before
  have same : s.openInterval.path = { ((s.takeSnapshots.ownMix.portWork .a).portWork .b).path with
      attn := s.openInterval.path.attn } := by
    unfold State.openInterval State.beginInterval
    rw [State.beginScan_path, State.refresh_only]
    dsimp only
    rw [State.ageCloses_path _ quiet]
  have fcu : ((s.takeSnapshots.ownMix.portWork .a).portWork .b).path.fcu =
      { s.path.fcu with sumsFrame := s.takeSnapshots.ownMix.path.fcu.sumsFrame } := by
    rw [(work _ .b).1, (work _ .a).1, mixed, snapshots.2.1]
  have sound (t : Fin 33) : ((s.takeSnapshots.ownMix.portWork .a).portWork .b).path.bays.bay[trackOf t] =
      s.path.bays.bay[trackOf t] := by
    rw [(work _ .b).2, (work _ .a).2, ← snapshots.2.2]
    rfl
  rw [same]
  generalize ((s.takeSnapshots.ownMix.portWork .a).portWork .b).path = q at *
  exact ⟨⟨_, fcu⟩, sound, room.floors, room.mixRun, room.runs, room.units, room.room⟩

/-- R9: the serial numbers stand from the opening on. -/
theorem State.openInterval_serials (s : State) : s.openInterval.writer.serials = s.writer.serials := by
  have work (u : State) (p : PortId) : (u.portWork p).writer = u.writer := State.withLink_writer _ _ _
  have age (u : State) : u.ageCloses.writer.serials = u.writer.serials := by
    unfold State.ageCloses
    generalize List.finRange 34 = l
    induction l generalizing u with
    | nil => rfl
    | cons t l ih =>
      rw [List.foldl_cons, ih, State.ageClose_eq]
      split <;> rfl
  unfold State.openInterval State.beginInterval
  rw [State.beginScan_writer, State.refresh_only]
  dsimp only
  rw [age, work, work]
  unfold State.takeSnapshots
  split <;> rfl

/-- R88: the first snapshot of a sitting. -/
theorem State.openSitting_counting (s : State) (o : Opening) : (s.openSitting o).sitting.counting = true := by
  show Sitting.counting (s.sitting.opened o s.timer.boundary) = true
  unfold Sitting.opened
  cases o.record <;> rfl

theorem State.openSitting_frame (s : State) (o : Opening) : (s.openSitting o).frame = 0 := by
  rw [State.frame_counting _ (s.openSitting_counting o)]
  exact Nat.sub_self _

/-- Settles O9: nothing marks before an opening, and what begins after it leaves room in bay 33. -/
theorem openingBoundary : Obligations.OpeningBoundary := by
  intro s a b o hrun hb hs ho he hu
  refine ⟨s.boundary a b, exec_boundary s a b hrun, ?_⟩
  obtain ⟨sitting, bays, holds⟩ := s.endInterval_idle a b (by unfold Sitting.counting; rw [hs])
  obtain ⟨supply, timer⟩ := s.endInterval_supply a b
  rw [State.boundary_parts]
  generalize s.endInterval a b = v at *
  rw [v.moveSitting_opens o (by rw [sitting]; exact hs) (by rw [sitting]; exact ho)]
  obtain ⟨marks, count⟩ := v.openSitting_marks o (by rw [bays]; exact he) (by rw [bays]; exact hu)
  have counting := v.openSitting_counting o
  have frame := v.openSitting_frame o
  have taken := (v.openSitting o).takeSnapshots_channel counting rfl
  have court := (v.openSitting o).openInterval_court
  have course := (v.openSitting o).openInterval_course
  have starts := (v.openSitting o).starts_openInterval v.path.opening_runs
  have begun := (v.openSitting o).keeps_begun
  have stations := (v.openSitting o).takeSnapshots_audio.2
  have serials := (v.openSitting o).openInterval_serials
  have clock : v.timer.boundary = s.timer.boundary + 1 := by rw [timer]; exact if_neg hb
  have time : (v.openSitting o).timer = v.timer := rfl
  obtain ⟨f, fcu⟩ := starts.fcu
  have none_withheld := starts.room.room 36 count
    (by rw [marks]; unfold Bay.fill; cases o.record <;> exact Nat.le_refl _)
    (by rw [marks]; unfold Bay.capacity; dsimp only; rw [bays]; omega)
  generalize (v.openSitting o).openInterval = t at *
  have channels (c : Fin 32) : (v.openSitting o).path.channels[c] = v.path.channels[c].opening :=
    (v.path.opening_channel c).1
  have floors (c : Fin 32) : t.path.fcu.floors[c] = v.path.fcu.floors[c].opening :=
    (congrArg (fun u : Fcu => u.floors[c]) fcu).trans (v.path.opening_channel c).2
  refine ⟨?_, ?_, fun c => ?_, fun k m => ?_, ?_, ?_, ?_, ?_, none_withheld.1, ?_, fun k => ?_, serials, ?_⟩
  · rw [court.sitting, ← clock, ← sitting]; rfl
  · rw [← frame]
    unfold State.frame
    rw [court.sitting, court.timer]
  · obtain ⟨sns, run, e⟩ := course.channel c
    have norun := starts.room.runs c
    have snap : t.path.channels[c].snapshot 0 = (v.path.channels[c].opening.takeSnapshot 0 o.record).snapshot 0 := by
      unfold Channel.snapshot
      rw [begun.snapshots, taken, frame, channels]
      rfl
    rw [snap, (Channel.takeSnapshot_spec ..).1, floors, ← holds.settings c, e, channels]
    have ended : run = none := (congrArg Channel.run e).symm.trans (norun.trans (congrArg Channel.run (channels c)))
    exact ⟨rfl, rfl, rfl, ended, rfl, rfl, rfl, rfl, rfl, rfl⟩
  · rw [begun.stations, stations, v.openSitting_path o, Path.opening_mic]
    exact ⟨rfl, rfl⟩
  · rw [fcu]; rfl
  · rw [fcu]; rfl
  · rw [fcu]; rfl
  · rw [fcu]; rfl
  · rw [court.supply, ← supply]; rfl
  · rw [starts.sound, State.openSitting_other]
  · obtain ⟨more, e⟩ := course.bays.items markTrack
    rw [e, marks, court.timer, time]
    cases o.record <;> rfl

end Sys2Proof.Machine
end

