-- ==== Sys2Proof/Proofs/MarksOfABoundary.lean ====
section
/-! PROOF. The marks of a boundary and of the settling of a frame (R17, R28, R30, R31, R91 to R93, R126; assumptions 4, 6). -/
namespace Sys2Proof.Machine

/-! ### The withheld count (R126) -/

/-- The withheld count went up, or stands at its largest value. -/
def WithheldMore (n m : Nat) : Prop := m ≤ 4294967295 ∧ (n < m ∨ m = 4294967295)

theorem WithheldMore.marked {n m : Nat} (h : WithheldMore n m) : n < m ∨ m = 4294967295 := h.2

/-- The withheld count as marks are offered: as it was, or higher. -/
def WithheldSince (n m : Nat) : Prop := m = n ∨ WithheldMore n m

theorem WithheldSince.refl (n : Nat) : WithheldSince n n := .inl rfl

theorem WithheldSince.trans {a b c : Nat} (h1 : WithheldSince a b) (h2 : WithheldSince b c) : WithheldSince a c := by
  unfold WithheldSince WithheldMore at *; omega

theorem WithheldMore.since {a b c d : Nat} (h1 : WithheldSince a b) (h2 : WithheldMore b c) (h3 : WithheldSince c d) :
    WithheldMore a d := by
  unfold WithheldSince WithheldMore at *; omega

/-- R126: an offered mark stands in bay 33, or it is counted as withheld. -/
theorem Bays.offer_counts (bs : Bays) (m : Mark) :
    (.mark m ∈ (bs.offer m).bay[markTrack].items ∧ (bs.offer m).withheld = bs.withheld) ∨
      WithheldMore bs.withheld (bs.offer m).withheld := by
  rcases bs.offer_cases m with ⟨_, e⟩ | ⟨_, e⟩ <;> rw [e]
  · rw [Bays.set_bay, if_pos rfl]
    exact .inl ⟨List.mem_append_right _ List.mem_cons_self, rfl⟩
  · refine .inr ?_
    show WithheldMore _ (min 4294967295 (bs.withheld + 1))
    unfold WithheldMore
    omega

theorem Bays.offer_since (bs : Bays) (m : Mark) : WithheldSince bs.withheld (bs.offer m).withheld :=
  (bs.offer_counts m).elim (fun h => .inl h.2) .inr

theorem Path.mark_since (x : Ctx) (k : MarkKind) (f : Nat) (p : Path) :
    WithheldSince p.bays.withheld (p.mark x k f).bays.withheld := by
  unfold Path.mark
  split
  · exact Bays.offer_since _ _
  · exact .inl rfl

theorem Path.mark_allowed (x : Ctx) (k : MarkKind) (f : Nat) (p : Path) (h : x.sitting.marks f = true) :
    p.mark x k f = { p with bays := p.bays.offer { kind := k, frame := f, time := x.tod } } := if_pos h

/-! ### The marks of the timer (R28, R30, R31) -/

theorem State.advanceTimer_frame (s : State) (hb : s.timer.boundary ≠ BitVec.allOnes 64) (hc : s.sitting.counting = true)
    (ho : s.sitting.openedAt.toNat ≤ s.timer.boundary.toNat) :
    s.sitting.frameAt s.advanceTimer.timer.boundary = s.frame + 1 := by
  have advanced := s.advance_boundary hb
  unfold Sitting.frameAt
  rw [if_pos hc, s.frame_counting hc, advanced]
  omega

theorem State.advanceTimer_tod (s : State) (v : Word64) (h : s.timer.clockSet = some v) : s.advanceTimer.timer.tod = v := by
  show s.timer.clockSet.getD _ = v
  rw [h]; rfl

/-- R28, R30, R31: TRIM_SET, then CLOCK_SET. -/
theorem Path.timerMarks_open (x : Ctx) (e : Timer) (p : Path) (h : x.sitting.isOpen = true) (first : Bays)
    (same : e.next = e.interval → first = p.bays)
    (trim : e.next ≠ e.interval →
      first = p.bays.offer { kind := .trimSet e.interval e.next, frame := x.frame, time := x.tod }) :
    (e.clockSet = none → p.timerMarks x e = { p with bays := first }) ∧
    ∀ new, e.clockSet = some new → p.timerMarks x e = { p with
      bays := first.offer { kind := .clockSet e.ordinary new, frame := x.frame, time := x.tod } } := by
  have marks : x.sitting.marks x.frame = true := by
    unfold Sitting.marks
    rcases x.sitting.isOpen_iff.mp h with state | state <;> rw [state]
  have trimmed : (if e.next ≠ e.interval then p.mark x (.trimSet e.interval e.next) x.frame else p) =
      { p with bays := first } := by
    by_cases hn : e.next = e.interval
    · rw [if_neg (not_not_intro hn), same hn]
    · rw [if_pos hn, trim hn, Path.mark_allowed x _ _ _ marks]
  unfold Path.timerMarks
  dsimp only
  rw [if_pos h, trimmed]
  refine ⟨fun hc => by rw [hc], fun new hc => ?_⟩
  rw [hc]
  exact Path.mark_allowed x _ _ _ marks

/-! ### The bar marks (R88, R91) -/

theorem Channel.barBefore_succ (ch : Channel) (f : Nat) (sn : Snapshot) (h : ch.snapshot f = some sn) :
    ch.barBefore (f + 1) = sn.settings.bar := by
  unfold Channel.snapshot at h
  unfold Channel.barBefore
  simp only [Nat.add_right_cancel_iff]
  rw [h]

theorem Channel.barBefore_zero (ch : Channel) : ch.barBefore 0 = false := by
  have none : (ch.snapshots.find? fun sn => decide (sn.frame + 1 = 0)) = none := List.find?_eq_none.mpr (by simp)
  unfold Channel.barBefore
  rw [none]

/-- R91: what the frame before says of the bar, a clear bar before frame 0. -/
theorem Channel.barBefore_of (ch : Channel) (f : Nat) (before : Bool)
    (h : f = 0 ∧ before = false ∨ ∃ sn, 0 < f ∧ ch.snapshot (f - 1) = some sn ∧ before = sn.settings.bar) :
    ch.barBefore f = before := by
  rcases h with ⟨rfl, rfl⟩ | ⟨sn, hf, hs, rfl⟩
  · exact ch.barBefore_zero
  · have e := ch.barBefore_succ (f - 1) sn hs
    rwa [show f - 1 + 1 = f by omega] at e

/-- R91: the bar mark of one channel. -/
theorem Path.snapshotChannel_bays (x : Ctx) (f : Nat) (on : Bool) (p : Path) (c : Fin 32) (before bar : Bool)
    (hb : p.channels[c].barBefore f = before) (hs : p.channels[c].settings.bar = bar) (hm : x.sitting.marks f = true) :
    (p.snapshotChannel x f on c).bays = if p.channels[c].seated = true ∧ before ≠ bar then
      p.bays.offer { kind := if bar then .barSet c else .barCleared c, frame := f, time := x.tod } else p.bays := by
  unfold Path.snapshotChannel
  dsimp only
  rw [hb, hs, Path.mark_allowed x _ _ _ hm, Path.mark_allowed x _ _ _ hm]
  cases p.channels[c].seated
  · simp
  · cases before <;> cases bar <;> simp

theorem Path.snapshotChannel_since (x : Ctx) (f : Nat) (on : Bool) (p : Path) (c : Fin 32) :
    WithheldSince p.bays.withheld (p.snapshotChannel x f on c).bays.withheld := by
  unfold Path.snapshotChannel
  dsimp only
  split
  · exact Path.mark_since ..
  · split
    · exact Path.mark_since ..
    · exact .inl rfl

/-- R91: every channel that changed has its mark, or it is withheld. -/
theorem Path.takeSnapshots_counts (x : Ctx) (f : Nat) (on : Bool) (p : Path) (c : Fin 32) (before bar : Bool)
    (hb : p.channels[c].barBefore f = before) (hs : p.channels[c].settings.bar = bar) (hm : x.sitting.marks f = true)
    (hse : p.channels[c].seated = true) (hne : before ≠ bar) :
    .mark { kind := if bar then .barSet c else .barCleared c, frame := f, time := x.tod } ∈
        (p.takeSnapshots x f on).bays.bay[markTrack].items ∨
      WithheldMore p.bays.withheld (p.takeSnapshots x f on).bays.withheld := by
  obtain ⟨q, since, same, ⟨grows, later⟩, _⟩ := Path.foldl_all (Path.snapshotChannel x f on)
    (fun q d => (q.snapshotChannel_view x f on d).1)
    (fun a b => a.bays.Grows b.bays ∧ WithheldSince a.bays.withheld b.bays.withheld)
    (fun _ => ⟨.refl _, .refl _⟩) (fun _ _ _ h1 h2 => ⟨h1.1.trans h2.1, h1.2.trans h2.2⟩)
    (fun q d => ⟨(q.snapshotChannel_view x f on d).2, q.snapshotChannel_since x f on d⟩) c p
  unfold Path.takeSnapshots
  rw [← same] at hb hs hse
  have own := q.snapshotChannel_bays x f on c before bar hb hs hm
  rw [if_pos ⟨hse, hne⟩] at own
  rw [own] at grows later
  rcases q.bays.offer_counts { kind := if bar then .barSet c else .barCleared c, frame := f, time := x.tod } with
    ⟨mem, _⟩ | more
  · exact .inl (grows.mem mem)
  · exact .inr (more.since since.2 later)

/-! ### The boundary's own marks (R22, R126) -/

/-- A boundary of an open sitting: its bays grow from those that the timer marked, and the bar marks stand or found no room
(R28, R30, R31, R91). -/
theorem State.boundary_tells (s : State) (a b : Bool) (hb : s.timer.boundary ≠ BitVec.allOnes 64)
    (ho : s.sitting.isOpen = true) (hn : s.sitting.close = none)
    (hat : s.sitting.openedAt.toNat ≤ s.timer.boundary.toNat) :
    (s.boundary a b).timer = s.advanceTimer.timer ∧ s.advanceTimer.path.bays.Grows (s.boundary a b).path.bays ∧
    ∀ (c : Fin 32) (sn : Snapshot) (bar : Bool), s.path.channels[c].snapshot s.frame = some sn →
      s.path.channels[c].seated = true → bar = s.path.channels[c].settings.bar → sn.settings.bar ≠ bar →
      (s.boundary a b).path.bays.tells { kind := if bar then .barSet c else .barCleared c, frame := s.frame + 1
                                         time := s.advanceTimer.timer.tod } := by
  have counting := Sitting.counting_of_isOpen ho
  have frame := s.endInterval_frame a b hb counting hat
  have same := s.endInterval_sitting a b hn
  have timer := (s.endInterval_supply a b).2
  obtain ⟨grown, settings⟩ := s.endInterval_settings a b hn fun f hf hc g hg => hf ▸ s.closing_before a b hb hc g hg
  rw [State.boundary_parts]
  generalize s.endInterval a b = v at *
  have vcounting : v.sitting.counting = true := by rw [same]; exact counting
  obtain ⟨cur, moved⟩ := v.moveSitting_flag (by rw [same]; exact ho)
  have frame2 := moved.frame vcounting
  obtain ⟨within, marks⟩ := moved.within (by rw [same]; exact hn)
  have course := (v.moveSitting_course vcounting).1
  have court := v.moveSitting.openInterval_court
  refine ⟨court.timer.trans (moved.timer.trans timer),
    (grown.trans course.bays).trans v.moveSitting.openInterval_course.bays, fun c sn bar hs hse hbar hne => ?_⟩
  obtain ⟨seated, set, snapshot⟩ := settings c
  have before : v.path.channels[c].barBefore (s.frame + 1) = sn.settings.bar :=
    Channel.barBefore_succ _ _ sn ((snapshot counting).trans hs)
  have told := v.moveSitting.openInterval_tells c bar moved.counting (by rw [frame2]; exact within)
    (by rw [frame2]; exact marks) (by rw [moved.channels]; exact seated.trans hse)
    (by rw [moved.channels]; exact hbar.trans (congrArg Settings.bar set).symm)
    (by rw [moved.channels, frame2, frame, before]; exact hne)
  rwa [frame2, frame, moved.timer, timer] at told

/-- R91 at an opening: a seated channel whose bar is set has its mark at frame 0, or there was no room. -/
theorem State.boundary_opening_tells (s : State) (a b : Bool) (o : Opening) (hs : s.sitting.state = .armed)
    (ho : s.sitting.opening = some o) (c : Fin 32) (hse : s.path.channels[c].seated = true)
    (hbar : s.path.channels[c].settings.bar = true) :
    (s.boundary a b).path.bays.tells { kind := .barSet c, frame := 0, time := (s.boundary a b).timer.tod } := by
  obtain ⟨sitting, _, holds⟩ := s.endInterval_idle a b (by unfold Sitting.counting; rw [hs])
  rw [State.boundary_parts]
  generalize s.endInterval a b = v at *
  rw [v.moveSitting_opens o (by rw [sitting]; exact hs) (by rw [sitting]; exact ho)]
  have counting := v.openSitting_counting o
  have frame := v.openSitting_frame o
  have channel : (v.openSitting o).path.channels[c] = v.path.channels[c].opening := (v.path.opening_channel c).1
  have marks : (v.openSitting o).sitting.marks (v.openSitting o).frame = true := by
    show Sitting.marks (v.sitting.opened o v.timer.boundary) _ = true
    unfold Sitting.opened
    cases o.record <;> rfl
  have told := (v.openSitting o).openInterval_tells c true counting rfl marks
    (by rw [channel]; exact (holds.seated c).trans hse)
    (by rw [channel]; exact (hbar.symm.trans (congrArg Settings.bar (holds.settings c)).symm))
    (by rw [frame, Channel.barBefore_zero]; exact nofun)
  rw [frame] at told
  rw [((v.openSitting o).openInterval_court).timer]
  exact told

/-! ### The marks of a settling (R92, R93) -/

theorem privacySource_eq (button host : Bool) (h : (button || host) = true) :
    privacySource button host = if button = true ∧ host = true then .both else if button then .station else .benchDesk := by
  cases button <;> cases host <;> simp [privacySource] at h ⊢

/-- R113: the mark of privacy's forced end of the floor. -/
theorem Path.forceFloor_bays (x : Ctx) (on : Bool) (p : Path) (c : Fin 32) :
    (∀ l, p.fcu.floors[c].speaking = true → p.fcu.floors[c].lastLoud = some l → on = true → x.sitting.marks l = true →
      (p.forceFloor x on c).bays = p.bays.offer { kind := .floorEnd c l, frame := l, time := x.tod }) ∧
    (p.fcu.floors[c].speaking = false ∨ on = false → (p.forceFloor x on c).bays = p.bays) := by
  unfold Path.forceFloor Floor.force
  dsimp only
  refine ⟨fun l hs hl hon hm => ?_, fun h => ?_⟩
  · rw [if_pos hs, hl, hon]
    show ((p.setFloor c _).mark x (.floorEnd c l) l).bays = _
    rw [Path.mark_allowed x _ _ _ hm]
    rfl
  · unfold Path.floorMark
    rcases h with h | h <;> rw [h]
    · cases on <;> rfl
    · rfl

/-- R89, R92: privacy as it was, begun or ended, `asked`, `now` and `before` being what is asked, effective and was
effective. -/
theorem Path.settlePrivacy_cases (x : Ctx) (c : Fin 32) (f : Nat) (sn : Snapshot) (button : Bool) (p p1 : Path)
    (asked now before : Bool) (ha : asked = (button || sn.settings.privacy)) (hn : now = (asked && !sn.settings.bar))
    (hb : before = (p.channels[c].privacy && decide (f ≠ 0)))
    (hp : p1 = p.setChannel c { p.channels[c] with privacy := now, settled := true }) :
    (now = before → p.settlePrivacy x c f sn button = p1) ∧
    (now = true → before = false → p.settlePrivacy x c f sn button =
      (p1.forceFloor x sn.onRecord c).mark x (.privacyBegin c (privacySource button sn.settings.privacy)) f) ∧
    (now = false → before = true → p.settlePrivacy x c f sn button =
      p1.mark x (.privacyEnd c (if asked = true ∧ sn.settings.bar = true then .barred else .released)) f) := by
  unfold Path.settlePrivacy
  dsimp only
  rw [← ha, ← hn, ← hb, ← hp]
  cases now <;> cases before <;> simp

theorem Path.forceFloor_floor (x : Ctx) (on : Bool) (p : Path) (c : Fin 32) :
    (p.forceFloor x on c).fcu.floors[c].speaking = false ∧ (p.forceFloor x on c).fcu.floors[c].loudRun = 0 := by
  rw [Path.forceFloor_get, if_pos rfl]
  obtain ⟨speaking, loud, _⟩ := p.fcu.floors[c].force_spec
  exact ⟨speaking, loud⟩

/-- R93: a press under the bar is refused with its mark, and no other press. -/
theorem Path.refusePress_cases (x : Ctx) (f : Nat) (c : Fin 32) (before after : Bool) (p : Path) (sn : Snapshot) :
    (p.channels[c].snapshot f = some sn → p.channels[c].seated = true → sn.settings.bar = true →
      before = false → after = true → x.sitting.within f = true → x.sitting.marks f = true →
      p.refusePress x f c before after =
        { p with bays := p.bays.offer { kind := .privacyRefused c, frame := f, time := x.tod } }) ∧
    (p.channels[c].snapshot f = none ∨ (p.channels[c].snapshot f = some sn ∧ sn.settings.bar = false) ∨
      p.channels[c].seated = false ∨ before = true ∨ after = false → p.refusePress x f c before after = p) := by
  unfold Path.refusePress
  dsimp only
  refine ⟨fun hs hse hbar hb ha hw hm => ?_, fun h => ?_⟩
  · rw [hs]
    exact (if_pos ⟨hse, hb, ha, hbar, hw⟩).trans (Path.mark_allowed x _ _ _ hm)
  · cases hs : p.channels[c].snapshot f with
    | none => rfl
    | some sn' =>
      refine if_neg fun ⟨hse, hb, ha, hbar, _⟩ => ?_
      rw [hs] at h
      rcases h with h | ⟨h, h'⟩ | h | h | h
      · cases h
      · cases h; rw [hbar] at h'; cases h'
      · rw [hse] at h; cases h
      · rw [hb] at h; cases h
      · rw [ha] at h; cases h

/-- Settles O32: each mark at its own operation, and kept by the bays that only grow after it. -/
theorem marksOfABoundaryAndOfSettling : Obligations.MarksOfABoundaryAndOfSettling := by
  refine ⟨fun s a b hrun hb ho hn hat => ⟨s.boundary a b, exec_boundary s a b hrun, ?_⟩,
    fun s a b o hrun hs ho => ⟨s.boundary a b, exec_boundary s a b hrun, fun c hse hbar =>
      s.boundary_opening_tells a b o hs ho c hse hbar⟩,
    ?_, fun x f on before bar p c hb hs hm => p.snapshotChannel_bays x f on c before bar
      (Channel.barBefore_of _ f before hb) hs hm,
    fun x f on before bar p c hb hs hm hse hne => ?_, ?_, ?_⟩
  · obtain ⟨timer, grows, bars⟩ := s.boundary_tells a b hb ho hn hat
    obtain ⟨trim, clock⟩ := Path.timerMarks_tells { s.ctx with
      boundary := s.advanceTimer.timer.boundary, tick := 0, tod := s.advanceTimer.timer.tod } s.timer s.path ho
    have frame := s.advanceTimer_frame hb (Sitting.counting_of_isOpen ho) hat
    refine ⟨grows.items, ?_⟩
    rintro mark rfl
    rw [timer, ← frame]
    refine ⟨fun h => Bays.tells_grows (trim h) grows,
      fun new h => ⟨s.advanceTimer_tod new h, Bays.tells_grows (clock new h) grows⟩, ?_⟩
    rw [frame]
    exact bars
  · rintro s v rfl hb
    refine ⟨fun h => if_neg (by rw [show s.ctx.sitting = s.sitting from rfl, h]; exact nofun), fun ho hat => ?_⟩
    rintro mark rfl first same trim
    rw [← s.advanceTimer_frame hb (Sitting.counting_of_isOpen ho) hat] at trim ⊢
    obtain ⟨unset, set⟩ := Path.timerMarks_open { s.ctx with
      boundary := s.advanceTimer.timer.boundary, tick := 0, tod := s.advanceTimer.timer.tod } s.timer s.path ho first same trim
    exact ⟨unset, fun new h => ⟨s.advanceTimer_tod new h, set new h⟩⟩
  · exact (p.takeSnapshots_counts x f on c before bar (Channel.barBefore_of _ f before hb) hs hm hse hne).imp id
      WithheldMore.marked
  · rintro x c f sn button asked now before p q rfl ha hn hb hm
    obtain ⟨stays, begins, ends⟩ := p.settlePrivacy_cases x c f sn button _ asked now before ha hn hb rfl
    have floors : (p.setChannel c { p.channels[c] with privacy := now, settled := true }).fcu = p.fcu := rfl
    have bays : (p.setChannel c { p.channels[c] with privacy := now, settled := true }).bays = p.bays := rfl
    have get (d : Fin 32) := p.setChannel_get c d { p.channels[c] with privacy := now, settled := true }
    generalize p.setChannel c { p.channels[c] with privacy := now, settled := true } = p1 at *
    have channel : ∀ d : Fin 32, (p.settlePrivacy x c f sn button).channels[d] = p1.channels[d] := by
      intro d
      cases hnow : now <;> cases hbefore : before
      · rw [stays (hnow.trans hbefore.symm)]
      · rw [ends hnow hbefore, Path.mark_channel]
      · rw [begins hnow hbefore, Path.mark_channel, (Path.forceFloor_view ..).1]
      · rw [stays (hnow.trans hbefore.symm)]
    refine ⟨fun d => ?_, fun h => by rw [stays h]; exact ⟨bays, floors⟩, fun h1 h2 => ?_, fun h1 h2 => ?_⟩
    · rw [channel, get]
      by_cases h : d = c
      · subst h; rfl
      · rw [if_neg h, if_neg h]
    · rw [begins h1 h2, Path.mark_allowed x _ _ _ hm, privacySource_eq _ _ (ha.symm.trans
        ((Bool.and_eq_true _ _).mp (hn.symm.trans h1)).1)]
      obtain ⟨speaking, loud⟩ := p1.forceFloor_floor x sn.onRecord c
      obtain ⟨told, silent⟩ := p1.forceFloor_bays x sn.onRecord c
      rw [floors, bays] at told
      rw [floors, bays] at silent
      refine ⟨speaking, loud, ?_⟩
      rintro _ rfl
      exact ⟨fun l hs hl hon hml => by rw [← told l hs hl hon hml], fun h => by rw [← silent h]⟩
    · rw [ends h1 h2, Path.mark_allowed x _ _ _ hm]
      exact ⟨floors, by rw [bays]⟩
  · exact fun x f c before after p sn => p.refusePress_cases x f c before after sn

end Sys2Proof.Machine
end

