-- ==== Sys2Proof/Proofs/TracksApart.lean ====
section
/-! PROOF. What an operation on one track spares: the detectors of the other channels, and the withheld count but for marks
that found no room (R109 to R113, R126). -/
namespace Sys2Proof.Machine

/-- From `p` to `q` no detector changed but that of track `t`'s channel, and the withheld count changed by withheld marks
alone. -/
structure Path.Sparing (p q : Path) (t : Fin 33) : Prop where
  floors : ∀ c : Fin 32, soundTrack c ≠ t → q.fcu.floors[c] = p.fcu.floors[c]
  since : WithheldSince p.bays.withheld q.bays.withheld

theorem Path.Sparing.refl (p : Path) (t : Fin 33) : p.Sparing p t := ⟨fun _ _ => rfl, .refl _⟩

theorem Path.Sparing.trans {a b d : Path} {t : Fin 33} (h1 : a.Sparing b t) (h2 : b.Sparing d t) : a.Sparing d t :=
  ⟨fun c hc => (h2.floors c hc).trans (h1.floors c hc), h1.since.trans h2.since⟩

/-- A change of neither detectors nor the withheld count. -/
theorem Path.sparing_of {p q : Path} (t : Fin 33) (h1 : q.fcu.floors = p.fcu.floors)
    (h2 : q.bays.withheld = p.bays.withheld) : p.Sparing q t :=
  ⟨fun _ _ => by rw [h1], .inl h2⟩

theorem Path.Sparing.after {p q r : Path} {t : Fin 33} (h : q.Sparing r t) (hf : q.fcu.floors = p.fcu.floors)
    (hw : q.bays.withheld = p.bays.withheld) : p.Sparing r t := (Path.sparing_of t hf hw).trans h

theorem Path.sparing_mark (x : Ctx) (k : MarkKind) (f : Nat) (p : Path) (t : Fin 33) : p.Sparing (p.mark x k f) t :=
  ⟨fun c _ => Path.mark_floor x k f p c, Path.mark_since x k f p⟩

theorem Path.sparing_raise (p : Path) (k : Cause) (t : Fin 33) : p.Sparing (p.raise k) t := Path.sparing_of t rfl rfl

/-! ### Runs (R98, R99) -/

theorem Path.sparing_setRun (p : Path) (t u : Fin 33) (r : Option VoidRun) : p.Sparing (p.setRun t r) u := by
  refine Path.sparing_of u ?_ (by rw [Path.setRun_bays])
  unfold Path.setRun
  split <;> rfl

theorem Path.sparing_offerRun (p : Path) (t u : Fin 33) (r : VoidRun) : p.Sparing (p.offerRun t r) u := by
  rcases p.offerRun_cases t r with ⟨_, e⟩ | ⟨_, e⟩ <;> rw [e]
  · exact (Path.sparing_setRun _ t u none).after rfl rfl
  · exact p.sparing_setRun t u _

theorem Path.sparing_endRun (p : Path) (t u : Fin 33) : p.Sparing (p.endRun t) u := by
  unfold Path.endRun
  split
  · split
    · exact .refl p u
    · exact p.sparing_offerRun t u _
  · exact .refl p u

theorem Path.sparing_takeVoid (p : Path) (t u : Fin 33) (cause : VoidCause) (f : Nat) :
    p.Sparing (p.takeVoid t cause f).1 u := by
  unfold Path.takeVoid
  split
  · exact p.sparing_setRun t u _
  · split
    · exact p.sparing_setRun t u _
    · split
      · dsimp only
        split
        · exact (p.sparing_setRun t u _).trans (Path.sparing_endRun _ t u)
        · exact p.sparing_setRun t u _
      · dsimp only
        split
        · exact (p.sparing_endRun t u).trans (Path.sparing_setRun _ t u _)
        · exact (p.sparing_endRun t u).trans (Path.sparing_setRun _ t u _)

theorem Path.sparing_voidFrame (p : Path) (d : Fin 32) (u : Fin 33) (f : Nat) (cause : VoidCause) :
    p.Sparing (p.voidFrame d f cause) u :=
  (p.sparing_takeVoid (soundTrack d) u cause f).trans (Path.sparing_of u rfl rfl)

/-! ### Detectors (R109 to R113) -/

theorem Path.sparing_setFloor (p : Path) (d : Fin 32) (fl : Floor) : p.Sparing (p.setFloor d fl) (soundTrack d) :=
  ⟨fun c hc => by rw [Path.setFloor_get, if_neg fun e => hc (by rw [e])], .refl _⟩

theorem Path.sparing_floorMark (x : Ctx) (d : Fin 32) (on : Bool) (news : Option FloorNews) (p : Path) (t : Fin 33) :
    p.Sparing (p.floorMark x d on news) t := by
  unfold Path.floorMark
  split
  · exact Path.sparing_mark ..
  · exact Path.sparing_mark ..
  · exact .refl p t

theorem Path.sparing_forceFloor (x : Ctx) (on : Bool) (p : Path) (d : Fin 32) :
    p.Sparing (p.forceFloor x on d) (soundTrack d) :=
  (p.sparing_setFloor d _).trans (Path.sparing_floorMark x d on _ _ _)

theorem Path.sparing_stepFloor (p : Path) (x : Ctx) (d : Fin 32) (f : Nat) (sn : Snapshot) (loud : Bool) (peak : Nat) :
    p.Sparing (p.stepFloor x d f sn loud peak) (soundTrack d) :=
  (p.sparing_setFloor d _).trans (Path.sparing_floorMark x d _ _ _ _)

theorem Path.sparing_resumeFloor (d : Fin 32) (sn : Snapshot) (p : Path) :
    p.Sparing (p.resumeFloor d sn) (soundTrack d) := by
  unfold Path.resumeFloor
  dsimp only
  split
  · exact p.sparing_setFloor d _
  · exact .refl p _

theorem Path.sparing_settlePrivacy (x : Ctx) (d : Fin 32) (f : Nat) (sn : Snapshot) (button : Bool) (p : Path) :
    p.Sparing (p.settlePrivacy x d f sn button) (soundTrack d) := by
  have set (ch : Channel) : p.Sparing (p.setChannel d ch) (soundTrack d) := Path.sparing_of _ rfl rfl
  unfold Path.settlePrivacy
  dsimp only
  split
  · exact ((set _).trans (Path.sparing_forceFloor x sn.onRecord _ d)).trans (Path.sparing_mark ..)
  · split
    · exact (set _).trans (Path.sparing_mark ..)
    · exact set _

/-! ### Blocks (R117 to R119) -/

theorem Path.sparing_economyTest (x : Ctx) (t u : Fin 33) (f : Nat) (p : Path) : p.Sparing (p.economyTest x t f).1 u := by
  unfold Path.economyTest
  dsimp only
  split
  · split
    · exact Path.Sparing.after (Path.sparing_mark x (.economyEnd t) f _ u) rfl rfl
    · exact .refl p u
  · split
    · exact ((Path.sparing_mark x (.economyBegin t) f _ u).trans (Path.sparing_raise _ .economy u)).after rfl rfl
    · exact .refl p u

theorem Path.sparing_offerUnlessHeld (x : Ctx) (t u : Fin 33) (f : Nat) (clip : Bool) (n : Nat) (g : List Int) (p : Path) :
    p.Sparing (p.offerUnlessHeld x t f clip n g).1 u := by
  unfold Path.offerUnlessHeld Path.offerBlock
  dsimp only
  split
  · exact .refl p u
  · refine (p.sparing_economyTest x t u f).trans ?_
    unfold Path.push
    cases hp : (p.economyTest x t f).1.bays.push (trackOf t)
        (.sample (blockOf t f (p.economyTest x t f).2 clip n g)) with
    | none => exact .refl _ u
    | some bs =>
      obtain ⟨_, e⟩ := (Bays.push_eq_some _ _ _ _).mp hp
      exact Path.sparing_of u rfl (by rw [e]; rfl)

theorem Path.sparing_takeSample (x : Ctx) (d : Fin 32) (f : Nat) (sn : Snapshot) (g : List Int) (n : Nat) (p : Path) :
    p.Sparing (p.takeSample x d f sn g n) (soundTrack d) := by
  have stepped : p.Sparing ((p.setChannel d (p.channels[d].countSample n)).stepFloor x d f sn
      (decide (sn.settings.threshold ≤ peakOf g)) (peakOf g)) (soundTrack d) :=
    (Path.sparing_stepFloor _ x d f sn _ _).after rfl rfl
  unfold Path.takeSample
  dsimp only
  split
  · exact stepped.trans (Path.sparing_of _ (Fcu.contribute_floors _ _ _) rfl)
  · exact stepped

theorem Path.sparing_sampleFrame (x : Ctx) (d : Fin 32) (f : Nat) (sn : Snapshot) (samples : List Int) (p : Path) :
    p.Sparing (p.sampleFrame x d f sn samples) (soundTrack d) := by
  unfold Path.sampleFrame
  dsimp only
  have offered := (p.sparing_endRun (soundTrack d) (soundTrack d)).trans
    (Path.sparing_offerUnlessHeld x (soundTrack d) (soundTrack d) f
      (decide (saturatedCount sn.settings.gain samples ≠ 0)) 0 (gained sn.settings.gain samples) _)
  split
  · exact offered.trans (Path.sparing_takeSample ..)
  · exact (offered.trans (Path.sparing_voidFrame _ d _ f .noRoom)).trans (Path.sparing_stepFloor _ x d f sn _ _)

/-! ### Settling, the mix and the end of a stretch (R12, R95 to R98, R115) -/

theorem Path.sparing_settle (x : Ctx) (f : Nat) (how : Settling) (p : Path) (d : Fin 32) :
    p.Sparing (p.settle x f how d) (soundTrack d) := by
  unfold Path.settle
  dsimp only
  split
  · exact .refl p _
  · rename_i sn _
    split
    · have settled := (p.sparing_resumeFloor d sn).trans (Path.sparing_settlePrivacy x d f sn
        (buttonPart how p.stations[stationOf d].mics[micOf d] (micOf d)) _)
      split
      · split
        · exact (settled.trans (Path.sparing_voidFrame _ d _ f _)).trans (Path.sparing_stepFloor _ x d f sn _ _)
        · split
          · exact (settled.trans (Path.sparing_voidFrame _ d _ f _)).trans (Path.sparing_stepFloor _ x d f sn _ _)
          · exact settled.trans (Path.sparing_sampleFrame ..)
      · split
        · exact settled.trans (Path.sparing_stepFloor _ x d f sn _ _)
        · exact settled.trans (Path.sparing_stepFloor _ x d f sn _ _)
    · exact .refl p _

theorem Path.sparing_finishMix (x : Ctx) (f : Nat) (on : Bool) (p : Path) : p.Sparing (p.finishMix x f on) mixTrack := by
  have disposed : p.Sparing (p.disposeMix x f) mixTrack := by
    unfold Path.disposeMix
    dsimp only
    split
    · exact p.sparing_takeVoid mixTrack mixTrack _ f
    · split
      · exact p.sparing_takeVoid mixTrack mixTrack _ f
      · have offered := (p.sparing_endRun mixTrack mixTrack).trans
          (Path.sparing_offerUnlessHeld x mixTrack mixTrack f (decide (p.fcu.mixSaturated ≠ 0)) p.fcu.contributors
            p.fcu.mixSamples _)
        split
        · exact offered.trans (Path.sparing_of _ rfl rfl)
        · exact offered.trans (Path.sparing_takeVoid _ mixTrack mixTrack _ f)
  unfold Path.finishMix
  dsimp only
  split
  · exact disposed.trans (Path.sparing_of _ rfl rfl)
  · exact Path.sparing_of _ rfl rfl

theorem Path.sparing_endChannelStretch (x : Ctx) (on : Bool) (p : Path) (d : Fin 32) :
    p.Sparing (p.endChannelStretch x on d) (soundTrack d) := by
  unfold Path.endChannelStretch
  split
  · exact (p.sparing_endRun (soundTrack d) _).trans (Path.sparing_forceFloor x on _ d)
  · exact .refl p _

/-! ### Apart from one channel -/

/-- From `p` to `q` channel `c`'s record, bay and detector stood with the station records and the mix's settings, the bays
grew and the withheld count changed by withheld marks alone. -/
structure Path.Apart (p q : Path) (c : Fin 32) : Prop where
  channel : q.channels[c] = p.channels[c]
  bay : q.bays.bay[trackOf (soundTrack c)] = p.bays.bay[trackOf (soundTrack c)]
  floor : q.fcu.floors[c] = p.fcu.floors[c]
  stations : q.stations = p.stations
  mixOn : q.fcu.mixOn = p.fcu.mixOn
  grows : p.bays.Grows q.bays
  since : WithheldSince p.bays.withheld q.bays.withheld

theorem Path.Apart.refl (p : Path) (c : Fin 32) : p.Apart p c := ⟨rfl, rfl, rfl, rfl, rfl, .refl _, .refl _⟩

theorem Path.Apart.trans {a b d : Path} {c : Fin 32} (h1 : a.Apart b c) (h2 : b.Apart d c) : a.Apart d c :=
  ⟨h2.channel.trans h1.channel, h2.bay.trans h1.bay, h2.floor.trans h1.floor, h2.stations.trans h1.stations,
    h2.mixOn.trans h1.mixOn, h1.grows.trans h2.grows, h1.since.trans h2.since⟩

/-- What keeps to another track's channel, bay and detector leaves this one's. -/
theorem Path.Apart.of {p q : Path} {t : Fin 33} (h1 : p.Beside q t) (h2 : p.Sparing q t) (h3 : p.Keeps q) {c : Fin 32}
    (hc : soundTrack c ≠ t) : p.Apart q c :=
  ⟨(h1 c hc).1, (h1 c hc).2, h2.floors c hc, h3.stations, h3.mixOn, h3.bays, h2.since⟩

/-- An operation on each of several channels in turn, each keeping to its own. -/
theorem Path.foldl_apart (g : Path → Fin 32 → Path)
    (hg : ∀ (q : Path) (c d : Fin 32), c ≠ d → q.Apart (g q d) c) (c : Fin 32) (l : List (Fin 32)) (hl : c ∉ l) (p : Path) :
    p.Apart (l.foldl g p) c := by
  induction l generalizing p with
  | nil => exact .refl p c
  | cons d l ih =>
    exact (hg p c d (List.ne_of_not_mem_cons hl)).trans (ih (List.not_mem_of_not_mem_cons hl) _)

/-- An operation on every channel in turn, each keeping to its own: one channel is changed by its own alone. -/
theorem Path.foldl_own (g : Path → Fin 32 → Path)
    (hg : ∀ (q : Path) (c d : Fin 32), c ≠ d → q.Apart (g q d) c) (c : Fin 32) (p : Path) :
    ∃ q : Path, p.Apart q c ∧ (g q c).Apart ((List.finRange 32).foldl g p) c := by
  obtain ⟨before, after, e⟩ := List.append_of_mem (List.mem_finRange c)
  have nodup := List.nodup_finRange 32
  rw [e] at nodup ⊢
  obtain ⟨_, hafter, apart⟩ := List.nodup_append.mp nodup
  refine ⟨before.foldl g p, Path.foldl_apart g hg c before (fun h => apart c h c List.mem_cons_self rfl) p, ?_⟩
  rw [List.foldl_append, List.foldl_cons]
  exact Path.foldl_apart g hg c after (List.nodup_cons.mp hafter).1 _

theorem Path.apart_settle (x : Ctx) (f : Nat) (how : Settling) (q : Path) (c d : Fin 32) (h : c ≠ d) :
    q.Apart (q.settle x f how d) c :=
  .of (Path.beside_settle x f how q d) (Path.sparing_settle x f how q d) (Path.keeps_settle x f how q d)
    fun e => h (soundTrack_injective e)

theorem Path.apart_finishMix (x : Ctx) (f : Nat) (on : Bool) (q : Path) (c : Fin 32) : q.Apart (q.finishMix x f on) c :=
  .of (Path.beside_finishMix x f on q) (Path.sparing_finishMix x f on q) (Path.keeps_finishMix x f on q)
    (soundTrack_ne_mix c)

theorem Path.apart_endChannelStretch (x : Ctx) (on : Bool) (q : Path) (c d : Fin 32) (h : c ≠ d) :
    q.Apart (q.endChannelStretch x on d) c :=
  .of (Path.beside_endChannelStretch x on q d) (Path.sparing_endChannelStretch x on q d)
    (Path.keeps_endChannelStretch x on q d)
    fun e => h (soundTrack_injective e)

theorem Path.apart_endMix (q : Path) (c : Fin 32) : q.Apart (q.endRun mixTrack) c :=
  .of (q.beside_endRun mixTrack) (q.sparing_endRun mixTrack mixTrack) (q.keeps_endRun mixTrack) (soundTrack_ne_mix c)

end Sys2Proof.Machine
end

