-- ==== Sys2Proof/Proofs/ClosingAFrame.lean ====
section
/-! PROOF. The close of a frame and the end of a stretch (R12, R14, R88, R97, R112, R113, R115; assumptions 5, 50, 51). -/
namespace Sys2Proof.Machine

/-! ### The close of a frame, channel by channel -/

/-- Whether the port of a channel was RUNNING. -/
def ranOf (ranA ranB : Bool) (c : Fin 32) : Bool := if c.val < 16 then ranA else ranB

/-- The close of a frame before the channels forget it: every channel settled, the mix finished, and at the end of a stretch
its runs ended and its detectors forced. -/
def Path.closing (x : Ctx) (f : Nat) (on ends ranA ranB : Bool) (p : Path) : Path :=
  let p2 := ((List.finRange 32).foldl (fun q c => q.settle x f (.close (ranOf ranA ranB c)) c) p).finishMix x f on
  if ends then ((List.finRange 32).foldl (Path.endChannelStretch x on) p2).endRun mixTrack else p2

theorem Path.closeFrame_closing (x : Ctx) (f : Nat) (on nextOn last ranA ranB : Bool) (p : Path) :
    p.closeFrame x f on nextOn last ranA ranB =
      (p.closing x f on (last || (on && !nextOn)) ranA ranB).mapChannels fun ch => ch.dropFrame f := by
  have ran (c : Fin 32) : (match portOf c with | .a => ranA | .b => ranB) = ranOf ranA ranB c := by
    unfold portOf ranOf
    split <;> simp_all
  have same : (fun (q : Path) (c : Fin 32) => q.settle x f (.close (match portOf c with | .a => ranA | .b => ranB)) c) =
      fun q c => q.settle x f (.close (ranOf ranA ranB c)) c := by
    funext q c; rw [ran]
  unfold Path.closing
  rw [← same]
  rfl

theorem Path.mapChannels_channel (g : Channel → Channel) (p : Path) (c : Fin 32) :
    (p.mapChannels g).channels[c] = g p.channels[c] := by
  unfold Path.mapChannels; simp

theorem Path.keeps_closing (x : Ctx) (f : Nat) (on ends ranA ranB : Bool) (p : Path) :
    p.Keeps (p.closing x f on ends ranA ranB) := by
  have finished := (Path.keeps_foldl (fun (q : Path) c => q.settle x f (.close (ranOf ranA ranB c)) c)
    (fun q c => q.keeps_settle x f _ c) (List.finRange 32) p).trans (Path.keeps_finishMix x f on _)
  unfold Path.closing
  dsimp only
  split
  · exact (finished.trans (Path.keeps_foldl _ (fun q c => q.keeps_endChannelStretch x on c) _ _)).trans (Path.keeps_endRun _ _)
  · exact finished

/-- One channel of a close: it is settled by its own part alone, and its stretch ended by its own alone. -/
theorem Path.closing_own (x : Ctx) (f : Nat) (on ends ranA ranB : Bool) (p : Path) (c : Fin 32) : ∃ q r : Path,
    p.Apart q c ∧ (q.settle x f (.close (ranOf ranA ranB c)) c).Apart r c ∧
      (if ends then r.endChannelStretch x on c else r).Apart (p.closing x f on ends ranA ranB) c := by
  obtain ⟨q, before, after⟩ := Path.foldl_own (fun q c => q.settle x f (.close (ranOf ranA ranB c)) c)
    (fun q c d h => q.apart_settle x f _ c d h) c p
  unfold Path.closing
  dsimp only
  generalize (List.finRange 32).foldl (fun q c => q.settle x f (.close (ranOf ranA ranB c)) c) p = s at after ⊢
  have finished := after.trans (Path.apart_finishMix x f on s c)
  generalize s.finishMix x f on = u at finished ⊢
  cases ends with
  | false => exact ⟨q, u, before, finished, .refl u c⟩
  | true =>
    obtain ⟨r, before2, after2⟩ := Path.foldl_own (Path.endChannelStretch x on)
      (fun q c d h => q.apart_endChannelStretch x on c d h) c u
    rw [if_pos rfl]
    generalize (List.finRange 32).foldl (Path.endChannelStretch x on) u = v at after2 ⊢
    exact ⟨q, r, before, finished.trans before2, after2.trans (Path.apart_endMix _ c)⟩

/-! ### What settles at a close (R95, R97, R98, R101) -/

/-- The cause that a close gives a frame where privacy is not effective (R97). -/
def closeCause (warning ran : Bool) (st : Station) : VoidCause :=
  if warning then .power
  else if ran = false then .portDown
  else if st.state = .vacant ∨ st.state = .lost then .noStation
  else if st.state = .joining then .joining
  else .late

theorem causeOf_closed (w ran : Bool) (st : Station) (m : Fin 2) : causeOf w (.close ran) st m = some (closeCause w ran st) :=
  (causeOf_close w ran st m).trans (firstCause_late false w ran st)

/-- R97: an on-record frame that was not settled is void at its close. -/
theorem Path.settle_close (x : Ctx) (f : Nat) (ran : Bool) (p : Path) (c : Fin 32) (sn : Snapshot) (st : Station)
    (asked : Bool) (hsn : p.channels[c].snapshot f = some sn) (hse : p.channels[c].seated = true)
    (hun : p.channels[c].settled = false) (hwi : x.sitting.within f = true) (hon : sn.onRecord = true)
    (hst : p.stations[stationOf c] = st)
    (ha : asked = ((st.mics[micOf c].button || sn.settings.privacy) && !sn.settings.bar)) : ∃ r k,
    (p.settle x f (.close ran) c).channels[c] = { p.channels[c] with
      privacy := asked, settled := true, run := r, voids := min 4294967295 (p.channels[c].voids + 1)
      outcome := some (.void k) } := by
  obtain ⟨record, _⟩ := p.settlePrivacy_view x c f sn (buttonPart (.close ran) st.mics[micOf c] (micOf c)) hon asked ha
  unfold Path.settle
  dsimp only
  rw [hsn]
  dsimp only
  rw [if_pos ⟨hse, hun, hwi⟩, if_pos hon, hst, causeOf_closed]
  generalize (p.resumeFloor c sn).settlePrivacy x c f sn (buttonPart (.close ran) st.mics[micOf c] (micOf c)) = q at record ⊢
  have void (cause : VoidCause) : ∃ r k, ((q.voidFrame c f cause).stepFloor x c f sn false 0).channels[c] =
      { p.channels[c] with
        privacy := asked, settled := true, run := r, voids := min 4294967295 (p.channels[c].voids + 1)
        outcome := some (.void k) } := by
    have voided := q.voidFrame_record c f cause
    rw [record] at voided
    exact ⟨_, _, by rw [((q.voidFrame c f cause).stepFloor_view x c f sn false 0).1]; exact voided⟩
  split
  · exact void _
  · exact void _

/-! ### The end of a stretch (R12, R99, R112, R113) -/

theorem Path.endChannelStretch_seated (x : Ctx) (on : Bool) (p : Path) (c : Fin 32) (h : p.channels[c].seated = true) :
    p.endChannelStretch x on c = (p.endRun (soundTrack c)).forceFloor x on c := if_pos h

theorem Path.endChannelStretch_record (x : Ctx) (on : Bool) (p : Path) (c : Fin 32) : ∃ r,
    (p.endChannelStretch x on c).channels[c] = { p.channels[c] with run := r } := by
  by_cases h : p.channels[c].seated = true
  · obtain ⟨r, bs, e⟩ := p.runMoved_endRun c
    refine ⟨r, ?_⟩
    rw [p.endChannelStretch_seated x on c h, (Path.forceFloor_view ..).1, e]
    exact (Path.setChannel_get ..).trans (if_pos rfl)
  · exact ⟨p.channels[c].run, by rw [show p.endChannelStretch x on c = p from if_neg h]⟩

/-- R99: an OPEN run offered at the end of a stretch. -/
theorem Path.endChannelStretch_run (x : Ctx) (on : Bool) (p : Path) (c : Fin 32) (hse : p.channels[c].seated = true)
    (r : VoidRun) (bay : Bay) (hr : p.channels[c].run = some r) (hh : r.held = false)
    (hb : p.bays.bay[trackOf (soundTrack c)] = bay) :
    (bay.fill + 16 ≤ bay.capacity → (p.endChannelStretch x on c).channels[c].run = none ∧
      (p.endChannelStretch x on c).bays.bay[trackOf (soundTrack c)] =
        { bay with items := bay.items ++ [.voidRun (soundTrack c) r] }) ∧
    (bay.capacity < bay.fill + 16 → (p.endChannelStretch x on c).channels[c].run = some { r with held := true } ∧
      (p.endChannelStretch x on c).bays.bay[trackOf (soundTrack c)] = bay) := by
  have offered : p.endRun (soundTrack c) = p.offerRun (soundTrack c) r := by
    unfold Path.endRun
    rw [Path.runOf_sound, hr]
    dsimp only
    rw [if_neg (by rw [hh]; exact nofun)]
  have ended : (p.endChannelStretch x on c).channels[c].run = (p.offerRun (soundTrack c) r).runOf (soundTrack c) ∧
      (p.endChannelStretch x on c).bays.bay[trackOf (soundTrack c)] =
        (p.offerRun (soundTrack c) r).bays.bay[trackOf (soundTrack c)] := by
    rw [p.endChannelStretch_seated x on c hse, (Path.forceFloor_view ..).1, (Path.forceFloor_view ..).2, offered, Path.runOf_sound]
    exact ⟨rfl, rfl⟩
  rw [ended.1, ended.2]
  rcases p.offerRun_cases (soundTrack c) r with ⟨room, e⟩ | ⟨room, e⟩ <;> rw [e, Path.runOf_setRun, if_pos rfl,
    Path.setRun_bays] <;> rw [hb] at room
  · refine ⟨fun _ => ⟨rfl, ?_⟩, fun h => by omega⟩
    dsimp only
    rw [Bays.set_bay, if_pos rfl, hb]
  · exact ⟨fun h => by omega, fun _ => ⟨rfl, hb⟩⟩

/-- R113: the FLOOR_END of a detector forced at the end of a stretch, or its mark withheld. -/
theorem Path.endChannelStretch_floor (x : Ctx) (p : Path) (c : Fin 32) (hse : p.channels[c].seated = true) (l : Nat)
    (hs : p.fcu.floors[c].speaking = true) (hl : p.fcu.floors[c].lastLoud = some l) (hm : x.sitting.marks l = true) :
    .mark { kind := .floorEnd c l, frame := l, time := x.tod } ∈
        (p.endChannelStretch x true c).bays.bay[markTrack].items ∨
      WithheldMore p.bays.withheld (p.endChannelStretch x true c).bays.withheld := by
  have ended := p.sparing_endRun (soundTrack c) mixTrack
  have floor := ended.floors c (soundTrack_ne_mix c)
  rw [p.endChannelStretch_seated x true c hse, (Path.forceFloor_bays x true (p.endRun (soundTrack c)) c).1 l (by rw [floor]; exact hs)
    (by rw [floor]; exact hl) rfl hm]
  rcases (p.endRun (soundTrack c)).bays.offer_counts { kind := .floorEnd c l, frame := l, time := x.tod } with ⟨mem, _⟩ | more
  · exact .inl mem
  · exact .inr (more.since ended.since (.refl _))

/-- R99: an OPEN run of a track ended is gone or HELD. -/
theorem Path.endRun_held (p : Path) (t : Fin 33) (r : VoidRun) (h : (p.endRun t).runOf t = some r) : r.held = true := by
  unfold Path.endRun at h
  cases hr : p.runOf t with
  | none => rw [hr] at h; dsimp only at h; rw [hr] at h; cases h
  | some r0 =>
    rw [hr] at h
    dsimp only at h
    by_cases hh : r0.held = true
    · rw [if_pos hh, hr] at h; cases h; exact hh
    · rw [if_neg hh] at h
      rcases p.offerRun_cases t r0 with ⟨_, e⟩ | ⟨_, e⟩ <;> rw [e, Path.runOf_setRun, if_pos rfl] at h
      · cases h
      · cases h; rfl

theorem Path.closing_mixRun (x : Ctx) (f : Nat) (on ranA ranB : Bool) (p : Path) (r : VoidRun)
    (h : (p.closing x f on true ranA ranB).fcu.mixRun = some r) : r.held = true := by
  unfold Path.closing at h
  dsimp only at h
  rw [if_pos rfl] at h
  have mix (q : Path) : q.runOf mixTrack = q.fcu.mixRun := by unfold Path.runOf; rw [dif_neg (by decide)]
  exact Path.endRun_held _ mixTrack r ((mix _).trans h)

end Sys2Proof.Machine
end

