-- ==== Sys2Proof/Proofs/BoundaryCloses.lean ====
section
/-! PROOF. CloseOfAFrame: the close of a frame by BOUNDARY and by itself (R12, R14, R88, R97, R112, R113, R115, R142). -/
namespace Sys2Proof.Machine

/-! ### One channel of a close -/

theorem Path.closing_record (x : Ctx) (f : Nat) (on ends ranA ranB : Bool) (p : Path) (c : Fin 32) : ∃ q : Path,
    p.Apart q c ∧ ∃ r, (p.closing x f on ends ranA ranB).channels[c] =
      { (q.settle x f (.close (ranOf ranA ranB c)) c).channels[c] with run := r } ∧
      (ends = false → r = (q.settle x f (.close (ranOf ranA ranB c)) c).channels[c].run) := by
  obtain ⟨q, r, before, settled, closed⟩ := p.closing_own x f on ends ranA ranB c
  refine ⟨q, before, ?_⟩
  cases ends with
  | false => exact ⟨_, closed.channel.trans settled.channel, fun _ => rfl⟩
  | true =>
    obtain ⟨run, e⟩ := r.endChannelStretch_record x on c
    exact ⟨run, closed.channel.trans (e.trans (by rw [settled.channel])), nofun⟩

/-- R97: what a close makes of an on-record frame that was not settled. -/
theorem Path.closing_void (x : Ctx) (f : Nat) (on ends ranA ranB : Bool) (p : Path) (c : Fin 32) (k : Fin 16)
    (m : Fin 2) (hk : k = stationOf c) (hm : m = micOf c) (sn : Snapshot) (st : Station) (asked : Bool)
    (hsn : p.channels[c].snapshot f = some sn) (hse : p.channels[c].seated = true)
    (hun : p.channels[c].settled = false) (hwi : x.sitting.within f = true) (hon : sn.onRecord = true)
    (hst : p.stations[k] = st) (ha : asked = ((st.mics[m].button || sn.settings.privacy) && !sn.settings.bar)) (s : Path)
    (hs : p.closing x f on ends ranA ranB = s) :
    s.channels[c].voids = min 4294967295 (p.channels[c].voids + 1) ∧ s.channels[c].captured = p.channels[c].captured ∧
      s.channels[c].privacy = asked ∧
      (ends = false → p.channels[c].run = none → s.channels[c].run = some
        { first := f, length := 1, tail := 0, held := false,
          cause := if asked then .privacy else closeCause x.warning (ranOf ranA ranB c) st }) := by
  subst hs hk hm
  obtain ⟨q, before, r, record, same⟩ := p.closing_record x f on ends ranA ranB c
  have channel := before.channel
  rw [← before.stations] at hst
  obtain ⟨run, k, e⟩ := q.settle_close x f (ranOf ranA ranB c) c sn st asked (by rw [channel]; exact hsn)
    (by rw [channel]; exact hse) (by rw [channel]; exact hun) hwi hon hst ha
  rw [record]
  refine ⟨by rw [e, channel], by rw [e, channel], by rw [e], fun hends hrun => ?_⟩
  have started := q.settle_void x f (.close (ranOf ranA ranB c)) c (stationOf c) (micOf c) rfl rfl sn st asked
    (if asked then .privacy else closeCause x.warning (ranOf ranA ranB c) st) (by rw [channel]; exact hsn) hon
    (by rw [channel]; exact hse) (by rw [channel]; exact hun) hwi (by rw [channel]; exact hrun) hst ha
    (by rw [causeOf_closed]; cases asked <;> rfl)
  show r = _
  rw [same hends, started]
  rfl

/-- A settled channel is left by the close, its run at the end of a stretch apart (R97). -/
theorem Path.closing_settled (x : Ctx) (f : Nat) (on ends ranA ranB : Bool) (p : Path) (c : Fin 32)
    (h : p.channels[c].settled = true) : ∃ r : Path, p.Apart r c ∧
      (if ends then r.endChannelStretch x on c else r).Apart (p.closing x f on ends ranA ranB) c := by
  obtain ⟨q, r, before, settled, closed⟩ := p.closing_own x f on ends ranA ranB c
  rw [q.settle_not x f _ c (.inr (.inl (by rw [before.channel]; exact h)))] at settled
  exact ⟨r, before.trans settled, closed⟩

/-- R97: the record and the detector of a channel that was settled before the close. -/
theorem Path.closing_settled_record (x : Ctx) (f : Nat) (on ends ranA ranB : Bool) (p : Path) (c : Fin 32)
    (h : p.channels[c].settled = true) (s : Path) (hs : p.closing x f on ends ranA ranB = s) :
    (∃ r, s.channels[c] = { p.channels[c] with run := r }) ∧
      (ends = false → s.channels[c] = p.channels[c] ∧ s.fcu.floors[c] = p.fcu.floors[c]) := by
  subst hs
  obtain ⟨q, before, closed⟩ := p.closing_settled x f on ends ranA ranB c h
  cases ends with
  | false =>
    have channel := closed.channel.trans before.channel
    exact ⟨⟨p.channels[c].run, channel⟩, fun _ => ⟨channel, closed.floor.trans before.floor⟩⟩
  | true =>
    obtain ⟨run, e⟩ := q.endChannelStretch_record x on c
    exact ⟨⟨run, closed.channel.trans (e.trans (by rw [before.channel]))⟩, nofun⟩

/-- R12, R99, R112, R113: a settled channel at the end of a stretch. -/
theorem Path.closing_stretch (x : Ctx) (f : Nat) (on ranA ranB : Bool) (p : Path) (c : Fin 32)
    (h : p.channels[c].settled = true) (hse : p.channels[c].seated = true) (s : Path)
    (hs : p.closing x f on true ranA ranB = s) :
    (∀ l, p.fcu.floors[c].speaking = true → p.fcu.floors[c].lastLoud = some l → on = true → x.sitting.marks l = true →
      .mark { kind := .floorEnd c l, frame := l, time := x.tod } ∈ s.bays.bay[markTrack].items ∨
        WithheldMore p.bays.withheld s.bays.withheld) ∧
    ∀ (r : VoidRun) (bay : Bay), p.channels[c].run = some r → r.held = false → p.bays.bay[trackOf (soundTrack c)] = bay →
      (bay.fill + 16 ≤ bay.capacity → s.channels[c].run = none ∧
        s.bays.bay[trackOf (soundTrack c)] = { bay with items := bay.items ++ [.voidRun (soundTrack c) r] }) ∧
      (bay.capacity < bay.fill + 16 → s.channels[c].run = some { r with held := true } ∧
        s.bays.bay[trackOf (soundTrack c)] = bay) := by
  subst hs
  obtain ⟨q, before, closed⟩ := p.closing_settled x f on true ranA ranB c h
  rw [if_pos rfl] at closed
  have seated : q.channels[c].seated = true := by rw [before.channel]; exact hse
  refine ⟨?_, fun r bay hr hh hb => ?_⟩
  · rintro l hs hl rfl hm
    rw [← before.floor] at hs hl
    exact (q.endChannelStretch_floor x c seated l hs hl hm).imp closed.grows.mem fun more => more.since before.since closed.since
  · rw [closed.channel, closed.bay]
    exact q.endChannelStretch_run x on c seated r bay (by rw [before.channel]; exact hr) hh (by rw [before.bay]; exact hb)

/-! ### Which frame a boundary closes (R97) -/

/-- R2: the frame in computation. -/
theorem State.polled_some (s : State) (f : Nat) (h : s.ctx.polled = some f) :
    s.sitting.counting = true ∧ s.timer.boundary.toNat = s.sitting.openedAt.toNat + f + 1 := by
  unfold Ctx.polled at h
  split at h
  · rename_i hc
    obtain ⟨counting, begun⟩ : s.sitting.counting = true ∧ s.sitting.openedAt.toNat < s.timer.boundary.toNat := hc
    have computed : s.timer.boundary.toNat - 1 - s.sitting.openedAt.toNat = f := Option.some.inj h
    exact ⟨counting, by omega⟩
  · cases h

theorem State.closeFrame_none (s : State) (h : s.sitting.counting = false ∨
    s.timer.boundary.toNat < s.sitting.openedAt.toNat + 2 ∨
    ∃ g, s.sitting.close = some g ∧ g.last < s.timer.boundary.toNat - 2 - s.sitting.openedAt.toNat) : s.closeFrame = s := by
  have none : s.closingFrame = none := by
    unfold State.closingFrame
    split
    · rename_i hc
      rcases h with h | h | ⟨g, hg, h⟩
      · exact absurd (h.symm.trans hc.1) Bool.false_ne_true
      · omega
      · dsimp only
        rw [if_neg]
        unfold Sitting.within
        rw [hg]
        simp
        omega
    · rfl
  unfold State.closeFrame
  rw [none]

theorem State.closingFrame_open (s : State) (f : Nat) (ho : s.sitting.isOpen = true) (hn : s.sitting.close = none)
    (hf : s.timer.boundary.toNat = s.sitting.openedAt.toNat + f + 2) : s.closingFrame = some f := by
  unfold State.closingFrame
  rw [if_pos ⟨Sitting.counting_of_isOpen ho, by omega⟩]
  dsimp only
  rw [show s.timer.boundary.toNat - 2 - s.sitting.openedAt.toNat = f by omega,
    if_pos (by unfold Sitting.within; rw [hn])]

theorem State.closeFrame_at_open (s : State) (f : Nat) (ho : s.sitting.isOpen = true) (hn : s.sitting.close = none)
    (hf : s.timer.boundary.toNat = s.sitting.openedAt.toNat + f + 2) : s.closeFrame = { s with
      path := s.path.closeFrame s.ctx f s.sitting.comp s.sitting.cur false s.portA.ranRound s.portB.ranRound } := by
  have closing := s.closingFrame_open f ho hn hf
  unfold State.closeFrame
  rw [closing]
  dsimp only
  rw [show s.sitting.isLast f = false by unfold Sitting.isLast; rw [hn]]
  rfl

theorem Sitting.isLast_iff (st : Sitting) (f : Nat) : st.isLast f = true ↔ ∃ g, st.close = some g ∧ g.last = f := by
  unfold Sitting.isLast
  cases st.close <;> simp

/-- What the interval that ends leaves of channels, detectors and mix: the close of its frame, the rounds that end before it
having reported (R97; assumption 5). -/
theorem State.endInterval_closed (s : State) (a b : Bool) (f : Nat) (hb : s.timer.boundary ≠ BitVec.allOnes 64)
    (hp : s.ctx.polled = some f) (hw : s.sitting.within f = true) (w : State)
    (hws : s.advanceTimer.roundsOver s.timer a b = w) (q : Path)
    (hq : w.path.closeFrame w.ctx f s.sitting.comp s.sitting.cur (s.sitting.isLast f) w.portA.ranRound w.portB.ranRound = q) :
    (s.endInterval a b).path.channels = q.channels ∧ (s.endInterval a b).path.fcu = q.fcu ∧
      (s.sitting.isLast f = false → (s.endInterval a b).writer = s.writer) := by
  obtain ⟨counting, hf⟩ := s.polled_some f hp
  have closing := s.closingFrame_advanced a b hb counting f hf hw
  have court := s.advanceTimer.roundsOver_court s.timer a b
  have writer := s.advanceTimer.roundsOver_writer s.timer a b
  unfold State.endInterval
  rw [hws] at closing court writer ⊢
  have same : w.sitting = s.sitting := court.sitting.trans s.advanceTimer_sitting
  obtain ⟨bs, path, state, openedAt, kept⟩ := w.closeFrame_at f closing
  rw [same, hq] at path
  obtain ⟨channels, fcu⟩ := w.closeFrame.roundsOver_closed s.timer (!a) (!b) f
    ((s.endedCtx_polled w.closeFrame (by rw [state, same]) (by rw [openedAt, same])).trans hp)
    (w.closeFrame_noSnapshot f closing)
  rw [channels, fcu, path, State.roundsOver_writer]
  exact ⟨rfl, rfl, fun h => (kept (by rw [same]; exact h)).trans (writer.trans s.advanceTimer_writer)⟩

/-- The ports whose reports do not come before the close leave their channels and stations to it. -/
theorem ranOf_channelOf (w : State) (p : PortId) (i : Fin 8) (m : Fin 2) :
    ranOf w.portA.ranRound w.portB.ranRound (channelOf (stationAt p i) m) = (w.port p).ranRound := by
  have port := portOf_channelOf p i m
  unfold portOf at port
  unfold ranOf
  split at port <;> subst port
  · rename_i h; rw [if_pos h]; rfl
  · rename_i h; rw [if_neg h]; rfl

/-- A course from `p` is one from every path with its channels and its Frame Computation Unit. -/
theorem Path.Course.congr {p q t : Path} (h : p.Course t) (hc : p.channels = q.channels) (hf : p.fcu = q.fcu) :
    q.Course { t with bays := q.bays } where
  channel := hc ▸ h.channel
  ended := hc ▸ h.ended
  floors := hf ▸ h.floors
  sums := hf ▸ h.sums
  contributors := hf ▸ h.contributors
  bays := .refl _

/-- R88, R97, R115, R142: what is left of a channel and of the mix at the end of a boundary that closed a frame. -/
theorem State.boundary_closed (s : State) (a b : Bool) (f : Nat) (hb : s.timer.boundary ≠ BitVec.allOnes 64)
    (hp : s.ctx.polled = some f) (hw : s.sitting.within f = true) (w : State)
    (hws : s.advanceTimer.roundsOver s.timer a b = w) (q : Path)
    (hq : w.path.closeFrame w.ctx f s.sitting.comp s.sitting.cur (s.sitting.isLast f) w.portA.ranRound w.portB.ranRound = q) :
    q.Course { (s.boundary a b).path with bays := q.bays } ∧
      (∀ c : Fin 32, (s.boundary a b).path.channels[c].snapshot f = none) ∧
      ∀ c : Fin 32, s.sitting.isLast f = false → s.writer.sheets[trackOf (soundTrack c)] = none →
        (s.boundary a b).path.channels[c].run = q.channels[c].run := by
  obtain ⟨channels, fcu, writer⟩ := s.endInterval_closed a b f hb hp hw w hws q hq
  obtain ⟨counting, hf⟩ := s.polled_some f hp
  obtain ⟨state, openedAt⟩ := s.endInterval_state a b
  have timer := (s.endInterval_supply a b).2
  have advanced := s.advance_boundary hb
  have own := s.boundary_channel a b
  rw [State.boundary_parts] at own ⊢
  generalize s.endInterval a b = v at *
  have vcounting := (Sitting.counting_congr state).trans counting
  obtain ⟨moved, same, mtimer, _, mcounting, mopened⟩ := v.moveSitting_course vcounting
  have course := moved.trans v.moveSitting.openInterval_course
  have frame : v.moveSitting.frame = f + 2 := by
    rw [State.frame_counting _ mcounting, mtimer, mopened, timer, openedAt, advanced]
    omega
  refine ⟨course.congr channels fcu, fun c => ?_, fun c hl hs => ?_⟩
  · refine v.moveSitting.openInterval_snapshot c f (by omega) ?_
    rw [same, channels, ← hq]
    exact ((Path.closeFrame_forgets _ f _ _ _ _ _ w.path).1 c).2.2
  · obtain ⟨sns, e⟩ := own c vcounting (by rw [writer hl]; exact hs)
    rw [e, ← channels]

end Sys2Proof.Machine
end

