-- ==== Sys2Proof/Proofs/CloseOfAFrame.lean ====
section
/-! PROOF. CloseOfAFrame, put together: what BOUNDARY leaves of each channel, and what the close leaves of the path (R12,
R14, R88, R97, R112, R113, R115, R142). -/
namespace Sys2Proof.Machine

theorem Path.closeFrame_channels (x : Ctx) (f : Nat) (on nextOn last ranA ranB : Bool) (p : Path) (c : Fin 32) :
    (p.closeFrame x f on nextOn last ranA ranB).channels[c] =
      (p.closing x f on (last || (on && !nextOn)) ranA ranB).channels[c].dropFrame f := by
  rw [Path.closeFrame_closing, Path.mapChannels_channel]

/-- R97, R98, R101: a frame that no report settles before its close is void at the end of BOUNDARY (assumption 5). -/
theorem State.boundary_void (s : State) (a b : Bool) (f : Nat) (hb : s.timer.boundary ≠ BitVec.allOnes 64)
    (hp : s.ctx.polled = some f) (hw : s.sitting.within f = true) (p : PortId) (i : Fin 8) (m : Fin 2) (c : Fin 32)
    (hc : c = channelOf (stationAt p i) m) (sn : Snapshot) (st : Station) (asked : Bool) (cause : VoidCause)
    (hport : (s.port p).state ≠ .running ∨ (p = .a ∧ a = false) ∨ (p = .b ∧ b = false))
    (hsn : s.path.channels[c].snapshot f = some sn) (hon : sn.onRecord = true) (hse : s.path.channels[c].seated = true)
    (hun : s.path.channels[c].settled = false) (hst : s.path.stations[stationAt p i] = st)
    (ha : asked = ((st.mics[m].button || sn.settings.privacy) && !sn.settings.bar))
    (hca : some cause = firstCause asked s.supply.warning (!(s.port p).ranRound) st (some .late)) (t : State)
    (ht : s.boundary a b = t) :
    t.path.channels[c].voids = min 4294967295 (s.path.channels[c].voids + 1) ∧
      t.path.channels[c].captured = s.path.channels[c].captured ∧ t.path.channels[c].privacy = asked ∧
      (s.sitting.isLast f = false → s.sitting.comp = false ∨ s.sitting.cur = true → s.path.channels[c].run = none →
        s.writer.sheets[trackOf (soundTrack c)] = none →
        t.path.channels[c].run = some { cause := cause, first := f, length := 1, tail := 0, held := false }) := by
  obtain ⟨course, _, runs⟩ := s.boundary_closed a b f hb hp hw _ rfl _ rfl
  rw [ht] at course runs
  obtain ⟨audio, stations, _⟩ := s.advanceTimer_audio
  have court := s.advanceTimer.roundsOver_court s.timer a b
  obtain ⟨port, station, channel⟩ := s.advanceTimer.roundsOver_other s.timer a b p i m
    (by rw [show s.advanceTimer.port p = s.port p by cases p <;> rfl]; exact hport)
  rw [show s.advanceTimer.port p = s.port p by cases p <;> rfl] at port
  rw [stations] at station
  rw [audio] at channel
  replace channel : (s.advanceTimer.roundsOver s.timer a b).path.channels[c] = s.path.channels[c] := by
    subst hc; exact channel
  generalize s.advanceTimer.roundsOver s.timer a b = w at *
  have view : w.ctx.sitting = s.sitting ∧ w.ctx.warning = s.supply.warning :=
    ⟨court.sitting.trans s.advanceTimer_sitting, congrArg Supply.warning (court.supply.trans s.advanceTimer_supply)⟩
  have ran : ranOf w.portA.ranRound w.portB.ranRound c = (s.port p).ranRound := by rw [hc, ranOf_channelOf, port]
  obtain ⟨voids, captured, privacy, run⟩ := w.path.closing_void w.ctx f s.sitting.comp
    (s.sitting.isLast f || (s.sitting.comp && !s.sitting.cur)) w.portA.ranRound w.portB.ranRound c (stationAt p i) m
    (by rw [hc, stationOf_channelOf]) (by rw [hc, micOf_channelOf]) sn st asked
    (by rw [channel]; exact hsn) (by rw [channel]; exact hse) (by rw [channel]; exact hun) (by rw [view.1]; exact hw) hon
    (station.trans hst) ha _ rfl
  obtain ⟨sns, run', e⟩ := course.channel c
  rw [Path.closeFrame_channels] at e
  rw [channel] at voids captured run
  refine ⟨(congrArg Channel.voids e).trans voids, (congrArg Channel.captured e).trans captured,
    (congrArg Channel.privacy e).trans privacy, fun hl hends hr hs => ?_⟩
  rw [runs c hl hs, Path.closeFrame_channels]
  have goes : (s.sitting.isLast f || (s.sitting.comp && !s.sitting.cur)) = false := by
    rw [hl]
    rcases hends with h | h <;> rw [h] <;> simp
  rw [firstCause_late] at hca
  have cause_eq : cause = if asked then .privacy else closeCause s.supply.warning (s.port p).ranRound st :=
    (Option.some.inj hca).trans (by unfold closeCause; rfl)
  rw [ran, view.2, ← cause_eq] at run
  exact run goes hr

/-- Settles O31, one channel at a time: what every other operation of the close spares. -/
theorem closeOfAFrame : Obligations.CloseOfAFrame := by
  refine ⟨fun s a b last f hrun hb hp hw hlast => ⟨s.boundary a b, exec_boundary s a b hrun, ?_⟩, State.closeFrame_none,
    State.closeFrame_at_open, ?_⟩
  · obtain rfl : last = s.sitting.isLast f := Bool.eq_iff_iff.mpr (hlast.trans (s.sitting.isLast_iff f).symm)
    obtain ⟨course, forgotten, _⟩ := s.boundary_closed a b f hb hp hw _ rfl _ rfl
    have void := s.boundary_void a b f hb hp hw
    have seated (c : Fin 32) : (s.advanceTimer.roundsOver s.timer a b).path.channels[c].seated = s.path.channels[c].seated := by
      rw [(s.advanceTimer.roundsOver_holds s.timer a b).seated, s.advanceTimer_audio.1]
    generalize s.advanceTimer.roundsOver s.timer a b = w at course seated
    obtain ⟨gone, sums, contributors⟩ := w.path.closeFrame_forgets w.ctx f s.sitting.comp s.sitting.cur (s.sitting.isLast f)
      w.portA.ranRound w.portB.ranRound
    have ends := fun c => w.path.closeFrame_ends w.ctx f s.sitting.comp s.sitting.cur (s.sitting.isLast f)
      w.portA.ranRound w.portB.ranRound c
    generalize w.path.closeFrame w.ctx f s.sitting.comp s.sitting.cur (s.sitting.isLast f) w.portA.ranRound
      w.portB.ranRound = q at *
    generalize ht : s.boundary a b = t at *
    refine ⟨course.sums.trans sums, course.contributors.trans contributors, fun p i m c hc => ?_⟩
    obtain ⟨outcome, settled, _⟩ := gone c
    obtain ⟨sns, run, e⟩ := course.channel c
    refine ⟨(congrArg Channel.outcome e).trans outcome, (congrArg Channel.settled e).trans settled, forgotten c,
      fun hse h => ?_, fun sn st asked cause h1 h2 h3 h4 h5 h6 h7 h8 => ?_⟩
    · obtain ⟨speaking, loud, first, held⟩ := ends c h ((seated c).trans hse)
      have floors : t.path.fcu.floors = q.fcu.floors := course.floors
      rw [floors]
      exact ⟨speaking, loud, first, fun r hr => (course.ended c r hr).elim id (held r)⟩
    · exact void p i m c hc sn st asked cause h1 h2 h3 h4 h5 h6 h7 h8 t rfl
  · rintro x f on nextOn last ranA ranB ends p q rfl hends
    obtain rfl : ends = (last || (on && !nextOn)) := Bool.eq_iff_iff.mpr (hends.trans (by simp))
    obtain ⟨gone, sums, contributors⟩ := p.closeFrame_forgets x f on nextOn last ranA ranB
    obtain ⟨_, kept⟩ := p.closeFrame_grows x f on nextOn last ranA ranB
    have stretch := fun c h => p.closeFrame_ends x f on nextOn last ranA ranB c h
    have void := fun c => p.closing_void x f on (last || (on && !nextOn)) ranA ranB c
    have settled := fun c => p.closing_settled_record x f on (last || (on && !nextOn)) ranA ranB c
    have keeps := p.keeps_closing x f on (last || (on && !nextOn)) ranA ranB
    have channel (c : Fin 32) := p.closeFrame_channels x f on nextOn last ranA ranB c
    have rest : (p.closeFrame x f on nextOn last ranA ranB).stations =
          (p.closing x f on (last || (on && !nextOn)) ranA ranB).stations ∧
        (p.closeFrame x f on nextOn last ranA ranB).fcu = (p.closing x f on (last || (on && !nextOn)) ranA ranB).fcu ∧
        (p.closeFrame x f on nextOn last ranA ranB).bays = (p.closing x f on (last || (on && !nextOn)) ranA ranB).bays := by
      rw [Path.closeFrame_closing]; exact ⟨rfl, rfl, rfl⟩
    have mix (h : (last || (on && !nextOn)) = true) (r : VoidRun)
        (hr : (p.closing x f on (last || (on && !nextOn)) ranA ranB).fcu.mixRun = some r) : r.held = true := by
      rw [h] at hr; exact p.closing_mixRun x f on ranA ranB r hr
    have ended (h : (last || (on && !nextOn)) = true) (c : Fin 32) := p.closing_stretch x f on ranA ranB c
    generalize p.closeFrame x f on nextOn last ranA ranB = q at *
    rw [rest.1, rest.2.1, rest.2.2]
    rw [rest.2.1] at sums contributors stretch
    refine ⟨keeps.stations, sums, contributors, keeps.mixOn, mix, fun c => ⟨(gone c).1, (gone c).2.1, ?_, (kept c).1,
      (kept c).2.1, fun sn st asked ran h1 h2 h3 h4 h5 h6 h7 h8 => ?_, fun hse => ?_, fun he hse => ?_⟩⟩
    · exact (kept c).2.2.trans (List.filter_congr fun sn _ => by rw [Bool.eq_iff_iff]; simp)
    · subst h7
      rw [channel c]
      exact void c (stationOf c) (micOf c) rfl rfl sn st asked h1 h2 h3 h4 h5 h6 h8 _ rfl
    · obtain ⟨⟨r, e⟩, same⟩ := settled c hse _ rfl
      rw [channel c]
      exact ⟨(congrArg Channel.voids e :), (congrArg Channel.captured e :), (congrArg Channel.privacy e :),
        fun he => ⟨(congrArg Channel.run (same he).1 :), (same he).2⟩⟩
    · obtain ⟨speaking, loud, first, held⟩ := stretch c (hends.mp he) hse
      refine ⟨speaking, loud, first, held, fun hset => ?_⟩
      obtain ⟨told, offered⟩ := ended he c hset hse _ rfl
      rw [channel c, he]
      generalize p.closing x f on true ranA ranB = s at told offered ⊢
      exact ⟨fun l h1 h2 h3 h4 => (told l h1 h2 h3 h4).imp id WithheldMore.marked, offered⟩

end Sys2Proof.Machine
end

