-- ==== Sys2Proof/Proofs/CourtTime.lean ====
section
/-! PROOF. Court time (R20 to R29): the timer at a boundary and what a boundary leaves of the bus and the Record Writer, the
advances over any run of boundaries, and the requests TRIM_FRAME and SET_CLOCK. -/
namespace Sys2Proof.Machine

/-! ### The bus and the Record Writer through a boundary (R22) -/

/-- From `s` to `t` the bus and the image of host memory stayed, and of the Record Writer all but the open-sheet records, the
serials and the starving set. -/
structure SameStore (s t : State) : Prop where
  bus : t.bus = s.bus
  hostMem : t.hostMem = s.hostMem
  writer : ∃ sheets serials starving,
    t.writer = { s.writer with sheets := sheets, serials := serials, starving := starving }

theorem SameStore.trans {s t u : State} (h1 : SameStore s t) (h2 : SameStore t u) : SameStore s u := by
  obtain ⟨_, _, _, w1⟩ := h1.writer
  obtain ⟨a, b, c, w2⟩ := h2.writer
  exact ⟨h2.bus.trans h1.bus, h2.hostMem.trans h1.hostMem, a, b, c, w2.trans (by rw [w1])⟩

/-- Two states with one bus, one image and one Writer. -/
theorem SameStore.of_eq {s t : State} (h1 : t.bus = s.bus) (h2 : t.hostMem = s.hostMem) (h3 : t.writer = s.writer) :
    SameStore s t := ⟨h1, h2, _, _, _, h3⟩

/-- A change after one that leaves the bus, the image and the Writer. -/
theorem SameStore.after {s t u : State} (h : SameStore t u) (h1 : t.bus = s.bus) (h2 : t.hostMem = s.hostMem)
    (h3 : t.writer = s.writer) : SameStore s u := (SameStore.of_eq h1 h2 h3).trans h

theorem SameStore.refl (s : State) : SameStore s s := .of_eq rfl rfl rfl

theorem State.refresh_store (s : State) : SameStore s s.refresh := by
  rw [State.refresh_eq]; exact ⟨rfl, rfl, _, _, _, rfl⟩

theorem State.setEmptyCloses_store (s : State) : SameStore s s.setEmptyCloses := by
  rw [State.setEmptyCloses_only]; exact ⟨rfl, rfl, _, _, _, rfl⟩

theorem State.offerFinal_store (s : State) : SameStore s s.offerFinal := by
  rw [State.offerFinal_only]; exact .of_eq rfl rfl rfl

theorem State.withLink_store (s : State) (p : PortId) (l : Link) : SameStore s (s.withLink p l) :=
  .of_eq (by simp) (by simp) (by simp)

theorem State.roundsOver_store (s : State) (e : Timer) (a b : Bool) : SameStore s (s.roundsOver e a b) := by
  have round (u : State) (p : PortId) : SameStore u (u.roundOver e p) := u.withLink_store p _
  cases a <;> cases b
  · exact .refl s
  · exact round s .b
  · exact round s .a
  · exact (round s .a).trans (round _ .b)

theorem State.closeFrame_store (s : State) : SameStore s s.closeFrame := by
  have begun (u : State) : SameStore u u.offerFinal.setEmptyCloses :=
    u.offerFinal_store.trans (State.setEmptyCloses_store _)
  unfold State.closeFrame
  dsimp only
  split
  · exact .refl s
  · split
    · exact (begun _).after rfl rfl rfl
    · exact .of_eq rfl rfl rfl

/-- An opening returns the serials to 0 (R9); no other move of the sitting reaches the Writer. -/
theorem State.moveSitting_store (s : State) : SameStore s s.moveSitting := by
  unfold State.moveSitting State.limitClose State.shiftFlag State.openSitting
  dsimp only
  repeat' split
  all_goals exact ⟨rfl, rfl, _, _, _, rfl⟩

theorem State.ageClose_store (s : State) (t : Fin 34) : SameStore s (s.ageClose t) := by
  rw [State.ageClose_eq]
  split <;> exact ⟨rfl, rfl, _, _, _, rfl⟩

theorem State.ageCloses_store (s : State) : SameStore s s.ageCloses := by
  unfold State.ageCloses
  generalize List.finRange 34 = l
  induction l generalizing s with
  | nil => exact .refl s
  | cons t l ih => exact (s.ageClose_store t).trans (ih _)

theorem State.portWork_store (s : State) (p : PortId) : SameStore s (s.portWork p) :=
  (s.withLink_store p _).trans (.of_eq rfl rfl rfl)

theorem State.beginScan_store (s : State) : SameStore s s.beginScan := .of_eq (by simp) (by simp) (by simp)

theorem State.beginInterval_store (s : State) : SameStore s s.beginInterval :=
  ((((s.portWork_store .a).trans (State.portWork_store _ .b)).trans (State.ageCloses_store _)).trans
    (State.refresh_store _)).trans (State.beginScan_store _)

theorem State.takeSnapshots_store (s : State) : SameStore s s.takeSnapshots.ownMix := by
  have taken : SameStore s s.takeSnapshots := by
    unfold State.takeSnapshots
    split <;> exact .of_eq rfl rfl rfl
  exact taken.trans (.of_eq (by simp) (by simp) (by simp))

theorem State.endInterval_store (s : State) (a b : Bool) : SameStore s (s.endInterval a b) :=
  (((SameStore.of_eq (by simp) (by simp) (by simp)).trans (s.advanceTimer.roundsOver_store s.timer a b)).trans
    (State.closeFrame_store _)).trans (State.roundsOver_store _ _ _ _)

theorem State.boundary_store (s : State) (a b : Bool) : SameStore s (s.boundary a b) :=
  (((s.endInterval_store a b).trans (State.moveSitting_store _)).trans (State.takeSnapshots_store _)).trans
    (State.beginInterval_store _)

/-! ### The timer and the supply through a boundary (R22, R23, R25, R28, R163, R164) -/

/-- The sitting's own move leaves the timer, and of the supply at most the dip start frame, at an opening (R9, R163). -/
theorem State.moveSitting_court (s : State) : s.moveSitting.timer = s.timer ∧
    s.moveSitting.supply.warning = s.supply.warning ∧
    (s.sitting.state ≠ .armed ∨ s.sitting.opening = none → s.moveSitting.supply = s.supply) := by
  have limit (u : State) : u.limitClose.timer = u.timer ∧ u.limitClose.supply = u.supply := by
    unfold State.limitClose; split <;> exact ⟨rfl, rfl⟩
  have shift : s.shiftFlag.timer = s.timer ∧ s.shiftFlag.supply = s.supply := by
    obtain ⟨cur, bs, shifted, _⟩ := s.shiftFlag_spec
    rw [shifted]; exact ⟨rfl, rfl⟩
  have supply : s.shiftFlag.limitClose.supply = s.supply := (limit _).2.trans shift.2
  unfold State.moveSitting
  cases state : s.sitting.state with
  | onRecord | offRecord => exact ⟨(limit _).1.trans shift.1, congrArg Supply.warning supply, fun _ => supply⟩
  | closing | idle => exact ⟨rfl, rfl, fun _ => rfl⟩
  | armed =>
    cases opening : s.sitting.opening with
    | none => exact ⟨rfl, rfl, fun _ => rfl⟩
    | some o => exact ⟨s.openSitting_timer o, rfl, fun h => by simp at h⟩

/-- Whatever else a boundary does, its timer is the one of R22, R23, R25 and R28. -/
theorem State.boundary_timer (s : State) (a b : Bool) : (s.boundary a b).timer = s.timer.advance s.draws := by
  rw [State.boundary_parts, (State.openInterval_court _).timer, (State.moveSitting_court _).1, (s.endInterval_supply a b).2]
  rfl

/-- The supply at a boundary (R163, R164): a dip start frame comes with an opening alone. -/
theorem State.boundary_supply (s : State) (a b : Bool) : (s.boundary a b).supply.warning = s.supply.warning ∧
    (s.sitting.state ≠ .armed ∨ s.sitting.opening = none → (s.boundary a b).supply = s.supply) := by
  obtain ⟨_, warning, still⟩ := (s.endInterval a b).moveSitting_court
  have ended := (s.endInterval_supply a b).1
  rw [State.boundary_parts, (State.openInterval_court _).supply]
  rw [s.endInterval_target a b, ended] at still
  exact ⟨warning.trans (congrArg Supply.warning ended), still⟩

/-- Settles O7. -/
theorem boundaryAdvancesCourtTime : Obligations.BoundaryAdvancesCourtTime := by
  intro s a b
  refine ⟨fun stopped => ?_, fun running => ⟨s.boundary a b, congrArg _ (if_pos running), ?_⟩⟩
  · exact congrArg _ (if_neg (by rw [stopped]; decide))
  · obtain ⟨bus, hostMem, _, _, _, writer⟩ := s.boundary_store a b
    obtain ⟨warning, supply⟩ := s.boundary_supply a b
    rw [s.boundary_timer a b]
    refine ⟨rfl, fun below => if_neg below, fun unset => ?_, fun v set => ?_, bus, hostMem, warning, supply,
      by rw [writer]⟩
    · simp only [Timer.advance, unset, Timer.ordinary, Timer.units]
      exact ⟨rfl, rfl⟩
    · simp only [Timer.advance, set]
      exact ⟨rfl, rfl⟩

/-! ### Any run of boundaries (R25) -/

/-- R25: what is carried over a boundary neither gains nor loses a fraction of a microsecond. -/
theorem advance_carries (r i rest : Nat) :
    (r + 125 * (i + rest)) / 12288 = (r + i * 125) / 12288 + ((r + i * 125) % 12288 + 125 * rest) / 12288 ∧
    (r + 125 * (i + rest)) % 12288 = ((r + i * 125) % 12288 + 125 * rest) % 12288 := by
  omega

/-- A run of boundaries of a running part begins with a boundary. -/
theorem afterTrims_cons (n : Nat) (ns : List Nat) (s : State) (h : s.timer.running = true) :
    afterTrims (n :: ns) s =
      afterTrims ns (State.boundary { s with timer := { s.timer with next := n } } true true) := by
  have run : exec (.boundary true true) { s with timer := { s.timer with next := n } } =
      .next (State.boundary { s with timer := { s.timer with next := n } } true true) := congrArg _ (if_pos h)
  rw [afterTrims, run]

/-- Settles O8, by induction on the run. -/
theorem courtTimeDoesNotDrift : Obligations.CourtTimeDoesNotDrift := by
  intro lengths
  induction lengths with
  | nil =>
    intro s _ _ small
    have whole : s.timer.rem / 12288 = 0 := Nat.div_eq_of_lt small
    simp [afterTrims, whole, Nat.mod_eq_of_lt small]
  | cons n ns ih =>
    intro s running unset _
    have timer := State.boundary_timer { s with timer := { s.timer with next := n } } true true
    rw [afterTrims_cons n ns s running]
    generalize State.boundary { s with timer := { s.timer with next := n } } true true = t at timer ⊢
    simp only [Timer.advance, Timer.ordinary, Timer.units, unset] at timer
    obtain ⟨tod, rem⟩ := ih t (by rw [timer]) (by rw [timer]) (by rw [timer]; exact Nat.mod_lt _ (by decide))
    obtain ⟨quotient, remainder⟩ := advance_carries s.timer.rem s.timer.interval (n :: ns).dropLast.sum
    rw [List.dropLast_cons_cons, List.sum_cons, quotient, remainder, tod, rem, timer, BitVec.ofNat_add, ← BitVec.add_assoc]
    exact ⟨rfl, rfl⟩

/-! ### TRIM_FRAME and SET_CLOCK (R27, R29) -/

/-- R29: the value taken, by the three cases of its range. -/
theorem trimTaken_eq {n : Word32} {taken : Nat} (low : n.toNat < 389284 → taken = 389284)
    (high : 397148 < n.toNat → taken = 397148) (inside : 389284 ≤ n.toNat → n.toNat ≤ 397148 → taken = n.toNat) :
    trimTaken n = taken := by
  unfold trimTaken; omega

/-- R29: a value in range, and no other, is taken as it is. -/
theorem trimTaken_eq_self_iff (n : Word32) : trimTaken n = n.toNat ↔ ¬(n.toNat < 389284 ∨ 397148 < n.toNat) := by
  unfold trimTaken; omega

theorem State.trim_taken (s : State) (n : Word32) : s.trim n =
    ({ s with timer := { s.timer with next := trimTaken n } },
      .short { code := if n.toNat < 389284 ∨ 397148 < n.toNat then .doneClamped else .done
               w0 := BitVec.ofNat 32 s.timer.next, w1 := BitVec.ofNat 32 (trimTaken n)
               w2 := BitVec.ofNat 32 s.timer.interval }) := by
  unfold State.trim Result.mk3
  simp only [trimTaken_eq_self_iff, ite_not]

/-- The two halves of a 64-bit value, as result words (R27). -/
theorem ofNat_halves (v : Word64) : BitVec.ofNat 32 (v.toNat % 4294967296) = v.setWidth 32 ∧
    BitVec.ofNat 32 (v.toNat / 4294967296) = (v >>> 32).setWidth 32 := by
  constructor
  · apply BitVec.eq_of_toNat_eq; simp
  · apply BitVec.eq_of_toNat_eq; simp [Nat.shiftRight_eq_div_pow]

theorem State.pendClock_taken (s : State) (v : Word64) : s.pendClock v =
    ({ s with timer := { s.timer with clockSet := some v } },
      .short { code := .done, w0 := s.timer.tod.setWidth 32, w1 := (s.timer.tod >>> 32).setWidth 32
               w2 := if s.timer.clockSet = none then 0 else 1 }) := by
  obtain ⟨low, high⟩ := ofNat_halves s.timer.tod
  unfold State.pendClock Result.mk3
  rw [low, high]
  cases s.timer.clockSet <;> rfl

/-- Settles O40. -/
theorem clockAndTrim : Obligations.ClockAndTrim := by
  refine ⟨fun s n taken low high inside => ?_, fun s v => ?_⟩
  · rw [← trimTaken_eq low high inside]
    exact answersAtOnce_of_take rfl (s.trim_taken n) rfl
  · exact answersAtOnce_of_take rfl (s.pendClock_taken v) rfl

end Sys2Proof.Machine
end

