-- ==== Sys2Proof/Proofs/Ranges.lean ====
section
/-! PROOF. The ranges of the Frame Timer, the Free Sheet Queue, the bus-fault count and the sheets closed total, and the
canonical form of the image of host memory (R20, R131, R148; assumption 9): which shared operations leave all of them as they
were, and what each of the others keeps. -/
namespace Sys2Proof.Machine

/-- What the ranges of R20, R131 and R148 and the canonical form of assumption 9 are about. -/
structure Stock where
  timer : Timer
  queue : List Queued
  closedTotal : Nat
  busFaults : Nat
  hostMem : List Host.Cell

/-- The stock of a state. -/
def State.stock (s : State) : Stock :=
  { timer := s.timer, queue := s.writer.queue, closedTotal := s.writer.closedTotal, busFaults := s.bus.busFaults,
    hostMem := s.hostMem }

theorem State.stock_congr {s t : State} (timer : t.timer = s.timer) (queue : t.writer.queue = s.writer.queue)
    (closed : t.writer.closedTotal = s.writer.closedTotal) (faults : t.bus.busFaults = s.bus.busFaults)
    (memory : t.hostMem = s.hostMem) : t.stock = s.stock := by
  unfold State.stock; rw [timer, queue, closed, faults, memory]

/-- From `s` to `t` the timer stays in its ranges, the queue at 64 at most, the two counts in theirs, and the image of host
memory in its canonical form. -/
structure KeepsRanges (s t : State) : Prop where
  timer : s.timerInRange → t.timerInRange
  queue : s.queueFits → t.queueFits
  counts : s.countsInRange → t.countsInRange
  memory : s.memoryOrdered → t.memoryOrdered

namespace KeepsRanges

variable {s t u : State}

theorem refl (s : State) : KeepsRanges s s := ⟨id, id, id, id⟩

theorem trans (h1 : KeepsRanges s t) (h2 : KeepsRanges t u) : KeepsRanges s u :=
  ⟨h2.timer ∘ h1.timer, h2.queue ∘ h1.queue, h2.counts ∘ h1.counts, h2.memory ∘ h1.memory⟩

/-- The ranges rest on the stock alone. -/
theorem of_stock (h : t.stock = s.stock) : KeepsRanges s t := by
  obtain ⟨timer, queue, closed, faults, memory⟩ := Stock.mk.inj h
  refine ⟨?_, ?_, ?_, ?_⟩
  · unfold State.timerInRange; rw [timer]; exact id
  · unfold State.queueFits; rw [queue]; exact id
  · unfold State.countsInRange; rw [closed, faults]; exact id
  · unfold State.memoryOrdered; rw [memory]; exact id

theorem then_stock (h : KeepsRanges s t) (e : u.stock = t.stock) : KeepsRanges s u := h.trans (of_stock e)

/-- What leaves the bus, the image and the queue keeps all ranges but the timer's. -/
theorem of_store (h : SameStore s t) (timer : s.timerInRange → t.timerInRange) : KeepsRanges s t := by
  obtain ⟨bus, hostMem, _, _, _, writer⟩ := h
  refine ⟨timer, ?_, ?_, ?_⟩
  · unfold State.queueFits; rw [writer]; exact id
  · unfold State.countsInRange; rw [bus, writer]; exact id
  · unfold State.memoryOrdered; rw [hostMem]; exact id

/-- What changes the timer alone of the stock keeps its ranges where it keeps the timer's. -/
theorem of_timer (h : t.stock = { s.stock with timer := t.timer }) (timer : s.timerInRange → t.timerInRange) :
    KeepsRanges s t := by
  obtain ⟨_, queue, closed, faults, memory⟩ := Stock.mk.inj h
  have same : State.stock { t with timer := s.timer } = s.stock := by
    unfold State.stock at *; rw [queue, closed, faults, memory]
  exact ⟨timer, (of_stock same).queue, (of_stock same).counts, (of_stock same).memory⟩

end KeepsRanges

/-! ### What leaves the stock -/

theorem State.refresh_stock (s : State) : s.refresh.stock = s.stock :=
  State.stock_congr (by simp) (by simp) (by simp) (by simp) (by simp)

theorem State.setPort_stock (s : State) (p : PortId) (q : Port) : (s.setPort p q).stock = s.stock := by cases p <;> rfl

theorem State.withLink_stock (s : State) (p : PortId) (l : Link) : (s.withLink p l).stock = s.stock := by cases p <;> rfl

theorem State.onLink_stock (s : State) (p : PortId) (g : Link → Link) : (s.onLink p g).stock = s.stock :=
  (State.refresh_stock _).trans (s.withLink_stock p _)

theorem State.setEmptyCloses_stock (s : State) : s.setEmptyCloses.stock = s.stock := by
  obtain ⟨_, e, _⟩ := s.setEmptyCloses_eq
  rw [e]; rfl

theorem State.released_stock (s : State) (t : Fin 34) : (s.released t).stock = s.stock := by
  obtain ⟨_, _, _, e⟩ := s.released_only t
  rw [e]; rfl

theorem State.setTurn_stock (s : State) (t : Option Turn) : (s.setTurn t).stock = s.stock := rfl

theorem State.startItem_stock (s : State) (t : Fin 34) : (s.startItem t).stock = s.stock := by
  unfold State.startItem
  repeat' split
  all_goals rfl

theorem State.discardIfWaiting_stock (s : State) : s.discardIfWaiting.stock = s.stock := by
  unfold State.discardIfWaiting
  repeat' split
  all_goals rfl

theorem State.turnEnded_stock (s : State) : s.turnEnded.stock = s.stock :=
  (State.refresh_stock _).trans ((State.discardIfWaiting_stock _).trans (s.setTurn_stock none))

theorem State.setScan_stock (s : State) (sc : Scanner) : State.stock { s with scan := sc } = s.stock := rfl

theorem State.dropFlushCell_stock (s : State) (c : Fin 16) :
    State.stock { s with writer := s.writer.dropFlushCell c } = s.stock := by
  unfold Writer.dropFlushCell
  split <;> rfl

/-- R163: an onset touches the supply, the ports, the path, the open-sheet records and the starving set. -/
theorem State.onset_stock (s : State) : s.onset.stock = s.stock := by
  unfold State.onset
  dsimp only
  rw [State.refresh_stock, State.withLink_stock, State.withLink_stock, State.setEmptyCloses_stock]
  rfl

theorem State.recovered_stock (s : State) : s.recovered.stock = s.stock := rfl

theorem State.reachArmed_stock (s : State) (t : CloseTarget) (d a : Nat) : (s.reachArmed t d a).stock = s.stock := rfl

theorem State.completeFlush_stock (s : State) (f : Flush) : (s.completeFlush f).stock = s.stock := rfl

theorem State.completeAbandon_stock (s : State) (a : Abandon) (d : Discarded) (t : CloseTarget) :
    (s.completeAbandon a d t).stock = s.stock := by
  unfold State.completeAbandon
  dsimp only
  repeat' split
  all_goals rfl

/-! ### Bus writes and the counts (R131, R148, R156; assumptions 7 and 9) -/

theorem State.accessFailed_ranges (s : State) : KeepsRanges s s.accessFailed :=
  ⟨id, id, fun h => ⟨Nat.min_le_left _ _, h.2⟩, id⟩

theorem State.write_ranges (s : State) (a : Word64) (b : List Byte) : KeepsRanges s (s.write a b) :=
  ⟨id, id, id, wf_memWrite a b s.hostMem⟩

/-- The end of a bus write keeps the canonical form where it is done, and counts in range where it failed. -/
theorem State.writeEnds_ranges (s : State) (how : WriteEnd) (a : Word64) (b : List Byte) :
    KeepsRanges s (s.writeEnds how a b) := by
  cases how with
  | done => exact s.write_ranges a b
  | failed => exact s.accessFailed_ranges

/-- The sheets closed total stays a 32-bit number, also past its range (assumption 7). -/
theorem State.countClosed_ranges (s : State) : KeepsRanges s s.countClosed := by
  unfold State.countClosed
  split
  · rename_i below
    exact ⟨id, id, fun h => ⟨h.1, below⟩, id⟩
  · exact ⟨id, id, fun h => ⟨h.1, Nat.le_of_lt_succ (Config.sheetsPastMax s.draws).isLt⟩, id⟩

/-! ### The Free Sheet Queue (R131, R133, R135) -/

/-- A turn takes at most the first index from the queue. -/
theorem State.serve_ranges (s : State) (t : Fin 34) : KeepsRanges s (s.serve t) := by
  unfold State.serve
  dsimp only
  split
  · exact .of_stock rfl
  · exact .of_stock ((State.startItem_stock _ _).trans rfl)
  · split
    · rename_i q rest queue
      refine ⟨id, fun h => ?_, id, id⟩
      have longer : (q :: rest).length ≤ 64 := queue ▸ h
      exact (Nat.le_succ _).trans longer
    · exact .of_stock rfl

/-- An entry joins a queue of fewer than 64 alone (R131). -/
theorem State.enqueue_ranges (s : State) (q : Queued) : KeepsRanges s { s with writer := s.writer.enqueue q } := by
  refine ⟨id, fun h => ?_, id, id⟩
  show (if s.writer.queue.length < 64 then s.writer.queue ++ [q] else s.writer.queue).length ≤ 64
  split
  · simpa using ‹_›
  · exact h

theorem State.putInForce_ranges (s : State) (r : ArmRecord) : KeepsRanges s (s.putInForce r) :=
  ⟨id, fun _ => Nat.zero_le _, id, id⟩

theorem State.removeArming_ranges (s : State) : KeepsRanges s s.removeArming :=
  ⟨id, fun _ => Nat.zero_le _, id, id⟩

/-- A DISARM's next step writes on, or empties the queue (R7). -/
theorem State.freeNext_ranges (s : State) (tag : Word16) (left : List Queued) (freed failed : Nat) :
    KeepsRanges s (s.freeNext tag left freed failed) := by
  cases left with
  | nil => exact s.removeArming_ranges.then_stock rfl
  | cons q rest => exact .of_stock rfl

/-! ### The timer (R20, R22, R25, R29) -/

/-- R29: a trim is taken within the range of an interval. -/
theorem trimTaken_range (n : Word32) : 389284 ≤ trimTaken n ∧ trimTaken n ≤ 397148 := by
  unfold trimTaken; omega

theorem State.trim_ranges (s : State) (n : Word32) : KeepsRanges s (s.trim n).1 :=
  .of_timer rfl fun ⟨interval, _, tick⟩ => ⟨interval, trimTaken_range n, tick⟩

/-- R22, R25: the interval that begins takes a length in range, from tick 0 and with a remainder below a microsecond. -/
theorem State.boundary_ranges (s : State) (a b : Bool) : KeepsRanges s (s.boundary a b) := by
  refine .of_store (s.boundary_store a b) fun ⟨_, next, _, _⟩ => ?_
  unfold State.timerInRange
  rw [s.boundary_timer a b]
  refine ⟨next, next, Nat.lt_of_lt_of_le (Nat.zero_lt_succ 389283) next.1, ?_⟩
  show (if s.timer.clockSet.isSome then 0 else s.timer.units % 12288) < 12288
  split
  · decide
  · exact Nat.mod_lt _ (by decide)

theorem State.beginInterval_timer (s : State) : s.beginInterval.timer = s.timer := by
  unfold State.beginInterval
  rw [State.beginScan_timer, State.refresh_timer, (State.ageCloses_court _).timer, (State.portWork_court _ .b).timer,
    (State.portWork_court _ .a).timer]

theorem State.beginInterval_ranges (s : State) : KeepsRanges s s.beginInterval :=
  .of_store s.beginInterval_store fun h => by unfold State.timerInRange; rw [s.beginInterval_timer]; exact h

/-- R21: boundary 0 comes at tick 0. -/
theorem State.startWritten_ranges (s : State) : KeepsRanges s s.startWritten := by
  unfold State.startWritten State.start
  split
  · exact .refl s
  · split
    · refine KeepsRanges.trans ?_ (State.beginInterval_ranges _)
      refine .of_timer rfl ?_
      rintro ⟨interval, next, _, rem⟩
      exact ⟨interval, next, Nat.lt_of_lt_of_le (Nat.zero_lt_succ 389283) interval.1, rem⟩
    · exact .of_stock rfl

/-- R20: the tick count stays below the length of the interval. -/
theorem State.countTick_ranges (s : State) : KeepsRanges s s.countTick := by
  refine .of_timer rfl ?_
  rintro ⟨interval, next, _, rem⟩
  refine ⟨interval, next, ?_, rem⟩
  show min (s.timer.tick + 1) (s.timer.interval - 1) < s.timer.interval
  omega

theorem State.idle_ranges (s : State) : KeepsRanges s s.idle := by
  by_cases running : s.timer.running = true
  · rw [s.idle_running running]
    exact s.countTick_ranges.then_stock rfl
  · unfold State.idle
    rw [if_neg running]
    exact .refl s

/-! ### Resets and the register window (R19, R148 to R150) -/

theorem reset_timerInRange : State.reset.timerInRange := by
  unfold State.timerInRange; decide

/-- A reset returns the timer, the queue and the counts to values in range and writes no host memory (R19, R20). -/
theorem State.afterReset_ranges (s : State) (lo hi : Word32) (low : Bool) : KeepsRanges s (s.afterReset lo hi low) := by
  rw [s.afterReset_eq]
  exact ⟨fun _ => reset_timerInRange, fun _ => Nat.zero_le _, fun _ => ⟨Nat.zero_le _, Nat.zero_le _⟩, id⟩

theorem State.registerWritten_ranges (s : State) (offset value : Word32) :
    KeepsRanges s (s.registerWritten offset value) := by
  unfold State.registerWritten
  split
  · unfold State.controlWritten State.softReset
    split
    · exact s.afterReset_ranges _ _ _
    · split
      · exact s.startWritten_ranges
      · exact .refl s
  · split <;> exact .of_stock rfl
  · split <;> exact .of_stock rfl
  all_goals exact .of_stock rfl

end Sys2Proof.Machine
end

