-- ==== Sys2Proof/Proofs/RangesOfCommands.lean ====
section
/-! PROOF. Every command and every tick keeps the ranges of the timer, the queue and the counts and the canonical form of the
image (R20, R131, R148; assumption 9), and the part right after reset meets every invariant. -/
namespace Sys2Proof.Machine

/-- A command that completes keeps the ranges. -/
def EndsInRange (s : State) (o : Host.Outcome State Fault Refusal) : Prop := ∀ t, o = .next t → KeepsRanges s t

theorem KeepsRanges.ends {s t : State} (h : KeepsRanges s t) : EndsInRange s (.next t) := by
  rintro _ ⟨⟩; exact h

/-- A command with a condition, without effect where the condition fails. -/
theorem KeepsRanges.ends_ite {s t : State} (c : Prop) [Decidable c] (h : KeepsRanges s t) :
    EndsInRange s (.next (if c then t else s)) := by
  split
  · exact h.ends
  · exact (KeepsRanges.refl s).ends

/-- A command that leaves the stock where its condition holds. -/
theorem endsInRange_ite {s t : State} (c : Prop) [Decidable c] (h : t.stock = s.stock) :
    EndsInRange s (.next (if c then t else s)) := (KeepsRanges.of_stock h).ends_ite c

/-! ### The requests (R5 to R16, R27 to R29, R46 to R51, R78, R87 to R91, R128, R146, R154) -/

/-- A request keeps what its owning block keeps (R154). -/
theorem State.take_ranges (s : State) (c : Instr) (owner : State → State × Taken) (h : KeepsRanges s (owner s).1) :
    EndsInRange s (.next (s.take c owner)) := by
  refine KeepsRanges.ends ?_
  unfold State.take
  split
  · split
    · dsimp only
      split
      · exact h.then_stock rfl
      · exact h.then_stock rfl
    · exact .refl s
  · exact .refl s

/-- A request whose owning block leaves the stock. -/
theorem State.take_stock (s : State) (c : Instr) (owner : State → State × Taken) (h : (owner s).1.stock = s.stock) :
    EndsInRange s (.next (s.take c owner)) := s.take_ranges c owner (.of_stock h)

section Requests
variable (s : State)

theorem State.recordOpening_stock (n r : Word32) : (s.recordOpening n r).1.stock = s.stock := by
  unfold State.recordOpening; split <;> rfl

theorem State.askFlag_stock (on : Bool) : (s.askFlag on).1.stock = s.stock := by
  unfold State.askFlag; split <;> rfl

theorem State.beginClose_stock : s.beginClose.1.stock = s.stock := by
  unfold State.beginClose; split <;> rfl

theorem State.beginAbandon_stock : s.beginAbandon.1.stock = s.stock := by
  unfold State.beginAbandon
  dsimp only
  split
  · exact (State.refresh_stock _).trans (State.discardIfWaiting_stock _)
  · rfl

theorem State.control_stock (p power divisor : Word32) : (s.control p power divisor).1.stock = s.stock := by
  unfold State.control
  dsimp only
  repeat' split
  any_goals rfl
  exact s.setPort_stock _ _

theorem State.selfTest_stock (p : Word32) : (s.selfTest p).1.stock = s.stock := by
  unfold State.selfTest
  dsimp only
  repeat' split
  any_goals rfl
  exact s.setPort_stock _ _

theorem State.counters_stock (p clear : Word32) : (s.counters p clear).1.stock = s.stock := by
  unfold State.counters
  dsimp only
  split
  · rfl
  · dsimp only
    split
    · rfl
    · exact s.setPort_stock _ _

theorem State.releaseAt_stock (k : Word32) : (s.releaseAt k).1.stock = s.stock := by
  unfold State.releaseAt
  dsimp only
  repeat' split
  all_goals rfl

theorem State.writeSettings_stock (c g th a h i : Word32) : (s.writeSettings c g th a h i).1.stock = s.stock := by
  unfold State.writeSettings; split <;> rfl

theorem State.writePrivacy_stock (c f : Word32) : (s.writePrivacy c f).1.stock = s.stock := by
  unfold State.writePrivacy; split <;> rfl

theorem State.writeBar_stock (c f : Word32) : (s.writeBar c f).1.stock = s.stock := by
  unfold State.writeBar; split <;> rfl

theorem State.createFlush_stock : s.createFlush.stock = s.stock := by
  unfold State.createFlush State.stock; rfl

theorem State.takeFlush_stock : s.takeFlush.1.stock = s.stock := by
  unfold State.takeFlush
  by_cases counting : s.sitting.counting = true
  · rw [if_pos counting]
    cases s.writer.flush with
    | some f => rfl
    | none =>
      dsimp only
      by_cases bare : s.path.bays.allEmpty = true ∧ s.writer.noSheet = true
      · rw [if_pos bare]
      · rw [if_neg bare]; exact s.createFlush_stock
  · rw [if_neg counting]

theorem State.hostMark_stock (code : Word16) (n : Byte) (text : List Byte) :
    (s.hostMark code n text).1.stock = s.stock := by
  unfold State.hostMark
  split
  · split
    · rfl
    · exact State.refresh_stock _
  · rfl

/-- A clock set waits beside the timer's ranges (R27). -/
theorem State.pendClock_ranges (v : Word64) : KeepsRanges s (s.pendClock v).1 := .of_timer rfl id

end Requests

/-! ### The ends of the scanner's bus accesses (R5, R132 to R134, R152 to R159) -/

section Scan
variable (s : State) (how : WriteEnd)

theorem State.boardStops_ranges : KeepsRanges s s.boardStops := s.accessFailed_ranges.then_stock rfl

theorem execCellRead_inRange (bytes : List Byte) : EndsInRange s (execCellRead bytes s) := by
  refine KeepsRanges.ends ?_
  split
  · split <;> exact .of_stock rfl
  · exact .refl s

theorem execTakenWrite_inRange : EndsInRange s (execTakenWrite how s) := by
  refine KeepsRanges.ends ?_
  split
  · exact (s.writeEnds_ranges how _ _).then_stock rfl
  · exact .refl s

theorem execResultAreaWrite_inRange : EndsInRange s (execResultAreaWrite how s) := by
  refine KeepsRanges.ends ?_
  split
  · dsimp only
    have left (a : Word64) (b : List Byte) : KeepsRanges s { s.writeEnds how a b with
        writer := (s.writeEnds how a b).writer.dropFlushCell (s.writeEnds how a b).scan.cursor } :=
      (s.writeEnds_ranges how a b).then_stock (State.dropFlushCell_stock _ _)
    cases how <;> exact (left _ _).then_stock rfl
  · exact .refl s

theorem execStateWordWrite_inRange : EndsInRange s (execStateWordWrite how s) := by
  refine KeepsRanges.ends ?_
  split
  · cases how
    · exact (s.write_ranges _ _).then_stock rfl
    · exact s.accessFailed_ranges.then_stock rfl
  · exact .refl s

theorem execPoolEntryRead_inRange (bytes : List Byte) : EndsInRange s (execPoolEntryRead bytes s) := by
  refine KeepsRanges.ends ?_
  split
  · dsimp only
    repeat' split
    all_goals exact .of_stock rfl
  · exact .refl s

theorem execStandbyWrite_inRange : EndsInRange s (execStandbyWrite how s) := by
  refine KeepsRanges.ends ?_
  split
  · cases how
    · refine KeepsRanges.then_stock ?_ (State.setScan_stock _ _)
      exact ((s.write_ranges _ _).trans (State.enqueue_ranges _ _)).then_stock (State.refresh_stock _)
    · exact s.accessFailed_ranges.then_stock rfl
  · exact .refl s

theorem execTamperRewrite_inRange : EndsInRange s (execTamperRewrite how s) := by
  refine KeepsRanges.ends ?_
  split
  · exact (s.writeEnds_ranges how _ _).then_stock rfl
  · exact .refl s

theorem execHeadWrite_inRange : EndsInRange s (execHeadWrite how s) := by
  refine KeepsRanges.ends ?_
  split
  · exact (s.writeEnds_ranges how _ _).then_stock rfl
  · exact .refl s

theorem execPanelWrite_inRange : EndsInRange s (execPanelWrite how s) := by
  refine KeepsRanges.ends ?_
  split
  · exact (s.writeEnds_ranges how _ _).then_stock rfl
  · exact .refl s

end Scan

/-! ### The Record Writer's turns and the completions (R14, R16, R135 to R146) -/

section Turns
variable (s : State) (how : WriteEnd)

theorem execWriterTurn_inRange : EndsInRange s (execWriterTurn s) := by
  refine KeepsRanges.ends ?_
  split
  · exact (s.serve_ranges _).then_stock (State.refresh_stock _)
  · exact .refl s

theorem execWritingWrite_inRange : EndsInRange s (execWritingWrite how s) := by
  refine KeepsRanges.ends ?_
  split
  · cases how
    · dsimp only
      have opened (a : Word64) (b : List Byte) (t : Fin 34) (q : Queued) :
          KeepsRanges s (State.startItem { s.write a b with writer := s.writer.opened t q s.frame } t) :=
        (s.write_ranges a b).then_stock ((State.startItem_stock _ t).trans rfl)
      split
      · exact (opened _ _ _ _).then_stock (State.turnEnded_stock _)
      · exact (opened _ _ _ _).then_stock (State.refresh_stock _)
    · exact s.accessFailed_ranges.then_stock (State.turnEnded_stock _)
  · exact .refl s

theorem execItemWriteDone_inRange : EndsInRange s (execItemWriteDone s) := by
  refine KeepsRanges.ends ?_
  split
  · split
    · exact (s.write_ranges _ _).then_stock ((State.turnEnded_stock _).trans (State.released_stock _ _))
    · exact .of_stock s.turnEnded_stock
  · exact .refl s

theorem execItemWriteFailed_inRange : EndsInRange s (execItemWriteFailed s) := by
  refine KeepsRanges.ends ?_
  split
  · split
    · exact s.accessFailed_ranges.then_stock rfl
    · exact s.accessFailed_ranges.then_stock (State.turnEnded_stock _)
  · exact .refl s

theorem execHeaderWrite_inRange : EndsInRange s (execHeaderWrite how s) := by
  refine KeepsRanges.ends ?_
  split
  · split
    · dsimp only
      split
      · exact (s.writeEnds_ranges how _ _).then_stock rfl
      · cases how
        · exact (s.write_ranges _ _).then_stock rfl
        · exact s.accessFailed_ranges.then_stock rfl
    · exact .of_stock s.turnEnded_stock
  · exact .refl s

theorem execClosedWrite_inRange : EndsInRange s (execClosedWrite how s) := by
  refine KeepsRanges.ends ?_
  split
  · split
    · cases how
      · exact ((s.write_ranges _ _).trans (State.countClosed_ranges _)).then_stock (State.turnEnded_stock _)
      · exact s.accessFailed_ranges.then_stock (State.turnEnded_stock _)
    · exact .of_stock s.turnEnded_stock
  · exact .refl s

theorem execFaultedWrite_inRange : EndsInRange s (execFaultedWrite how s) := by
  refine KeepsRanges.ends ?_
  split
  · split
    · exact (s.writeEnds_ranges how _ _).then_stock (State.turnEnded_stock _)
    · exact .of_stock s.turnEnded_stock
  · exact .refl s

theorem execDrainComplete_inRange : EndsInRange s (execDrainComplete s) := by
  refine KeepsRanges.ends ?_
  split
  · split
    · exact .of_stock ((State.refresh_stock _).trans (s.reachArmed_stock _ _ _))
    · exact .refl s
  · exact .refl s

theorem execAbandonComplete_inRange : EndsInRange s (execAbandonComplete s) := by
  refine KeepsRanges.ends ?_
  split
  · split
    · exact .of_stock ((State.refresh_stock _).trans (s.completeAbandon_stock _ _ _))
    · exact .refl s
  · exact .refl s

theorem execFlushComplete_inRange : EndsInRange s (execFlushComplete s) := by
  refine KeepsRanges.ends ?_
  split
  · split
    · exact .of_stock (s.completeFlush_stock _)
    · exact .refl s
  · exact .refl s

end Turns

/-! ### The links (R36, R42 to R44, R57 to R67) -/

section Links
variable (s : State) (p : PortId)

theorem execFrameSent_inRange : EndsInRange s (execFrameSent p s) := by
  refine KeepsRanges.ends ?_
  split
  · exact .of_stock (s.onLink_stock p _)
  · split
    · exact .of_stock (s.setPort_stock p _)
    · exact .refl s

theorem execCharacterReceived_inRange (samples : BitVec 88) : EndsInRange s (execCharacterReceived p samples s) := by
  refine KeepsRanges.ends (.of_stock ?_)
  split
  · unfold State.loopbackSamples
    split
    · rfl
    · exact s.setPort_stock p _
  · unfold State.lineSamples
    dsimp only
    split
    · exact s.setPort_stock p _
    · split
      · exact (State.onLink_stock _ p _).trans (s.setPort_stock p _)
      · exact s.setPort_stock p _

end Links

/-! ### Arming (R5 to R7) -/

section Arming
variable (s : State)

theorem execArm_inRange (a : Word64) : EndsInRange s (execArm a s) := by
  refine KeepsRanges.ends ?_
  split
  · split
    · exact .of_stock rfl
    · exact .refl s
  · split
    · split
      · exact .of_stock rfl
      · split
        · exact .of_stock rfl
        · exact (s.putInForce_ranges _).then_stock rfl
    · exact .refl s
  · exact .refl s

theorem execDisarm_inRange : EndsInRange s (execDisarm s) := by
  refine KeepsRanges.ends ?_
  split
  · split
    · split
      · exact s.freeNext_ranges _ _ _ _
      · exact .of_stock rfl
    · exact .refl s
  · exact .refl s

theorem execDisarmFreeWrite_inRange (how : WriteEnd) : EndsInRange s (execDisarmFreeWrite how s) := by
  refine KeepsRanges.ends ?_
  split
  · cases how
    · exact (s.write_ranges _ _).trans (State.freeNext_ranges _ _ _ _ _)
    · exact s.accessFailed_ranges.trans (State.freeNext_ranges _ _ _ _ _)
  · exact .refl s

end Arming

/-! ### Every command and every tick -/

/-- Every command keeps the ranges. -/
theorem exec_inRange (c : Instr) (s : State) : EndsInRange s (exec c s) := by
  cases c with
  | controlStart => exact s.startWritten_ranges.ends
  | softReset | functionReset | powerOnReset low => exact (s.afterReset_ranges _ _ _).ends
  | attentionWrite v | attnMaskWrite v => exact KeepsRanges.ends (.of_stock rfl)
  | registerWrite offset value => exact (s.registerWritten_ranges offset value).ends
  | brownOut =>
    have drawn : KeepsRanges s { s with draws := s.draws + 1 } := .of_stock rfl
    exact (drawn.trans (State.afterReset_ranges _ _ _ _)).ends
  | supplyWarning =>
    refine KeepsRanges.ends ?_
    split
    · exact .refl s
    · exact .of_stock s.onset_stock
  | supplyRecovery => exact endsInRange_ite _ ((State.refresh_stock _).trans s.recovered_stock)
  | boundary a b => exact (s.boundary_ranges a b).ends_ite _
  | frameSent p => exact execFrameSent_inRange s p
  | pollSent p => exact endsInRange_ite _ (s.setPort_stock p _)
  | replyTimeout p busy => exact endsInRange_ite _ (s.onLink_stock p _)
  | roundDeadline p | lineQuiet p | lineStuck p | overcurrent p => exact endsInRange_ite _ (s.onLink_stock p _)
  | characterReceived p samples => exact execCharacterReceived_inRange s p samples
  | cellRead bytes => exact execCellRead_inRange s bytes
  | cellReadFailed | armRecordReadFailed =>
    refine KeepsRanges.ends ?_
    split
    · exact s.boardStops_ranges
    · exact .refl s
  | armRecordRead bytes =>
    refine KeepsRanges.ends ?_
    split
    · exact .of_stock rfl
    · exact .refl s
  | takenWrite how => exact execTakenWrite_inRange s how
  | resultAreaWrite how => exact execResultAreaWrite_inRange s how
  | stateWordWrite how => exact execStateWordWrite_inRange s how
  | requestRefusedKind k => exact s.take_stock _ _ rfl
  | arm a => exact execArm_inRange s a
  | disarm => exact execDisarm_inRange s
  | disarmFreeWrite how => exact execDisarmFreeWrite_inRange s how
  | openSitting n r => exact s.take_stock _ _ (s.recordOpening_stock n r)
  | goOnRecord => exact s.take_stock _ _ (s.askFlag_stock true)
  | goOffRecord => exact s.take_stock _ _ (s.askFlag_stock false)
  | closeSitting => exact s.take_stock _ _ s.beginClose_stock
  | abandonStaged => exact s.take_stock _ _ s.beginAbandon_stock
  | setClock v => exact s.take_ranges _ _ (s.pendClock_ranges v)
  | trimFrame n => exact s.take_ranges _ _ (s.trim_ranges n)
  | portControl p power divisor => exact s.take_stock _ _ (s.control_stock p power divisor)
  | portSelfTest p => exact s.take_stock _ _ (s.selfTest_stock p)
  | readCounters p clear => exact s.take_stock _ _ (s.counters_stock p clear)
  | releaseStation k => exact s.take_stock _ _ (s.releaseAt_stock k)
  | setChannel c g th a h i => exact s.take_stock _ _ (s.writeSettings_stock c g th a h i)
  | setPrivacy c f => exact s.take_stock _ _ (s.writePrivacy_stock c f)
  | setBar c f => exact s.take_stock _ _ (s.writeBar_stock c f)
  | flush => exact s.take_stock _ _ s.takeFlush_stock
  | hostMark code n text => exact s.take_stock _ _ (s.hostMark_stock code n text)
  | poolEntryRead bytes => exact execPoolEntryRead_inRange s bytes
  | poolReadFailed =>
    refine KeepsRanges.ends ?_
    split
    · exact s.accessFailed_ranges.then_stock rfl
    · exact .refl s
  | standbyWrite how => exact execStandbyWrite_inRange s how
  | tamperRewrite how => exact execTamperRewrite_inRange s how
  | headWrite how => exact execHeadWrite_inRange s how
  | panelWrite how => exact execPanelWrite_inRange s how
  | writerTurn => exact execWriterTurn_inRange s
  | writingWrite how => exact execWritingWrite_inRange s how
  | itemWriteDone => exact execItemWriteDone_inRange s
  | itemWriteFailed => exact execItemWriteFailed_inRange s
  | headerWrite how => exact execHeaderWrite_inRange s how
  | closedWrite how => exact execClosedWrite_inRange s how
  | faultedWrite how => exact execFaultedWrite_inRange s how
  | drainComplete => exact execDrainComplete_inRange s
  | abandonComplete => exact execAbandonComplete_inRange s
  | flushComplete => exact execFlushComplete_inRange s
  | idleIntervalFlagCleared p => exact endsInRange_ite _ (s.setPort_stock p _)
  | lowRunReset p => exact KeepsRanges.ends (.of_stock (s.setPort_stock p _))

/-- A step takes the command at the front of the queue, or counts a tick. -/
theorem step_inRange (s : State) : EndsInRange s (step s) := by
  unfold step
  cases waiting : s.pending with
  | nil => exact s.idle_ranges.ends
  | cons c rest =>
    intro t taken
    have popped : KeepsRanges s { s with pending := rest } := .of_stock rfl
    exact popped.trans (exec_inRange c _ t taken)

/-- Settles O58: `step_inRange`. -/
theorem stepsKeepTimerQueueCountsAndMemory : Obligations.StepsKeepTimerQueueCountsAndMemory := by
  intro s t taken
  obtain ⟨timer, queue, counts, memory⟩ := step_inRange s t taken
  exact ⟨timer, queue, counts, memory⟩

end Sys2Proof.Machine
end

