-- ==== Sys2Proof/Proofs/ResetInvariants.lean ====
section
/-! PROOF. The part right after reset meets every invariant (R20, R33, R70, R85, R104, R120, R131, R148). -/
namespace Sys2Proof.Machine

/-! ### What each track and station holds after reset (R70, R85, R120) -/

theorem reset_bay (t : Fin 34) : State.reset.path.bays.bay[t] = Bay.reset := Vector.getElem_replicate ..

theorem reset_channel (c : Fin 32) : State.reset.path.channels[c] = Channel.reset := Vector.getElem_replicate ..

theorem reset_station (k : Fin 16) : State.reset.path.stations[k] = Station.reset := Vector.getElem_replicate ..

theorem Settings.reset_inRange : Settings.reset.inRange := by unfold Settings.inRange; decide

theorem Port.reset_inRange : Port.reset.inRange := by unfold Port.inRange; decide

theorem Station.reset_inRange : Station.reset.inRange := ⟨⟨rfl, rfl, rfl, rfl⟩, by decide⟩

/-! ### The invariants that read tracks or stations -/

theorem reset_baysFit : State.reset.baysFit := fun t => by rw [reset_bay]; decide

theorem reset_channelsInRange : State.reset.channelsInRange := fun c => by
  rw [reset_channel]; exact ⟨Settings.reset_inRange, by decide⟩

theorem reset_stationsInRange : State.reset.stationsInRange := fun k => by rw [reset_station]; exact Station.reset_inRange

theorem reset_tracksInRange : State.reset.tracksInRange :=
  ⟨fun c => by rw [reset_channel]; decide, by decide, by decide⟩

/-- No void run is pending after reset. -/
theorem reset_runsInRange : State.reset.runsInRange := by
  refine ⟨fun c r pending => ?_, fun r pending => nomatch pending⟩
  rw [reset_channel] at pending
  exact nomatch pending

theorem reset_starvingRight : State.reset.starvingRight :=
  State.starvingRight_empty (fun t => congrArg Bay.items (reset_bay t)) rfl

/-- Settles O59. -/
theorem resetMeetsTheInvariants : Obligations.ResetMeetsTheInvariants :=
  ⟨reset_baysFit, reset_channelsInRange, ⟨rfl, rfl⟩, ⟨Port.reset_inRange, Port.reset_inRange⟩, reset_timerInRange,
    Nat.zero_le _, reset_starvingRight, ⟨Nat.zero_le _, Nat.zero_le _⟩, reset_memoryOrdered, reset_tracksInRange,
    reset_runsInRange, reset_stationsInRange⟩

end Sys2Proof.Machine
end

