-- ==== Sys2Proof/Proofs/PortRanges.lean ====
section
/-! PROOF. The power switch and the counts of a port, and the ranges of the station records, through every operation of a Link
Port (R33, R39 to R50, R56 to R68, R70). -/
namespace Sys2Proof.Machine

/-- From `q` to `r` the power switch stays right (R39), and each count that stands in its range stays in it (R33, R50, R56). -/
structure Port.Stays (q r : Port) : Prop where
  switch : q.closed = q.state.switchClosed → r.closed = r.state.switchClosed
  framing : q.framing ≤ 65535 → r.framing ≤ 65535
  check : q.check ≤ 65535 → r.check ≤ 65535
  noReply : q.noReply ≤ 65535 → r.noReply ≤ 65535
  lateCut : q.lateCut ≤ 65535 → r.lateCut ≤ 65535
  stuck : q.stuck ≤ 65535 → r.stuck ≤ 65535
  starting : q.starting ≤ 50 → r.starting ≤ 50
  cooldown : q.cooldown ≤ 125 → r.cooldown ≤ 125
  lowRun : q.lowRun ≤ 4096 → r.lowRun ≤ 4096
  window : q.window ≤ 24 → r.window ≤ 24

namespace Port.Stays

variable {q r u : Port}

theorem refl (q : Port) : q.Stays q := ⟨id, id, id, id, id, id, id, id, id, id⟩

/-- An operation that leaves the switch, the state and the counts as they were. -/
theorem of_counts (h : (r.closed, r.state, r.framing, r.check, r.noReply, r.lateCut, r.stuck, r.starting, r.cooldown, r.lowRun,
    r.window) = (q.closed, q.state, q.framing, q.check, q.noReply, q.lateCut, q.stuck, q.starting, q.cooldown, q.lowRun,
    q.window)) : q.Stays r := by
  simp only [Prod.mk.injEq] at h
  obtain ⟨h1, h2, h3, h4, h5, h6, h7, h8, h9, h10, h11⟩ := h
  constructor <;> simp only [h1, h2, h3, h4, h5, h6, h7, h8, h9, h10, h11] <;> exact id

theorem trans (h1 : q.Stays r) (h2 : r.Stays u) : q.Stays u :=
  ⟨h2.switch ∘ h1.switch, h2.framing ∘ h1.framing, h2.check ∘ h1.check, h2.noReply ∘ h1.noReply, h2.lateCut ∘ h1.lateCut,
    h2.stuck ∘ h1.stuck, h2.starting ∘ h1.starting, h2.cooldown ∘ h1.cooldown, h2.lowRun ∘ h1.lowRun, h2.window ∘ h1.window⟩

theorem after (h2 : r.Stays u) (h1 : q.Stays r) : q.Stays u := h1.trans h2

theorem inRange (h : q.Stays r) : q.inRange → r.inRange := by
  rintro ⟨framing, check, noReply, lateCut, stuck, starting, cooldown, lowRun, window⟩
  exact ⟨h.framing framing, h.check check, h.noReply noReply, h.lateCut lateCut, h.stuck stuck, h.starting starting,
    h.cooldown cooldown, h.lowRun lowRun, h.window window⟩

end Port.Stays

/-- Every station record of the path is in range (R70). -/
def Path.recordsFit (p : Path) : Prop := ∀ k : Fin 16, p.stations[k].inRange

theorem Path.recordsFit_of_stations {p q : Path} (h : q.stations = p.stations) : p.recordsFit → q.recordsFit := by
  intro fit k; rw [h]; exact fit k

theorem Path.setStation_fits {p : Path} (h : p.recordsFit) (k : Fin 16) {st : Station} (hs : st.inRange) :
    (p.setStation k st).recordsFit := by
  intro j
  rw [Path.setStation_get]
  split
  · exact hs
  · exact h j

theorem Path.report_fits {p : Path} (h : p.recordsFit) (x : Ctx) (polled : Option Nat) (k : Fin 16) (probe : Bool)
    (r : Report) : (p.report x polled k probe r).recordsFit := by
  intro j
  rw [Path.report_stations]
  split
  · exact Station.reported_inRange probe r (h j)
  · exact h j

theorem Path.portLost_fits {p : Path} (h : p.recordsFit) (port : PortId) : (p.portLost port).recordsFit := by
  unfold Path.portLost
  generalize List.finRange 8 = l
  induction l generalizing p with
  | nil => exact h
  | cons a l ih => exact ih (Path.setStation_fits h _ (Station.portLost_inRange (h _)))

/-- From `l` to `m` the port stays as `Port.Stays` says, and the station records stay in range. -/
structure Link.Stays (l m : Link) : Prop where
  port : l.port.Stays m.port
  records : l.path.recordsFit → m.path.recordsFit

namespace Link.Stays

theorem refl (l : Link) : l.Stays l := ⟨.refl _, id⟩

theorem trans {l m n : Link} (h1 : l.Stays m) (h2 : m.Stays n) : l.Stays n :=
  ⟨h1.port.trans h2.port, h2.records ∘ h1.records⟩

theorem after {l m n : Link} (h2 : m.Stays n) (h1 : l.Stays m) : l.Stays n := h1.trans h2

end Link.Stays

/-! ### The port alone (R40 to R50, R56 to R58) -/

section Ports
variable (pt : Port)

theorem countEvent_le (n : Nat) : countEvent n ≤ 65535 := Nat.min_le_left _ _

theorem Port.start_stays : pt.Stays pt.start :=
  { Port.Stays.refl _ with switch := fun _ => rfl, starting := fun _ => Nat.le_refl 50 }

theorem Port.disable_stays : pt.Stays pt.disable :=
  { Port.Stays.refl _ with switch := fun _ => rfl, starting := fun _ => Nat.zero_le _ }

theorem Port.beginRound_stays (x : Ctx) : pt.Stays (pt.beginRound x) :=
  { Port.Stays.refl _ with window := fun _ => Nat.zero_le _ }

theorem Port.release_stays : pt.Stays pt.release := { Port.Stays.refl _ with window := fun _ => Nat.zero_le _ }

theorem Port.clearCounters_stays : pt.Stays pt.clearCounters :=
  { Port.Stays.refl pt with
    framing := fun _ => Nat.zero_le _
    check := fun _ => Nat.zero_le _
    noReply := fun _ => Nat.zero_le _
    lateCut := fun _ => Nat.zero_le _
    stuck := fun _ => Nat.zero_le _ }

theorem Port.startSelfTest_stays (c : Fin 16) : pt.Stays (pt.startSelfTest c) :=
  { Port.Stays.refl _ with switch := fun _ => rfl }

theorem Port.mergeControl_stays (w : PowerField) (d : Option Nat) : pt.Stays (pt.mergeControl w d) := by
  unfold Port.mergeControl
  split
  · exact .refl pt
  · exact .of_counts rfl

/-- R42: the low run after 88 samples is at most 11. -/
theorem lowTail_le (samples : BitVec 88) : lowTail samples ≤ 88 := by
  unfold lowTail; split <;> omega

theorem Port.sampled_stays (samples : BitVec 88) : pt.Stays (pt.sampled samples) := by
  have low := lowTail_le samples
  unfold Port.sampled
  split
  · exact { Port.Stays.refl _ with lowRun := fun _ => by dsimp only; omega }
  all_goals exact .of_counts rfl

theorem Port.lineHigh_stays : pt.Stays pt.lineHigh := by
  unfold Port.lineHigh
  split
  · exact { Port.Stays.refl _ with lowRun := fun _ => Nat.zero_le _ }
  · exact .of_counts rfl

theorem Port.superviseTick_stays : pt.Stays pt.superviseTick := by
  unfold Port.superviseTick
  split
  · split
    · split
      · exact .of_counts rfl
      · exact { Port.Stays.refl _ with lowRun := fun _ => Nat.min_le_left _ _ }
    all_goals exact .of_counts rfl
  · exact .refl pt

/-- R60: the reply window counts to 24. -/
theorem Port.linkTick_stays : pt.Stays pt.linkTick :=
  { Port.Stays.refl pt with
    window := fun h => by
      show (if pt.phase = .awaiting then min 24 _ else pt.window) ≤ 24
      split
      · exact Nat.min_le_left _ _
      · exact h }

theorem Port.tick_stays : pt.Stays pt.tick := pt.superviseTick_stays.trans (Port.linkTick_stays _)

theorem Port.endSelfTest_stays : pt.Stays pt.endSelfTest := by
  unfold Port.endSelfTest
  split
  · exact { Port.Stays.refl _ with switch := fun _ => rfl }
  all_goals exact .refl pt

theorem Port.applyOff_stays (c : Control) : pt.Stays (pt.applyOff c) := by
  unfold Port.applyOff
  repeat' split
  any_goals exact .refl pt
  all_goals exact pt.disable_stays

theorem Port.applyDivisor_stays (c : Control) : pt.Stays (pt.applyDivisor c) := by
  unfold Port.applyDivisor
  repeat' split
  any_goals exact .refl pt
  exact .of_counts rfl

theorem Port.applyControl_stays : pt.Stays pt.applyControl.1 := by
  unfold Port.applyControl
  split
  · exact .refl pt
  · rename_i c _
    have removed : pt.Stays { pt with control := none } := .of_counts rfl
    have applied := (removed.trans (Port.applyOff_stays _ c)).trans (Port.applyDivisor_stays _ c)
    dsimp only
    split
    · exact applied.trans (Port.start_stays _)
    · exact applied

theorem Port.ownWork_stays : pt.Stays pt.ownWork.1 := by
  unfold Port.ownWork
  split
  · split
    · exact { Port.Stays.refl _ with
        switch := fun _ => rfl
        starting := fun _ => Nat.zero_le _
        lowRun := fun _ => Nat.zero_le _ }
    · exact { Port.Stays.refl _ with starting := fun h => (Nat.sub_le _ _).trans h }
  · split
    · exact pt.start_stays
    · exact .of_counts rfl
  all_goals exact .refl pt

theorem Port.beginInterval_stays (x : Ctx) : pt.Stays (pt.beginInterval x) := by
  unfold Port.beginInterval
  split
  · exact pt.beginRound_stays x
  all_goals exact .of_counts rfl

theorem Port.boundaryWork_stays (x : Ctx) : pt.Stays (pt.boundaryWork x).1 := by
  have cooled : pt.endSelfTest.Stays { pt.endSelfTest with cooldown := pt.endSelfTest.cooldown - 1 } :=
    { Port.Stays.refl _ with cooldown := fun h => (Nat.sub_le _ _).trans h }
  have before := (pt.endSelfTest_stays.trans cooled).trans (Port.applyControl_stays _)
  unfold Port.boundaryWork
  dsimp only
  refine Port.Stays.trans (r := (if _ then (_, false) else Port.ownWork _ : Port × Bool).1) ?_
    ((Port.beginInterval_stays _ x).after (.of_counts rfl))
  split
  · exact before
  · exact before.trans (Port.ownWork_stays _)

end Ports

/-! ### A port with the path it reports to (R41 to R44, R52, R57 to R68) -/

section Links
variable (x : Ctx) (p : PortId) (l : Link)

theorem Link.hand_stays (probe : Bool) (r : Report) (a : Fin 8) : l.Stays (l.hand x p probe r a) :=
  ⟨.refl _, fun h => Path.report_fits h _ _ _ _ _⟩

theorem Link.handAll_stays (r : Report) (as : List (Fin 8)) : l.Stays (l.handAll x p r as) := by
  unfold Link.handAll
  induction as generalizing l with
  | nil => exact .refl l
  | cons a as ih => exact (l.hand_stays x p false r a).trans (ih _)

theorem Link.handListed_stays (r : Report) : l.Stays (l.handListed x p r) := by
  unfold Link.handListed
  split
  · split
    · exact .refl l
    · exact l.hand_stays x p false r _
  · exact .refl l

theorem Link.sendPoll_stays (a : Fin 8) (probe : Bool) : l.Stays (l.sendPoll x p a probe) :=
  ⟨{ Port.Stays.refl l.port with window := fun _ => Nat.zero_le _ }, Path.recordsFit_of_stations rfl⟩

theorem Link.nextPoll_stays : l.Stays (l.nextPoll x p) := by
  unfold Link.nextPoll
  split
  · split
    · exact .refl l
    · exact (l.sendPoll_stays x p _ false).trans ⟨.of_counts rfl, id⟩
  · split
    · exact ⟨.of_counts rfl, id⟩
    · split
      · exact .refl l
      · exact (l.sendPoll_stays x p _ true).trans ⟨.of_counts rfl, id⟩

theorem Link.endCall_stays : l.Stays (l.endCall x p) := (Link.nextPoll_stays x p _).after ⟨.of_counts rfl, id⟩

theorem Link.deadline_stays : l.Stays (l.deadline x p) := by
  unfold Link.deadline
  dsimp only
  split
  · exact ⟨.of_counts rfl, id⟩
  · have passed : l.Stays { l with port := { l.port with deadlinePassed := true, remaining := [] } } :=
      ⟨.of_counts rfl, id⟩
    exact (passed.trans (Link.handAll_stays x p _ .late l.port.remaining)).trans ⟨.of_counts rfl, id⟩

theorem Link.stopPolling_stays : l.Stays (l.stopPolling x p) := by
  unfold Link.stopPolling
  dsimp only
  have stopped : l.Stays { l with port := { l.port with remaining := [], probeDone := true } } := ⟨.of_counts rfl, id⟩
  have handed := stopped.trans (Link.handAll_stays x p _ .supply l.port.remaining)
  split
  · exact handed.trans ⟨.of_counts rfl, id⟩
  · exact handed

theorem Link.takeList_stays : l.Stays (l.takeList x p) := by
  unfold Link.takeList
  dsimp only
  split
  · exact (Link.stopPolling_stays x p _).after ⟨.of_counts rfl, id⟩
  · split
    · exact (Link.deadline_stays x p _).after ⟨.of_counts rfl, id⟩
    · exact (Link.nextPoll_stays x p _).after ⟨.of_counts rfl, id⟩

theorem Link.badBundle_stays (r : BadReason) : l.Stays (l.badBundle x p r) :=
  ((Link.endCall_stays x p _).after (Link.handListed_stays x p _ _)).after
    ⟨{ Port.Stays.refl _ with check := fun _ => countEvent_le _ }, id⟩

theorem Link.goodBundle_stays (t : Target) (b : Bundle) : l.Stays (l.goodBundle x p t b) :=
  ((Link.endCall_stays x p _).after (Link.hand_stays x p _ _ _ _)).after ⟨.of_counts rfl, id⟩

theorem Link.finishReply_stays : l.Stays (l.finishReply x p) := by
  unfold Link.finishReply
  dsimp only
  split
  · exact l.badBundle_stays x p _
  · split
    · exact l.badBundle_stays x p _
    · split
      · exact l.goodBundle_stays x p _ _
      · exact .refl l

theorem Link.firstEvent_stays (e : CharEvent) : l.Stays (l.firstEvent x p e) := by
  unfold Link.firstEvent
  dsimp only
  split
  · exact ⟨.of_counts rfl, id⟩
  · exact ⟨.of_counts rfl, id⟩
  · split
    · exact ⟨.of_counts rfl, id⟩
    · split
      · exact (Link.finishReply_stays x p _).after ⟨.of_counts rfl, id⟩
      · exact ⟨.of_counts rfl, id⟩

theorem Link.laterEvent_stays (e : CharEvent) : l.Stays (l.laterEvent x p e) := by
  unfold Link.laterEvent
  split
  · exact ⟨.of_counts rfl, id⟩
  · split
    · exact l.finishReply_stays x p
    · exact ⟨.of_counts rfl, id⟩
  · split
    · split <;> exact ⟨.of_counts rfl, id⟩
    · exact ⟨.of_counts rfl, id⟩

theorem Link.event_stays (e : CharEvent) : l.Stays (l.event x p e) := by
  have counted : l.Stays
      (if e = .framing then { l with port := { l.port with framing := countEvent l.port.framing } } else l) := by
    split
    · exact ⟨{ Port.Stays.refl _ with framing := fun _ => countEvent_le _ }, id⟩
    · exact .refl l
  unfold Link.event
  dsimp only
  split
  · exact counted.trans (Link.firstEvent_stays x p _ e)
  · exact counted.trans (Link.laterEvent_stays x p _ e)
  · exact counted.trans ⟨.of_counts rfl, id⟩
  all_goals exact counted

theorem Link.quiet_stays : l.Stays (l.quiet x p) := by
  unfold Link.quiet
  split
  · exact l.badBundle_stays x p _
  · exact l.badBundle_stays x p _
  · split
    · dsimp only
      split
      · exact ⟨.of_counts rfl, id⟩
      · exact (Link.nextPoll_stays x p _).after ⟨.of_counts rfl, id⟩
    · exact .refl l
  all_goals exact .refl l

theorem Link.replyTimeout_stays (busy : Bool) : l.Stays (l.replyTimeout x p busy) := by
  refine ((Link.endCall_stays x p _).after (Link.handListed_stays x p _ _)).after ⟨?_, id⟩
  exact { Port.Stays.refl _ with
    window := fun _ => Nat.le_refl 24
    noReply := fun h => (ite_le_sup _ _ _).trans (sup_le (countEvent_le _) h) }

theorem Link.leaveRunning_stays : l.Stays (l.leaveRunning x p) := by
  refine ⟨?_, fun h => ?_⟩
  · rw [Link.leaveRunning_port]
    exact { Port.Stays.refl _ with window := fun _ => Nat.zero_le _ }
  · unfold Link.leaveRunning
    exact (Link.handAll_stays x p { l with path := l.path.portLost p } _ _).records (Path.portLost_fits h p)

theorem Link.portMark_stays (k : MarkKind) : l.Stays (l.portMark x k) :=
  ⟨.refl _, Path.recordsFit_of_stations (by unfold Link.portMark; simp)⟩

theorem Link.stick_stays : l.Stays (l.stick x p) :=
  (Link.portMark_stays x _ _).after ((l.leaveRunning_stays x p).trans ⟨
    { Port.Stays.refl _ with
      switch := fun _ => rfl
      lowRun := fun _ => Nat.le_refl 4096
      stuck := fun _ => countEvent_le _ }, id⟩)

theorem Link.trip_stays : l.Stays (l.trip x p) := by
  have left : l.Stays (if l.port.state = .running then l.leaveRunning x p else l) := by
    split
    · exact l.leaveRunning_stays x p
    · exact .refl l
  exact (Link.portMark_stays x _ _).after (left.trans ⟨
    { Port.Stays.refl _ with
      switch := fun _ => rfl
      starting := fun _ => Nat.zero_le _
      cooldown := fun _ => Nat.le_refl 125 }, id⟩)

theorem Link.cutCall_stays : l.Stays (l.cutCall x p) := by
  unfold Link.cutCall
  split
  · exact (l.handListed_stays x p .late).trans ⟨{ Port.Stays.refl _ with lateCut := fun _ => countEvent_le _ }, id⟩
  · have counted : l.Stays { l with port := { l.port with
        check := countEvent l.port.check, lastReason := some (l.port.fault.getD .length) } } :=
      ⟨{ Port.Stays.refl _ with check := fun _ => countEvent_le _ }, id⟩
    exact (counted.trans (Link.handListed_stays x p _ .bad)).trans ⟨.of_counts rfl, id⟩
  · exact (l.handListed_stays x p .late).trans ⟨.of_counts rfl, id⟩
  · split
    · exact .refl l
    · exact (l.handListed_stays x p .late).trans ⟨.of_counts rfl, id⟩
  all_goals exact .refl l

theorem Link.roundOver_stays : l.Stays (l.roundOver x p) := by
  unfold Link.roundOver
  split
  · split
    · exact l.leaveRunning_stays x p
    · split
      · exact l.cutCall_stays x p
      · exact (l.deadline_stays x p).trans (Link.cutCall_stays x p _)
  · exact .refl l

theorem Link.deadlinePasses_stays : l.Stays (l.deadlinePasses x p) := by
  unfold Link.deadlinePasses
  split
  · exact ⟨.of_counts rfl, id⟩
  all_goals exact l.deadline_stays x p

theorem Link.onset_stays : l.Stays (l.onset x p) := by
  unfold Link.onset
  split
  · split
    · exact ⟨.of_counts rfl, id⟩
    iterate 4 exact l.stopPolling_stays x p
    all_goals exact .refl l
  · exact .refl l

theorem Link.boundaryWork_stays : l.Stays (l.boundaryWork x p) := by
  have worked : l.Stays { l with port := (l.port.boundaryWork x).1 } := ⟨l.port.boundaryWork_stays x, id⟩
  unfold Link.boundaryWork
  dsimp only
  split
  · exact worked.trans (Link.portMark_stays x _ _)
  · exact worked

end Links

end Sys2Proof.Machine
end

