-- ==== Sys2Proof/Proofs/PortInvariants.lean ====
section
/-! PROOF. Every command and every tick keeps the power switches right, the counts of the ports in their ranges and the station
records as their states say (R33, R39, R50, R56, R70 to R80). -/
namespace Sys2Proof.Machine

/-- The ports and the station records of a state. -/
structure Lines where
  portA : Port
  portB : Port
  stations : Vector Station 16

/-- What R33, R39, R56 and R70 are about. -/
def State.lines (s : State) : Lines := { portA := s.portA, portB := s.portB, stations := s.path.stations }

theorem State.lines_congr {s t : State} (portA : t.portA = s.portA) (portB : t.portB = s.portB)
    (records : t.path.stations = s.path.stations) : t.lines = s.lines := by
  unfold State.lines; rw [portA, portB, records]

/-- From `s` to `t` each port stays as `Port.Stays` says, and the station records stay in range. -/
structure KeepsLines (s t : State) : Prop where
  port : ∀ p, (s.port p).Stays (t.port p)
  records : s.path.recordsFit → t.path.recordsFit

namespace KeepsLines

variable {s t u : State}

theorem refl (s : State) : KeepsLines s s := ⟨fun _ => .refl _, id⟩

theorem trans (h1 : KeepsLines s t) (h2 : KeepsLines t u) : KeepsLines s u :=
  ⟨fun p => (h1.port p).trans (h2.port p), h2.records ∘ h1.records⟩

/-- The invariants rest on the lines alone. -/
theorem of_lines (h : t.lines = s.lines) : KeepsLines s t := by
  obtain ⟨a, b, records⟩ := Lines.mk.inj h
  refine ⟨fun p => ?_, Path.recordsFit_of_stations records⟩
  cases p
  · show s.portA.Stays t.portA; rw [a]; exact .refl _
  · show s.portB.Stays t.portB; rw [b]; exact .refl _

theorem then_lines (h : KeepsLines s t) (e : u.lines = t.lines) : KeepsLines s u := h.trans (of_lines e)

theorem switches (h : KeepsLines s t) : s.switchesRight → t.switchesRight :=
  fun ⟨a, b⟩ => ⟨(h.port .a).switch a, (h.port .b).switch b⟩

theorem ranges (h : KeepsLines s t) : s.portsInRange → t.portsInRange :=
  fun ⟨a, b⟩ => ⟨(h.port .a).inRange a, (h.port .b).inRange b⟩

/-- A fold of operations that each keep the lines keeps them. -/
theorem foldl {α : Type} (g : State → α → State) (h : ∀ (s : State) (a : α), KeepsLines s (g s a)) (l : List α) (s : State) :
    KeepsLines s (l.foldl g s) := by
  induction l generalizing s with
  | nil => exact refl s
  | cons a l ih => exact (h s a).trans (ih _)

end KeepsLines

/-! ### The operations on ports -/

theorem State.setPort_keepsLines (s : State) (p : PortId) (q : Port) (h : (s.port p).Stays q) :
    KeepsLines s (s.setPort p q) := by
  refine ⟨fun r => ?_, Path.recordsFit_of_stations (by simp)⟩
  by_cases e : r = p
  · subst e; rw [State.setPort_port]; exact h
  · rw [State.setPort_other s p r q e]; exact .refl _

theorem State.withLink_keepsLines (s : State) (p : PortId) (l : Link) (h : (s.link p).Stays l) :
    KeepsLines s (s.withLink p l) := by
  refine ⟨fun r => ?_, fun fit => by rw [State.withLink_path]; exact h.records fit⟩
  by_cases e : r = p
  · subst e; rw [State.withLink_port]; exact h.port
  · rw [State.withLink_other s p r l e]; exact .refl _

theorem State.refresh_lines (s : State) : s.refresh.lines = s.lines :=
  State.lines_congr (by simp) (by simp) (by simp)

theorem State.onLink_keepsLines (s : State) (p : PortId) (g : Link → Link) (h : (s.link p).Stays (g (s.link p))) :
    KeepsLines s (s.onLink p g) := (s.withLink_keepsLines p _ h).then_lines (State.refresh_lines _)

/-! ### What leaves the lines -/

theorem State.setEmptyCloses_lines (s : State) : s.setEmptyCloses.lines = s.lines :=
  State.lines_congr (by simp) (by simp) (by simp)

theorem State.setScan_lines (s : State) (sc : Scanner) : State.lines { s with scan := sc } = s.lines := rfl

theorem State.beginScan_lines (s : State) : s.beginScan.lines = s.lines :=
  State.lines_congr (by simp) (by simp) (by simp)

theorem State.offerFinal_lines (s : State) : s.offerFinal.lines = s.lines := by rw [State.offerFinal_only]; rfl

theorem State.writeEnds_lines (s : State) (how : WriteEnd) (a : Word64) (b : List Byte) :
    (s.writeEnds how a b).lines = s.lines := by cases how <;> rfl

theorem State.released_lines (s : State) (t : Fin 34) : (s.released t).lines = s.lines := by
  have handed : (s.handRelease t).lines = s.lines := by
    unfold State.handRelease
    dsimp only
    split
    · unfold State.lines
      rw [(Path.keeps_offerHeld _ _).stations, Path.release_stations]
    · exact (State.offerFinal_lines _).trans rfl
  unfold State.released
  rw [State.setEmptyClose_eq]
  exact handed

theorem State.startItem_lines (s : State) (t : Fin 34) : (s.startItem t).lines = s.lines := by
  unfold State.startItem
  repeat' split
  all_goals rfl

theorem State.serve_lines (s : State) (t : Fin 34) : (s.serve t).lines = s.lines := by
  unfold State.serve
  dsimp only
  split
  · rfl
  · exact (State.startItem_lines _ _).trans rfl
  · split <;> rfl

theorem State.discardIfWaiting_lines (s : State) : s.discardIfWaiting.lines = s.lines := by
  unfold State.discardIfWaiting
  repeat' split
  all_goals rfl

theorem State.turnEnded_lines (s : State) : s.turnEnded.lines = s.lines :=
  (State.refresh_lines _).trans ((State.discardIfWaiting_lines _).trans rfl)

theorem State.countClosed_lines (s : State) : s.countClosed.lines = s.lines := by rw [State.countClosed_only]; rfl

theorem State.reachArmed_lines (s : State) (t : CloseTarget) (d a : Nat) : (s.reachArmed t d a).lines = s.lines := by
  have ended : (match t.reason with
      | .limit => s.path.sittingEnded.raise .sitting
      | .request => s.path.sittingEnded).stations = s.path.stations := by
    split <;> rfl
  exact State.lines_congr rfl rfl ended

theorem State.completeAbandon_lines (s : State) (a : Abandon) (d : Discarded) (t : CloseTarget) :
    (s.completeAbandon a d t).lines = s.lines := by
  have armed := s.reachArmed_lines t (d.channels + d.mix + d.marks) 1
  unfold State.completeAbandon
  dsimp only
  repeat' split
  all_goals exact armed

theorem State.freeNext_lines (s : State) (tag : Word16) (left : List Queued) (freed failed : Nat) :
    (s.freeNext tag left freed failed).lines = s.lines := by
  cases left <;> rfl

theorem State.recovered_lines (s : State) : s.recovered.lines = s.lines := by
  unfold State.recovered
  dsimp only
  repeat' split
  all_goals simp [State.lines]

/-! ### A boundary (R9, R22) -/

section Boundary
variable (s : State)

theorem State.roundsOver_keepsLines (e : Timer) (a b : Bool) : KeepsLines s (s.roundsOver e a b) := by
  have round (u : State) (p : PortId) : KeepsLines u (u.roundOver e p) :=
    u.withLink_keepsLines p _ (Link.roundOver_stays _ p _)
  cases a <;> cases b
  · exact .refl s
  · exact round s .b
  · exact round s .a
  · exact (round s .a).trans (round _ .b)

/-- R97: the close of a frame leaves the station records. -/
theorem Path.closeFrame_stations (x : Ctx) (f : Nat) (on nextOn last ranA ranB : Bool) (p : Path) :
    (p.closeFrame x f on nextOn last ranA ranB).stations = p.stations := by
  unfold Path.closeFrame
  dsimp only
  rw [Path.mapChannels_stations]
  have closed (g : Fin 32 → Bool) := (Path.keeps_foldl (fun q c => q.settle x f (.close (g c)) c)
    (fun q c => q.keeps_settle x f _ c) (List.finRange 32) p).trans (Path.keeps_finishMix x f on _)
  split
  · exact (((closed _).trans (Path.keeps_foldl _ (fun q c => q.keeps_endChannelStretch x on c) _ _)).trans
      (Path.keeps_endRun _ mixTrack)).stations
  · exact (closed _).stations

theorem State.closeFrame_lines : s.closeFrame.lines = s.lines := by
  unfold State.closeFrame
  dsimp only
  split
  · rfl
  · split
    · refine (State.setEmptyCloses_lines _).trans ((State.offerFinal_lines _).trans ?_)
      simp [State.lines, Path.closeFrame_stations]
    · simp [State.lines, Path.closeFrame_stations]

/-- R9: an opening clears the slips of the station records and leaves the ports. -/
theorem State.openSitting_keepsLines (o : Opening) : KeepsLines s (s.openSitting o) := by
  refine ⟨fun p => by cases p <;> exact .refl _, fun fit k => ?_⟩
  have opened : (s.openSitting o).path.stations[k] = s.path.stations[k].opening := by
    show (s.path.stations.map Station.opening)[k] = _
    simp
  rw [opened]
  exact Station.opening_inRange (fit k)

theorem State.moveSitting_keepsLines : KeepsLines s s.moveSitting := by
  have shifted : s.shiftFlag.limitClose.lines = s.lines := by
    unfold State.limitClose State.shiftFlag
    dsimp only
    repeat' split
    all_goals rfl
  unfold State.moveSitting
  split
  · exact .of_lines shifted
  · exact .of_lines shifted
  · exact .of_lines rfl
  · split
    · exact s.openSitting_keepsLines _
    · exact .refl s
  · exact .refl s

theorem Path.takeSnapshots_stations (x : Ctx) (f : Nat) (on : Bool) (p : Path) :
    (p.takeSnapshots x f on).stations = p.stations := by
  unfold Path.takeSnapshots
  generalize List.finRange 32 = l
  induction l generalizing p with
  | nil => rfl
  | cons c l ih =>
    rw [List.foldl_cons, ih]
    unfold Path.snapshotChannel
    dsimp only
    repeat' split
    all_goals simp

theorem State.takeSnapshots_lines : s.takeSnapshots.ownMix.lines = s.lines := by
  have taken : s.takeSnapshots.lines = s.lines := by
    unfold State.takeSnapshots
    split
    · exact State.lines_congr rfl rfl (by dsimp only; rw [Path.takeSnapshots_stations])
    · rfl
  have owned : s.takeSnapshots.ownMix.path.stations = s.takeSnapshots.path.stations := by unfold State.ownMix; rfl
  exact (State.lines_congr (by simp) (by simp) owned).trans taken

theorem State.portWork_keepsLines (p : PortId) : KeepsLines s (s.portWork p) :=
  (s.withLink_keepsLines p _ (Link.boundaryWork_stays _ p _)).then_lines (State.setScan_lines _ _)

theorem State.ageClose_lines (t : Fin 34) : (s.ageClose t).lines = s.lines := by
  have ended : (s.path.ageEnded t).stations = s.path.stations := by
    unfold Path.ageEnded
    split
    · exact (Path.keeps_endRun _ _).stations
    · rfl
  rw [State.ageClose_eq]
  split
  · exact State.lines_congr rfl rfl ended
  · rfl

theorem State.beginInterval_keepsLines : KeepsLines s s.beginInterval :=
  (((s.portWork_keepsLines .a).trans (State.portWork_keepsLines _ .b)).trans
    (KeepsLines.foldl State.ageClose (fun u t => .of_lines (u.ageClose_lines t)) _ _)).then_lines
    ((State.beginScan_lines _).trans (State.refresh_lines _))

theorem State.boundary_keepsLines (a b : Bool) : KeepsLines s (s.boundary a b) := by
  have advanced : KeepsLines s s.advanceTimer := .of_lines (by simp [State.lines, s.advanceTimer_audio.2.1])
  have ended := ((advanced.trans (State.roundsOver_keepsLines _ s.timer a b)).then_lines (State.closeFrame_lines _)).trans
    (State.roundsOver_keepsLines _ s.timer (!a) (!b))
  exact ((ended.trans (State.moveSitting_keepsLines _)).then_lines (State.takeSnapshots_lines _)).trans
    (State.beginInterval_keepsLines _)

end Boundary

/-! ### Resets, the register window, the supply and a tick (R19, R20, R148 to R150, R163) -/

section Resets
variable (s : State)

theorem Port.reset_stays (pt : Port) : pt.Stays Port.reset where
  switch := fun _ => rfl
  framing := fun _ => Nat.zero_le _
  check := fun _ => Nat.zero_le _
  noReply := fun _ => Nat.zero_le _
  lateCut := fun _ => Nat.zero_le _
  stuck := fun _ => Nat.zero_le _
  starting := fun _ => Nat.zero_le _
  cooldown := fun _ => Nat.zero_le _
  lowRun := fun _ => Nat.zero_le _
  window := fun _ => Nat.zero_le _

theorem State.afterReset_keepsLines (lo hi : Word32) (low : Bool) : KeepsLines s (s.afterReset lo hi low) := by
  rw [s.afterReset_eq]
  refine ⟨fun p => ?_, fun _ => reset_stationsInRange⟩
  cases p <;> exact Port.reset_stays _

theorem State.startWritten_keepsLines : KeepsLines s s.startWritten := by
  unfold State.startWritten State.start
  split
  · exact .refl s
  · split
    · have started : KeepsLines s { s with timer := { s.timer with running := true, boundary := 0, tick := 0 } } :=
        .of_lines rfl
      exact started.trans (State.beginInterval_keepsLines _)
    · exact .of_lines rfl

theorem State.registerWritten_keepsLines (offset value : Word32) : KeepsLines s (s.registerWritten offset value) := by
  unfold State.registerWritten
  split
  · unfold State.controlWritten State.softReset
    split
    · exact s.afterReset_keepsLines _ _ _
    · split
      · exact s.startWritten_keepsLines
      · exact .refl s
  · split <;> exact .of_lines rfl
  · split <;> exact .of_lines rfl
  all_goals exact .of_lines rfl

/-- R163: an onset ends the polling of both ports. -/
theorem State.onset_keepsLines : KeepsLines s s.onset := by
  have due : KeepsLines s ({ s with
      supply := { warning := true, dipStart := s.dipStart }, path := s.path.raise .power } : State).setEmptyCloses :=
    .of_lines ((State.setEmptyCloses_lines _).trans rfl)
  exact ((due.trans (State.withLink_keepsLines _ .a _ (Link.onset_stays _ .a _))).trans
    (State.withLink_keepsLines _ .b _ (Link.onset_stays _ .b _))).then_lines (State.refresh_lines _)

theorem State.idle_keepsLines : KeepsLines s s.idle := by
  by_cases running : s.timer.running = true
  · rw [s.idle_running running]
    refine ⟨fun p => ?_, id⟩
    cases p <;> exact Port.tick_stays _
  · unfold State.idle
    rw [if_neg running]
    exact .refl s

end Resets

/-! ### The requests (R46 to R51, R78, R154) -/

/-- A command that completes keeps the lines. -/
def EndsOnLines (s : State) (o : Host.Outcome State Fault Refusal) : Prop := ∀ t, o = .next t → KeepsLines s t

theorem KeepsLines.ends {s t : State} (h : KeepsLines s t) : EndsOnLines s (.next t) := by
  rintro _ ⟨⟩; exact h

/-- A command with a condition, without effect where the condition fails. -/
theorem KeepsLines.ends_ite {s t : State} (c : Prop) [Decidable c] (h : KeepsLines s t) :
    EndsOnLines s (.next (if c then t else s)) := by
  split
  · exact h.ends
  · exact (KeepsLines.refl s).ends

/-- A request keeps what its owning block keeps (R154). -/
theorem State.take_keepsLines (s : State) (c : Instr) (owner : State → State × Taken) (h : KeepsLines s (owner s).1) :
    EndsOnLines s (.next (s.take c owner)) := by
  refine KeepsLines.ends ?_
  unfold State.take
  split
  · split
    · dsimp only
      split
      · exact h.then_lines rfl
      · exact h.then_lines rfl
    · exact .refl s
  · exact .refl s

/-- A request whose owning block leaves the lines. -/
theorem State.take_lines (s : State) (c : Instr) (owner : State → State × Taken) (h : (owner s).1.lines = s.lines) :
    EndsOnLines s (.next (s.take c owner)) := s.take_keepsLines c owner (.of_lines h)

section Requests
variable (s : State)

theorem State.control_keepsLines (p power divisor : Word32) : KeepsLines s (s.control p power divisor).1 := by
  unfold State.control
  dsimp only
  repeat' split
  any_goals exact .refl s
  exact s.setPort_keepsLines _ _ (Port.mergeControl_stays _ _ _)

theorem State.selfTest_keepsLines (p : Word32) : KeepsLines s (s.selfTest p).1 := by
  unfold State.selfTest
  dsimp only
  repeat' split
  any_goals exact .refl s
  exact s.setPort_keepsLines _ _ (Port.startSelfTest_stays _ _)

theorem State.counters_keepsLines (p clear : Word32) : KeepsLines s (s.counters p clear).1 := by
  unfold State.counters
  dsimp only
  split
  · exact .refl s
  · dsimp only
    split
    · exact .refl s
    · exact s.setPort_keepsLines _ _ (Port.clearCounters_stays _)

theorem State.releaseAt_keepsLines (w : Word32) : KeepsLines s (s.releaseAt w).1 := by
  unfold State.releaseAt
  dsimp only
  repeat' split
  any_goals exact .refl s
  exact ⟨fun p => by cases p <;> exact .refl _,
    fun fit => Path.setStation_fits fit _ (Station.release_inRange (fit _))⟩

theorem State.recordOpening_lines (n r : Word32) : (s.recordOpening n r).1.lines = s.lines := by
  unfold State.recordOpening; split <;> rfl

theorem State.askFlag_lines (on : Bool) : (s.askFlag on).1.lines = s.lines := by
  unfold State.askFlag; split <;> rfl

theorem State.beginClose_lines : s.beginClose.1.lines = s.lines := by
  unfold State.beginClose; split <;> rfl

theorem State.beginAbandon_lines : s.beginAbandon.1.lines = s.lines := by
  unfold State.beginAbandon
  dsimp only
  split
  · exact (State.refresh_lines _).trans (State.discardIfWaiting_lines _)
  · rfl

theorem State.writeSettings_lines (c g th a h i : Word32) : (s.writeSettings c g th a h i).1.lines = s.lines := by
  unfold State.writeSettings; split <;> rfl

theorem State.writePrivacy_lines (c f : Word32) : (s.writePrivacy c f).1.lines = s.lines := by
  unfold State.writePrivacy; split <;> rfl

theorem State.writeBar_lines (c f : Word32) : (s.writeBar c f).1.lines = s.lines := by
  unfold State.writeBar; split <;> rfl

theorem State.createFlush_lines : s.createFlush.lines = s.lines := by
  unfold State.createFlush State.lines; rfl

theorem State.takeFlush_lines : s.takeFlush.1.lines = s.lines := by
  unfold State.takeFlush
  by_cases counting : s.sitting.counting = true
  · rw [if_pos counting]
    cases s.writer.flush with
    | some f => rfl
    | none =>
      dsimp only
      by_cases bare : s.path.bays.allEmpty = true ∧ s.writer.noSheet = true
      · rw [if_pos bare]
      · rw [if_neg bare]; exact s.createFlush_lines
  · rw [if_neg counting]

theorem State.hostMark_lines (code : Word16) (n : Byte) (text : List Byte) :
    (s.hostMark code n text).1.lines = s.lines := by
  unfold State.hostMark
  split
  · split
    · rfl
    · exact State.refresh_lines _
  · rfl

end Requests

/-! ### The links (R36, R42 to R44, R57 to R67) -/

section Links
variable (s : State) (p : PortId)

theorem execFrameSent_onLines : EndsOnLines s (execFrameSent p s) := by
  refine KeepsLines.ends ?_
  split
  · exact s.onLink_keepsLines p _ (Link.takeList_stays _ p _)
  · split
    · exact s.setPort_keepsLines p _ (.of_counts rfl)
    · exact .refl s

theorem execCharacterReceived_onLines (samples : BitVec 88) : EndsOnLines s (execCharacterReceived p samples s) := by
  refine KeepsLines.ends ?_
  split
  · unfold State.loopbackSamples
    split
    · exact .refl s
    · exact s.setPort_keepsLines p _ (.of_counts rfl)
  · have sampled := s.setPort_keepsLines p _ ((s.port p).sampled_stays samples)
    unfold State.lineSamples
    dsimp only
    split
    · exact sampled
    · split
      · exact sampled.trans (State.onLink_keepsLines _ p _ (Link.event_stays _ p _ _))
      · exact sampled

end Links

/-! ### The ends of the scanner's bus accesses, the Record Writer's turns and the completions (R5 to R7, R132 to R159) -/

section BusEnds
variable (s : State) (how : WriteEnd)

theorem execCellRead_onLines (bytes : List Byte) : EndsOnLines s (execCellRead bytes s) := by
  refine KeepsLines.ends ?_
  split
  · split <;> exact .of_lines rfl
  · exact .refl s

theorem execResultAreaWrite_onLines : EndsOnLines s (execResultAreaWrite how s) := by
  refine KeepsLines.ends ?_
  split
  · cases how <;> exact .of_lines rfl
  · exact .refl s

theorem execStateWordWrite_onLines : EndsOnLines s (execStateWordWrite how s) := by
  refine KeepsLines.ends ?_
  split
  · cases how <;> exact .of_lines rfl
  · exact .refl s

theorem execPoolEntryRead_onLines (bytes : List Byte) : EndsOnLines s (execPoolEntryRead bytes s) := by
  refine KeepsLines.ends ?_
  split
  · dsimp only
    repeat' split
    all_goals exact .of_lines rfl
  · exact .refl s

theorem execStandbyWrite_onLines : EndsOnLines s (execStandbyWrite how s) := by
  refine KeepsLines.ends ?_
  split
  · cases how
    · refine KeepsLines.then_lines ?_ (State.setScan_lines _ _)
      exact .of_lines ((State.refresh_lines _).trans rfl)
    · exact .of_lines rfl
  · exact .refl s

theorem execWriterTurn_onLines : EndsOnLines s (execWriterTurn s) := by
  refine KeepsLines.ends ?_
  split
  · exact .of_lines ((State.refresh_lines _).trans (s.serve_lines _))
  · exact .refl s

theorem execWritingWrite_onLines : EndsOnLines s (execWritingWrite how s) := by
  refine KeepsLines.ends ?_
  split
  · cases how
    · dsimp only
      split
      · exact .of_lines ((State.turnEnded_lines _).trans (State.startItem_lines _ _))
      · exact .of_lines ((State.refresh_lines _).trans (State.startItem_lines _ _))
    · exact .of_lines (State.turnEnded_lines _)
  · exact .refl s

theorem execItemWriteDone_onLines : EndsOnLines s (execItemWriteDone s) := by
  refine KeepsLines.ends ?_
  split
  · split
    · exact .of_lines ((State.turnEnded_lines _).trans (State.released_lines _ _))
    · exact .of_lines s.turnEnded_lines
  · exact .refl s

theorem execItemWriteFailed_onLines : EndsOnLines s (execItemWriteFailed s) := by
  refine KeepsLines.ends ?_
  split
  · split
    · exact .of_lines rfl
    · exact .of_lines (State.turnEnded_lines _)
  · exact .refl s

theorem execHeaderWrite_onLines : EndsOnLines s (execHeaderWrite how s) := by
  refine KeepsLines.ends ?_
  split
  · split
    · cases how <;> dsimp only <;> split <;> exact .of_lines rfl
    · exact .of_lines s.turnEnded_lines
  · exact .refl s

theorem execClosedWrite_onLines : EndsOnLines s (execClosedWrite how s) := by
  refine KeepsLines.ends ?_
  split
  · split
    · cases how
      · exact .of_lines ((State.turnEnded_lines _).trans (State.countClosed_lines _))
      · exact .of_lines (State.turnEnded_lines _)
    · exact .of_lines s.turnEnded_lines
  · exact .refl s

theorem execFaultedWrite_onLines : EndsOnLines s (execFaultedWrite how s) := by
  refine KeepsLines.ends ?_
  split
  · split
    · exact .of_lines ((State.turnEnded_lines _).trans (s.writeEnds_lines how _ _))
    · exact .of_lines s.turnEnded_lines
  · exact .refl s

theorem execDrainComplete_onLines : EndsOnLines s (execDrainComplete s) := by
  refine KeepsLines.ends ?_
  split
  · split
    · exact .of_lines ((State.refresh_lines _).trans (s.reachArmed_lines _ _ _))
    · exact .refl s
  · exact .refl s

theorem execAbandonComplete_onLines : EndsOnLines s (execAbandonComplete s) := by
  refine KeepsLines.ends ?_
  split
  · split
    · exact .of_lines ((State.refresh_lines _).trans (s.completeAbandon_lines _ _ _))
    · exact .refl s
  · exact .refl s

theorem execFlushComplete_onLines : EndsOnLines s (execFlushComplete s) := by
  refine KeepsLines.ends ?_
  split
  · split
    · exact .of_lines rfl
    · exact .refl s
  · exact .refl s

theorem State.answer_lines (tag kind : Word16) (r : Result) : (s.answer tag kind r).lines = s.lines :=
  State.lines_congr (by simp) (by simp) (by simp)

theorem State.putInForce_lines (r : ArmRecord) : (s.putInForce r).lines = s.lines :=
  State.lines_congr (by simp) (by simp) (by unfold State.putInForce; rfl)

theorem execArm_onLines (a : Word64) : EndsOnLines s (execArm a s) := by
  refine KeepsLines.ends ?_
  split
  · split
    · exact .of_lines (s.answer_lines _ _ _)
    · exact .refl s
  · split
    · split
      · exact .of_lines (s.answer_lines _ _ _)
      · split
        · exact .of_lines (s.answer_lines _ _ _)
        · exact .of_lines ((State.answer_lines _ _ _ _).trans (s.putInForce_lines _))
    · exact .refl s
  · exact .refl s

theorem execDisarm_onLines : EndsOnLines s (execDisarm s) := by
  refine KeepsLines.ends ?_
  split
  · split
    · split
      · exact .of_lines (s.freeNext_lines _ _ _ _)
      · exact .of_lines rfl
    · exact .refl s
  · exact .refl s

theorem execDisarmFreeWrite_onLines : EndsOnLines s (execDisarmFreeWrite how s) := by
  refine KeepsLines.ends ?_
  split
  · cases how <;> exact .of_lines ((State.freeNext_lines _ _ _ _ _).trans rfl)
  · exact .refl s

end BusEnds

/-! ### Every command and every tick -/

/-- Every command keeps the lines. -/
theorem exec_onLines (c : Instr) (s : State) : EndsOnLines s (exec c s) := by
  cases c with
  | controlStart => exact s.startWritten_keepsLines.ends
  | softReset | functionReset | powerOnReset low => exact (s.afterReset_keepsLines _ _ _).ends
  | attentionWrite v | attnMaskWrite v => exact KeepsLines.ends (.of_lines rfl)
  | registerWrite offset value => exact (s.registerWritten_keepsLines offset value).ends
  | brownOut =>
    have drawn : KeepsLines s { s with draws := s.draws + 1 } := .of_lines rfl
    exact (drawn.trans (State.afterReset_keepsLines _ _ _ _)).ends
  | supplyWarning =>
    refine KeepsLines.ends ?_
    split
    · exact .refl s
    · exact s.onset_keepsLines
  | supplyRecovery =>
    exact KeepsLines.ends_ite _ (.of_lines ((State.refresh_lines _).trans s.recovered_lines))
  | boundary a b => exact (s.boundary_keepsLines a b).ends_ite _
  | frameSent p => exact execFrameSent_onLines s p
  | pollSent p => exact KeepsLines.ends_ite _ (s.setPort_keepsLines p _ (s.port p).release_stays)
  | replyTimeout p busy => exact KeepsLines.ends_ite _ (s.onLink_keepsLines p _ (Link.replyTimeout_stays _ p _ busy))
  | roundDeadline p => exact KeepsLines.ends_ite _ (s.onLink_keepsLines p _ (Link.deadlinePasses_stays _ p _))
  | lineQuiet p => exact KeepsLines.ends_ite _ (s.onLink_keepsLines p _ (Link.quiet_stays _ p _))
  | characterReceived p samples => exact execCharacterReceived_onLines s p samples
  | lineStuck p => exact KeepsLines.ends_ite _ (s.onLink_keepsLines p _ (Link.stick_stays _ p _))
  | overcurrent p => exact KeepsLines.ends_ite _ (s.onLink_keepsLines p _ (Link.trip_stays _ p _))
  | cellRead bytes => exact execCellRead_onLines s bytes
  | cellReadFailed | armRecordRead bytes | armRecordReadFailed | poolReadFailed =>
    refine KeepsLines.ends ?_
    split <;> exact .of_lines rfl
  | takenWrite how | tamperRewrite how | headWrite how | panelWrite how =>
    refine KeepsLines.ends ?_
    split
    · exact .of_lines (s.writeEnds_lines how _ _)
    · exact .refl s
  | resultAreaWrite how => exact execResultAreaWrite_onLines s how
  | stateWordWrite how => exact execStateWordWrite_onLines s how
  | requestRefusedKind k => exact s.take_lines _ _ rfl
  | arm a => exact execArm_onLines s a
  | disarm => exact execDisarm_onLines s
  | disarmFreeWrite how => exact execDisarmFreeWrite_onLines s how
  | openSitting n r => exact s.take_lines _ _ (s.recordOpening_lines n r)
  | goOnRecord => exact s.take_lines _ _ (s.askFlag_lines true)
  | goOffRecord => exact s.take_lines _ _ (s.askFlag_lines false)
  | closeSitting => exact s.take_lines _ _ s.beginClose_lines
  | abandonStaged => exact s.take_lines _ _ s.beginAbandon_lines
  | setClock v | trimFrame n => exact s.take_lines _ _ rfl
  | portControl p power divisor => exact s.take_keepsLines _ _ (s.control_keepsLines p power divisor)
  | portSelfTest p => exact s.take_keepsLines _ _ (s.selfTest_keepsLines p)
  | readCounters p clear => exact s.take_keepsLines _ _ (s.counters_keepsLines p clear)
  | releaseStation k => exact s.take_keepsLines _ _ (s.releaseAt_keepsLines k)
  | setChannel c g th a h i => exact s.take_lines _ _ (s.writeSettings_lines c g th a h i)
  | setPrivacy c f => exact s.take_lines _ _ (s.writePrivacy_lines c f)
  | setBar c f => exact s.take_lines _ _ (s.writeBar_lines c f)
  | flush => exact s.take_lines _ _ s.takeFlush_lines
  | hostMark code n text => exact s.take_lines _ _ (s.hostMark_lines code n text)
  | poolEntryRead bytes => exact execPoolEntryRead_onLines s bytes
  | standbyWrite how => exact execStandbyWrite_onLines s how
  | writerTurn => exact execWriterTurn_onLines s
  | writingWrite how => exact execWritingWrite_onLines s how
  | itemWriteDone => exact execItemWriteDone_onLines s
  | itemWriteFailed => exact execItemWriteFailed_onLines s
  | headerWrite how => exact execHeaderWrite_onLines s how
  | closedWrite how => exact execClosedWrite_onLines s how
  | faultedWrite how => exact execFaultedWrite_onLines s how
  | drainComplete => exact execDrainComplete_onLines s
  | abandonComplete => exact execAbandonComplete_onLines s
  | flushComplete => exact execFlushComplete_onLines s
  | idleIntervalFlagCleared p => exact KeepsLines.ends_ite _ (s.setPort_keepsLines p _ (.of_counts rfl))
  | lowRunReset p => exact (s.setPort_keepsLines p _ (s.port p).lineHigh_stays).ends

/-- A step takes the command at the front of the queue, or counts a tick. -/
theorem step_onLines (s : State) : EndsOnLines s (step s) := by
  unfold step
  cases waiting : s.pending with
  | nil => exact s.idle_keepsLines.ends
  | cons c rest =>
    intro t taken
    have popped : KeepsLines s { s with pending := rest } := .of_lines rfl
    exact popped.trans (exec_onLines c _ t taken)

/-- Settles O57: `step_onLines`. -/
theorem stepsKeepThePorts : Obligations.StepsKeepThePorts := by
  intro s t taken
  have kept := step_onLines s t taken
  exact ⟨kept.switches, kept.ranges, kept.records⟩

end Sys2Proof.Machine
end

