-- ==== Sys2Proof/Proofs/Characters.lean ====
section
/-! PROOF. A character is received whatever one of the three samples of each bit reads (R34, R36). -/
namespace Sys2Proof.Machine

/-- R34: the bits of a character: start 0, the eight data bits, the mark bit, stop 1. -/
theorem charBits_getLsbD (mark : Bool) (v : Byte) (k : Nat) (h : k < 11) :
    (charBits mark v).getLsbD k =
      if k = 0 then false else if k ≤ 8 then v.getLsbD (k - 1) else if k = 9 then mark else true := by
  have sum : v.toNat * 2 + bit mark * 512 + 1024 = 2 * (2 ^ 8 * (bit mark + 2) + v.toNat) := by omega
  have high : (bit mark + 2).testBit 0 = mark ∧ (bit mark + 2).testBit 1 = true := by cases mark <;> decide
  obtain ⟨marked, stop⟩ := high
  unfold charBits
  rw [BitVec.getLsbD_ofNat, decide_eq_true h, Bool.true_and, sum]
  rcases k with _ | k
  · simp
  · rw [Nat.testBit_succ, Nat.mul_div_cancel_left _ (by decide), Nat.testBit_two_pow_mul_add _ v.isLt,
      if_neg (Nat.succ_ne_zero k)]
    by_cases data : k < 8
    · rw [if_pos data, if_pos (by omega)]; rfl
    · rw [if_neg data, if_neg (by omega)]
      obtain rfl | rfl : k = 8 ∨ k = 9 := by omega
      · exact marked
      · exact stop

/-- R36: where two of the samples 3, 4 and 5 of a bit agree, the bit takes their value. -/
theorem sampledBit_of_two (x : BitVec 88) (k : Nat) (b : Bool)
    (h : ∃ i ∈ [3, 4, 5], ∃ j ∈ [3, 4, 5], i ≠ j ∧ x.getLsbD (8 * k + i) = b ∧ x.getLsbD (8 * k + j) = b) :
    sampledBit x k = b := by
  obtain ⟨i, hi, j, hj, different, first, second⟩ := h
  simp only [List.mem_cons, List.not_mem_nil, or_false] at hi hj
  unfold sampledBit
  rcases hi with rfl | rfl | rfl <;> rcases hj with rfl | rfl | rfl <;> cases b <;> simp_all

/-- The number whose low `n` bits are those that `f` gives. -/
theorem foldr_bits (f : Nat → Bool) (m n : Nat) (h : ∀ k, k < n → f k = m.testBit k) :
    (List.range n).foldr (fun k v => bit (f k) + 2 * v) 0 = m % 2 ^ n := by
  induction n generalizing f m with
  | zero => simp [Nat.mod_one]
  | succ n ih =>
    have rest := ih (fun k => f (k + 1)) (m / 2) fun k hk => by
      rw [h (k + 1) (Nat.succ_lt_succ hk), Nat.testBit_succ]
    have first : bit (f 0) = m % 2 := by
      rw [h 0 (Nat.succ_pos n), Nat.testBit_zero]
      rcases Nat.mod_two_eq_zero_or_one m with e | e <;> rw [e] <;> rfl
    rw [List.range_succ_eq_map, List.foldr_cons, List.foldr_map, rest, first, Nat.pow_succ', Nat.mod_mul]

/-- R36: sampled bits 1 to 8 give the value sent. -/
theorem sampledValue_eq (x : BitVec 88) (v : Byte) (h : ∀ k, k < 8 → sampledBit x (k + 1) = v.getLsbD k) :
    sampledValue x = v := by
  unfold sampledValue
  rw [foldr_bits _ v.toNat 8 h, Nat.mod_eq_of_lt v.isLt]
  exact (BitVec.ofNat_toNat 8 v).trans (BitVec.setWidth_eq v)

/-- Settles O19. -/
theorem charactersSurviveOneWrongSampleABit : Obligations.CharactersSurviveOneWrongSampleABit := by
  intro mark v x two
  have read (k : Nat) (hk : k < 11) : sampledBit x k =
      if k = 0 then false else if k ≤ 8 then v.getLsbD (k - 1) else if k = 9 then mark else true :=
    (sampledBit_of_two x k _ (two k hk)).trans (charBits_getLsbD mark v k hk)
  have value : sampledValue x = v := sampledValue_eq x v fun k hk => by
    rw [read (k + 1) (by omega), if_neg (Nat.succ_ne_zero k), if_pos (by omega)]; rfl
  have start : sampledBit x 0 = false := read 0 (by decide)
  have marked : sampledBit x 9 = mark := read 9 (by decide)
  have stop : sampledBit x 10 = true := read 10 (by decide)
  unfold receive
  rw [start, marked, stop, value]
  cases mark <;> rfl

end Sys2Proof.Machine
end

