-- ==== Sys2Proof/Proofs/PortRequests.lean ====
section
/-! PROOF. The events that change a port alone, the lamp state, and the requests to the ports, stations and channels (R40, R42,
R43, R46, R48, R49, R51, R58, R78, R90, R91, R94; assumptions 15, 16, 25). -/
namespace Sys2Proof.Machine

/-! ### Events of the port alone and the lamp (R40, R42, R43, R58, R94) -/

/-- R94: the settings that the lamp reads: those of the current frame's snapshot in a sitting, else the requested ones. -/
theorem Path.lampNow_eq (x : Ctx) (q : Path) (c : Fin 32) (set : Settings)
    (counted : ∀ sn, x.sitting.counting = true → q.channels[c].snapshot x.frame = some sn → set = sn.settings)
    (plain : x.sitting.counting = false ∨ q.channels[c].snapshot x.frame = none → set = q.channels[c].settings) :
    q.lampNow x c =
      if (q.stations[stationOf c].mics[micOf c].button = true ∨ set.privacy = true) ∧ set.bar = false then .priv
      else if q.channels[c].seated = true ∧ x.sitting.state = .onRecord then .live
      else .off := by
  unfold Path.lampNow
  dsimp only
  cases held : q.channels[c].snapshot x.frame with
  | none =>
    rw [plain (.inr held)]
    simp only [Bool.and_eq_true, Bool.or_eq_true, Bool.not_eq_true']
  | some sn =>
    cases counting : x.sitting.counting
    · rw [plain (.inl counting)]
      simp only [Bool.and_eq_true, Bool.or_eq_true, Bool.not_eq_true', Bool.false_eq_true, if_false]
    · rw [counted sn counting held]
      simp only [Bool.and_eq_true, Bool.or_eq_true, Bool.not_eq_true', if_true]

/-- Settles O14. -/
theorem eventsOfThePortAloneAndLamps : Obligations.EventsOfThePortAloneAndLamps := by
  refine ⟨fun s p => ⟨fun starting => ?_, fun running polling target => ?_, fun stuck => ?_, fun running => ?_, fun other => ?_⟩,
    fun x q c set counted plain => q.lampNow_eq x c set counted plain⟩
  · have idle : (s.port p).inPhase .framing = false := by simp [Port.inPhase, starting]
    show execFrameSent p s = _
    simp only [execFrameSent, idle, starting, Bool.false_eq_true, if_false, if_true]
  · have due : (s.port p).inPhase .polling = true ∧ (s.port p).target ≠ none := by simp [Port.inPhase, running, polling, target]
    show execPollSent p s = _
    rw [execPollSent, if_pos due]; rfl
  · show execIdleIntervalFlagCleared p s = _
    rw [execIdleIntervalFlagCleared, if_pos stuck]
  · show execLowRunReset p s = _
    rw [execLowRunReset, Port.lineHigh, if_pos running]
  · show execLowRunReset p s = _
    rw [execLowRunReset, Port.lineHigh, if_neg other]

/-! ### The arguments of a request (R46, R51, R78, R87) -/

theorem portArg_above {w : Word32} (h : 1 < w.toNat) : portArg w = none := by
  unfold portArg
  split
  · omega
  · omega
  · rfl

theorem portArg_eq {w : Word32} {p : PortId} (h : w.toNat = portNumber p) : portArg w = some p := by
  unfold portArg
  rw [h]
  cases p <;> rfl

theorem stationArg_above {w : Word32} (h : 15 < w.toNat) : stationArg w = none := dif_neg (by omega)

theorem stationArg_eq {w : Word32} {k : Fin 16} (h : w.toNat = k.val) : stationArg w = some k := by
  unfold stationArg
  rw [dif_pos (by omega)]
  exact congrArg some (Fin.ext h)

theorem channelArg_above {w : Word32} (h : 31 < w.toNat) : channelArg w = none := dif_neg (by omega)

theorem channelArg_eq {w : Word32} {c : Fin 32} (h : w.toNat = c.val) : channelArg w = some c := by
  unfold channelArg
  rw [dif_pos (by omega)]
  exact congrArg some (Fin.ext h)

/-! ### PORT_CONTROL (R46) -/

/-- R46: the words of the answers, from the port as it stands (assumption 15). -/
def Port.controlWords (pt : Port) (c : ResultCode) : Result := Result.mk3 c pt.state.code pt.divisor pt.cooldown

/-- R46, check 1: a power field of 0, 1 or 2. -/
theorem powerArg_cases {w : Word32} (h : w.toNat ≤ 2) : w = 0 ∨ w = 1 ∨ w = 2 := by
  have value : w.toNat = 0 ∨ w.toNat = 1 ∨ w.toNat = 2 := by omega
  exact value.imp BitVec.eq_of_toNat_eq (Or.imp BitVec.eq_of_toNat_eq BitVec.eq_of_toNat_eq)

theorem powerArg_above {w : Word32} (h : 2 < w.toNat) : powerArg w = none := by
  unfold powerArg
  split
  · omega
  · omega
  · omega
  · rfl

theorem divisorArg_keep : divisorArg keepAll = some none := rfl

theorem divisorArg_value {w : Word32} (h : w ≠ keepAll) (range : w.toNat ≤ 255) : divisorArg w = some (some w.toNat) := by
  unfold divisorArg
  rw [if_neg h, if_pos range]

theorem divisorArg_above {w : Word32} (h : w ≠ keepAll) (range : 255 < w.toNat) : divisorArg w = none := by
  unfold divisorArg
  rw [if_neg h, if_neg (Nat.not_le.mpr range)]

section Control
variable (s : State) (p : PortId) {arg power divisor : Word32}

theorem portControl_noPort (h : portArg arg = none) :
    AnswersAtOnce (.portControl arg power divisor) s s { code := .refusedRange, w0 := 0, w1 := 0, w2 := 0 } :=
  answersAtOnce_of_take rfl (by unfold State.control; rw [h]; rfl) rfl

/-- R46, check 1. -/
theorem portControl_badField (h : portArg arg = some p) (field : powerArg power = none ∨ divisorArg divisor = none) :
    AnswersAtOnce (.portControl arg power divisor) s s ((s.port p).controlWords .refusedRange) := by
  refine answersAtOnce_of_take rfl ?_ rfl
  unfold State.control
  rw [h]
  dsimp only
  rcases field with e | e
  · rw [e]; rfl
  · rw [e]; cases powerArg power <;> rfl

/-- R46: what checks 2 to 4 make of fields that check 1 admits. -/
theorem State.control_checked {pw : PowerField} {d : Option Nat} (h : portArg arg = some p) (hw : powerArg power = some pw)
    (hd : divisorArg divisor = some d) : s.control arg power divisor =
      if (s.port p).controlCheck pw d = .done
      then (s.setPort p ((s.port p).mergeControl pw d), .short ((s.port p).controlWords .done))
      else (s, .short ((s.port p).controlWords ((s.port p).controlCheck pw d))) := by
  unfold State.control
  rw [h, hw, hd]
  rfl

theorem portControl_refused {pw : PowerField} {d : Option Nat} {code : ResultCode} (h : portArg arg = some p)
    (hw : powerArg power = some pw) (hd : divisorArg divisor = some d) (check : (s.port p).controlCheck pw d = code)
    (bad : code ≠ .done) : AnswersAtOnce (.portControl arg power divisor) s s ((s.port p).controlWords code) := by
  refine answersAtOnce_of_take rfl ?_ rfl
  rw [s.control_checked p h hw hd, check, if_neg bad]

theorem portControl_taken {pw : PowerField} {d : Option Nat} (h : portArg arg = some p)
    (hw : powerArg power = some pw) (hd : divisorArg divisor = some d) (check : (s.port p).controlCheck pw d = .done) :
    AnswersAtOnce (.portControl arg power divisor) s (s.setPort p ((s.port p).mergeControl pw d))
      ((s.port p).controlWords .done) := by
  refine answersAtOnce_of_take rfl ?_ (by simp)
  rw [s.control_checked p h hw hd, check, if_pos rfl]

end Control

/-- R46: the projected state, by the control pending. -/
theorem Port.projected_eq (pt : Port) (projected : PortState)
    (keep : (∀ c, pt.control = some c → c.power = .keep) → projected = pt.state)
    (on : ∀ d, pt.control = some { power := .on, divisor := d } →
      projected = if pt.state = .disabled ∨ pt.state = .tripped then .starting else pt.state)
    (off : ∀ d, pt.control = some { power := .off, divisor := d } → projected = .disabled)
    (offThenOn : ∀ d, pt.control = some { power := .offThenOn, divisor := d } → projected = .starting) :
    pt.projected = projected := by
  unfold Port.projected
  rcases pending : pt.control with _ | ⟨power, d⟩
  · exact (keep (by simp [pending])).symm
  · cases power with
    | keep => exact (keep fun c hc => by rw [pending] at hc; cases hc; rfl).symm
    | on => exact (on d pending).symm
    | off => exact (off d pending).symm
    | offThenOn => exact (offThenOn d pending).symm

/-- R46: what an accepted request makes of the control pending. -/
theorem Port.mergeControl_spec (pt : Port) (pw : PowerField) (d : Option Nat) :
    pt.mergeControl pw d = { pt with control := (pt.mergeControl pw d).control } ∧
    (pw = .keep → d = none → pt.mergeControl pw d = pt) ∧
    (pw ≠ .keep ∨ d ≠ none → (pt.mergeControl pw d).control =
      some { power := mergePower ((pt.control.map Control.power).getD .keep) pw
             divisor := d.or (pt.control.bind Control.divisor) }) := by
  unfold Port.mergeControl
  by_cases keep : pw = .keep ∧ d = none
  · rw [if_pos keep]
    exact ⟨rfl, fun _ _ => rfl, fun h => absurd keep (by tauto)⟩
  · rw [if_neg keep]
    refine ⟨rfl, fun h1 h2 => absurd ⟨h1, h2⟩ keep, fun _ => ?_⟩
    cases pt.control <;> rfl

/-- R46: the power field merged into what was pending. -/
theorem mergePower_on (pending : Option PowerField) : mergePower (pending.getD .keep) .on =
    if pending = some .off ∨ pending = some .offThenOn then .offThenOn else .on := by
  rcases pending with _ | pending
  · rfl
  · cases pending <;> rfl

/-- R46, checks 2 to 4 in their order. -/
theorem Port.controlCheck_busy {pt : Port} (pw : PowerField) (d : Option Nat) (h : pt.state = .testing) :
    pt.controlCheck pw d = .refusedBusy := if_pos h

theorem Port.controlCheck_state {pt : Port} (pw : PowerField) {d : Option Nat} (h : pt.state ≠ .testing)
    (divisor : d ≠ none) (projected : pt.projected ≠ .disabled) : pt.controlCheck pw d = .refusedState := by
  unfold Port.controlCheck
  rw [if_neg h, if_pos ⟨Option.isSome_iff_ne_none.mpr divisor, projected⟩]

theorem Port.controlCheck_last {pt : Port} (pw : PowerField) {d : Option Nat} (h : pt.state ≠ .testing)
    (divisor : d = none ∨ pt.projected = .disabled) :
    pt.controlCheck pw d = if pw = .on ∧ pt.cooldown ≠ 0 then .refusedCooldown else .done := by
  have third : ¬(d.isSome = true ∧ pt.projected ≠ .disabled) := by
    rintro ⟨given, other⟩
    rcases divisor with absent | disabled
    · rw [absent] at given; cases given
    · exact other disabled
  unfold Port.controlCheck
  rw [if_neg h, if_neg third]

/-- Settles O41. -/
theorem portControl : Obligations.PortControl := by
  intro s p power divisor words projected keep on off offThenOn hwords arg keepWord
  subst hwords
  have named : portArg arg = some p := portArg_eq (by cases p <;> rfl)
  have state := (s.port p).projected_eq projected keep on off offThenOn
  refine ⟨fun other above => portControl_noPort s (portArg_above above), ?_, fun hpower hdivisor => ?_⟩
  · rintro (field | ⟨range, value⟩)
    · exact portControl_badField s p named (.inl (powerArg_above field))
    · exact portControl_badField s p named (.inr (divisorArg_above value range))
  obtain ⟨pw, hw, zero, one, two⟩ : ∃ pw, powerArg power = some pw ∧ (power = 0 ↔ pw = .keep) ∧ (power = 1 ↔ pw = .on) ∧
      (power = 2 ↔ pw = .off) := by
    rcases powerArg_cases hpower with rfl | rfl | rfl
    · exact ⟨.keep, rfl, by decide, by decide, by decide⟩
    · exact ⟨.on, rfl, by decide, by decide, by decide⟩
    · exact ⟨.off, rfl, by decide, by decide, by decide⟩
  obtain ⟨d, hd, absent, given⟩ : ∃ d, divisorArg divisor = some d ∧ (divisor = keepWord ↔ d = none) ∧
      (divisor ≠ keepWord → d = some divisor.toNat) := by
    by_cases value : divisor = keepWord
    · exact ⟨_, by rw [value]; exact divisorArg_keep, by simp [value], fun h => absurd value h⟩
    · exact ⟨_, divisorArg_value value (hdivisor.resolve_right value), by simp [value], fun _ => rfl⟩
  refine ⟨fun testing => ?_, fun other value enabled => ?_, fun other admitted hone cooling => ?_,
    fun other admitted cool => ?_⟩
  · exact portControl_refused s p named hw hd (Port.controlCheck_busy pw d testing) (by decide)
  · exact portControl_refused s p named hw hd
      (Port.controlCheck_state pw other (fun e => value (absent.mpr e)) (state ▸ enabled)) (by decide)
  · refine portControl_refused s p named hw hd (code := .refusedCooldown) ?_ (by decide)
    rw [Port.controlCheck_last pw other (admitted.imp absent.mp (state ▸ id)), if_pos ⟨one.mp hone, cooling⟩]
  · obtain ⟨only, kept, merged⟩ := (s.port p).mergeControl_spec pw d
    refine ⟨_, portControl_taken s p named hw hd ?_, only, fun h1 h2 => kept (zero.mp h1) (absent.mp h2), fun asked => ?_⟩
    · rw [Port.controlCheck_last pw other (admitted.imp absent.mp (state ▸ id)), if_neg]
      rintro ⟨hon, cooling⟩
      exact cooling (cool (one.mpr hon))
    · refine ⟨_, merged (asked.imp (fun h e => h (zero.mpr e)) fun h e => h (absent.mpr e)), fun h => ?_, fun h => ?_,
        fun h => ?_, fun h => ?_, fun h => ?_⟩
      · rw [zero.mp h]; rfl
      · rw [two.mp h]; rfl
      · rw [one.mp h]; exact mergePower_on _
      · rw [given h]; rfl
      · rw [absent.mp h]; rfl

/-! ### PORT_SELF_TEST and the loopback (R48, R49) -/

section SelfTestRequest
variable (s : State) {w : Word32}

theorem portSelfTest_noPort (h : 1 < w.toNat) :
    AnswersAtOnce (.portSelfTest w) s s { code := .refusedRange, w0 := 0, w1 := 0, w2 := 0 } :=
  answersAtOnce_of_take rfl (by unfold State.selfTest; rw [portArg_above h]; rfl) rfl

theorem portSelfTest_busy {p : PortId} (h : w.toNat = portNumber p) (testing : (s.port p).state = .testing) :
    AnswersAtOnce (.portSelfTest w) s s { code := .refusedBusy, w0 := 0, w1 := 0, w2 := 0 } := by
  refine answersAtOnce_of_take rfl ?_ rfl
  unfold State.selfTest
  rw [portArg_eq h]
  exact if_pos testing

theorem portSelfTest_refused {p : PortId} (h : w.toNat = portNumber p) (other : (s.port p).state ≠ .testing)
    (unfit : (s.port p).state ≠ .disabled ∨ (s.port p).control ≠ none) :
    AnswersAtOnce (.portSelfTest w) s s { code := .refusedState, w0 := 0, w1 := 0, w2 := 0 } := by
  refine answersAtOnce_of_take rfl ?_ rfl
  unfold State.selfTest
  rw [portArg_eq h]
  dsimp only
  rw [if_neg other, if_neg (by tauto)]
  rfl

theorem portSelfTest_taken {p : PortId} (h : w.toNat = portNumber p) (disabled : (s.port p).state = .disabled)
    (free : (s.port p).control = none) :
    HeldLong (.portSelfTest w) s (s.setPort p ((s.port p).startSelfTest s.scan.cursor)) none := by
  refine heldLong_of_take rfl ?_ (by simp)
  unfold State.selfTest
  rw [portArg_eq h]
  dsimp only
  rw [if_neg (by rw [disabled]; decide), if_pos ⟨disabled, free⟩]

end SelfTestRequest

/-- R49: a character of the stream whose last bit a tick ends is due from the loopback (assumption 25). -/
theorem loopback_due (s : State) (p : PortId) (g : SelfTest) (c : BitVec 11) (testing : (s.port p).state = .testing)
    (test : (s.port p).selfTest = some g) (sent : (s.port p).sending[g.received]? = some c) (left : g.received < 257)
    (time : (g.received + 1) * (88 * ((s.port p).divisor + 1)) ≤ (s.port p).txTicks + 1) :
    .characterReceived p (cleanSamples c) ∈ s.dueAtTick := by
  have busy : (s.port p).sending ≠ [] := by intro e; rw [e] at sent; cases sent
  rw [s.mem_dueAtTick_port _ p rfl, Port.mem_due]
  refine .inr (.inr (.inr (.inr (.inr ⟨_, rfl, ?_⟩))))
  rw [Port.loopedBack_iff, Port.tick_state, Port.tick_sending]
  refine ⟨testing, { g with sent := max g.sent (min 257 (((s.port p).txTicks + 1) / charTicks (s.port p).divisor)) }, c,
    ?_, ?_, sent, rfl⟩
  · rw [(s.port p).tick_only _ rfl]
    dsimp only
    rw [test, if_neg busy]
    rfl
  · have ended : g.received + 1 ≤ ((s.port p).txTicks + 1) / charTicks (s.port p).divisor :=
      (Nat.le_div_iff_mul_le (by unfold charTicks; omega)).mpr time
    dsimp only
    omega

/-- R49: how a character received is compared: the first with TEST, the i-th after it with character i of the stream. -/
theorem SelfTest.take_eq (g : SelfTest) (e : CharEvent) :
    (g.received = 0 → g.take e = { g with
      received := 1, sent := max g.sent 1, leader := decide (e = .control 0xF5#8) }) ∧
    (∀ i, i < 256 → g.received = i + 1 →
      (e = testStreamEvent i → g.take e = { g with received := i + 2, sent := max g.sent (i + 2), pass := g.pass + 1 }) ∧
      (e ≠ testStreamEvent i →
        g.take e = { g with received := i + 2, sent := max g.sent (i + 2), mismatch := g.mismatch + 1 })) ∧
    (257 ≤ g.received → g.take e = g) := by
  refine ⟨fun first => ?_, fun i hi later => ?_, fun past => ?_⟩
  · unfold SelfTest.take
    rw [if_pos first, first]
    rfl
  · have taken : g.take e = if e = testStreamEvent i
        then { g with sent := max g.sent (i + 2), received := i + 2, pass := g.pass + 1 }
        else { g with sent := max g.sent (i + 2), received := i + 2, mismatch := g.mismatch + 1 } := by
      unfold SelfTest.take
      rw [later, if_neg (Nat.succ_ne_zero i), if_pos (by omega), Nat.add_sub_cancel]
    rw [taken]
    exact ⟨fun agrees => if_pos agrees, fun differs => if_neg differs⟩
  · unfold SelfTest.take
    rw [if_neg (by omega), if_neg (by omega)]

/-! ### READ_COUNTERS (R51) -/

theorem readCounters_noPort (s : State) {w clear : Word32} (h : 1 < w.toNat) :
    AnswersAtOnce (.readCounters w clear) s s { code := .refusedRange, w0 := 0, w1 := 0, w2 := 0 } :=
  answersAtOnce_of_take rfl (by unfold State.counters; rw [portArg_above h]; rfl) rfl

theorem readCounters_answer (s : State) {w clear : Word32} {p : PortId} (h : w.toNat = portNumber p) :
    AnswersAtOnce (.readCounters w clear) s (if clear = 0 then s else s.setPort p (s.port p).clearCounters)
      { code := .done
        w0 := BitVec.ofNat 32 ((s.port p).framing + 65536 * (s.port p).check)
        w1 := BitVec.ofNat 32 ((s.port p).noReply + 65536 * (s.port p).lateCut)
        w2 := BitVec.ofNat 32 ((s.port p).stuck + 65536 * (s.port p).state.code) } := by
  refine answersAtOnce_of_take rfl ?_ (by split <;> simp)
  unfold State.counters
  rw [portArg_eq h]
  rfl

/-! ### RELEASE_STATION (R78) -/

/-- R78: the words of the answers, from the record as it stands. -/
def Station.releaseWords (st : Station) (c : ResultCode) : Result :=
  Result.mk3 c st.state.code (BitVec.toNat st.unitNumber) (LostCause.code st.lostCause)

theorem Station.releaseWords_eq (st : Station) (c : ResultCode) : st.releaseWords c =
    { code := c, w0 := BitVec.ofNat 32 st.state.code, w1 := BitVec.ofNat 32 ((st.unit.map BitVec.toNat).getD 0)
      w2 := match st.lostCause with
        | none => 0
        | some .misses => 1
        | some .port => 2 } := by
  have unit : BitVec.toNat st.unitNumber = (st.unit.map BitVec.toNat).getD 0 := by
    unfold Station.unitNumber; cases st.unit <;> rfl
  unfold Station.releaseWords
  rw [unit]
  rcases st.lostCause with _ | cause
  · rfl
  · cases cause <;> rfl

section Release
variable (s : State) {w : Word32}

theorem releaseStation_noStation (h : 15 < w.toNat) :
    AnswersAtOnce (.releaseStation w) s s { code := .refusedRange, w0 := 0, w1 := 0, w2 := 0 } :=
  answersAtOnce_of_take rfl (by unfold State.releaseAt; rw [stationArg_above h]; rfl) rfl

theorem releaseStation_refused {k : Fin 16} (h : w.toNat = k.val) (other : s.path.stations[k].state ≠ .lost) :
    AnswersAtOnce (.releaseStation w) s s (s.path.stations[k].releaseWords .refusedState) := by
  refine answersAtOnce_of_take rfl ?_ rfl
  unfold State.releaseAt
  rw [stationArg_eq h]
  exact if_neg other

theorem releaseStation_taken {k : Fin 16} (h : w.toNat = k.val) (lost : s.path.stations[k].state = .lost) :
    AnswersAtOnce (.releaseStation w) s { s with path := s.path.setStation k s.path.stations[k].release }
      (s.path.stations[k].releaseWords .done) := by
  refine answersAtOnce_of_take rfl ?_ rfl
  unfold State.releaseAt
  rw [stationArg_eq h]
  exact if_pos lost

end Release

/-! ### SET_PRIVACY and SET_BAR (R90, R91) -/

section HostPrivacy
variable (s : State) {w flag : Word32}

theorem setPrivacy_noChannel (h : 31 < w.toNat) :
    AnswersAtOnce (.setPrivacy w flag) s s { code := .refusedRange, w0 := 0, w1 := 0, w2 := 0 } :=
  answersAtOnce_of_take rfl (by unfold State.writePrivacy; rw [channelArg_above h]; rfl) rfl

theorem setBar_noChannel (h : 31 < w.toNat) :
    AnswersAtOnce (.setBar w flag) s s { code := .refusedRange, w0 := 0, w1 := 0, w2 := 0 } :=
  answersAtOnce_of_take rfl (by unfold State.writeBar; rw [channelArg_above h]; rfl) rfl

/-- A flag as a result word. -/
theorem ofNat_bit (b : Bool) : BitVec.ofNat 32 (bit b) = if b then 1 else 0 := by cases b <;> rfl

theorem setPrivacy_answer {c : Fin 32} (h : w.toNat = c.val) :
    AnswersAtOnce (.setPrivacy w flag) s
      (s.setSettings c { s.path.channels[c].settings with privacy := decide (flag ≠ 0) })
      { code := .done, w0 := if s.path.channels[c].settings.privacy then 1 else 0
        w1 := if s.path.channels[c].settings.bar then 1 else 0, w2 := 0 } := by
  refine answersAtOnce_of_take rfl ?_ (by simp)
  rw [← ofNat_bit, ← ofNat_bit]
  unfold State.writePrivacy
  rw [channelArg_eq h]
  rfl

theorem setBar_answer {c : Fin 32} (h : w.toNat = c.val) :
    AnswersAtOnce (.setBar w flag) s
      (s.setSettings c { s.path.channels[c].settings with bar := decide (flag ≠ 0) })
      { code := .done, w0 := if s.path.channels[c].settings.bar then 1 else 0
        w1 := if s.path.channels[c].settings.privacy then 1 else 0, w2 := 0 } := by
  refine answersAtOnce_of_take rfl ?_ (by simp)
  rw [← ofNat_bit, ← ofNat_bit]
  unfold State.writeBar
  rw [channelArg_eq h]
  rfl

/-- The requested settings of one channel replaced, every other channel as it was. -/
theorem Path.setSettings_channels (q : Path) (c d : Fin 32) (t : Settings) :
    (d = c → (q.setChannel c { q.channels[c] with settings := t }).channels[d] = { q.channels[d] with settings := t }) ∧
    (d ≠ c → (q.setChannel c { q.channels[c] with settings := t }).channels[d] = q.channels[d]) := by
  rw [Path.setChannel_get]
  exact ⟨fun h => by rw [if_pos h, h], fun h => if_neg h⟩

end HostPrivacy

/-- Settles O42. -/
theorem selfTestCountersReleasePrivacyAndBar : Obligations.SelfTestCountersReleasePrivacyAndBar := by
  refine ⟨⟨fun s w p => ⟨portSelfTest_noPort s, fun h => ⟨portSelfTest_busy s h, portSelfTest_refused s h,
    portSelfTest_taken s h⟩⟩, fun s w clear p => ⟨readCounters_noPort s, readCounters_answer s⟩⟩, ?_, ?_, ?_, ?_⟩
  · intro s p g c empty running testing test sent _ left time
    refine ⟨s.idle, by unfold step; rw [empty], ?_⟩
    rw [s.idle_running running]
    exact loopback_due s p g c testing test sent left time
  · rintro g _ e rfl
    obtain ⟨first, later, past⟩ := g.take_eq e
    exact ⟨first, later, past⟩
  · refine fun s w => ⟨releaseStation_noStation s, ?_⟩
    rintro k _ words h rfl named
    have same : words = s.path.stations[k].releaseWords := named.trans (funext fun c => (Station.releaseWords_eq _ c).symm)
    subst same
    refine ⟨releaseStation_refused s h, fun lost => ⟨_, releaseStation_taken s h lost, fun j => ?_⟩⟩
    exact Path.setStation_get s.path k j _
  · refine fun s w flag => ⟨fun h => ⟨setPrivacy_noChannel s h, setBar_noChannel s h⟩, ?_⟩
    rintro c _ _ h rfl rfl
    exact ⟨_, _, setPrivacy_answer s h, setBar_answer s h, fun d =>
      ⟨fun e => ⟨(s.path.setSettings_channels c d _).1 e, (s.path.setSettings_channels c d _).1 e⟩,
        fun e => ⟨(s.path.setSettings_channels c d _).2 e, (s.path.setSettings_channels c d _).2 e⟩⟩⟩

end Sys2Proof.Machine
end

