-- ==== Sys2Proof/Proofs/Calls.lean ====
section
/-! PROOF. A call that ends without a good bundle, and the round deadline (R50, R56 to R61, R64, R65, R71). -/
namespace Sys2Proof.Machine

/-! ### A miss handed to a station (R73 to R75, R82) -/

/-- The record after a miss (R73 to R75). -/
theorem Station.reported_miss {r : Report} (h : r.isMiss = true) (st : Station) (probe : Bool) :
    st.reported probe r = st.missed.1 := by
  cases r with
  | bad | noReply | late => rfl
  | good _ | notRunning | supply => cases h

theorem Report.ne_notRunning_of_miss {r : Report} (h : r.isMiss = true) : r ≠ .notRunning := by rintro rfl; cases h
theorem Report.ne_supply_of_miss {r : Report} (h : r.isMiss = true) : r ≠ .supply := by rintro rfl; cases h

/-- After the record, a report keeps what its record's part made of the path: it settles frames only (R71). -/
theorem Path.recordReport_keeps (x : Ctx) (polled : Option Nat) (k : Fin 16) (probe : Bool) (r : Report) (p : Path) :
    (p.recordReport x polled k probe r).Keeps (p.report x polled k probe r) := by
  unfold Path.report
  cases polled with
  | none => exact .refl _
  | some f => exact (Path.keeps_handOff ..).trans (Path.keeps_handOff ..)

/-- A mark of a station raises STATION (R82). -/
theorem Path.stationMark_raises (x : Ctx) (polled : Option Nat) (k : MarkKind) (p : Path) :
    (p.stationMark x polled k).attn.pending.getLsbD Cause.station.position = true := by
  unfold Path.stationMark
  cases polled <;> exact Attention.raise_pending_self _ _

/-- A miss that loses the station: the record, and its mark (R73, R75, R82). -/
theorem Path.recordReport_loss (x : Ctx) (polled : Option Nat) (k : Fin 16) {r : Report} (p : Path) (hr : r.isMiss = true)
    {news : StationNews} (hn : p.stations[k].missed.2 = some news) :
    p.recordReport x polled k false r =
      (p.setStation k p.stations[k].missed.1).stationMark x polled (news.mark k) := by
  cases r with
  | bad | noReply | late =>
    unfold Path.recordReport Station.apply
    simp only [hn]
  | good _ | notRunning | supply => cases hr

/-- A miss that loses the station raises STATION (R73, R75, R82). -/
theorem Path.report_raises (x : Ctx) (polled : Option Nat) (k : Fin 16) (r : Report) (p : Path) (hr : r.isMiss = true)
    (h : p.stations[k].missed.2 ≠ none) :
    (p.report x polled k false r).attn.pending.getLsbD Cause.station.position = true := by
  obtain ⟨news, hn⟩ := Option.ne_none_iff_exists'.mp h
  refine (p.recordReport_keeps x polled k false r).pending _ ?_
  rw [p.recordReport_loss x polled k hr hn]
  exact Path.stationMark_raises ..

/-! ### The end of a call (R56, R58 to R61, R64) -/

/-- A call to `g` ended with the miss `r`, which a LIST station is handed (R60, R64). -/
structure CallEnded (s t : State) (p : PortId) (g : Target) (r : Report) (busy : Bool) : Prop where
  only : OnlyLink s t p
  phase : (t.port p).phase = .polling ∨ (t.port p).phase = .ended
  callOver : CallOver s t p busy
  roundEnd : RoundEndsNow s t p
  probe : g.probe = true → PathIs t s.path
  path : g.probe = false → PathIs t (s.path.report s.ctx s.ctx.polled (stationAt p g.addr) false r)

/-- A call whose end leaves the round's own fields of the port to `endCall`: how the state then stands. -/
theorem State.onLink_callEnded (s : State) (p : PortId) (op : Link → Link) (pt : Port) (g : Target) (r : Report)
    (hop : op (s.link p) = (({ port := pt, path := s.path } : Link).handListed s.ctx p r).endCall s.ctx p)
    (hg : pt.target = some g)
    (hround : (pt.deadlinePassed, pt.remaining, pt.probeDone, pt.probeCursor, pt.pollList) =
      ((s.port p).deadlinePassed, (s.port p).remaining, (s.port p).probeDone, (s.port p).probeCursor, (s.port p).pollList))
    (hcur : pt.current = (s.port p).current) (hdiv : pt.divisor = (s.port p).divisor) :
    CallEnded s (s.onLink p op) p g r pt.busy ∧
      ((s.onLink p op).port p).check = pt.check ∧ ((s.onLink p op).port p).lastReason = pt.lastReason ∧
      ((s.onLink p op).port p).noReply = pt.noReply := by
  have hport : (({ port := pt, path := s.path } : Link).handListed s.ctx p r).port = pt := Link.handListed_port ..
  have hpath : (({ port := pt, path := s.path } : Link).handListed s.ctx p r).path =
      if g.probe then s.path else s.path.report s.ctx s.ctx.polled (stationAt p g.addr) false r := by
    rw [Link.handListed_path, hg]
  generalize ({ port := pt, path := s.path } : Link).handListed s.ctx p r = l at hop hport hpath
  subst hport
  have ht : (s.onLink p op).port p = (l.endCall s.ctx p).port := by rw [State.onLink_port, hop]
  obtain ⟨phase, _, _, _, _, _, _, _, _, _, _, hend, hphase, _⟩ := l.endCall_port s.ctx p
  have hpathIs : PathIs (s.onLink p op) l.path :=
    s.onLink_pathIs p op l.path (by rw [hop]; exact l.endCall_path s.ctx p)
  simp only [Prod.mk.injEq] at hround
  obtain ⟨h1, h2, h3, h4, h5⟩ := hround
  refine ⟨⟨s.onLink_only p op, ?_, ?_, ?_, ?_, ?_⟩, ?_, ?_, ?_⟩
  · rw [ht, hend]; exact hphase
  · refine Link.endCall_callOver s _ p l ⟨h1.symm, h2.symm, h3.symm, h4.symm, h5.symm⟩ ⟨by rw [hcur], by rw [hcur]⟩ ht ?_
    rw [State.onLink_path, hop]
  · exact Link.endCall_roundEndsNow s _ p l ht (by rw [hcur]) hdiv
  · intro h; rwa [hpath, if_pos h] at hpathIs
  · intro h; rwa [hpath, h, if_neg (by decide)] at hpathIs
  all_goals rw [ht, hend]

section
variable {s t : State} {p : PortId} {g : Target} {r : Report} {busy : Bool}

/-- The channels of the station called (R71, R95). -/
theorem CallEnded.called (h : CallEnded s t p g r busy) (hr : r.isMiss = true) (hg : g.probe = false) :
    Called s t p g.addr r s.path.stations[stationAt p g.addr].missed.1 :=
  called_of_report s t p g.addr false r _ (Report.ne_notRunning_of_miss hr) (Report.ne_supply_of_miss hr)
    (Station.reported_miss hr _ _).symm (h.path hg)

/-- A loss raises STATION (R82). -/
theorem CallEnded.raised (h : CallEnded s t p g r busy) (hr : r.isMiss = true) (hg : g.probe = false)
    (hm : s.path.stations[stationAt p g.addr].missed.2 ≠ none) : Raised t .station :=
  (h.path hg).2.2 _ (Path.report_raises _ _ _ _ _ hr hm)

/-- The bays hold first what the report made of the record (R71). -/
theorem CallEnded.bays (h : CallEnded s t p g r busy) (hg : g.probe = false) (u : Fin 34) :
    ∃ more, t.path.bays.bay[u].items =
      (s.path.recordReport s.ctx s.ctx.polled (stationAt p g.addr) false r).bays.bay[u].items ++ more := by
  obtain ⟨hpath, _⟩ := h.path hg
  rw [hpath]
  exact (Path.recordReport_keeps ..).bays.items u

/-- The station records: a LIST station took the miss, and no other changed. -/
theorem CallEnded.stations (h : CallEnded s t p g r busy) (hr : r.isMiss = true) (k : Fin 16) :
    t.path.stations[k] =
      if k = stationAt p g.addr ∧ g.probe = false then s.path.stations[k].missed.1 else s.path.stations[k] := by
  cases hg : g.probe with
  | true =>
    obtain ⟨hpath, _⟩ := h.probe hg
    rw [hpath, if_neg (by simp)]
  | false =>
    obtain ⟨hpath, _⟩ := h.path hg
    rw [hpath]
    simp only [Path.report_stations, Station.reported_miss hr, and_true]

end

/-- A bad bundle in the whole state (R61, R64). -/
theorem State.onLink_badBundle (s : State) (p : PortId) (op : Link → Link) (pt : Port) (g : Target) (reason : BadReason)
    (hop : op (s.link p) = ({ port := pt, path := s.path } : Link).badBundle s.ctx p reason)
    (hg : pt.target = some g) (hcheck : pt.check = (s.port p).check)
    (hround : (pt.deadlinePassed, pt.remaining, pt.probeDone, pt.probeCursor, pt.pollList) =
      ((s.port p).deadlinePassed, (s.port p).remaining, (s.port p).probeDone, (s.port p).probeCursor, (s.port p).pollList))
    (hcur : pt.current = (s.port p).current) (hdiv : pt.divisor = (s.port p).divisor) :
    CallEnded s (s.onLink p op) p g .bad pt.busy ∧
      ((s.onLink p op).port p).check = min 65535 ((s.port p).check + 1) ∧
      ((s.onLink p op).port p).lastReason = some reason := by
  obtain ⟨h, h1, h2, _⟩ := s.onLink_callEnded p op
    { pt with check := countEvent pt.check, lastReason := some reason } g .bad hop hg hround hcur hdiv
  exact ⟨h, by rw [h1, hcheck]; rfl, h2⟩

/-! ### REPLY_TIMEOUT (R60) -/

theorem exec_replyTimeout (s : State) (p : PortId) (busy : Bool) (hs : (s.port p).state = .running)
    (hph : (s.port p).phase = .awaiting) :
    exec (.replyTimeout p busy) s = .next (s.onLink p (Link.replyTimeout s.ctx p busy)) := by
  show execReplyTimeout p busy s = _
  unfold execReplyTimeout
  rw [if_pos (by simp [Port.inPhase, hs, hph])]

/-- R60: a LIST poll counts one no-reply and its station is handed NO_REPLY. -/
theorem replyTimeout_callEnded (s : State) (p : PortId) (busy : Bool) (g : Target) (hg : (s.port p).target = some g) :
    CallEnded s (s.onLink p (Link.replyTimeout s.ctx p busy)) p g .noReply busy ∧
      ((s.onLink p (Link.replyTimeout s.ctx p busy)).port p).noReply =
        if g.probe then (s.port p).noReply else min 65535 ((s.port p).noReply + 1) := by
  obtain ⟨h, _, _, h3⟩ := s.onLink_callEnded p (Link.replyTimeout s.ctx p busy)
    { s.port p with
      busy := busy, window := 24
      noReply := if g.probe then (s.port p).noReply else min 65535 ((s.port p).noReply + 1) } g .noReply
    (by
      have ht : (s.link p).port.target = some g := hg
      unfold Link.replyTimeout
      rw [ht]
      dsimp only
      cases g.probe <;> rfl)
    hg rfl rfl rfl
  exact ⟨h, h3⟩

/-! ### ROUND_DEADLINE (R65) -/

theorem exec_roundDeadline (s : State) (p : PortId) (hr : (s.port p).inRound = true)
    (hd : (s.port p).deadlinePassed = false) :
    exec (.roundDeadline p) s = .next (s.onLink p (Link.deadlinePasses s.ctx p)) := by
  show execRoundDeadline p s = _
  unfold execRoundDeadline
  rw [if_pos ⟨hr, hd⟩]

/-- R65: the deadline with the list taken is the deadline's work. -/
theorem Link.deadlinePasses_of_list (x : Ctx) (p : PortId) (l : Link) (h : l.port.phase ≠ .framing) :
    l.deadlinePasses x p = l.deadline x p := by
  unfold Link.deadlinePasses
  split
  · contradiction
  all_goals rfl

/-- R65: the deadline with the list not yet taken is noted. -/
theorem Link.deadlinePasses_of_framing (x : Ctx) (p : PortId) (l : Link) (h : l.port.phase = .framing) :
    l.deadlinePasses x p = { l with port := { l.port with deadlinePassed := true } } := by
  unfold Link.deadlinePasses
  rw [h]

/-- The port that an operation leaves, where it is known. -/
theorem State.onLink_port_of_eq (s : State) (p : PortId) (op : Link → Link) {pt : Port} (h : (op (s.link p)).port = pt) :
    (s.onLink p op).port p = pt := (s.onLink_port p op).trans h

/-- The path that an operation leaves, where it is known, but for a STARVING that may have been raised. -/
theorem State.onLink_path_of_eq (s : State) (p : PortId) (op : Link → Link) {q : Path} (h : (op (s.link p)).path = q) :
    (s.onLink p op).path = { q with attn := (s.onLink p op).path.attn } := by
  subst h; exact s.onLink_path p op

/-- An operation whose path is `q` as it stands, no lamp derived. -/
theorem State.onLink_pathIs_of_eq (s : State) (p : PortId) (op : Link → Link) (q : Path) (h : (op (s.link p)).path = q) :
    PathIs (s.onLink p op) q :=
  s.onLink_pathIs p op q ⟨by rw [h], fun c => by rw [h]⟩

/-- One report for each of several stations: a station that is the first of them may have been lost by it, and what the first
report made of its record stands first in the bays (R65, R71). -/
theorem State.pathAfter_cons (s : State) (p : PortId) (a : Fin 8) (rest : List (Fin 8)) (r : Report) :
    (s.path.recordReport s.ctx s.ctx.polled (stationAt p a) false r).bays.Grows (s.pathAfter p (a :: rest) r).bays := by
  have h := (s.path.recordReport_keeps s.ctx s.ctx.polled (stationAt p a) false r).bays
  unfold State.pathAfter
  rw [List.foldl_cons]
  generalize s.path.report s.ctx s.ctx.polled (stationAt p a) false r = q at h ⊢
  induction rest generalizing q with
  | nil => exact h
  | cons b rest ih =>
    refine ih _ (h.trans ?_)
    obtain ⟨more⟩ := (q.keeps_report s.ctx s.ctx.polled (stationAt p b) false r).bays
    exact ⟨more, by assumption, by assumption, by assumption, by assumption⟩

/-- What a report makes pending stays pending through the reports after it. -/
theorem Path.reports_pending (x : Ctx) (polled : Option Nat) (p : PortId) (r : Report) (as : List (Fin 8)) (q : Path) (i : Nat)
    (h : q.attn.pending.getLsbD i = true) :
    (as.foldl (fun q a => q.report x polled (stationAt p a) false r) q).attn.pending.getLsbD i = true := by
  induction as generalizing q with
  | nil => exact h
  | cons a as ih => exact ih _ ((q.keeps_report x polled (stationAt p a) false r).pending i h)

/-- A miss handed to each of several stations that loses one of them raises STATION (R65, R82). -/
theorem Path.reports_raise (x : Ctx) (polled : Option Nat) (p : PortId) (r : Report) (hr : r.isMiss = true)
    (as : List (Fin 8)) (a : Fin 8) (ha : a ∈ as) (q : Path) (h : q.stations[stationAt p a].missed.2 ≠ none) :
    (as.foldl (fun q a => q.report x polled (stationAt p a) false r) q).attn.pending.getLsbD
      Cause.station.position = true := by
  induction as generalizing q with
  | nil => cases ha
  | cons b as ih =>
    rw [List.foldl_cons]
    by_cases hb : a = b
    · subst hb
      exact Path.reports_pending _ _ _ _ _ _ _ (q.report_raises x polled _ r hr h)
    · refine ih ((List.mem_cons.mp ha).resolve_left hb) _ ?_
      rwa [Path.report_stations, if_neg (fun e => hb (stationAt_inj e).2)]

/-- The records after a miss handed to several stations (R65, R71). -/
theorem State.pathAfter_stations (s : State) (p : PortId) (as : List (Fin 8)) (r : Report) (hr : r.isMiss = true) (q : PortId)
    (a : Fin 8) :
    (q = p → as.count a = 1 →
      (s.pathAfter p as r).stations[stationAt q a] = s.path.stations[stationAt q a].missed.1) ∧
    (q ≠ p ∨ a ∉ as → (s.pathAfter p as r).stations[stationAt q a] = s.path.stations[stationAt q a]) := by
  have e : s.pathAfter p as r = ((s.link p).handAll s.ctx p r as).path :=
    (Link.handAll_path s.ctx p r as (s.link p)).symm
  rw [e]
  constructor
  · rintro rfl h
    rw [Link.handAll_stations_once _ _ _ _ _ _ h, Station.reported_miss hr]
    rfl
  · intro h
    refine Link.handAll_stations_other _ _ _ _ _ _ (fun b hb hk => ?_)
    obtain ⟨hq, hab⟩ := stationAt_inj hk
    exact h.elim (fun h => h hq) (fun h => h (hab ▸ hb))

/-! ### LINE_QUIET (R61, R67) -/

theorem exec_lineQuiet (s : State) (p : PortId) (hs : (s.port p).state = .running) (hn : (s.port p).sending = []) :
    exec (.lineQuiet p) s = .next (s.onLink p (Link.quiet s.ctx p)) := by
  show execLineQuiet p s = _
  unfold execLineQuiet
  rw [if_pos (by simp [Port.listening, hs, hn])]

/-- R61: a quiet line ends a reply as a bad bundle. -/
theorem Link.quiet_of_reply (x : Ctx) (p : PortId) (l : Link) (h : l.port.phase = .receiving ∨ l.port.phase = .quieting) :
    l.quiet x p = l.badBundle x p (l.port.fault.getD .length) := by
  unfold Link.quiet
  rcases h with h | h <;> rw [h]

/-- R67: a quiet line in POLLING, the line busy: the next poll may begin, and after the deadline none does. -/
theorem Link.quiet_of_polling (x : Ctx) (p : PortId) (l : Link) (h : l.port.phase = .polling) (hb : l.port.busy = true) :
    l.quiet x p = if l.port.deadlinePassed then { l with port := { l.port with busy := false } }
      else ({ l with port := { l.port with busy := false } } : Link).nextPoll x p := by
  unfold Link.quiet
  rw [h, hb]
  rfl

/-- R67, R94: in POLLING a quiet line changes nothing of the path but lamps. -/
theorem Link.quiet_path_of_polling (x : Ctx) (p : PortId) (l : Link) (h : l.port.phase = .polling)
    (hb : l.port.busy = true) :
    (l.quiet x p).path = { l.path with channels := (l.quiet x p).path.channels } ∧
      ∀ c : Fin 32, (l.quiet x p).path.channels[c] =
        { l.path.channels[c] with lamp := (l.quiet x p).path.channels[c].lamp } := by
  rw [l.quiet_of_polling x p h hb]
  split
  · exact ⟨rfl, fun _ => rfl⟩
  · exact Link.nextPoll_path x p _

/-- R67: in POLLING a quiet line is busy no more. -/
theorem Link.quiet_busy_of_polling (x : Ctx) (p : PortId) (l : Link) (h : l.port.phase = .polling)
    (hb : l.port.busy = true) : (l.quiet x p).port.busy = false := by
  rw [l.quiet_of_polling x p h hb]
  split
  · rfl
  · obtain ⟨_, _, _, _, _, _, _, _, _, _, _, e, _⟩ := Link.nextPoll_port x p { l with port := { l.port with busy := false } }
    rw [e]

/-- With the line free and no deadline passed, the next poll is made as at the end of a call, but for the round end (R56, R58)
and for the reply that the end of a call drops. -/
theorem Link.nextPoll_eq_endCall (x : Ctx) (p : PortId) (l : Link) (hd : l.port.deadlinePassed = false)
    (hb : l.port.busy = false) :
    (l.nextPoll x p).path = (l.endCall x p).path ∧
      ∃ reply fault current,
        (l.nextPoll x p).port = { (l.endCall x p).port with reply := reply, fault := fault, current := current } ∧
        current.map Figures.listPolls = (l.endCall x p).port.current.map Figures.listPolls ∧
        current.map Figures.probe = (l.endCall x p).port.current.map Figures.probe := by
  let m : Link := { l with
    port := { l.port.markEnd x with phase := .polling, target := none, reply := none, fault := none } }
  have hend : l.endCall x p = m.nextPoll x p := rfl
  have hdue : m.probeDue p = l.probeDue p := rfl
  have hrest : m.port.remaining = l.port.remaining := rfl
  have hfree : ¬(l.port.deadlinePassed = true ∨ l.port.busy = true) := by simp [hd, hb]
  have hfree' : ¬(m.port.deadlinePassed = true ∨ m.port.busy = true) := hfree
  rw [hend]
  unfold Link.nextPoll
  rw [hrest, hdue]
  have moved (g : Figures → Figures) (f : Figures → Nat) (h : ∀ u e, f (g { u with roundEnd := e }) = f (g u)) :
      (l.port.current.map g).map f = (m.port.current.map g).map f := by
    show _ = ((l.port.current.map _).map g).map f
    cases l.port.current <;> simp [h]
  have moved' (g : Figures → Figures) (h : ∀ u e, (g { u with roundEnd := e }).probe = (g u).probe) :
      (l.port.current.map g).map Figures.probe = (m.port.current.map g).map Figures.probe := by
    show _ = ((l.port.current.map _).map g).map _
    cases l.port.current <;> simp [h]
  rcases l.port.remaining with _ | ⟨a, rest⟩
  · rcases l.probeDue p with _ | a
    · exact ⟨rfl, _, _, _, rfl, moved _ _ fun _ _ => rfl, moved' _ fun _ _ => rfl⟩
    · dsimp only
      rw [if_neg hfree, if_neg hfree']
      exact ⟨rfl, _, _, _, rfl, moved _ _ fun _ _ => rfl, moved' _ fun _ _ => rfl⟩
  · dsimp only
    rw [if_neg hfree, if_neg hfree']
    exact ⟨rfl, _, _, _, rfl, moved _ _ fun _ _ => rfl, moved' _ fun _ _ => rfl⟩

/-- R58, R59, R67: how the round goes on where a quiet line lets the next poll begin, in the terms of the statements. -/
theorem Link.nextPoll_callOver (s t : State) (p : PortId) (l : Link)
    (hp : (s.port p).deadlinePassed = l.port.deadlinePassed ∧ (s.port p).remaining = l.port.remaining ∧
      (s.port p).probeDone = l.port.probeDone ∧ (s.port p).probeCursor = l.port.probeCursor ∧
      (s.port p).pollList = l.port.pollList)
    (hcur : l.port.current = (s.port p).current) (hd : l.port.deadlinePassed = false) (hb : l.port.busy = false)
    (ht : t.port p = (l.nextPoll s.ctx p).port) (hq : t.path = { (l.nextPoll s.ctx p).path with attn := t.path.attn }) :
    CallOver s t p false := by
  obtain ⟨hpath, reply, fault, current, hport, hpolls, hprobe⟩ := l.nextPoll_eq_endCall s.ctx p hd hb
  have ended : CallOver s (t.setPort p (l.endCall s.ctx p).port) p l.port.busy :=
    Link.endCall_callOver s _ p l hp ⟨by rw [hcur], by rw [hcur]⟩ (State.setPort_port ..)
      (by rw [State.setPort_path, ← hpath]; exact hq)
  rw [hb] at ended
  unfold CallOver FiguresAre State.vacancy at ended ⊢
  rw [State.setPort_port, State.setPort_path] at ended
  rw [ht, hport]
  dsimp only
  rw [hpolls, hprobe]
  exact ended

/-! ### The statement -/

/-- Settles O15: each call's end is `CallEnded`, through `endCall`; the deadline is a miss handed to each station left. -/
theorem callsThatEndWithoutABundle : Obligations.CallsThatEndWithoutABundle := by
  unfold Obligations.CallsThatEndWithoutABundle
  refine ⟨?timeout, ?framing, ?deadline, ?quiet⟩
  case timeout =>
    intro s p busy g hs hph hg
    obtain ⟨h, hno⟩ := replyTimeout_callEnded s p busy g hg
    refine ⟨_, exec_replyTimeout s p busy hs hph, h.only, h.phase, h.callOver, h.roundEnd, fun hp => ?_, fun hp => ?_⟩
    · rw [hp] at hno
      exact ⟨hno, by obtain ⟨e, _⟩ := h.probe hp; rw [e], h.probe hp⟩
    · rw [hp] at hno
      refine ⟨hno, h.path hp, h.called rfl hp, h.raised rfl hp, h.bays hp, fun k => ?_⟩
      rw [h.stations rfl k, hp]
      simp
  case framing =>
    intro s p hr hph hd
    have hop : Link.deadlinePasses s.ctx p (s.link p) = _ := Link.deadlinePasses_of_framing _ _ _ hph
    have hpath : (Link.deadlinePasses s.ctx p (s.link p)).path = s.path := congrArg Link.path hop
    exact ⟨_, exec_roundDeadline s p hr hd, s.onLink_only .., s.onLink_port_of_eq p _ (congrArg Link.port hop),
      s.onLink_path_of_eq p _ hpath, s.onLink_pathIs_of_eq p _ _ hpath⟩
  case deadline =>
    intro s p hr hph hd
    have hop : Link.deadlinePasses s.ctx p (s.link p) = (s.link p).deadline s.ctx p :=
      Link.deadlinePasses_of_list _ _ _ hph
    obtain ⟨hpath, hport, hcur⟩ := (s.link p).deadline_spec s.ctx p
    have ht : (s.onLink p (Link.deadlinePasses s.ctx p)).port p = ((s.link p).deadline s.ctx p).port := by
      rw [State.onLink_port, hop]
    have his : PathIs (s.onLink p (Link.deadlinePasses s.ctx p)) (s.pathAfter p (s.port p).remaining .late) :=
      s.onLink_pathIs_of_eq p _ _ (by rw [hop]; exact hpath)
    refine ⟨_, exec_roundDeadline s p hr hd, s.onLink_only .., ?_, ?_, ?_, ?_, his, ?_, ?_, ?_⟩
    · rw [ht]; exact hport
    · unfold FiguresAre
      rw [ht, hcur]
      show _ ∧ _
      split
      · exact ⟨rfl, rfl⟩
      · simp only [Option.map_map]; exact ⟨rfl, rfl⟩
    · intro h
      rw [ht, hcur]
      exact if_pos h
    · intro h
      unfold RoundEndsNow
      rw [ht, hcur, if_neg (show (s.link p).port.remaining ≠ [] from h), Option.map_map]
      rfl
    · intro a ha
      refine ⟨called_of_reports s _ p _ a ha .late _ (by decide) (by decide) rfl his, fun hm => ?_⟩
      exact his.2.2 _ (Path.reports_raise s.ctx s.ctx.polled p .late rfl _ a ha s.path hm)
    · intro a rest hlist u
      obtain ⟨e, _⟩ := his
      rw [e, hlist]
      exact (s.pathAfter_cons p a rest .late).items u
    · intro q a
      obtain ⟨e, _⟩ := his
      rw [e]
      exact s.pathAfter_stations p _ .late rfl q a
  case quiet =>
    intro s p hs hn
    refine ⟨fun g hph hg => ?_, fun hph hb => ?_⟩
    · have hop : Link.quiet s.ctx p (s.link p) = _ := Link.quiet_of_reply _ _ _ hph
      obtain ⟨h, h1, h2⟩ := s.onLink_badBundle p (Link.quiet s.ctx p) (s.port p) g _ hop hg rfl rfl rfl rfl
      exact ⟨_, exec_lineQuiet s p hs hn, h.only, h1, h2, h.phase, h.callOver, h.roundEnd, h.probe,
        fun hp => ⟨h.path hp, h.called rfl hp⟩, h.raised rfl, h.bays, h.stations rfl⟩
    · have hop : Link.quiet s.ctx p (s.link p) = _ := Link.quiet_of_polling _ _ _ hph hb
      have his : PathIs (s.onLink p (Link.quiet s.ctx p)) s.path :=
        s.onLink_pathIs p _ _ (Link.quiet_path_of_polling s.ctx p (s.link p) hph hb)
      refine ⟨_, exec_lineQuiet s p hs hn, s.onLink_only .., ?_, ?_, his, fun hd => ?_, fun hd => ?_⟩
      · rw [State.onLink_port]
        exact Link.quiet_busy_of_polling s.ctx p (s.link p) hph hb
      · obtain ⟨e, _⟩ := his; rw [e]
      · have hop' : Link.quiet s.ctx p (s.link p) =
            ({ port := { s.port p with busy := false }, path := s.path } : Link).nextPoll s.ctx p :=
          hop.trans (if_neg (by rw [show (s.link p).port.deadlinePassed = false from hd]; decide))
        exact Link.nextPoll_callOver s _ p { port := { s.port p with busy := false }, path := s.path }
          ⟨rfl, rfl, rfl, rfl, rfl⟩ rfl hd rfl (s.onLink_port_of_eq p _ (congrArg Link.port hop'))
          (s.onLink_path_of_eq p _ (congrArg Link.path hop'))
      · exact s.onLink_port_of_eq p _ (congrArg Link.port (hop.trans (if_pos hd)))

end Sys2Proof.Machine
end

