-- ==== Sys2Proof/Proofs/CharacterEvents.lean ====
section
/-! PROOF. The samples of a character at every place they can come to (R36, R42, R43, R49, R60, R61, R67). -/
namespace Sys2Proof.Machine

/-! ### The line supervisor (R42, R43) -/

/-- R42: the low tail is how many samples at the end read 0 without a break. -/
theorem le_lowTail_iff (samples : BitVec 88) (k : Nat) (hk : k ≤ 88) :
    k ≤ lowTail samples ↔ ∀ i, 88 - k ≤ i → i < 88 → samples.getLsbD i = false := by
  unfold lowTail
  by_cases h0 : samples = 0
  · simp [h0, hk]
  · have hpos : samples.toNat ≠ 0 := fun e => h0 (BitVec.eq_of_toNat_eq e)
    have hlog : samples.toNat.log2 < 88 := (Nat.log2_lt hpos).mpr samples.isLt
    rw [if_neg h0]
    calc k ≤ 87 - samples.toNat.log2
        ↔ samples.toNat.log2 < 88 - k := by omega
      _ ↔ samples.toNat < 2 ^ (88 - k) := Nat.log2_lt hpos
      _ ↔ _ := by
        constructor
        · intro h i hi _
          exact Nat.testBit_lt_two_pow (h.trans_le (Nat.pow_le_pow_right (by decide) hi))
        · intro h
          refine Nat.lt_pow_two_of_testBit _ (fun i hi => ?_)
          by_cases hi' : i < 88
          · exact h i hi hi'
          · exact Nat.testBit_lt_two_pow (samples.isLt.trans_le (Nat.pow_le_pow_right (by decide) (by omega)))

/-- Port `q` with the line supervisor's counts of `pt`. -/
def Port.withLineOf (q pt : Port) : Port :=
  { q with lowRun := pt.lowRun, lineLow := pt.lineLow, lowTicks := pt.lowTicks }

/-- R42, R43: the line supervisor keeps its own counts, and in STUCK clears the idle interval flag. -/
theorem Port.sampled_eq (pt : Port) (samples : BitVec 88) :
    pt.sampled samples =
      (if pt.state = .stuck ∧ samples ≠ BitVec.allOnes 88 then { pt with idleFlag := false } else pt).withLineOf
        (pt.sampled samples) := by
  rcases pt with ⟨state⟩
  cases state
  case stuck =>
    unfold Port.sampled Port.withLineOf
    by_cases hx : samples = BitVec.allOnes 88
    · rw [if_neg (fun h => h.2 hx)]
      simp only [decide_eq_true hx, Bool.and_true]
    · rw [if_pos ⟨rfl, hx⟩]
      simp only [decide_eq_false hx, Bool.and_false]
  all_goals
    rw [if_neg (fun h => by cases h.1)]
    rfl

/-- R42: in RUNNING the low run is the whole bit times of 0 at the end of the samples. -/
theorem Port.sampled_lowRun (pt : Port) (samples : BitVec 88) (h : pt.state = .running) :
    (pt.sampled samples).lowRun = lowTail samples / 8 := by
  unfold Port.sampled; rw [h]

/-- R42: in RUNNING the line supervisor changes nothing but its own counts. -/
theorem Port.sampled_running (pt : Port) (samples : BitVec 88) (h : pt.state = .running) :
    pt.sampled samples = pt.withLineOf (pt.sampled samples) := by
  have e := pt.sampled_eq samples
  rwa [if_neg (by simp [h])] at e

/-! ### The poll logic, by phase (R60, R61, R67) -/

section
variable (x : Ctx) (p : PortId) (e : CharEvent) (l : Link)

/-- The framing error count of a character event (R50). -/
def Link.countFraming (e : CharEvent) (l : Link) : Link :=
  if e = .framing then { l with port := { l.port with framing := countEvent l.port.framing } } else l

theorem Link.countFraming_of_ne {e : CharEvent} (h : e ≠ .framing) : l.countFraming e = l := if_neg h

theorem Link.event_of_awaiting (h : l.port.phase = .awaiting) : l.event x p e = (l.countFraming e).firstEvent x p e := by
  unfold Link.event; rw [h]; rfl

theorem Link.event_of_receiving (h : l.port.phase = .receiving) : l.event x p e = (l.countFraming e).laterEvent x p e := by
  unfold Link.event; rw [h]; rfl

/-- R61, R67: where no reply is awaited the event is counted and dropped, and in POLLING the line is busy. -/
theorem Link.event_of_dropped (h : l.port.phase = .quieting ∨ l.port.phase = .polling ∨ l.port.phase = .ended) :
    l.event x p e = { l with port := { l.port with
      framing := if e = .framing then min 65535 (l.port.framing + 1) else l.port.framing
      busy := if l.port.phase = .polling then true else l.port.busy } } := by
  rcases l with ⟨⟨⟩, path⟩
  dsimp only at h
  unfold Link.event
  by_cases he : e = .framing
  · simp only [if_pos he]
    rcases h with h | h | h <;> (subst h; rfl)
  · simp only [if_neg he]
    rcases h with h | h | h <;> (subst h; rfl)

/-! ### No event of the poll logic touches the low run (R42) -/

theorem Link.endCall_lowRun : (l.endCall x p).port.lowRun = l.port.lowRun := by
  obtain ⟨_, _, _, _, _, _, _, _, _, _, _, h, _⟩ := l.endCall_port x p
  rw [h]

theorem Link.badBundle_lowRun (r : BadReason) : (l.badBundle x p r).port.lowRun = l.port.lowRun := by
  unfold Link.badBundle
  dsimp only
  rw [Link.endCall_lowRun, Link.handListed_port]

theorem Link.finishReply_lowRun : (l.finishReply x p).port.lowRun = l.port.lowRun := by
  unfold Link.finishReply
  dsimp only
  split
  · exact l.badBundle_lowRun x p _
  · split
    · exact l.badBundle_lowRun x p _
    · split
      · unfold Link.goodBundle
        dsimp only
        rw [Link.endCall_lowRun, Link.hand_port]
        rfl
      · rfl

theorem Link.firstEvent_lowRun : (l.firstEvent x p e).port.lowRun = l.port.lowRun := by
  unfold Link.firstEvent
  dsimp only
  split
  · rfl
  · rfl
  · split
    · rfl
    · split
      · exact Link.finishReply_lowRun x p _
      · rfl

theorem Link.laterEvent_lowRun : (l.laterEvent x p e).port.lowRun = l.port.lowRun := by
  unfold Link.laterEvent
  split
  · rfl
  · split
    · exact l.finishReply_lowRun x p
    · rfl
  · split
    · split <;> rfl
    · rfl

theorem Link.countFraming_lowRun : (l.countFraming e).port.lowRun = l.port.lowRun := by
  unfold Link.countFraming
  split <;> rfl

theorem Link.event_lowRun : (l.event x p e).port.lowRun = l.port.lowRun := by
  have counted := l.countFraming_lowRun e
  cases h : l.port.phase
  case awaiting => rw [l.event_of_awaiting x p e h, Link.firstEvent_lowRun, counted]
  case receiving => rw [l.event_of_receiving x p e h, Link.laterEvent_lowRun, counted]
  case quieting => rw [l.event_of_dropped x p e (.inl h)]
  case polling => rw [l.event_of_dropped x p e (.inr (.inl h))]
  case ended => rw [l.event_of_dropped x p e (.inr (.inr h))]
  all_goals
    unfold Link.event
    rw [h]
    exact counted

end

/-! ### The samples of the line in the whole state -/

/-- An operation of a port after the port has changed is one operation. -/
theorem State.setPort_onLink (s : State) (p : PortId) (q : Port) (op : Link → Link) :
    (s.setPort p q).onLink p op = s.onLink p fun l => op { l with port := q } := by
  cases p <;> rfl

theorem State.setPort_only (s : State) (p : PortId) (q : Port) : OnlyLink s (s.setPort p q) p := by
  cases p <;> rfl

/-- Samples that make no event, and samples while the port does not listen, go to the line supervisor alone. -/
theorem State.lineSamples_unheard (s : State) (p : PortId) (samples : BitVec 88)
    (h : receive samples = none ∨ (s.port p).state ≠ .running ∨ (s.port p).sending ≠ []) :
    s.lineSamples p samples = s.setPort p ((s.port p).sampled samples) := by
  unfold State.lineSamples
  cases hr : receive samples with
  | none => rfl
  | some e =>
    rw [hr] at h
    have hl : (s.port p).listening = false := by
      unfold Port.listening
      rcases h with h | h | h
      · cases h
      · simp [h]
      · simp [h]
    simp [hl]

/-- The event of a character received is handed to the poll logic of a port that listens (R36). -/
theorem State.lineSamples_heard (s : State) (p : PortId) (samples : BitVec 88) (e : CharEvent)
    (hs : (s.port p).state = .running) (hn : (s.port p).sending = []) (he : receive samples = some e) :
    s.lineSamples p samples =
      s.onLink p fun l => Link.event s.ctx p e { l with port := (s.port p).sampled samples } := by
  have hl : (s.port p).listening = true := by simp [Port.listening, hs, hn]
  unfold State.lineSamples
  simp only [he, hl, if_true]
  exact s.setPort_onLink ..

theorem exec_characterReceived (s : State) (p : PortId) (samples : BitVec 88) (h : (s.port p).state ≠ .testing) :
    exec (.characterReceived p samples) s = .next (s.lineSamples p samples) := by
  show execCharacterReceived p samples s = _
  unfold execCharacterReceived
  rw [if_neg h]

theorem exec_characterReceived_testing (s : State) (p : PortId) (samples : BitVec 88) (h : (s.port p).state = .testing) :
    exec (.characterReceived p samples) s = .next (s.loopbackSamples p samples) := by
  show execCharacterReceived p samples s = _
  unfold execCharacterReceived
  rw [if_pos h]

/-- A character that the poll logic takes into the port alone, whatever the line supervisor's counts are: what the state then
holds. -/
theorem tookCharacter_of_event (s : State) (p : PortId) (samples : BitVec 88) (e : CharEvent) (q : Port)
    (hs : (s.port p).state = .running) (hn : (s.port p).sending = []) (he : receive samples = some e)
    (h : ∀ pt : Port, Link.event s.ctx p e { port := (s.port p).withLineOf pt, path := s.path } =
      { port := q.withLineOf pt, path := s.path }) :
    ∃ t, exec (.characterReceived p samples) s = .next t ∧ TookCharacter s t p q := by
  refine ⟨_, (exec_characterReceived s p samples (by rw [hs]; decide)).trans
    (congrArg _ (s.lineSamples_heard p samples e hs hn he)), s.onLink_only .., ?_⟩
  have hev : Link.event s.ctx p e { port := (s.port p).sampled samples, path := s.path } =
      { port := q.withLineOf ((s.port p).sampled samples), path := s.path } := by
    rw [← h]
    exact congrArg (fun pt => Link.event s.ctx p e { port := pt, path := s.path }) (Port.sampled_running _ samples hs)
  have hport := s.onLink_port_of_eq p (fun l => Link.event s.ctx p e { l with port := (s.port p).sampled samples })
    (congrArg Link.port hev)
  exact ⟨s.onLink_path_of_eq p _ (congrArg Link.path hev), by rw [hport]; rfl⟩

/-! ### The statement -/

section
variable {s : State} {p : PortId} {samples : BitVec 88}

/-- R42: the low run after the samples of a RUNNING port's line. -/
theorem characterReceived_lowRun (hs : (s.port p).state = .running) :
    OnlyLink s (s.lineSamples p samples) p ∧
      ((s.lineSamples p samples).port p).lowRun = lowTail samples / 8 := by
  have low := (s.port p).sampled_lowRun samples hs
  by_cases hl : receive samples = none ∨ (s.port p).state ≠ .running ∨ (s.port p).sending ≠ []
  · rw [s.lineSamples_unheard p samples hl, State.setPort_port]
    exact ⟨s.setPort_only .., low⟩
  · simp only [not_or, not_not] at hl
    obtain ⟨hr, -, hn⟩ := hl
    obtain ⟨e, he⟩ := Option.ne_none_iff_exists'.mp hr
    rw [s.lineSamples_heard p samples e hs hn he]
    exact ⟨s.onLink_only .., by rw [State.onLink_port, Link.event_lowRun]; exact low⟩

/-- R42, R43: samples that the line supervisor alone takes. -/
theorem tookCharacter_unheard (ht : (s.port p).state ≠ .testing)
    (h : receive samples = none ∨ (s.port p).state ≠ .running ∨ (s.port p).sending ≠ []) :
    ∃ t, exec (.characterReceived p samples) s = .next t ∧ t = s.setPort p (t.port p) ∧
      TookCharacter s t p (if (s.port p).state = .stuck ∧ samples ≠ BitVec.allOnes 88
        then { s.port p with idleFlag := false } else s.port p) := by
  refine ⟨_, (exec_characterReceived s p samples ht).trans (congrArg _ (s.lineSamples_unheard p samples h)), ?_,
    s.setPort_only .., ?_, ?_⟩
  · rw [State.setPort_port]
  · rw [State.setPort_path]
  · rw [State.setPort_port]
    exact Port.sampled_eq ..

/-- R61: an END in AWAITING is a bad bundle at once (assumption 18). -/
theorem characterReceived_end (g : Target) (hs : (s.port p).state = .running) (hn : (s.port p).sending = [])
    (hph : (s.port p).phase = .awaiting) (he : receive samples = some (.control endChar))
    (hg : (s.port p).target = some g) :
    CallEnded s (s.lineSamples p samples) p g .bad (s.port p).busy ∧
      ((s.lineSamples p samples).port p).check = min 65535 ((s.port p).check + 1) ∧
      ((s.lineSamples p samples).port p).lastReason = some .leader := by
  rw [s.lineSamples_heard p samples _ hs hn he]
  have hq := (s.port p).sampled_running samples hs
  generalize (s.port p).sampled samples = pt at hq ⊢
  rw [hq]
  refine s.onLink_badBundle p _ { (s.port p).withLineOf pt with
    phase := .receiving, reply := some { leader := none, data := [] }, fault := some .leader } g .leader ?_ hg rfl rfl rfl rfl
  rw [Link.event_of_awaiting s.ctx p _ _ hph, Link.countFraming_of_ne _ (by decide)]
  rfl

end

/-- Settles O16: outside the poll logic the line supervisor alone takes the samples, and the poll logic's events go by the
phase; END in AWAITING ends the call. -/
theorem characterReceived : Obligations.CharacterReceived := by
  unfold Obligations.CharacterReceived
  intro s p x
  refine ⟨?testing, ?running, tookCharacter_unheard, fun hs hn => ⟨fun hph => ?awaiting, fun hph => ?receiving, ?dropped⟩⟩
  case testing =>
    intro g hs hg
    rw [exec_characterReceived_testing s p x hs]
    unfold State.loopbackSamples
    refine ⟨fun hr => by rw [hr], fun e he => ?_⟩
    simp only [he, Port.takeLoopback, hg, Option.map_some]
  case running =>
    intro hs
    obtain ⟨honly, hlow⟩ := characterReceived_lowRun (samples := x) hs
    refine ⟨_, exec_characterReceived s p x (by rw [hs]; decide), honly, fun n hn => ?_⟩
    rw [hlow, ← le_lowTail_iff x (8 * n) (by omega)]
    omega
  case awaiting =>
    have first (e : CharEvent) (h : e ≠ .framing) (pt : Port) :
        Link.event s.ctx p e { port := (s.port p).withLineOf pt, path := s.path } =
          Link.firstEvent s.ctx p e { port := (s.port p).withLineOf pt, path := s.path } := by
      rw [Link.event_of_awaiting _ _ _ _ hph, Link.countFraming_of_ne _ h]
    refine ⟨fun v a g he ha hg => ?bundle, fun e he hv => ?leader, fun he => ?framing, fun g he hg => ?ended⟩
    case bundle =>
      refine tookCharacter_of_event s p x _ _ hs hn he fun pt => ?_
      rw [first _ (by simp)]
      simp only [Link.firstEvent, ha, Port.withLineOf, hg, Option.map_some, Option.some.injEq, eq_comm]
    case leader =>
      refine tookCharacter_of_event s p x e _ hs hn he fun pt => ?_
      rcases hv with ⟨v, rfl⟩ | ⟨v, rfl, hb, hne⟩
      · rw [first _ (by simp)]
        rfl
      · rw [first _ (by simp)]
        simp only [Link.firstEvent, hb, if_neg hne]
        rfl
    case framing =>
      refine tookCharacter_of_event s p x _ _ hs hn he fun pt => ?_
      rw [Link.event_of_awaiting _ _ _ _ hph]
      rfl
    case ended =>
      obtain ⟨h, h1, h2⟩ := characterReceived_end g hs hn hph he hg
      exact ⟨_, exec_characterReceived s p x (by rw [hs]; decide), h.only, h1, h2, h.phase, h.callOver, h.roundEnd, h.probe,
        fun hp => ⟨h.path hp, h.called rfl hp⟩, h.stations rfl⟩
  case receiving =>
    have later (e : CharEvent) (h : e ≠ .framing) (pt : Port) :
        Link.event s.ctx p e { port := (s.port p).withLineOf pt, path := s.path } =
          Link.laterEvent s.ctx p e { port := (s.port p).withLineOf pt, path := s.path } := by
      rw [Link.event_of_receiving _ _ _ _ hph, Link.countFraming_of_ne _ h]
    refine ⟨fun v r he hr => ?_, fun v he hv => ?_, fun he => ?_⟩
    · refine tookCharacter_of_event s p x _ _ hs hn he fun pt => ?_
      rw [later _ (by simp)]
      have hr' : ((s.port p).withLineOf pt).reply = some r := hr
      simp only [Link.laterEvent, hr']
      split <;> rfl
    · refine tookCharacter_of_event s p x _ _ hs hn he fun pt => ?_
      rw [later _ (by simp)]
      simp only [Link.laterEvent, if_neg hv]
      rfl
    · refine tookCharacter_of_event s p x _ _ hs hn he fun pt => ?_
      rw [Link.event_of_receiving _ _ _ _ hph]
      rfl
  case dropped =>
    intro e he hph
    refine tookCharacter_of_event s p x e _ hs hn he fun pt => ?_
    rw [Link.event_of_dropped _ _ _ _ hph]
    rfl

end Sys2Proof.Machine
end

