-- ==== Sys2Proof/Proofs/PortsAtABoundary.lean ====
section
/-! PROOF. A boundary as one port, its stations and their channels see it: the end of its round, the rest of the interval's
end, and the port's own boundary work (R9, R22, R41, R66, R97). -/
namespace Sys2Proof.Machine

/-! ### The state of the ports and of the stations -/

theorem State.port_of_lines {s t : State} (h : t.lines = s.lines) (p : PortId) : t.port p = s.port p := by
  obtain ⟨hA, hB, _⟩ := Lines.mk.inj h
  cases p
  · exact hA
  · exact hB

theorem State.stations_of_lines {s t : State} (h : t.lines = s.lines) : t.path.stations = s.path.stations :=
  (Lines.mk.inj h).2.2

/-- Whether port `p` is to report before the close of the frame (R97). -/
def reportsFirst (a b : Bool) : PortId → Bool
  | .a => a
  | .b => b

theorem reportsFirst_false {p : PortId} {a b : Bool} (h : reportsFirst a b p = false) :
    (p = .a ∧ a = false) ∨ (p = .b ∧ b = false) := by
  cases p
  · exact .inl ⟨rfl, h⟩
  · exact .inr ⟨rfl, h⟩

theorem reportsFirst_not (p : PortId) (a b : Bool) : reportsFirst (!a) (!b) p = !reportsFirst a b p := by cases p <;> rfl

/-- Port `p` and its stations in `t` are those of the link `l`. -/
structure ShowsLink (t : State) (p : PortId) (l : Link) : Prop where
  port : t.port p = l.port
  stations : ∀ i : Fin 8, t.path.stations[stationAt p i] = l.path.stations[stationAt p i]

theorem State.showsLink (s : State) (p : PortId) : ShowsLink s p (s.link p) := ⟨rfl, fun _ => rfl⟩

theorem ShowsLink.of_lines {s t : State} {p : PortId} {l : Link} (h : ShowsLink s p l) (e : t.lines = s.lines) :
    ShowsLink t p l :=
  ⟨(State.port_of_lines e p).trans h.port, fun i => by rw [State.stations_of_lines e]; exact h.stations i⟩

/-- The ends of the rounds without the port's own leave it and its stations. -/
theorem ShowsLink.roundsOver_other {s : State} {p : PortId} {l : Link} (h : ShowsLink s p l) (e : Timer) {a b : Bool}
    (hf : reportsFirst a b p = false) : ShowsLink (s.roundsOver e a b) p l := by
  have other (i : Fin 8) := s.roundsOver_other e a b p i 0 (.inr (reportsFirst_false hf))
  exact ⟨(other 0).1.trans h.port, fun i => (other i).2.1.trans (h.stations i)⟩

/-- The ends of the rounds with the port's own among them: its own, on a path with its stations as they were. -/
theorem State.roundsOver_own (s : State) (e : Timer) (a b : Bool) (p : PortId) (hf : reportsFirst a b p = true) :
    ∃ q : Path, (∀ i : Fin 8, q.stations[stationAt p i] = s.path.stations[stationAt p i]) ∧
      ShowsLink (s.roundsOver e a b) p (({ port := s.port p, path := q } : Link).roundOver (s.endedCtx e) p) := by
  have own (u : State) : ShowsLink (u.roundOver e p) p ((u.link p).roundOver (u.endedCtx e) p) :=
    ⟨State.withLink_port _ _ _, fun i => by rw [State.roundOver_path]⟩
  cases p with
  | a =>
    obtain rfl : a = true := hf
    refine ⟨s.path, fun _ => rfl, ?_⟩
    cases b
    · exact own s
    · have other (i : Fin 8) := State.roundOver_other (s.roundOver e .a) e .b .a i 0 nofun
      exact ⟨(other 0).1.trans (own s).port, fun i => (other i).2.1.trans ((own s).stations i)⟩
  | b =>
    obtain rfl : b = true := hf
    cases a
    · exact ⟨s.path, fun _ => rfl, own s⟩
    · have other (i : Fin 8) := s.roundOver_other e .a .b i 0 nofun
      have court := s.roundOver_court e .a
      have view : (s.roundOver e .a).endedCtx e = s.endedCtx e := by
        unfold State.endedCtx State.ctx; rw [court.supply, court.sitting, court.timer]
      refine ⟨(s.roundOver e .a).path, fun i => (other i).2.1, ?_⟩
      have hlink : (s.roundOver e .a).link .b = { port := s.port .b, path := (s.roundOver e .a).path } :=
        congrArg (fun pt => ({ port := pt, path := (s.roundOver e .a).path } : Link)) (other 0).1
      have shown := own (s.roundOver e .a)
      rw [view, hlink] at shown
      exact shown

theorem State.advanceTimer_lines (s : State) : s.advanceTimer.lines = s.lines :=
  State.lines_congr s.advanceTimer_portA s.advanceTimer_portB s.advanceTimer_audio.2.1

/-- What the end of the interval leaves of a port and its stations: the end of its round (R41, R65, R66, R97). -/
theorem State.endInterval_port (s : State) (a b : Bool) (p : PortId) : ∃ (q : Path) (x : Ctx), x.tick = s.timer.interval ∧
    (∀ i : Fin 8, q.stations[stationAt p i] = s.path.stations[stationAt p i]) ∧
      ShowsLink (s.endInterval a b) p (({ port := s.port p, path := q } : Link).roundOver x p) := by
  have stations := State.stations_of_lines s.advanceTimer_lines
  have port := State.port_of_lines s.advanceTimer_lines p
  unfold State.endInterval
  cases hf : reportsFirst a b p with
  | true =>
    obtain ⟨q, same, shown⟩ := s.advanceTimer.roundsOver_own s.timer a b p hf
    rw [port] at shown
    exact ⟨q, _, rfl, fun i => by rw [same, stations],
      (shown.of_lines (State.closeFrame_lines _)).roundsOver_other s.timer (by rw [reportsFirst_not, hf]; rfl)⟩
  | false =>
    have before := ((s.advanceTimer.showsLink p).roundsOver_other s.timer hf).of_lines
      (State.closeFrame_lines (s.advanceTimer.roundsOver s.timer a b))
    obtain ⟨q, same, shown⟩ := (s.advanceTimer.roundsOver s.timer a b).closeFrame.roundsOver_own s.timer (!a) (!b) p
      (by rw [reportsFirst_not, hf]; rfl)
    rw [before.port, show (s.advanceTimer.link p).port = s.port p from port] at shown
    refine ⟨q, _, rfl, fun i => ?_, shown⟩
    rw [same, before.stations]
    show s.advanceTimer.path.stations[stationAt p i] = _
    rw [stations]

/-- R9: what the sitting's own move leaves of the ports and the station records: an opening clears the slips. -/
theorem State.moveSitting_ports (s : State) :
    (∀ p, s.moveSitting.port p = s.port p) ∧
      (s.sitting.state = .armed → s.sitting.opening ≠ none →
        ∀ k : Fin 16, s.moveSitting.path.stations[k] = s.path.stations[k].opening) ∧
      (s.sitting.state ≠ .armed ∨ s.sitting.opening = none → s.moveSitting.path.stations = s.path.stations) := by
  have shifted : s.shiftFlag.limitClose.lines = s.lines := by
    unfold State.limitClose State.shiftFlag
    dsimp only
    repeat' split
    all_goals rfl
  unfold State.moveSitting
  cases hs : s.sitting.state
  case onRecord => exact ⟨State.port_of_lines shifted, nofun, fun _ => State.stations_of_lines shifted⟩
  case offRecord => exact ⟨State.port_of_lines shifted, nofun, fun _ => State.stations_of_lines shifted⟩
  case closing => exact ⟨fun p => by cases p <;> rfl, nofun, fun _ => rfl⟩
  case idle => exact ⟨fun _ => rfl, nofun, fun _ => rfl⟩
  case armed =>
    dsimp only
    cases ho : s.sitting.opening with
    | none => exact ⟨fun _ => rfl, fun _ h => absurd rfl h, fun _ => rfl⟩
    | some o =>
      refine ⟨fun p => by cases p <;> rfl, fun _ _ k => ?_, fun h => ?_⟩
      · show (s.path.stations.map Station.opening)[k] = _
        simp
      · rcases h with h | h
        · exact absurd rfl h
        · cases h

/-- A port's boundary work on its own link (R45). -/
theorem State.portWork_own (s : State) (p : PortId) :
    (s.portWork p).port p = ((s.port p).boundaryWork s.ctx).1 ∧ (s.portWork p).path.stations = s.path.stations ∧
      (((s.port p).boundaryWork s.ctx).2 = true → Raised (s.portWork p) .port) := by
  have port : ((s.link p).boundaryWork s.ctx p).port = ((s.port p).boundaryWork s.ctx).1 := by
    unfold Link.boundaryWork
    dsimp only
    split <;> rfl
  have stations : ((s.link p).boundaryWork s.ctx p).path.stations = s.path.stations := by
    unfold Link.boundaryWork
    dsimp only
    split
    · exact Path.mark_stations ..
    · rfl
  have raised (h : ((s.port p).boundaryWork s.ctx).2 = true) :
      ((s.link p).boundaryWork s.ctx p).path.attn.pending.getLsbD Cause.port.position = true := by
    unfold Link.boundaryWork
    dsimp only
    rw [if_pos (show ((s.link p).port.boundaryWork s.ctx).2 = true from h)]
    exact Attention.raise_pending_self _ _
  unfold State.portWork Raised
  cases p <;> exact ⟨port, stations, raised⟩

theorem State.portWork_other (s : State) (p q : PortId) (h : p ≠ q) : (s.portWork q).port p = s.port p := by
  unfold State.portWork
  cases p with
  | a =>
    cases q with
    | a => exact absurd rfl h
    | b => rfl
  | b =>
    cases q with
    | a => rfl
    | b => exact absurd rfl h

theorem State.keeps_aged (s : State) : s.path.Keeps s.ageCloses.refresh.beginScan.path := by
  rw [State.beginScan_path]
  exact (State.keeps_ageCloses s).trans (State.keeps_refresh _)

theorem State.ageCloses_lines (s : State) : s.ageCloses.lines = s.lines := by
  unfold State.ageCloses
  generalize List.finRange 34 = l
  induction l generalizing s with
  | nil => rfl
  | cons t l ih => exact (ih _).trans (s.ageClose_lines t)

/-- What the interval that begins leaves of a port and of the stations: the port's boundary work (R37, R40, R43, R45). -/
theorem State.openInterval_port (s : State) (p : PortId) : ∃ y : Ctx, y.boundary = s.timer.boundary ∧
    y.warning = s.supply.warning ∧ s.openInterval.port p = ((s.port p).boundaryWork y).1 ∧
      s.openInterval.path.stations = s.path.stations ∧
      (((s.port p).boundaryWork y).2 = true → Raised s.openInterval .port) := by
  have taken := s.takeSnapshots_lines
  have court : SameCourt s s.takeSnapshots.ownMix := by
    unfold State.ownMix State.takeSnapshots; dsimp only; split <;> exact ⟨rfl, rfl, rfl⟩
  have begun : s.openInterval = ((s.takeSnapshots.ownMix.portWork .a).portWork .b).ageCloses.refresh.beginScan := rfl
  rw [begun]
  rw [← State.port_of_lines taken p, ← State.stations_of_lines taken, ← congrArg Timer.boundary court.timer,
    ← congrArg Supply.warning court.supply]
  generalize s.takeSnapshots.ownMix = u
  have lines (v : State) : v.ageCloses.refresh.beginScan.lines = v.lines :=
    (State.beginScan_lines _).trans ((State.refresh_lines _).trans v.ageCloses_lines)
  have pending := (State.keeps_aged ((u.portWork .a).portWork .b)).pending
  obtain ⟨portA, stationsA, raisedA⟩ := u.portWork_own .a
  obtain ⟨portB, stationsB, raisedB⟩ := (u.portWork .a).portWork_own .b
  rw [State.port_of_lines (lines _) p, State.stations_of_lines (lines _), stationsB, stationsA]
  have courtA := u.portWork_court .a
  cases p with
  | a =>
    refine ⟨u.ctx, rfl, rfl, (State.portWork_other (u.portWork .a) .a .b nofun).trans portA, rfl, fun h => pending _ ?_⟩
    exact (State.keeps_portWork _ .b).pending _ (raisedA h)
  | b =>
    rw [State.portWork_other u .b .a nofun] at portB raisedB
    exact ⟨(u.portWork .a).ctx, congrArg Timer.boundary courtA.timer, congrArg Supply.warning courtA.supply, portB, rfl,
      fun h => pending _ (raisedB h)⟩

/-- What a boundary leaves of a port and its stations: the end of its round, an opening, and the port's own boundary work. -/
theorem State.boundary_port (s : State) (a b : Bool) (p : PortId) : ∃ (q : Path) (x y : Ctx) (m : Link),
    x.tick = s.timer.interval ∧ (∀ i : Fin 8, q.stations[stationAt p i] = s.path.stations[stationAt p i]) ∧
      m = ({ port := s.port p, path := q } : Link).roundOver x p ∧
      y.boundary = (s.boundary a b).timer.boundary ∧ y.warning = s.supply.warning ∧
      (s.boundary a b).port p = (m.port.boundaryWork y).1 ∧
      ((m.port.boundaryWork y).2 = true → Raised (s.boundary a b) .port) ∧
      (s.sitting.state = .armed → s.sitting.opening ≠ none →
        ∀ i : Fin 8, (s.boundary a b).path.stations[stationAt p i] = m.path.stations[stationAt p i].opening) ∧
      (s.sitting.state ≠ .armed ∨ s.sitting.opening = none →
        ∀ i : Fin 8, (s.boundary a b).path.stations[stationAt p i] = m.path.stations[stationAt p i]) := by
  obtain ⟨q, x, htick, same, shown⟩ := s.endInterval_port a b p
  have target := s.endInterval_target a b
  have supply := (s.endInterval_supply a b).1
  rw [State.boundary_parts]
  generalize s.endInterval a b = v at shown target supply ⊢
  have state : v.sitting.state = s.sitting.state := by rw [target]
  have opening : v.sitting.opening = s.sitting.opening := by rw [target]
  obtain ⟨ports, opened, kept⟩ := v.moveSitting_ports
  obtain ⟨y, yb, yw, port, stations, raised⟩ := v.moveSitting.openInterval_port p
  rw [ports p, shown.port] at port raised
  refine ⟨q, x, y, _, htick, same, rfl, ?_, ?_, port, raised, fun h1 h2 i => ?_, fun h i => ?_⟩
  · rw [yb, (State.openInterval_court _).timer]
  · rw [yw, v.moveSitting_court.2.1, supply]
  · rw [stations, opened (by rw [state]; exact h1) (by rw [opening]; exact h2), shown.stations]
  · rw [stations, kept (by rw [state, opening]; exact h), shown.stations]

/-! ### The state of a channel whose station's report comes before the close (R66, R97; assumption 5) -/

/-- The close of another or the same frame leaves the run and the counts of a channel that is settled, where no stretch ends
with it (R97). -/
theorem Path.closeFrame_settled (x : Ctx) (f : Nat) (on nextOn last ranA ranB : Bool) (p : Path) (c : Fin 32)
    (h : p.channels[c].settled = true) (hends : (last || (on && !nextOn)) = false) :
    (p.closeFrame x f on nextOn last ranA ranB).channels[c] = p.channels[c].dropFrame f := by
  obtain ⟨_, same⟩ := p.closing_settled_record x f on (last || (on && !nextOn)) ranA ranB c h _ rfl
  rw [Path.closeFrame_channels, (same hends).1]

/-- A channel settled by the end of its port's round, before the close of the frame: its run and its void count stand at the end
of the boundary. -/
theorem State.boundary_reported (s : State) (a b : Bool) (p : PortId) (i : Fin 8) (m : Fin 2) (c : Fin 32)
    (hc : c = channelOf (stationAt p i) m) (hf : reportsFirst a b p = true) (hopen : s.sitting.isOpen = true)
    (hclose : s.sitting.close = none) (hcur : s.sitting.cur = true)
    (hsheet : s.writer.sheets[trackOf (soundTrack c)] = none) : ∃ l : Link, ∃ x : Ctx, l.port = s.port p ∧
      l.path.stations[stationAt p i] = s.path.stations[stationAt p i] ∧ l.path.channels[c] = s.path.channels[c] ∧
      x.sitting = s.sitting ∧ x.warning = s.supply.warning ∧ x.polled = s.ctx.polled ∧
      ((l.roundOver x p).path.channels[c].settled = true →
        (s.boundary a b).path.channels[c].run = (l.roundOver x p).path.channels[c].run ∧
        (s.boundary a b).path.channels[c].voids = (l.roundOver x p).path.channels[c].voids) := by
  subst hc
  obtain ⟨audio, stations, _⟩ := s.advanceTimer_audio
  obtain ⟨u, _, uport, ustation, uchannel, own⟩ := s.advanceTimer.roundsOver_self s.timer a b p i m
    (by rintro rfl; exact hf) (by rintro rfl; exact hf)
  rw [State.port_of_lines s.advanceTimer_lines] at uport
  rw [stations] at ustation
  rw [audio] at uchannel
  refine ⟨u.link p, s.advanceTimer.endedCtx s.timer, uport, ustation, uchannel, ?_, ?_,
    s.endedCtx_polled s.advanceTimer (by rw [State.advanceTimer_sitting]) (by rw [State.advanceTimer_sitting]), fun hset => ?_⟩
  · exact s.advanceTimer_sitting
  · exact congrArg Supply.warning s.advanceTimer_supply
  have sitting := s.endInterval_sitting a b hclose
  obtain ⟨sns, rest⟩ := s.boundary_channel a b (channelOf (stationAt p i) m)
    (by rw [sitting]; exact Sitting.counting_of_isOpen hopen) (by rw [s.endInterval_sheets a b hclose]; exact hsheet)
  have closed : ∃ out set sns', (s.endInterval a b).path.channels[channelOf (stationAt p i) m] =
      { ((u.link p).roundOver (s.advanceTimer.endedCtx s.timer) p).path.channels[channelOf (stationAt p i) m] with
        outcome := out, settled := set, snapshots := sns' } := by
    have court := s.advanceTimer.roundsOver_court s.timer a b
    have other := (s.advanceTimer.roundsOver s.timer a b).closeFrame.roundsOver_other s.timer (!a) (!b) p i m
      (.inr (reportsFirst_false (by rw [reportsFirst_not, hf]; rfl)))
    unfold State.endInterval
    rw [other.2.2]
    rw [← own] at hset ⊢
    generalize s.advanceTimer.roundsOver s.timer a b = w at court hset ⊢
    have wsitting : w.sitting = s.sitting := court.sitting.trans s.advanceTimer_sitting
    rcases w.closeFrame_open (by rw [wsitting]; exact hclose) with e | ⟨f, _, e⟩
    · rw [e]
      exact ⟨_, _, _, rfl⟩
    · rw [e]
      dsimp only
      rw [Path.closeFrame_settled _ _ _ _ _ _ _ _ _ hset (by rw [wsitting, hcur]; simp)]
      exact ⟨_, _, _, rfl⟩
  obtain ⟨out, set, sns', closed⟩ := closed
  rw [rest, closed]
  exact ⟨rfl, rfl⟩

end Sys2Proof.Machine
end

