-- ==== Sys2Proof/Proofs/StuckAndTripped.lean ====
section
/-! PROOF. The low run of a line at 0, and a port that leaves RUNNING: stuck, tripped or switched off (R39, R41 to R44, R50,
R52, R69, R77, R95). -/
namespace Sys2Proof.Machine

/-! ### Leaving RUNNING (R41, R77, R95) -/

/-- The stations of the list not yet reported, the one under call with it first (R41). -/
def Port.unreported (pt : Port) : List (Fin 8) :=
  (match pt.target with
    | some g => if g.probe then [] else [g.addr]
    | none => []) ++ pt.remaining

theorem Port.mem_unreported (pt : Port) (a : Fin 8)
    (h : a ∈ pt.remaining ∨ pt.target = some { addr := a, probe := false }) : a ∈ pt.unreported := by
  unfold Port.unreported
  rcases h with h | h
  · exact List.mem_append_right _ h
  · rw [h]; simp

/-- R41: the stations are lost, and each not yet reported is reported as not polled while RUNNING. -/
theorem Link.leaveRunning_path (x : Ctx) (p : PortId) (l : Link) :
    (l.leaveRunning x p).path =
      l.port.unreported.foldl (fun q a => q.report x x.polled (stationAt p a) false .notRunning) (l.path.portLost p) :=
  Link.handAll_path x p .notRunning l.port.unreported { l with path := l.path.portLost p }

/-- R77: a station lost with its port keeps its microphones. -/
theorem Station.portLost_mics (st : Station) : st.portLost.mics = st.mics := by
  unfold Station.portLost; split <;> rfl

/-- R77: the record of a station lost with its port. -/
theorem Station.portLost_eq (st : Station) : st.portLost =
    if st.state = .vacant then st
    else { st with state := .lost, lostCause := some .port, goodRun := 0, missRun := 0 } := by
  unfold Station.portLost
  cases h : st.state <;> simp

/-- The bays grow by what the reports of leaving RUNNING make. -/
theorem Link.leaveRunning_grows (x : Ctx) (p : PortId) (l : Link) : l.path.bays.Grows (l.leaveRunning x p).path.bays := by
  rw [Link.leaveRunning_path]
  obtain ⟨_, hbays, _⟩ := l.path.portLost_channels p
  rw [← hbays]
  generalize l.path.portLost p = q
  generalize l.port.unreported = as
  induction as generalizing q with
  | nil => exact .refl _
  | cons a as ih => exact (q.holds_report x x.polled _ false .notRunning).bays.trans (ih _)

/-- R95: what the report of a station as not polled while RUNNING leaves of a channel with no run pending. -/
theorem Path.report_notRunning (x : Ctx) (f : Nat) (k : Fin 16) (p : Path) (m : Fin 2) (sn : Snapshot) (asked : Bool)
    (hsn : p.channels[channelOf k m].snapshot f = some sn) (hon : sn.onRecord = true)
    (hse : p.channels[channelOf k m].seated = true) (hun : p.channels[channelOf k m].settled = false)
    (hwi : x.sitting.within f = true) (hrun : p.channels[channelOf k m].run = none)
    (ha : asked = ((p.stations[k].mics[m].button || sn.settings.privacy) && !sn.settings.bar)) :
    ∃ cause, cause = (if asked then .privacy else if x.warning then .power else .portDown) ∧
      (p.report x (some f) k false .notRunning).channels[channelOf k m] = { p.channels[channelOf k m] with
        privacy := asked, settled := true, run := some (VoidRun.start cause f)
        voids := min 4294967295 (p.channels[channelOf k m].voids + 1), outcome := some (.void cause) } := by
  obtain ⟨q, q1, _, q3, q4⟩ := p.report_settles x f k false .notRunning m
  refine ⟨_, rfl, ?_⟩
  rw [← q1] at hsn hse hun hrun ⊢
  rw [q4]
  refine q.settle_void x f (.report .notRunning) (channelOf k m) k m (stationOf_channelOf k m).symm
    (micOf_channelOf k m).symm sn p.stations[k] asked _ hsn hon hse hun hwi hrun q3 ha ?_
  unfold causeOf
  cases asked <;> cases x.warning <;> simp

/-- R41, R95: what leaving RUNNING makes of a channel whose station was not yet reported. -/
theorem Link.leaveRunning_void (x : Ctx) (p : PortId) (l : Link) (a : Fin 8) (m : Fin 2) (c : Fin 32) (f : Nat) (sn : Snapshot)
    (asked : Bool) (ha : a ∈ l.port.unreported) (hc : c = channelOf (stationAt p a) m) (hx : x.polled = some f)
    (hsn : l.path.channels[c].snapshot f = some sn) (hon : sn.onRecord = true) (hse : l.path.channels[c].seated = true)
    (hun : l.path.channels[c].settled = false) (hwi : x.sitting.within f = true) (hrun : l.path.channels[c].run = none)
    (hasked : asked = ((l.path.stations[stationAt p a].mics[m].button || sn.settings.privacy) && !sn.settings.bar)) :
    ∃ cause, cause = (if asked then .privacy else if x.warning then .power else .portDown) ∧
      (l.leaveRunning x p).path.channels[c] = { l.path.channels[c] with
        privacy := asked, settled := true, run := some (VoidRun.start cause f)
        voids := min 4294967295 (l.path.channels[c].voids + 1), outcome := some (.void cause) } := by
  subst hc
  obtain ⟨q, q1, _, q3, q4⟩ := Path.reports_first x p .notRunning l.port.unreported a ha (channelOf (stationAt p a) m)
    (stationOf_channelOf _ _) (l.path.portLost p)
  obtain ⟨hlost, _, _⟩ := l.path.portLost_channels p
  rw [hlost] at q1
  rw [Path.portLost_stations, if_pos rfl] at q3
  rw [← q1] at hsn hse hun hrun ⊢
  obtain ⟨cause, hcause, e⟩ := q.report_notRunning x f (stationAt p a) m sn asked hsn hon hse hun hwi hrun
    (by rw [q3, Station.portLost_mics]; exact hasked)
  rw [hx] at q4
  refine ⟨cause, hcause, ?_⟩
  rw [Link.leaveRunning_path, hx, q4 (by rw [e]), e]

/-- R69: a round that is done, and the round's figures on leaving RUNNING (assumption 54). -/
theorem Port.roundDone_iff (pt : Port) : pt.roundDone = true ↔
    pt.phase = .ended ∨ (pt.phase = .polling ∧ pt.deadlinePassed = true ∧ pt.target = none) := by
  unfold Port.roundDone
  simp [and_assoc]

/-! ### A port's fault in the whole state (R42, R44, R52) -/

/-- What an operation that ends in a fault's mark leaves of the path. -/
theorem Link.portMark_path (x : Ctx) (k : MarkKind) (l : Link) :
    (l.portMark x k).path.stations = l.path.stations ∧ (l.portMark x k).path.channels = l.path.channels ∧
      (l.portMark x k).path.bays = (if x.sitting.marks x.frame then
        l.path.bays.offer { kind := k, frame := x.frame, time := x.tod } else l.path.bays) := by
  unfold Link.portMark Path.mark
  dsimp only
  split <;> exact ⟨rfl, rfl, rfl⟩

theorem Link.portMark_raises (x : Ctx) (k : MarkKind) (l : Link) :
    (l.portMark x k).path.attn.pending.getLsbD Cause.port.position = true := Attention.raise_pending_self _ _

section
variable (s : State) (p : PortId)

/-- R41: a RUNNING port that leaves with a fault of its own: its mark, the bays before it, the frames of the stations not yet
reported, and the records. -/
theorem State.onLink_leftRunning (op : Link → Link) (q : Port) (kind : PortFaultKind)
    (hop : op (s.link p) = ({ port := q, path := ((s.link p).leaveRunning s.ctx p).path } : Link).portMark s.ctx
      (.portFault p kind)) :
    (s.onLink p op).port p = q ∧
      (∃ before : Bays, (∀ u : Fin 34, ∃ more, before.bay[u].items = s.path.bays.bay[u].items ++ more) ∧
        (s.onLink p op).path.bays = if s.sitting.marks s.frame then
            before.offer { kind := .portFault p kind, frame := s.frame, time := s.timer.tod }
          else before) ∧
      (∀ a, a ∈ (s.port p).remaining ∨ (s.port p).target = some { addr := a, probe := false } →
        Handed s (s.onLink p op) p a (if s.supply.warning then .power else .portDown)) ∧
      ∀ (o : PortId) (a : Fin 8), (s.onLink p op).path.stations[stationAt o a] =
        if o = p ∧ s.path.stations[stationAt o a].state ≠ .vacant then
          { s.path.stations[stationAt o a] with state := .lost, lostCause := some .port, goodRun := 0, missRun := 0 }
        else s.path.stations[stationAt o a] := by
  obtain ⟨stations, channels, bays⟩ := Link.portMark_path s.ctx (.portFault p kind)
    { port := q, path := ((s.link p).leaveRunning s.ctx p).path }
  refine ⟨s.onLink_port_of_eq p op (congrArg Link.port hop), ⟨_, ((s.link p).leaveRunning_grows s.ctx p).items, ?_⟩, ?_, ?_⟩
  · rw [State.onLink_bays, hop]; exact bays
  · intro a ha m c f sn asked hc hf hsn hon hse hun hrun hwi hasked
    obtain ⟨cause, hcause, e⟩ := (s.link p).leaveRunning_void s.ctx p a m c f sn asked ((s.port p).mem_unreported a ha) hc hf hsn
      hon hse hun hwi hrun hasked
    rw [State.onLink_channels, hop, channels]
    dsimp only
    rw [e, hcause]
    exact ⟨rfl, rfl⟩
  · intro o a
    rw [State.onLink_stations, hop, stations]
    dsimp only
    rw [Link.leaveRunning_stations, Station.portLost_eq]
    show (if o = p then if s.path.stations[stationAt o a].state = .vacant then s.path.stations[stationAt o a] else _
      else s.path.stations[stationAt o a]) = _
    by_cases ho : o = p <;> by_cases hv : s.path.stations[stationAt o a].state = .vacant <;> simp [ho]

theorem exec_lineStuck (hs : (s.port p).state = .running) (hl : 4096 ≤ (s.port p).lowRun) :
    exec (.lineStuck p) s = .next (s.onLink p (Link.stick s.ctx p)) := by
  show execLineStuck p s = _
  unfold execLineStuck
  rw [if_pos (by simp [Port.lineStuck, hs, hl])]

theorem exec_lineStuck_not (h : (s.port p).state ≠ .running ∨ (s.port p).lowRun < 4096) :
    exec (.lineStuck p) s = .next s := by
  show execLineStuck p s = _
  unfold execLineStuck
  rw [if_neg]
  simp only [Port.lineStuck, Bool.and_eq_true, decide_eq_true_eq, not_and_or, not_le]
  exact h

theorem exec_overcurrent
    (h : (s.port p).state = .starting ∨ (s.port p).state = .running ∨ (s.port p).state = .stuck) :
    exec (.overcurrent p) s = .next (s.onLink p (Link.trip s.ctx p)) := by
  show execOvercurrent p s = _
  unfold execOvercurrent
  rw [if_pos]
  rcases h with h | h | h <;> rw [h] <;> rfl

/-- A port that has left RUNNING, before its new state: no call, reply or poll list (R41). -/
def Port.leftRound (pt : Port) (current : Option Figures) : Port :=
  { pt with
    phase := .idle, pollList := [], target := none, reply := none, fault := none, remaining := [], busy := false,
    sending := [], window := 0, current := current }

theorem Link.leaveRunning_leftRound (x : Ctx) (l : Link) :
    (l.leaveRunning x p).port = l.port.leftRound (l.leaveRunning x p).port.current := l.leaveRunning_port x p

/-- R42: what a stuck line leaves of the port. -/
theorem Link.stick_left (x : Ctx) (l : Link) :
    l.stick x p = Link.portMark x (.portFault p .stuck)
      { port := { l.port.leftRound (l.leaveRunning x p).port.current with
          state := .stuck, closed := true, lowRun := 4096, stuck := min 65535 (l.port.stuck + 1), idleFlag := false },
        path := (l.leaveRunning x p).path } := by
  unfold Link.stick
  dsimp only
  rw [Link.leaveRunning_leftRound]
  rfl

/-- R44: what an overcurrent leaves of a RUNNING port. -/
theorem Link.trip_left (x : Ctx) (l : Link) (h : l.port.state = .running) :
    l.trip x p = Link.portMark x (.portFault p .tripped)
      { port := { l.port.leftRound (l.leaveRunning x p).port.current with
          state := .tripped, closed := false, starting := 0, cooldown := 125, idleFlag := false },
        path := (l.leaveRunning x p).path } := by
  unfold Link.trip
  dsimp only
  rw [if_pos h, Link.leaveRunning_leftRound]
  rfl

/-- R44: what an overcurrent leaves of the port and the path outside RUNNING. -/
theorem Link.trip_idle (x : Ctx) (l : Link) (h : l.port.state ≠ .running) :
    l.trip x p = ({ l with port := { l.port.enter .tripped with
      starting := 0, cooldown := 125, idleFlag := false, sending := [] } } : Link).portMark x (.portFault p .tripped) := by
  unfold Link.trip
  dsimp only
  rw [if_neg h]

/-- R44: the port after an overcurrent. -/
theorem Link.trip_port (x : Ctx) (l : Link) : (l.trip x p).port.state = .tripped ∧ (l.trip x p).port.closed = false ∧
    (l.trip x p).port.cooldown = 125 ∧ (l.trip x p).port.starting = 0 ∧ (l.trip x p).port.stuck = l.port.stuck ∧
    (l.trip x p).port.sending = [] := by
  by_cases h : l.port.state = .running
  · rw [Link.trip_left p x l h]; exact ⟨rfl, rfl, rfl, rfl, rfl, rfl⟩
  · rw [Link.trip_idle p x l h]; exact ⟨rfl, rfl, rfl, rfl, rfl, rfl⟩

theorem Link.trip_raises (x : Ctx) (l : Link) :
    (l.trip x p).path.attn.pending.getLsbD Cause.port.position = true := Link.portMark_raises ..

/-- R69: the round's figures on leaving RUNNING, in the terms of the statements. -/
theorem leaveRunning_figures : ((s.link p).leaveRunning s.ctx p).port.current =
    if (s.port p).phase = .ended ∨
        ((s.port p).phase = .polling ∧ (s.port p).deadlinePassed = true ∧ (s.port p).target = none)
    then (s.port p).current
    else (s.port p).current.map fun g => { g with roundEnd := s.timer.tick / (88 * ((s.port p).divisor + 1)) } := by
  rw [Link.leaveRunning_current]
  simp only [Port.roundDone_iff]
  rfl

/-- Leaving RUNNING with a fault, in the terms of the statements (R41, R42, R44, R69). -/
theorem leftRunning (c : Instr) (kind : PortFaultKind) (hs : (s.port p).state = .running)
    (h : (c = .lineStuck p ∧ kind = .stuck ∧ (s.port p).lowRun = 4096) ∨ (c = .overcurrent p ∧ kind = .tripped)) :
    ∃ op q, exec c s = .next (s.onLink p op) ∧
      op (s.link p) = ({ port := q, path := ((s.link p).leaveRunning s.ctx p).path } : Link).portMark s.ctx
        (.portFault p kind) ∧
      q.phase = .idle ∧ q.pollList = [] ∧ q.target = none ∧ q.reply = none ∧ q.probeCursor = (s.port p).probeCursor ∧
      q.figures = (s.port p).figures ∧ q.lastReason = (s.port p).lastReason ∧
      q.current = ((s.link p).leaveRunning s.ctx p).port.current := by
  rcases h with ⟨rfl, rfl, hl⟩ | ⟨rfl, rfl⟩
  · exact ⟨_, _, exec_lineStuck s p hs (by omega), Link.stick_left p s.ctx _, rfl, rfl, rfl, rfl, rfl, rfl, rfl, rfl⟩
  · exact ⟨_, _, exec_overcurrent s p (.inr (.inl hs)), Link.trip_left p s.ctx _ hs, rfl, rfl, rfl, rfl, rfl, rfl, rfl, rfl⟩

/-! ### A power OFF at a boundary (R41, R47) -/

/-- R41: a power OFF pending takes a RUNNING port out of it at the end of its round. -/
theorem Link.roundOver_off (x : Ctx) (l : Link) (hs : l.port.state = .running)
    (h : ∃ c, l.port.control = some c ∧ (c.power = .off ∨ c.power = .offThenOn)) :
    l.roundOver x p = l.leaveRunning x p := by
  obtain ⟨c, hc, hp⟩ := h
  have off : l.port.powerOffPending = true := by
    unfold Port.powerOffPending
    rw [hc]
    rcases hp with e | e <;> simp [e]
  unfold Link.roundOver
  rw [if_pos hs, off]
  rfl

/-- R41, R95: the frames of the stations not yet reported at a boundary that switches the port off. -/
theorem boundary_off_run (first second : Bool) (hA : p = .a → first = true) (hB : p = .b → second = true)
    (hs : (s.port p).state = .running)
    (hoff : ∃ c, (s.port p).control = some c ∧ (c.power = .off ∨ c.power = .offThenOn))
    (a : Fin 8) (m : Fin 2) (c : Fin 32) (f : Nat) (sn : Snapshot) (asked : Bool) (cause : VoidCause)
    (ha : a ∈ (s.port p).remaining ∨ (s.port p).target = some { addr := a, probe := false })
    (hc : c = channelOf (stationAt p a) m) (hf : s.ctx.polled = some f) (hsn : s.path.channels[c].snapshot f = some sn)
    (hon : sn.onRecord = true) (hse : s.path.channels[c].seated = true) (hun : s.path.channels[c].settled = false)
    (hrun : s.path.channels[c].run = none) (hopen : s.sitting.isOpen = true) (hclose : s.sitting.close = none)
    (hcur : s.sitting.cur = true) (hsheet : s.writer.sheets[trackOf (soundTrack c)] = none)
    (hasked : asked = ((s.path.stations[stationAt p a].mics[m].button || sn.settings.privacy) && !sn.settings.bar))
    (hcause : cause = (if asked then .privacy else if s.supply.warning then .power else .portDown)) :
    (s.boundary first second).path.channels[c].run =
      some { cause := cause, first := f, length := 1, tail := 0, held := false } := by
  have hfirst : reportsFirst first second p = true := by
    cases p
    · exact hA rfl
    · exact hB rfl
  obtain ⟨l, x, lport, lstation, lchannel, xsitting, xwarning, xpolled, stands⟩ :=
    s.boundary_reported first second p a m c hc hfirst hopen hclose hcur hsheet
  have left := Link.roundOver_off p x l (by rw [lport]; exact hs) (by rw [lport]; exact hoff)
  obtain ⟨cause', hcause', e⟩ := l.leaveRunning_void x p a m c f sn asked
    (by rw [lport]; exact (s.port p).mem_unreported a ha) hc (xpolled.trans hf) (by rw [lchannel]; exact hsn) hon
    (by rw [lchannel]; exact hse) (by rw [lchannel]; exact hun)
    (by rw [xsitting]; unfold Sitting.within; rw [hclose]) (by rw [lchannel]; exact hrun) (by rw [lstation]; exact hasked)
  rw [xwarning, ← hcause] at hcause'
  rw [left] at stands
  rw [(stands (by rw [e])).1, e, hcause']
  rfl

end

/-! ### The low run (R42, R43) -/

section
variable (pt : Port)

/-- R43: in STUCK a tick on a line at 0 clears the idle interval flag. -/
theorem Port.tick_idleFlag (hs : pt.state = .stuck) (hl : pt.lineLow = true) : pt.tick.idleFlag = false := by
  show pt.superviseTick.idleFlag = false
  unfold Port.superviseTick
  rw [hl, hs]
  rfl

/-- R42: in RUNNING each bit time of ticks on a line at 0 adds one to the low run. -/
theorem Port.tick_low (hs : pt.state = .running) (hl : pt.lineLow = true) :
    (pt.lowTicks + 1 < 8 * (pt.divisor + 1) → pt.tick.lowTicks = pt.lowTicks + 1 ∧ pt.tick.lowRun = pt.lowRun) ∧
    (8 * (pt.divisor + 1) ≤ pt.lowTicks + 1 → pt.tick.lowTicks = 0 ∧ pt.tick.lowRun = min 4096 (pt.lowRun + 1)) := by
  have ticks : pt.tick.lowTicks = pt.superviseTick.lowTicks := rfl
  have low : pt.tick.lowRun = pt.superviseTick.lowRun := rfl
  rw [ticks, low]
  unfold Port.superviseTick bitTicks
  rw [hl, hs]
  constructor
  · intro h; simp [h]
  · intro h; simp [Nat.not_lt.mpr h]

end

/-- A tick on a line at 0, in the whole state (R42, R43; assumption 23). -/
theorem tick_lineLow (s : State) (p : PortId) (hq : s.pending = []) (hr : s.timer.running = true)
    (hl : (s.port p).lineLow = true) : ∃ t, step s = .next t ∧
      ((s.port p).state = .stuck → (t.port p).state = .stuck ∧ (t.port p).idleFlag = false) ∧
      ((s.port p).state = .running →
        ((s.port p).lowTicks + 1 < 8 * ((s.port p).divisor + 1) →
          (t.port p).lowTicks = (s.port p).lowTicks + 1 ∧ (t.port p).lowRun = (s.port p).lowRun) ∧
        (8 * ((s.port p).divisor + 1) ≤ (s.port p).lowTicks + 1 →
          (t.port p).lowTicks = 0 ∧ (t.port p).lowRun = min 4096 ((s.port p).lowRun + 1)) ∧
        ((t.port p).lowRun = 4096 → .lineStuck p ∈ t.pending)) := by
  have run : step s = .next { s.countTick with pending := s.dueAtTick } := by
    unfold step; rw [hq]; exact congrArg _ (s.idle_running hr)
  have port : State.port { s.countTick with pending := s.dueAtTick } p = (s.port p).tick := s.countTick_port p
  refine ⟨_, run, ?_⟩
  rw [port]
  refine ⟨fun hs => ⟨by rw [Port.tick_state, hs], Port.tick_idleFlag _ hs hl⟩, fun hs => ?_⟩
  obtain ⟨below, whole⟩ := Port.tick_low _ hs hl
  refine ⟨below, whole, fun h => (s.mem_dueAtTick_port _ p rfl).mpr ((Port.mem_due _ _ _ _ _).mpr ?_)⟩
  simp [h, hs]

/-- Settles O18: stuck and tripped leave RUNNING alike, before the fault's mark; a power OFF leaves it at the end of the round. -/
theorem stuckAndTripped : Obligations.StuckAndTripped := by
  unfold Obligations.StuckAndTripped
  intro s p
  refine ⟨tick_lineLow s p, exec_lineStuck_not s p, fun hs hl => ?stuck, fun hs => ?tripped, fun c kind hc hs => ?left,
    fun first second hA hB hr hs hoff => ?off⟩
  case stuck =>
    have hop := Link.stick_left p s.ctx (s.link p)
    refine ⟨_, exec_lineStuck s p hs (by omega), s.onLink_only .., s.onLink_raised p _ .port ?_, ?_⟩
    · rw [hop]; exact Link.portMark_raises ..
    · rw [s.onLink_port_of_eq p _ (congrArg Link.port hop)]
      exact ⟨rfl, rfl, rfl, rfl, rfl, rfl⟩
  case tripped =>
    obtain ⟨h1, h2, h3, h4, h5, h6⟩ := Link.trip_port p s.ctx (s.link p)
    refine ⟨_, exec_overcurrent s p hs, s.onLink_only .., s.onLink_raised p _ .port (Link.trip_raises p s.ctx _), ?_⟩
    rw [State.onLink_port]
    refine ⟨h1, h2, h3, h4, h5, h6, fun hn => ?_⟩
    have hop := Link.trip_idle p s.ctx (s.link p) hn
    rw [State.onLink_stations, State.onLink_bays, hop]
    obtain ⟨stations, _, bays⟩ := Link.portMark_path s.ctx (.portFault p .tripped) { s.link p with
      port := { (s.link p).port.enter .tripped with starting := 0, cooldown := 125, idleFlag := false, sending := [] } }
    exact ⟨stations, bays⟩
  case left =>
    obtain ⟨op, q, run, hop, h1, h2, h3, h4, h5, h6, h7, h8⟩ := leftRunning s p c kind hs hc
    obtain ⟨port, rest⟩ := s.onLink_leftRunning p op q kind hop
    refine ⟨_, run, ?_, rest⟩
    rw [port]
    exact ⟨h1, h2, h3, h4, h5, h6, h7, h8.trans (leaveRunning_figures s p)⟩
  case off =>
    refine ⟨_, exec_boundary s first second hr, fun a m c f sn asked cause ha hc hf hsn hon hse hun hrun hopen hclose hcur
      hsheet hasked hcause => boundary_off_run s p first second hA hB hs ?_ a m c f sn asked cause ha hc hf hsn hon hse hun
      hrun hopen hclose hcur hsheet hasked hcause⟩
    obtain ⟨d, h | h⟩ := hoff
    · exact ⟨_, h, .inl rfl⟩
    · exact ⟨_, h, .inr rfl⟩

end Sys2Proof.Machine
end

