-- ==== Sys2Proof/Proofs/PortWork.lean ====
section
/-! PROOF. A port's own boundary work (R37, R40, R43, R45, R47, R49, R57): the self-test's end and the cooldown, the control
pending, the port state's own part, and what the interval begins with. -/
namespace Sys2Proof.Machine

section
variable (pt : Port)

/-! ### The parts of the boundary work -/

/-- The port with its self-test ended and its cooldown one lower (R45, R49). -/
def Port.cooled (pt : Port) : Port := { pt.endSelfTest with cooldown := pt.endSelfTest.cooldown - 1 }

/-- The port after its control pending and its state's own part (R40, R43, R47); the second part says that RUNNING was
entered. -/
def Port.worked (pt : Port) : Port × Bool :=
  if pt.cooled.applyControl.2 then (pt.cooled.applyControl.1, false) else pt.cooled.applyControl.1.ownWork

theorem Port.boundaryWork_eq (x : Ctx) : pt.boundaryWork x =
    (({ pt.worked.1 with figures := pt.worked.1.current.getD Figures.reset } : Port).beginInterval x, pt.worked.2) := rfl

theorem Port.cooled_of_ne (h : pt.state ≠ .testing) : pt.cooled = { pt with cooldown := pt.cooldown - 1 } := by
  have e : pt.endSelfTest = pt := by
    unfold Port.endSelfTest
    split
    · contradiction
    all_goals rfl
  unfold Port.cooled
  rw [e]

theorem Port.cooled_of_testing (h : pt.state = .testing) :
    pt.cooled = { pt.enter .disabled with selfTest := none, sending := [], cooldown := pt.cooldown - 1 } := by
  unfold Port.cooled Port.endSelfTest
  rw [h]
  rfl

theorem Port.cooled_same : pt.cooled.divisor = pt.divisor ∧ pt.cooled.cooldown = pt.cooldown - 1 ∧
    pt.cooled.control = pt.control := by
  by_cases h : pt.state = .testing
  · rw [pt.cooled_of_testing h]; exact ⟨rfl, rfl, rfl⟩
  · rw [pt.cooled_of_ne h]; exact ⟨rfl, rfl, rfl⟩

/-! ### The control pending (R47) -/

/-- A power field without OFF leaves the port state. -/
theorem Port.applyOff_keep (k : Control) (h : k.power = .keep ∨ k.power = .on) : pt.applyOff k = pt := by
  unfold Port.applyOff
  rcases h with h | h <;> rw [h]

/-- A power field with OFF takes any port to DISABLED. -/
theorem Port.applyOff_off (k : Control) (h : k.power = .off ∨ k.power = .offThenOn) :
    (pt.applyOff k).state = .disabled ∧ (pt.applyOff k).divisor = pt.divisor ∧
      (pt.applyOff k).cooldown = pt.cooldown := by
  have e : pt.applyOff k = if pt.state = .disabled then pt else pt.disable := by
    unfold Port.applyOff
    rcases h with h | h <;> rw [h]
  rw [e]
  split
  · exact ⟨‹_›, rfl, rfl⟩
  · exact ⟨rfl, rfl, rfl⟩

/-- The divisor pending of a DISABLED port. -/
theorem Port.applyDivisor_disabled (k : Control) (h : pt.state = .disabled) :
    pt.applyDivisor k = { pt with divisor := k.divisor.getD pt.divisor } := by
  unfold Port.applyDivisor
  cases k.divisor with
  | some d => exact if_pos h
  | none => rfl

theorem Port.applyDivisor_other (k : Control) (h : pt.state ≠ .disabled) : pt.applyDivisor k = pt := by
  unfold Port.applyDivisor
  split <;> simp [h]

/-- ON starts a port that is DISABLED or TRIPPED, without a cooldown. -/
theorem Port.startsOn_iff (k : Control) : pt.startsOn k = true ↔ (k.power = .on ∨ k.power = .offThenOn) ∧
    pt.cooldown = 0 ∧ (pt.state = .disabled ∨ pt.state = .tripped) := by
  unfold Port.startsOn
  simp [and_assoc]

/-- The port with the OFF and the divisor of its control pending applied (R47). -/
def Port.controlled (pt : Port) (k : Control) : Port := (({ pt.cooled with control := none } : Port).applyOff k).applyDivisor k

/-- With a control pending: its ON starts the port, or the port state's own part follows. -/
theorem Port.worked_control {k : Control} (h : pt.control = some k) : pt.worked =
    if (pt.controlled k).startsOn k then ((pt.controlled k).start, false) else (pt.controlled k).ownWork := by
  have e : pt.cooled.control = some k := by rw [pt.cooled_same.2.2, h]
  unfold Port.worked Port.applyControl
  rw [e]
  dsimp only
  show (if (if (pt.controlled k).startsOn k = true then _ else _ : Port × Bool).2 then _ else _) = _
  split <;> simp_all [Port.controlled]

theorem Port.worked_none (h : pt.control = none) : pt.worked = pt.cooled.ownWork := by
  have e : pt.cooled.control = none := by rw [pt.cooled_same.2.2, h]
  unfold Port.worked Port.applyControl
  rw [e]
  rfl

/-- R47: the port with an OFF applied, and its divisor. -/
theorem Port.controlled_off (k : Control) (h : k.power = .off ∨ k.power = .offThenOn) :
    (pt.controlled k).state = .disabled ∧ (pt.controlled k).divisor = k.divisor.getD pt.divisor ∧
      (pt.controlled k).cooldown = pt.cooldown - 1 := by
  obtain ⟨h1, h2, h3⟩ := Port.applyOff_off { pt.cooled with control := none } k h
  obtain ⟨c1, c2, _⟩ := pt.cooled_same
  unfold Port.controlled
  rw [Port.applyDivisor_disabled _ k h1]
  exact ⟨h1, congrArg (k.divisor.getD ·) (h2.trans c1), h3.trans c2⟩

/-- A DISABLED or TRIPPED port has no work of its own. -/
theorem Port.ownWork_off (h : pt.state = .disabled ∨ pt.state = .tripped) : pt.ownWork = (pt, false) := by
  unfold Port.ownWork
  rcases h with h | h <;> rw [h]

/-- A port in STARTING, RUNNING or STUCK without a power OFF pending goes on to its state's own part. -/
theorem Port.worked_live (hs : pt.state = .starting ∨ pt.state = .running ∨ pt.state = .stuck)
    (hk : ∀ k, pt.control = some k → k.power = .keep ∨ k.power = .on) :
    pt.worked = ({ pt with cooldown := pt.cooldown - 1, control := none } : Port).ownWork := by
  have ne : pt.state ≠ .testing ∧ pt.state ≠ .disabled ∧ pt.state ≠ .tripped := by
    rcases hs with h | h | h <;> simp [h]
  obtain ⟨ht, hd, hx⟩ := ne
  cases hc : pt.control with
  | none =>
    rw [pt.worked_none hc, pt.cooled_of_ne ht, ← hc]
  | some k =>
    have e : pt.controlled k = { pt with cooldown := pt.cooldown - 1, control := none } := by
      unfold Port.controlled
      rw [pt.cooled_of_ne ht, Port.applyOff_keep _ k (hk k hc)]
      exact Port.applyDivisor_other { pt with cooldown := pt.cooldown - 1, control := none } k hd
    rw [pt.worked_control hc, e, if_neg]
    rw [Port.startsOn_iff]
    rintro ⟨-, -, h | h⟩
    · exact hd h
    · exact hx h

/-! ### What the work keeps -/

/-- What no part of a port's boundary work but the latched figures touches of its round, its counters and its probe cursor. -/
def Port.roundPart (pt : Port) :=
  ((pt.framing, pt.check, pt.noReply, pt.lateCut, pt.stuck), pt.lastReason, pt.pollList, pt.probeCursor, pt.target,
    pt.reply, pt.current)

theorem Port.cooled_roundPart : pt.cooled.roundPart = pt.roundPart := by
  by_cases h : pt.state = .testing
  · rw [pt.cooled_of_testing h]; rfl
  · rw [pt.cooled_of_ne h]; rfl

theorem Port.ownWork_keeps : pt.ownWork.1.roundPart = pt.roundPart ∧ pt.ownWork.1.cooldown = pt.cooldown ∧
    pt.ownWork.1.control = pt.control ∧ pt.ownWork.1.divisor = pt.divisor := by
  unfold Port.ownWork
  repeat' split
  all_goals exact ⟨rfl, rfl, rfl, rfl⟩

theorem Port.applyOff_keeps (k : Control) : (pt.applyOff k).roundPart = pt.roundPart ∧
    (pt.applyOff k).cooldown = pt.cooldown ∧ (pt.applyOff k).control = pt.control := by
  unfold Port.applyOff
  repeat' split
  all_goals exact ⟨rfl, rfl, rfl⟩

theorem Port.applyDivisor_keeps (k : Control) : (pt.applyDivisor k).roundPart = pt.roundPart ∧
    (pt.applyDivisor k).cooldown = pt.cooldown ∧ (pt.applyDivisor k).control = pt.control := by
  unfold Port.applyDivisor
  repeat' split
  all_goals exact ⟨rfl, rfl, rfl⟩

theorem Port.controlled_keeps (k : Control) : (pt.controlled k).roundPart = pt.roundPart ∧
    (pt.controlled k).cooldown = pt.cooldown - 1 ∧ (pt.controlled k).control = none := by
  obtain ⟨d1, d2, d3⟩ := Port.applyDivisor_keeps (({ pt.cooled with control := none } : Port).applyOff k) k
  obtain ⟨o1, o2, o3⟩ := Port.applyOff_keeps { pt.cooled with control := none } k
  exact ⟨d1.trans (o1.trans pt.cooled_roundPart), d2.trans (o2.trans pt.cooled_same.2.1), d3.trans o3⟩

theorem Port.worked_keeps : pt.worked.1.roundPart = pt.roundPart ∧ pt.worked.1.cooldown = pt.cooldown - 1 ∧
    pt.worked.1.control = none := by
  cases hc : pt.control with
  | none =>
    obtain ⟨w1, w2, w3, _⟩ := pt.cooled.ownWork_keeps
    obtain ⟨_, c2, c3⟩ := pt.cooled_same
    rw [pt.worked_none hc]
    exact ⟨w1.trans pt.cooled_roundPart, w2.trans c2, w3.trans (c3.trans hc)⟩
  | some k =>
    obtain ⟨c1, c2, c3⟩ := pt.controlled_keeps k
    obtain ⟨w1, w2, w3, _⟩ := (pt.controlled k).ownWork_keeps
    rw [pt.worked_control hc]
    split
    · exact ⟨c1, c2, c3⟩
    · exact ⟨w1.trans c1, w2.trans c2, w3.trans c3⟩

/-! ### What the interval begins with (R37, R57) -/

/-- The beginning of an interval touches the course of the round alone. -/
theorem Port.beginInterval_keeps (x : Ctx) :
    ((pt.beginInterval x).state, (pt.beginInterval x).divisor, (pt.beginInterval x).closed, (pt.beginInterval x).starting,
      (pt.beginInterval x).cooldown, (pt.beginInterval x).lowRun, (pt.beginInterval x).idleFlag,
      (pt.beginInterval x).control, (pt.beginInterval x).selfTest, (pt.beginInterval x).figures) =
      (pt.state, pt.divisor, pt.closed, pt.starting, pt.cooldown, pt.lowRun, pt.idleFlag, pt.control, pt.selfTest,
        pt.figures) ∧
    ((pt.beginInterval x).framing, (pt.beginInterval x).check, (pt.beginInterval x).noReply,
      (pt.beginInterval x).lateCut, (pt.beginInterval x).stuck) =
      (pt.framing, pt.check, pt.noReply, pt.lateCut, pt.stuck) ∧
    ((pt.beginInterval x).lastReason, (pt.beginInterval x).pollList, (pt.beginInterval x).probeCursor) =
      (pt.lastReason, pt.pollList, pt.probeCursor) := by
  unfold Port.beginInterval
  split <;> exact ⟨rfl, rfl, rfl⟩

theorem Port.beginInterval_running (x : Ctx) (h : pt.state = .running) : pt.beginInterval x = pt.beginRound x := by
  unfold Port.beginInterval
  rw [h]

/-- R37: a port that drives the line sends FRAME and the tag of the boundary. -/
theorem Port.beginInterval_sending (x : Ctx) (h : pt.state = .starting ∨ pt.state = .running) :
    (pt.beginInterval x).sending = frameCharacters x.boundary := by
  unfold Port.beginInterval
  rcases h with h | h <;> rw [h]
  rfl

/-- Outside RUNNING there is no round: no call is made or taken. -/
theorem Port.beginInterval_idle (x : Ctx) (h : pt.state ≠ .running) :
    (pt.beginInterval x).phase = .idle ∧ (pt.beginInterval x).target = pt.target ∧
      (pt.beginInterval x).reply = pt.reply := by
  unfold Port.beginInterval
  split
  · contradiction
  all_goals exact ⟨rfl, rfl, rfl⟩

/-! ### The port after its boundary work, case by case -/

variable (x : Ctx)

/-- What the interval that begins leaves as the work made it. -/
theorem Port.boundaryWork_kept :
    (pt.boundaryWork x).1.state = pt.worked.1.state ∧ (pt.boundaryWork x).1.divisor = pt.worked.1.divisor ∧
    (pt.boundaryWork x).1.closed = pt.worked.1.closed ∧ (pt.boundaryWork x).1.starting = pt.worked.1.starting ∧
    (pt.boundaryWork x).1.lowRun = pt.worked.1.lowRun ∧ (pt.boundaryWork x).1.idleFlag = pt.worked.1.idleFlag ∧
    (pt.boundaryWork x).1.selfTest = pt.worked.1.selfTest := by
  have kept := (Port.beginInterval_keeps { pt.worked.1 with figures := pt.worked.1.current.getD Figures.reset } x).1
  rw [Port.boundaryWork_eq]
  simp only [Prod.mk.injEq] at kept
  obtain ⟨h1, h2, h3, h4, _, h6, h7, _, h9, _⟩ := kept
  exact ⟨h1, h2, h3, h4, h6, h7, h9⟩

/-- R45, R47, R69: the cooldown, the control pending, the counters and the figures latched. -/
theorem Port.boundaryWork_round :
    (pt.boundaryWork x).1.cooldown = pt.cooldown - 1 ∧ (pt.boundaryWork x).1.control = none ∧
    (pt.boundaryWork x).1.figures = pt.current.getD Figures.reset ∧
    ((pt.boundaryWork x).1.framing, (pt.boundaryWork x).1.check, (pt.boundaryWork x).1.noReply,
      (pt.boundaryWork x).1.lateCut, (pt.boundaryWork x).1.stuck) =
      (pt.framing, pt.check, pt.noReply, pt.lateCut, pt.stuck) ∧
    (pt.boundaryWork x).1.lastReason = pt.lastReason ∧ (pt.boundaryWork x).1.pollList = pt.pollList ∧
    (pt.boundaryWork x).1.probeCursor = pt.probeCursor := by
  obtain ⟨kept, counters, rest⟩ :=
    Port.beginInterval_keeps { pt.worked.1 with figures := pt.worked.1.current.getD Figures.reset } x
  obtain ⟨round, cooldown, control⟩ := pt.worked_keeps
  rw [Port.boundaryWork_eq]
  simp only [Prod.mk.injEq, Port.roundPart] at kept rest round
  obtain ⟨_, _, _, _, k5, _, _, k8, _, k10⟩ := kept
  obtain ⟨c, r1, r2, r3, _, _, r6⟩ := round
  obtain ⟨b1, b2, b3⟩ := rest
  refine ⟨k5.trans cooldown, k8.trans control, k10.trans (congrArg (Option.getD · _) r6), counters.trans ?_, b1.trans r1,
    b2.trans r2, b3.trans r3⟩
  obtain ⟨c1, c2, c3, c4, c5⟩ := c
  rw [c1, c2, c3, c4, c5]

/-- R37: what a port that drives the line sends. -/
theorem Port.boundaryWork_sending
    (h : (pt.boundaryWork x).1.state = .starting ∨ (pt.boundaryWork x).1.state = .running) :
    (pt.boundaryWork x).1.sending = frameCharacters x.boundary := by
  rw [(pt.boundaryWork_kept x).1] at h
  exact Port.beginInterval_sending { pt.worked.1 with figures := pt.worked.1.current.getD Figures.reset } x h

/-- R57: a round begun. -/
theorem Port.boundaryWork_running (h : (pt.boundaryWork x).1.state = .running) :
    (pt.boundaryWork x).1.phase = .framing ∧ (pt.boundaryWork x).1.suppressed = x.warning ∧
    (pt.boundaryWork x).1.deadlinePassed = false ∧ (pt.boundaryWork x).1.busy = false ∧
    (pt.boundaryWork x).1.probeDone = false ∧ (pt.boundaryWork x).1.target = none := by
  rw [(pt.boundaryWork_kept x).1] at h
  rw [Port.boundaryWork_eq]
  dsimp only
  rw [Port.beginInterval_running { pt.worked.1 with figures := pt.worked.1.current.getD Figures.reset } x h]
  exact ⟨rfl, rfl, rfl, rfl, rfl, rfl⟩

/-- Outside RUNNING no call is made. -/
theorem Port.boundaryWork_idle (h : (pt.boundaryWork x).1.state ≠ .running) :
    (pt.boundaryWork x).1.phase = .idle ∧ (pt.boundaryWork x).1.target = pt.target ∧
      (pt.boundaryWork x).1.reply = pt.reply := by
  rw [(pt.boundaryWork_kept x).1] at h
  obtain ⟨h1, h2, h3⟩ :=
    Port.beginInterval_idle { pt.worked.1 with figures := pt.worked.1.current.getD Figures.reset } x h
  have round := pt.worked_keeps.1
  simp only [Prod.mk.injEq, Port.roundPart] at round
  obtain ⟨_, _, _, _, r4, r5, _⟩ := round
  exact ⟨h1, h2.trans r4, h3.trans r5⟩

/-- R40, R43: STARTING, STUCK and RUNNING without a power OFF pending. -/
theorem Port.boundaryWork_live (hk : ∀ k, pt.control = some k → k.power = .keep ∨ k.power = .on) :
    (pt.state = .starting → 2 ≤ pt.starting →
      (pt.boundaryWork x).1.state = .starting ∧ (pt.boundaryWork x).1.starting = pt.starting - 1 ∧
      (pt.boundaryWork x).2 = false) ∧
    (pt.state = .starting → pt.starting = 1 → (pt.boundaryWork x).1.state = .running ∧
      (pt.boundaryWork x).1.starting = 0 ∧ (pt.boundaryWork x).1.closed = true ∧ (pt.boundaryWork x).1.lowRun = 0 ∧
      (pt.boundaryWork x).2 = true) ∧
    (pt.state = .stuck → pt.idleFlag = false ∨ pt.lineLow = true →
      (pt.boundaryWork x).1.state = .stuck ∧ (pt.boundaryWork x).1.idleFlag = true) ∧
    (pt.state = .stuck → pt.idleFlag = true → pt.lineLow = false → (pt.boundaryWork x).1.state = .starting ∧
      (pt.boundaryWork x).1.closed = true ∧ (pt.boundaryWork x).1.starting = 50) ∧
    (pt.state = .running → (pt.boundaryWork x).1.state = .running) := by
  obtain ⟨k1, _, k3, k4, k5, k6, _⟩ := pt.boundaryWork_kept x
  have second : (pt.boundaryWork x).2 = pt.worked.2 := by rw [Port.boundaryWork_eq]
  rw [k1, k3, k4, k5, k6, second]
  have live := fun hs => pt.worked_live hs hk
  refine ⟨fun hs hn => ?_, fun hs hn => ?_, fun hs hi => ?_, fun hs hi hl => ?_, fun hs => ?_⟩
  · rw [live (.inl hs)]
    simp only [Port.ownWork, hs, if_neg (show ¬pt.starting ≤ 1 by omega)]
    exact ⟨trivial, trivial, trivial⟩
  · rw [live (.inl hs)]
    simp only [Port.ownWork, hs, hn, Nat.le_refl, if_true]
    exact ⟨rfl, trivial, rfl, trivial, trivial⟩
  · rw [live (.inr (.inr hs))]
    have stays : (pt.idleFlag && !pt.lineLow) = false := by rcases hi with h | h <;> simp [h]
    simp only [Port.ownWork, hs, stays]
    exact ⟨rfl, rfl⟩
  · rw [live (.inr (.inr hs))]
    simp only [Port.ownWork, hs, hi, hl, Bool.not_false, Bool.and_self, if_true]
    exact ⟨rfl, rfl, rfl⟩
  · rw [live (.inr (.inl hs))]
    simp only [Port.ownWork, hs]

/-- R52: only a port in STARTING enters RUNNING. -/
theorem Port.boundaryWork_entered (h : (pt.boundaryWork x).2 = true) : pt.state = .starting := by
  have own (q : Port) (h : q.ownWork.2 = true) : q.state = .starting := by
    unfold Port.ownWork at h
    split at h
    · assumption
    · split at h <;> cases h
    all_goals cases h
  have cooled (h : pt.cooled.state = .starting) : pt.state = .starting := by
    by_cases ht : pt.state = .testing
    · rw [pt.cooled_of_testing ht] at h; cases h
    · rw [pt.cooled_of_ne ht] at h; exact h
  rw [Port.boundaryWork_eq] at h
  cases hc : pt.control with
  | none =>
    rw [pt.worked_none hc] at h
    exact cooled (own _ h)
  | some k =>
    rw [pt.worked_control hc] at h
    split at h
    · cases h
    · have controlled := own _ h
      by_cases hk : k.power = .off ∨ k.power = .offThenOn
      · rw [(pt.controlled_off k hk).1] at controlled; cases controlled
      · have keep : k.power = .keep ∨ k.power = .on := by
          cases hp : k.power <;> simp_all
        unfold Port.controlled at controlled
        rw [Port.applyOff_keep _ k keep] at controlled
        by_cases hd : pt.cooled.state = .disabled
        · rw [Port.applyDivisor_disabled { pt.cooled with control := none } k hd] at controlled
          exact cooled controlled
        · rw [Port.applyDivisor_other { pt.cooled with control := none } k hd] at controlled
          exact cooled controlled

/-- R49: a self-test ended. -/
theorem Port.boundaryWork_testing (hc : pt.control = none) (hs : pt.state = .testing) :
    (pt.boundaryWork x).1.state = .disabled ∧ (pt.boundaryWork x).1.closed = false ∧
      (pt.boundaryWork x).1.selfTest = none := by
  obtain ⟨k1, _, k3, _, _, _, k7⟩ := pt.boundaryWork_kept x
  have e : pt.worked = (pt.cooled, false) := by
    rw [pt.worked_none hc, Port.ownWork_off _ (.inl (by rw [pt.cooled_of_testing hs]; rfl))]
  rw [k1, k3, k7, e, pt.cooled_of_testing hs]
  exact ⟨rfl, rfl, rfl⟩

/-- R47: a control without a power field in DISABLED and TRIPPED: the divisor pending of a DISABLED port. -/
theorem Port.boundaryWork_keep (hk : ∀ k, pt.control = some k → k.power = .keep) :
    (pt.state = .disabled → (pt.boundaryWork x).1.state = .disabled ∧
      (pt.boundaryWork x).1.divisor = (pt.control.bind Control.divisor).getD pt.divisor) ∧
    (pt.state = .tripped → (pt.boundaryWork x).1.state = .tripped) := by
  obtain ⟨k1, k2, _⟩ := pt.boundaryWork_kept x
  rw [k1, k2]
  cases hc : pt.control with
  | none =>
    rw [pt.worked_none hc]
    refine ⟨fun hs => ?_, fun hs => ?_⟩ <;> rw [pt.cooled_of_ne (by simp [hs])]
    · rw [Port.ownWork_off { pt with cooldown := pt.cooldown - 1 } (.inl hs)]; exact ⟨hs, rfl⟩
    · rw [Port.ownWork_off { pt with cooldown := pt.cooldown - 1 } (.inr hs)]; exact hs
  | some k =>
    have off := Port.applyOff_keep { pt.cooled with control := none } k (.inl (hk k hc))
    have stays : (pt.controlled k).startsOn k ≠ true := by
      rw [Ne, Port.startsOn_iff, hk k hc]; simp
    rw [pt.worked_control hc, if_neg stays]
    unfold Port.controlled
    rw [off]
    refine ⟨fun hs => ?_, fun hs => ?_⟩ <;> rw [pt.cooled_of_ne (by simp [hs])]
    · have own := Port.ownWork_off
        { pt with cooldown := pt.cooldown - 1, control := none, divisor := k.divisor.getD pt.divisor } (.inl hs)
      rw [Port.applyDivisor_disabled { pt with cooldown := pt.cooldown - 1, control := none } k hs, own]
      exact ⟨hs, rfl⟩
    · have own := Port.ownWork_off { pt with cooldown := pt.cooldown - 1, control := none } (.inr hs)
      rw [Port.applyDivisor_other { pt with cooldown := pt.cooldown - 1, control := none } k (by simp [hs]), own]
      exact hs

/-- R47: OFF takes any port to DISABLED. -/
theorem Port.boundaryWork_off (d : Option Nat) (hc : pt.control = some { power := .off, divisor := d }) :
    (pt.boundaryWork x).1.state = .disabled ∧ (pt.boundaryWork x).1.divisor = d.getD pt.divisor := by
  obtain ⟨k1, k2, _⟩ := pt.boundaryWork_kept x
  obtain ⟨h1, h2, _⟩ := pt.controlled_off { power := .off, divisor := d } (.inl rfl)
  rw [k1, k2, pt.worked_control hc, if_neg (by rw [Port.startsOn_iff]; simp), Port.ownWork_off _ (.inl h1)]
  exact ⟨h1, h2⟩

/-- R47: OFF then ON does both in turn. -/
theorem Port.boundaryWork_offThenOn (d : Option Nat) (hc : pt.control = some { power := .offThenOn, divisor := d }) :
    (pt.boundaryWork x).1.divisor = d.getD pt.divisor ∧
      (pt.boundaryWork x).1.state = if pt.cooldown ≤ 1 then .starting else .disabled := by
  obtain ⟨k1, k2, _⟩ := pt.boundaryWork_kept x
  obtain ⟨h1, h2, h3⟩ := pt.controlled_off { power := .offThenOn, divisor := d } (.inr rfl)
  have starts : (pt.controlled { power := .offThenOn, divisor := d }).startsOn { power := .offThenOn, divisor := d } = true ↔
      pt.cooldown ≤ 1 := by
    rw [Port.startsOn_iff, h1, h3]
    simp
    omega
  rw [k1, k2, pt.worked_control hc]
  by_cases h : pt.cooldown ≤ 1
  · rw [if_pos (starts.mpr h), if_pos h]; exact ⟨h2, rfl⟩
  · rw [if_neg (fun e => h (starts.mp e)), if_neg h, Port.ownWork_off _ (.inl h1)]; exact ⟨h2, h1⟩

/-- R47: ON starts a DISABLED or TRIPPED port without cooldown, and is dropped with it. -/
theorem Port.boundaryWork_on (d : Option Nat) (hc : pt.control = some { power := .on, divisor := d })
    (hs : pt.state = .disabled ∨ (pt.state = .tripped ∧ d = none)) :
    (pt.boundaryWork x).1.divisor = d.getD pt.divisor ∧
    (pt.cooldown ≤ 1 → (pt.boundaryWork x).1.state = .starting ∧ (pt.boundaryWork x).1.closed = true ∧
      (pt.boundaryWork x).1.starting = 50) ∧
    (2 ≤ pt.cooldown → (pt.boundaryWork x).1.state = pt.state) := by
  obtain ⟨k1, k2, k3, k4, _⟩ := pt.boundaryWork_kept x
  have hstate : pt.state = .disabled ∨ pt.state = .tripped := hs.imp_right And.left
  have ne : pt.state ≠ .testing := by rcases hstate with h | h <;> simp [h]
  have e : pt.controlled { power := .on, divisor := d } =
      { pt with cooldown := pt.cooldown - 1, control := none, divisor := d.getD pt.divisor } := by
    unfold Port.controlled
    rw [pt.cooled_of_ne ne, Port.applyOff_keep _ _ (.inr rfl)]
    rcases hs with h | ⟨h, rfl⟩
    · exact Port.applyDivisor_disabled { pt with cooldown := pt.cooldown - 1, control := none } _ h
    · exact Port.applyDivisor_other { pt with cooldown := pt.cooldown - 1, control := none } _ (by simp [h])
  have starts : (pt.controlled { power := .on, divisor := d }).startsOn { power := .on, divisor := d } = true ↔
      pt.cooldown ≤ 1 := by
    rw [Port.startsOn_iff, e]
    simp only [hstate, true_or, true_and, and_true]
    omega
  rw [k1, k2, k3, k4, pt.worked_control hc]
  by_cases h : pt.cooldown ≤ 1
  · rw [if_pos (starts.mpr h), e]
    exact ⟨rfl, fun _ => ⟨rfl, rfl, rfl⟩, fun h' => by omega⟩
  · rw [if_neg (fun g => h (starts.mp g)), e,
      Port.ownWork_off { pt with cooldown := pt.cooldown - 1, control := none, divisor := d.getD pt.divisor } hstate]
    exact ⟨rfl, fun h' => absurd h' h, fun _ => rfl⟩

end

end Sys2Proof.Machine
end

