-- ==== Sys2Proof/Proofs/PortBoundary.lean ====
section
/-! PROOF. PortAtABoundary: the end of a port's round, its own boundary work and the cell that waits for its self-test (R37,
R40, R41, R43, R45, R47, R49, R57, R66, R68, R69, R95). -/
namespace Sys2Proof.Machine

/-! ### The end of a round (R41, R65, R66) -/

section
variable (x : Ctx) (p : PortId) (l : Link)

/-- What the end of a round leaves of the port: its state, its control pending and the counters of no call. -/
def Port.standing (pt : Port) :=
  ((pt.state, pt.divisor, pt.starting, pt.cooldown, pt.idleFlag, pt.lineLow), pt.control, pt.selfTest,
    (pt.framing, pt.noReply, pt.stuck), pt.probeCursor)

/-- R66: the call that the boundary meets: the counters, the last reason and the round end. -/
theorem Link.cutCall_port : ∃ lateCut check lastReason current, (l.cutCall x p).port = { l.port with
    lateCut := lateCut, check := check, lastReason := lastReason, current := current } := by
  unfold Link.cutCall
  split
  · dsimp only; rw [Link.handListed_port]; exact ⟨_, _, _, _, rfl⟩
  · dsimp only; rw [Link.handListed_port]; exact ⟨_, _, _, _, rfl⟩
  · dsimp only; rw [Link.handListed_port]; exact ⟨_, _, _, _, rfl⟩
  · split
    · exact ⟨_, _, _, _, rfl⟩
    · dsimp only; rw [Link.handListed_port]; exact ⟨_, _, _, _, rfl⟩
  all_goals exact ⟨_, _, _, _, rfl⟩

theorem Link.roundOver_standing : (l.roundOver x p).port.standing = l.port.standing := by
  have cut (m : Link) : (m.cutCall x p).port.standing = m.port.standing := by
    obtain ⟨_, _, _, _, e⟩ := m.cutCall_port x p
    rw [e]; rfl
  unfold Link.roundOver
  split
  · split
    · rw [Link.leaveRunning_leftRound]; rfl
    · rw [cut]
      split
      · rfl
      · rw [(l.deadline_spec x p).2.1]; rfl
  · rfl

theorem Link.roundOver_away_running (h : l.port.state ≠ .running) : l.roundOver x p = l := by
  unfold Link.roundOver
  rw [if_neg h]

/-- R66: without a power OFF pending, the stations left having been reported, the boundary meets the call under way. -/
theorem Link.roundOver_cut (hs : l.port.state = .running)
    (hk : ∀ k, l.port.control = some k → k.power = .keep ∨ k.power = .on)
    (hd : l.port.deadlinePassed = true ∨ l.port.remaining = []) : ∃ rest, l.roundOver x p =
      ({ port := { l.port with deadlinePassed := true, remaining := rest }, path := l.path } : Link).cutCall x p := by
  have stays : l.port.powerOffPending = false := by
    unfold Port.powerOffPending
    cases hc : l.port.control with
    | none => rfl
    | some k => rcases hk k hc with e | e <;> simp [e]
  unfold Link.roundOver
  rw [if_pos hs, stays, if_neg (by decide)]
  by_cases h : l.port.deadlinePassed = true
  · refine ⟨l.port.remaining, ?_⟩
    rw [if_pos h, ← h]
  · refine ⟨[], ?_⟩
    rw [if_neg h]
    unfold Link.deadline
    dsimp only
    rw [if_pos (hd.resolve_left h)]

/-- R66: a round with nothing left to do. -/
theorem Link.cutCall_done (h : l.port.phase = .ended ∨ (l.port.phase = .polling ∧ l.port.target = none)) :
    l.cutCall x p = l := by
  unfold Link.cutCall
  rcases h with h | ⟨h, ht⟩
  · rw [h]
  · rw [h]
    dsimp only
    rw [if_pos ht]

/-- The report that a call under way ends with at a boundary (R66). -/
def RoundPhase.cutReport : RoundPhase → Report
  | .quieting => .bad
  | .idle | .framing | .polling | .awaiting | .receiving | .ended => .late

theorem RoundPhase.cutReport_isMiss (ph : RoundPhase) : ph.cutReport.isMiss = true := by cases ph <;> rfl

/-- R66: the call under way: its counters, its reason, the round end, and its station. -/
theorem Link.cutCall_called (g : Target) (hg : l.port.target = some g)
    (hph : l.port.phase = .receiving ∨ l.port.phase = .quieting ∨ l.port.phase = .awaiting ∨ l.port.phase = .polling) :
    (l.cutCall x p).port = { l.port with
      lateCut := if l.port.phase = .receiving then min 65535 (l.port.lateCut + 1) else l.port.lateCut,
      check := if l.port.phase = .quieting then min 65535 (l.port.check + 1) else l.port.check,
      lastReason := if l.port.phase = .quieting then some (l.port.fault.getD .length) else l.port.lastReason,
      current := l.port.current.map fun f => { f with roundEnd := l.port.characterTime x } } ∧
    ∀ i : Fin 8, (l.cutCall x p).path.stations[stationAt p i] =
      if i = g.addr ∧ g.probe = false then l.path.stations[stationAt p i].missed.1 else l.path.stations[stationAt p i] := by
  have path : (l.cutCall x p).path = (l.handListed x p l.port.phase.cutReport).path := by
    rw [Link.cutCall_path]
    rcases hph with h | h | h | h <;> rw [h] <;> rfl
  refine ⟨?_, fun i => ?_⟩
  · unfold Link.cutCall
    rcases hph with h | h | h | h <;> rw [h] <;> dsimp only
    · rw [Link.handListed_port]; simp [Port.markEnd, Port.figure, countEvent, Port.characterTime, h]
    · rw [Link.handListed_port]; simp [Port.markEnd, Port.figure, countEvent, Port.characterTime, h]
    · rw [Link.handListed_port]; simp [Port.markEnd, Port.figure, Port.characterTime, h]
    · rw [if_neg (by rw [hg]; simp), Link.handListed_port]; simp [Port.markEnd, Port.figure, Port.characterTime, h]
  · rw [path, Link.handListed_stations x p _ l g hg, Station.reported_miss (RoundPhase.cutReport_isMiss _)]
    have same : stationAt p i = stationAt p g.addr ↔ i = g.addr := ⟨fun h => (stationAt_inj h).2, fun h => by rw [h]⟩
    simp only [same]

end

/-! ### The cell that waits for a self-test (R49, R151) -/

/-- A result handed back, or none. -/
def Scanner.told (sc : Scanner) (o : Option (Fin 16 × Result)) : Scanner :=
  match o with
  | some r => sc.finish r.1 r.2
  | none => sc

theorem State.portWork_told (s : State) (p : PortId) : (s.portWork p).scan = s.scan.told (s.port p).selfTestResult := by
  cases h : (s.port p).selfTestResult with
  | none => simp [State.portWork, Scanner.told, h]
  | some r => simp [State.portWork, Scanner.told, h]

/-- A result handed back for another cell leaves a held cell. -/
theorem Scanner.mem_told_other {sc : Scanner} {o : Option (Fin 16 × Result)} {h : Held} (hm : h ∈ sc.held)
    (ho : ∀ r, o = some r → r.1 ≠ h.cell) : h ∈ (sc.told o).held := by
  cases o with
  | none => exact hm
  | some r => exact List.mem_map.mpr ⟨h, hm, if_neg (fun e => ho r rfl e.symm)⟩

/-- A result handed back for a held cell is its result. -/
theorem Scanner.mem_told_own {sc : Scanner} {r : Result} {h : Held} (hm : h ∈ sc.held) :
    { h with result := some r } ∈ (sc.told (some (h.cell, r))).held :=
  List.mem_map.mpr ⟨h, hm, if_pos rfl⟩

/-- A boundary's work before the ports leaves the scanner. -/
theorem State.beforePorts_sameScan (s : State) (a b : Bool) :
    SameScan s (s.endInterval a b).moveSitting.takeSnapshots.ownMix := by
  have timer : SameScan s s.advanceTimer := ⟨State.advanceTimer_scan s, congrArg Writer.arming s.advanceTimer_writer⟩
  exact ((((timer.trans (State.roundsOver_sameScan _ _ _ _)).trans (State.closeFrame_sameScan _)).trans
    (State.roundsOver_sameScan _ _ _ _)).trans (State.moveSitting_sameScan _)).trans (State.takeSnapshots_sameScan _)

/-- A scan that begins keeps every held cell, its due flag apart (assumption 13). -/
theorem State.mem_beginScan (s : State) (u : Held) (h : u ∈ s.scan.held) :
    ∃ w ∈ s.beginScan.scan.held, w.cell = u.cell ∧ w.kind = u.kind ∧ w.tag = u.tag ∧ w.result = u.result := by
  by_cases hs : s.scan.step = .idle
  · rw [s.beginScan_idle hs]
    dsimp only
    rw [State.boardFrom_held]
    exact ⟨_, List.mem_map.mpr ⟨u, h, rfl⟩, rfl, rfl, rfl, rfl⟩
  · rw [s.beginScan_busy hs]
    exact ⟨u, h, rfl, rfl, rfl, rfl⟩

theorem Port.selfTestResult_testing {pt : Port} {g : SelfTest} (hs : pt.state = .testing) (hg : pt.selfTest = some g) :
    pt.selfTestResult = some (g.cell,
      ⟨.done, BitVec.ofNat 32 g.pass, BitVec.ofNat 32 g.mismatch, if g.leader then 1 else 0⟩) := by
  have leader : BitVec.ofNat 32 (bit g.leader) = if g.leader then 1 else 0 := by cases g.leader <;> rfl
  unfold Port.selfTestResult
  rw [hs, hg, ← leader]
  rfl

theorem Port.selfTestResult_some {pt : Port} {r : Fin 16 × Result} (h : pt.selfTestResult = some r) :
    ∃ g, pt.state = .testing ∧ pt.selfTest = some g ∧ r.1 = g.cell := by
  unfold Port.selfTestResult at h
  split at h
  · cases h; exact ⟨_, ‹_›, ‹_›, rfl⟩
  · cases h

/-- R49: the cell that waits for a self-test has its counts as its result after the boundary that ends it. -/
theorem State.boundary_selfTest (s : State) (a b : Bool) (p : PortId) (g : SelfTest) (hs : (s.port p).state = .testing)
    (hg : (s.port p).selfTest = some g)
    (hother : ∀ q g', q ≠ p → (s.port q).state = .testing → (s.port q).selfTest = some g' → g'.cell ≠ g.cell) (h : Held)
    (hm : h ∈ s.scan.held) (hc : h.cell = g.cell) :
    ∃ u ∈ (s.boundary a b).scan.held, u.cell = h.cell ∧ u.kind = h.kind ∧ u.tag = h.tag ∧
      u.result = some ⟨.done, BitVec.ofNat 32 g.pass, BitVec.ofNat 32 g.mismatch, if g.leader then 1 else 0⟩ := by
  have parts : s.boundary a b = (s.endInterval a b).moveSitting.takeSnapshots.ownMix.beginInterval := rfl
  have scan := (s.beforePorts_sameScan a b).1
  have ports (q : PortId) : ((s.endInterval a b).moveSitting.takeSnapshots.ownMix.port q).state = (s.port q).state ∧
      ((s.endInterval a b).moveSitting.takeSnapshots.ownMix.port q).selfTest = (s.port q).selfTest := by
    obtain ⟨r, x, _, _, shown⟩ := s.endInterval_port a b q
    have standing := Link.roundOver_standing x q { port := s.port q, path := r }
    rw [State.port_of_lines (State.takeSnapshots_lines _), (State.moveSitting_ports _).1, shown.port]
    simp only [Port.standing, Prod.mk.injEq] at standing
    obtain ⟨⟨state, _⟩, _, selfTest, _⟩ := standing
    exact ⟨state, selfTest⟩
  rw [parts]
  generalize (s.endInterval a b).moveSitting.takeSnapshots.ownMix = v at scan ports ⊢
  rw [← scan] at hm
  have own := Port.selfTestResult_testing ((ports p).1.trans hs) ((ports p).2.trans hg)
  rw [← hc] at own
  have others (q : PortId) (hq : q ≠ p) (r : Fin 16 × Result) (hr : (v.port q).selfTestResult = some r) :
      r.1 ≠ h.cell := by
    obtain ⟨g', state, selfTest, cell⟩ := Port.selfTestResult_some hr
    rw [cell, hc]
    exact hother q g' hq ((ports q).1.symm.trans state) ((ports q).2.symm.trans selfTest)
  have second := v.portWork_other .b .a nofun
  have worked : { h with result := some ⟨.done, BitVec.ofNat 32 g.pass, BitVec.ofNat 32 g.mismatch, if g.leader then 1 else 0⟩ } ∈
      ((v.portWork .a).portWork .b).scan.held := by
    rw [State.portWork_told, State.portWork_told, second]
    cases p with
    | a =>
      rw [own]
      exact Scanner.mem_told_other (Scanner.mem_told_own hm) (others .b nofun)
    | b =>
      rw [own]
      exact Scanner.mem_told_own (Scanner.mem_told_other hm (others .a nofun))
  rw [← (State.ageCloses_sameScan _).1, ← State.refresh_scan] at worked
  exact State.mem_beginScan _ _ worked

/-! ### A port's round at a boundary, in the terms of the statement (R41, R66, R69) -/

section
variable {x y : Ctx} {p : PortId} {pt : Port} {q : Path} {roundEnd : Nat}

/-- What the boundary work leaves of the counters and the latched figures, after a round that ended as `r`. -/
theorem Port.boundaryWork_counters (r : Port) (y : Ctx) :
    ((r.boundaryWork y).1.framing, (r.boundaryWork y).1.noReply, (r.boundaryWork y).1.stuck) =
      (r.framing, r.noReply, r.stuck) ∧
    (r.boundaryWork y).1.lateCut = r.lateCut ∧ (r.boundaryWork y).1.check = r.check ∧
    (r.boundaryWork y).1.lastReason = r.lastReason ∧
    (r.boundaryWork y).1.figures = r.current.getD Figures.reset := by
  obtain ⟨_, _, figures, counters, lastReason, _⟩ := r.boundaryWork_round y
  simp only [Prod.mk.injEq] at counters
  obtain ⟨framing, check, noReply, lateCut, stuck⟩ := counters
  exact ⟨by rw [framing, noReply, stuck], lateCut, check, lastReason, figures⟩

/-- R66: the call that the boundary met. -/
theorem boundaryWork_called (hs : pt.state = .running)
    (hk : ∀ k, pt.control = some k → k.power = .keep ∨ k.power = .on)
    (hd : pt.deadlinePassed = true ∨ pt.remaining = []) (hx : roundEnd = x.tick / (88 * (pt.divisor + 1))) (g : Target)
    (hg : pt.target = some g)
    (hph : pt.phase = .receiving ∨ pt.phase = .quieting ∨ pt.phase = .awaiting ∨ pt.phase = .polling) (m : Link)
    (hm : m = ({ port := pt, path := q } : Link).roundOver x p) :
    (m.port.boundaryWork y).1.lateCut =
      (if pt.phase = .receiving then min 65535 (pt.lateCut + 1) else pt.lateCut) ∧
    (m.port.boundaryWork y).1.check = (if pt.phase = .quieting then min 65535 (pt.check + 1) else pt.check) ∧
    (m.port.boundaryWork y).1.lastReason =
      (if pt.phase = .quieting then some (pt.fault.getD .length) else pt.lastReason) ∧
    (∀ fig, pt.current = some fig → (m.port.boundaryWork y).1.figures = { fig with roundEnd := roundEnd }) ∧
    ∀ i : Fin 8, m.path.stations[stationAt p i] =
      if i = g.addr ∧ g.probe = false then q.stations[stationAt p i].missed.1 else q.stations[stationAt p i] := by
  obtain ⟨rest, hcut⟩ := Link.roundOver_cut x p { port := pt, path := q } hs hk hd
  obtain ⟨hport, hstations⟩ := Link.cutCall_called x p
    { port := { pt with deadlinePassed := true, remaining := rest }, path := q } g hg hph
  rw [← hcut, ← hm] at hport hstations
  obtain ⟨_, lateCut, check, lastReason, figures⟩ := m.port.boundaryWork_counters y
  refine ⟨by rw [lateCut, hport], by rw [check, hport], by rw [lastReason, hport], fun fig hfig => ?_, hstations⟩
  rw [figures, hport, hx]
  dsimp only
  rw [hfig]
  rfl

/-- R66, R69: a round that was done before the boundary. -/
theorem boundaryWork_done (hs : pt.state = .running)
    (hk : ∀ k, pt.control = some k → k.power = .keep ∨ k.power = .on)
    (hd : pt.deadlinePassed = true ∨ pt.remaining = [])
    (hph : pt.phase = .ended ∨ (pt.phase = .polling ∧ pt.target = none)) (m : Link)
    (hm : m = ({ port := pt, path := q } : Link).roundOver x p) :
    ((m.port.boundaryWork y).1.lateCut, (m.port.boundaryWork y).1.check, (m.port.boundaryWork y).1.lastReason) =
      (pt.lateCut, pt.check, pt.lastReason) ∧
    (m.port.boundaryWork y).1.figures = pt.current.getD Figures.reset ∧
    ∀ i : Fin 8, m.path.stations[stationAt p i] = q.stations[stationAt p i] := by
  obtain ⟨rest, hcut⟩ := Link.roundOver_cut x p { port := pt, path := q } hs hk hd
  have done := Link.cutCall_done x p { port := { pt with deadlinePassed := true, remaining := rest }, path := q } hph
  have e := hm.trans (hcut.trans done)
  obtain ⟨_, lateCut, check, lastReason, figures⟩ := m.port.boundaryWork_counters y
  rw [lateCut, check, lastReason, figures, e]
  exact ⟨rfl, rfl, fun _ => rfl⟩

/-- R41, R69: a power OFF from RUNNING. -/
theorem boundaryWork_leftRunning (hs : pt.state = .running)
    (hoff : ∃ c, pt.control = some c ∧ (c.power = .off ∨ c.power = .offThenOn))
    (hx : roundEnd = x.tick / (88 * (pt.divisor + 1))) (m : Link)
    (hm : m = ({ port := pt, path := q } : Link).roundOver x p) :
    (m.port.boundaryWork y).1.phase = .idle ∧ (m.port.boundaryWork y).1.pollList = [] ∧
    (m.port.boundaryWork y).1.target = none ∧ (m.port.boundaryWork y).1.reply = none ∧
    (m.port.boundaryWork y).1.probeCursor = pt.probeCursor ∧ (m.port.boundaryWork y).1.lastReason = pt.lastReason ∧
    ((m.port.boundaryWork y).1.framing, (m.port.boundaryWork y).1.check, (m.port.boundaryWork y).1.noReply,
      (m.port.boundaryWork y).1.lateCut, (m.port.boundaryWork y).1.stuck) =
      (pt.framing, pt.check, pt.noReply, pt.lateCut, pt.stuck) ∧
    (∀ fig, pt.current = some fig → (m.port.boundaryWork y).1.figures =
      if pt.phase = .ended ∨ (pt.phase = .polling ∧ pt.deadlinePassed = true ∧ pt.target = none)
      then fig else { fig with roundEnd := roundEnd }) ∧
    ∀ i : Fin 8, m.path.stations[stationAt p i] =
      if q.stations[stationAt p i].state = .vacant then q.stations[stationAt p i]
      else { q.stations[stationAt p i] with state := .lost, lostCause := some .port, goodRun := 0, missRun := 0 } := by
  have left := Link.roundOver_off p x { port := pt, path := q } hs hoff
  rw [← hm] at left
  have hport : m.port = pt.leftRound (({ port := pt, path := q } : Link).leaveRunning x p).port.current := by
    rw [left]; exact Link.leaveRunning_leftRound ..
  have hcurrent := Link.leaveRunning_current x p { port := pt, path := q }
  have notRunning : (m.port.boundaryWork y).1.state ≠ .running := by
    obtain ⟨⟨power, d⟩, hc, hp⟩ := hoff
    have hcontrol : m.port.control = some { power := power, divisor := d } := by rw [hport]; exact hc
    rcases hp with h | h <;> dsimp only at h <;> subst h
    · rw [(m.port.boundaryWork_off y d hcontrol).1]; decide
    · rw [(m.port.boundaryWork_offThenOn y d hcontrol).2]; split <;> decide
  obtain ⟨phase, target, reply⟩ := m.port.boundaryWork_idle y notRunning
  obtain ⟨_, _, figures, counters, lastReason, pollList, probeCursor⟩ := m.port.boundaryWork_round y
  rw [target, reply, figures, counters, lastReason, pollList, probeCursor, hport]
  refine ⟨hport ▸ phase, rfl, rfl, rfl, rfl, rfl, rfl, fun fig hfig => ?_, fun i => ?_⟩
  · show Option.getD (({ port := pt, path := q } : Link).leaveRunning x p).port.current Figures.reset = _
    rw [hcurrent]
    simp only [Port.roundDone_iff]
    rw [hfig, hx]
    split <;> rfl
  · rw [left, Link.leaveRunning_stations, if_pos rfl, Station.portLost_eq]

end

/-! ### The statement -/

/-- R95: the void frame that the report at a boundary makes of a channel (R65, R66). -/
theorem boundary_void_frame (s : State) (p : PortId) (first second : Bool) (a : Fin 8) (m : Fin 2) (c : Fin 32) (f : Nat)
    (sn : Snapshot) (st : Station) (asked : Bool) (last : Report) (cause : VoidCause)
    (hA : p = .a → first = true) (hB : p = .b → second = true) (hs : (s.port p).state = .running)
    (hk : ∀ k, (s.port p).control = some k → k.power = .keep ∨ k.power = .on)
    (how : ((s.port p).deadlinePassed = false ∧ a ∈ (s.port p).remaining ∧ last = .late) ∨
      ((s.port p).target = some { addr := a, probe := false } ∧
        ((s.port p).deadlinePassed = true ∨ a ∉ (s.port p).remaining) ∧
        (((s.port p).phase = .quieting ∧ last = .bad) ∨
          (((s.port p).phase = .receiving ∨ (s.port p).phase = .awaiting ∨ (s.port p).phase = .polling) ∧
            last = .late))))
    (hc : c = channelOf (stationAt p a) m) (hf : s.ctx.polled = some f) (hsn : s.path.channels[c].snapshot f = some sn)
    (hon : sn.onRecord = true) (hse : s.path.channels[c].seated = true) (hun : s.path.channels[c].settled = false)
    (hrun : s.path.channels[c].run = none) (hopen : s.sitting.isOpen = true) (hclose : s.sitting.close = none)
    (hcur : s.sitting.cur = true) (hsheet : s.writer.sheets[trackOf (soundTrack c)] = none)
    (hst : st = s.path.stations[stationAt p a].missed.1)
    (hasked : asked = ((st.mics[m].button || sn.settings.privacy) && !sn.settings.bar))
    (hcause : some cause = firstCause asked s.supply.warning false st
      (if st.mics[m].present = false then some .noMic else last.lastCause)) :
    (s.boundary first second).path.channels[c].voids = min 4294967295 (s.path.channels[c].voids + 1) ∧
      (s.boundary first second).path.channels[c].run =
        some { cause := cause, first := f, length := 1, tail := 0, held := false } := by
  have hfirst : reportsFirst first second p = true := by
    cases p
    · exact hA rfl
    · exact hB rfl
  obtain ⟨l, x, lport, lstation, lchannel, xsitting, xwarning, xpolled, stands⟩ :=
    s.boundary_reported first second p a m c hc hfirst hopen hclose hcur hsheet
  have e := l.roundOver_void x p a m c f sn st asked last cause (by rw [lport]; exact hs) (by rw [lport]; exact hk)
    (by rw [lport]; exact how) hc (xpolled.trans hf) (by rw [lchannel]; exact hsn) hon (by rw [lchannel]; exact hse)
    (by rw [lchannel]; exact hun) (by rw [xsitting]; unfold Sitting.within; rw [hclose]) (by rw [lchannel]; exact hrun)
    (by rw [lstation]; exact hst) hasked (by rw [xwarning]; exact hcause.symm)
  obtain ⟨run, voids⟩ := stands (by rw [e])
  rw [run, voids, e, lchannel]
  exact ⟨rfl, rfl⟩

/-- R52: what a port's boundary work leaves of the path: the mark and the attention of an entry into RUNNING. -/
theorem Link.boundaryWork_restored (x : Ctx) (p : PortId) (l : Link) :
    (l.port.state ≠ .starting → (l.boundaryWork x p).path = l.path) ∧
    (l.port.state = .starting → l.port.control = none →
      (2 ≤ l.port.starting → (l.boundaryWork x p).path = l.path) ∧
      (l.port.starting = 1 → (l.boundaryWork x p).path = { l.path with
        attn := l.path.attn.raise .port
        bays := if x.sitting.marks x.frame then
            l.path.bays.offer { kind := .portRestored p, frame := x.frame, time := x.tod }
          else l.path.bays })) := by
  have stays (h : (l.port.boundaryWork x).2 = false) : (l.boundaryWork x p).path = l.path := by
    unfold Link.boundaryWork
    dsimp only
    rw [h]
    rfl
  have marked (h : (l.port.boundaryWork x).2 = true) :
      (l.boundaryWork x p).path = (l.path.mark x (.portRestored p) x.frame).raise .port := by
    unfold Link.boundaryWork
    dsimp only
    rw [h]
    rfl
  refine ⟨fun hs => stays ?_, fun hs hc => ?_⟩
  · rw [← Bool.not_eq_true]
    exact fun h => hs (l.port.boundaryWork_entered x h)
  · obtain ⟨counts, enters, _⟩ := l.port.boundaryWork_live x (by rw [hc]; nofun)
    refine ⟨fun h => stays (counts hs h).2.2, fun h => ?_⟩
    obtain ⟨_, _, _, _, entered⟩ := enters hs h
    rw [marked entered]
    unfold Path.mark
    split <;> rfl

/-- Settles O12: the end of the round by `boundary_port`, the port's own work case by case, and the channels by
`boundary_reported`. -/
theorem portAtABoundary : Obligations.PortAtABoundary := by
  unfold Obligations.PortAtABoundary
  refine ⟨fun s a b p hr => ?port, ?void, Link.boundaryWork_restored⟩
  case void =>
    intro s p first second a m c f sn st asked last cause hA hB hr hs hk how hc hf hsn hon hse hun hrun hopen hclose hcur
      hsheet hst hasked hcause
    exact ⟨_, exec_boundary s first second hr, boundary_void_frame s p first second a m c f sn st asked last cause hA hB hs
      hk how hc hf hsn hon hse hun hrun hopen hclose hcur hsheet hst hasked hcause⟩
  case port =>
    obtain ⟨q, x, y, m, htick, hq, hm, yboundary, ywarning, port, raised, opened, kept⟩ := s.boundary_port a b p
    have standing := Link.roundOver_standing x p { port := s.port p, path := q }
    rw [← hm] at standing
    simp only [Port.standing, Prod.mk.injEq] at standing
    obtain ⟨⟨state, divisor, starting, cooldown, idleFlag, lineLow⟩, control, selfTest, ⟨framing, noReply, stuck⟩, -⟩ :=
      standing
    obtain ⟨wcooldown, wcontrol, wfigures, _⟩ := m.port.boundaryWork_round y
    have live := m.port.boundaryWork_live y
    have testing := m.port.boundaryWork_testing y
    have keep := m.port.boundaryWork_keep y
    have off := m.port.boundaryWork_off y
    have offThenOn := m.port.boundaryWork_offThenOn y
    have on := m.port.boundaryWork_on y
    have begun := m.port.boundaryWork_running y
    rw [cooldown] at wcooldown
    rw [control, state, starting, idleFlag, lineLow] at live
    rw [control, state] at testing
    rw [control, state, divisor] at keep
    rw [control, divisor] at off
    rw [control, divisor, cooldown] at offThenOn
    rw [control, divisor, cooldown, state] at on
    refine ⟨_, exec_boundary s a b hr, ?_⟩
    rw [port]
    refine ⟨wcooldown, wcontrol, fun hk => ?live, testing, s.boundary_selfTest a b p, keep, off, offThenOn, on,
      fun h => ?sending, fun h => ?begun, fun hs => ?figures, fun roundEnd after hx hopening hnot hs => ?round⟩
    case live =>
      obtain ⟨counts, enters, waits, again, runs⟩ := live hk
      refine ⟨fun hs h => ?_, fun hs h => ?_, waits, again, fun hs => ⟨runs hs, (begun (runs hs)).1⟩⟩
      · obtain ⟨h1, h2, _⟩ := counts hs h
        exact ⟨h1, h2⟩
      · obtain ⟨h1, h2, h3, h4, entered⟩ := enters hs h
        exact ⟨h1, h2, h3, h4, (begun h1).1, raised entered⟩
    case sending =>
      rw [m.port.boundaryWork_sending y h, yboundary]
      rfl
    case begun =>
      rw [← ywarning]
      exact (begun h).2
    case figures =>
      rw [wfigures, hm, Link.roundOver_away_running x p _ hs]
    case round =>
      have shown (i : Fin 8) :
          (s.boundary a b).path.stations[stationAt p i] = after m.path.stations[stationAt p i] := by
        by_cases h : s.sitting.state = .armed ∧ s.sitting.opening ≠ none
        · rw [hopening h.1 h.2, opened h.1 h.2 i]
          rfl
        · rw [not_and_or, not_not] at h
          rw [hnot h, kept h i]
          rfl
      rw [← htick] at hx
      refine ⟨fun hk hd => ⟨?_, fun g hg hph => ?_, fun hph => ?_⟩, fun hoff => ?_⟩
      · rw [(m.port.boundaryWork_counters y).1, framing, noReply, stuck]
      · obtain ⟨h1, h2, h3, h4, h5⟩ := boundaryWork_called (y := y) hs hk hd hx g hg hph m hm
        refine ⟨h1, h2, h3, h4, fun i => ?_⟩
        rw [shown, h5, hq]
      · obtain ⟨h1, h2, h3⟩ := boundaryWork_done (y := y) hs hk hd hph m hm
        refine ⟨h1, h2, fun i => ?_⟩
        rw [shown, h3, hq]
      · obtain ⟨h1, h2, h3, h4, h5, h6, h7, h8, h9⟩ := boundaryWork_leftRunning (y := y) hs hoff hx m hm
        refine ⟨h1, h2, h3, h4, h5, h6, h7, h8, fun i => ?_⟩
        rw [shown, h9, hq]

end Sys2Proof.Machine
end

