-- ==== Sys2Proof/Proofs/FinishedReplies.lean ====
section
/-! PROOF. A reply that END ends: a good bundle applied to its station, or a bad one (R56, R61 to R64, R71 to R82, R95). -/
namespace Sys2Proof.Machine

/-! ### A good bundle handed to a station (R72 to R76, R79 to R82) -/

/-- A good bundle's change of state sets no drift flag: it keeps the two, or clears them with the slip (R72, R76). -/
theorem Station.apply_good_drift (st : Station) (probe : Bool) (b : Bundle) (m : Fin 2) (h : st.mics[m].drift = false) :
    (st.apply probe (.good b)).1.mics[m].drift = false := by
  have cleared (u : Station) : u.clearSlip.mics[m].drift = false := by simp [Station.clearSlip]
  cases probe with
  | true =>
    show (st.probed b.unit).1.mics[m].drift = false
    unfold Station.probed
    split
    · exact cleared _
    · split
      · exact h
      · exact cleared _
    all_goals exact h
  | false =>
    show (st.listed b.unit).1.mics[m].drift = false
    unfold Station.listed
    split
    · exact h
    · exact h
    all_goals
      split
      · exact cleared _
      · repeat' split
        all_goals exact h

section
variable (x : Ctx) (polled : Option Nat) (k : Fin 16) (p : Path)

/-- A drift flag that a bundle set raises STATION (R81, R82). -/
theorem Path.driftMark_raises (m : Fin 2) (h : p.stations[k].mics[m].drift = true) :
    (p.driftMark x polled k false m).attn.pending.getLsbD Cause.station.position = true := by
  unfold Path.driftMark
  dsimp only
  rw [if_pos ⟨rfl, h⟩]
  exact Path.stationMark_raises ..

/-- The record of a good bundle before its drift marks: the change of state, with its mark (R72 to R76, R82). -/
def Path.applyGood (probe : Bool) (b : Bundle) : Path :=
  let p1 := p.setStation k (p.stations[k].reported probe (.good b))
  match (p.stations[k].apply probe (.good b)).2 with
  | some news => p1.stationMark x polled (news.mark k)
  | none => p1

/-- A good bundle's effect on the record: the change of state with its mark, then the drift of each microphone (R81). -/
theorem Path.recordReport_good (probe : Bool) (b : Bundle) :
    p.recordReport x polled k probe (.good b) =
      ((p.applyGood x polled k probe b).driftMark x polled k (p.stations[k].apply probe (.good b)).1.mics[(0 : Fin 2)].drift
        0).driftMark x polled k (p.stations[k].apply probe (.good b)).1.mics[(1 : Fin 2)].drift 1 := rfl

theorem Path.applyGood_stations (probe : Bool) (b : Bundle) :
    (p.applyGood x polled k probe b).stations[k] = p.stations[k].reported probe (.good b) := by
  have set := (p.setStation_get k k (p.stations[k].reported probe (.good b))).trans (if_pos rfl)
  unfold Path.applyGood
  dsimp only
  split
  · rw [(Path.keeps_stationMark ..).stations]; exact set
  · exact set

/-- A good bundle that makes a station join or be replaced raises STATION (R72, R76, R82). -/
theorem Path.report_good_raises (probe : Bool) (b : Bundle) (h : (p.stations[k].apply probe (.good b)).2 ≠ none) :
    (p.report x polled k probe (.good b)).attn.pending.getLsbD Cause.station.position = true := by
  obtain ⟨news, hn⟩ := Option.ne_none_iff_exists'.mp h
  refine (p.recordReport_keeps x polled k probe _).pending _ ?_
  rw [Path.recordReport_good]
  refine (Path.keeps_driftMark ..).pending _ ((Path.keeps_driftMark ..).pending _ ?_)
  unfold Path.applyGood
  rw [hn]
  exact Path.stationMark_raises ..

/-- A good bundle that sets a drift flag raises STATION (R81, R82). -/
theorem Path.report_good_drifts (probe : Bool) (b : Bundle) (m : Fin 2)
    (hset : (p.stations[k].reported probe (.good b)).mics[m].drift = true) (hclear : p.stations[k].mics[m].drift = false) :
    (p.report x polled k probe (.good b)).attn.pending.getLsbD Cause.station.position = true := by
  refine (p.recordReport_keeps x polled k probe _).pending _ ?_
  rw [Path.recordReport_good]
  have before := p.stations[k].apply_good_drift probe b m hclear
  have after := p.applyGood_stations x polled k probe b
  match m, hset, before with
  | 0, hset, before =>
    rw [before]
    exact (Path.keeps_driftMark ..).pending _ (Path.driftMark_raises _ _ _ _ 0 (by rw [after]; exact hset))
  | 1, hset, before =>
    rw [before]
    refine Path.driftMark_raises _ _ _ _ 1 ?_
    rw [(Path.keeps_driftMark ..).stations, after]
    exact hset

end

/-! ### The reply that END ended (R62 to R64) -/

section
variable (x : Ctx) (p : PortId) (l : Link) (r : Reply)

/-- R62: the fault that stands, or with none the first check that fails, makes the bundle bad. -/
theorem Link.finishReply_bad (reason : BadReason) (hr : l.port.reply = some r)
    (h : l.port.fault = some reason ∨
      (l.port.fault = none ∧ bundleFault r.data (x.boundary.setWidth 8) = some reason)) :
    l.finishReply x p = l.badBundle x p reason := by
  unfold Link.finishReply
  rw [hr]
  rcases h with h | ⟨h, hb⟩
  · rw [h]
  · rw [h]; dsimp only; rw [hb]

/-- R62, R63: a reply without a fault that passes every check is a good bundle. -/
theorem Link.finishReply_good (g : Target) (hr : l.port.reply = some r) (hf : l.port.fault = none)
    (hb : bundleFault r.data (x.boundary.setWidth 8) = none) (hg : l.port.target = some g) :
    l.finishReply x p = l.goodBundle x p g (Bundle.parse r.data) := by
  unfold Link.finishReply
  rw [hr, hf]
  dsimp only
  rw [hb]
  dsimp only
  rw [hg]

/-- R61: an END in RECEIVING ends the reply. -/
theorem Link.event_end (h : l.port.phase = .receiving) : l.event x p (.control endChar) = l.finishReply x p := by
  rw [Link.event_of_receiving x p _ l h, Link.countFraming_of_ne l (by decide)]
  simp only [Link.laterEvent, if_true]

end

section
variable {s : State} {p : PortId} {samples : BitVec 88} {g : Target} {r : Reply}

/-- An END in RECEIVING, in the whole state: the reply is checked with the line supervisor's counts taken. -/
theorem State.lineSamples_end (hs : (s.port p).state = .running) (hn : (s.port p).sending = [])
    (hph : (s.port p).phase = .receiving) (he : receive samples = some (.control endChar)) :
    ∃ q, s.lineSamples p samples =
      s.onLink p fun l => Link.finishReply s.ctx p { l with port := (s.port p).withLineOf q } := by
  refine ⟨(s.port p).sampled samples, ?_⟩
  rw [s.lineSamples_heard p samples _ hs hn he, Port.sampled_running _ samples hs]
  exact congrArg _ (funext fun l => Link.event_end s.ctx p _ hph)

/-- R64: an END in RECEIVING of a reply with a fault, or whose data fail a check, is a bad bundle. -/
theorem lineSamples_bad (reason : BadReason) (hs : (s.port p).state = .running) (hn : (s.port p).sending = [])
    (hph : (s.port p).phase = .receiving) (he : receive samples = some (.control endChar))
    (hg : (s.port p).target = some g) (hr : (s.port p).reply = some r)
    (h : (s.port p).fault = some reason ∨
      ((s.port p).fault = none ∧ bundleFault r.data (s.timer.boundary.setWidth 8) = some reason)) :
    CallEnded s (s.lineSamples p samples) p g .bad (s.port p).busy ∧
      ((s.lineSamples p samples).port p).check = min 65535 ((s.port p).check + 1) ∧
      ((s.lineSamples p samples).port p).lastReason = some reason := by
  obtain ⟨q, e⟩ := State.lineSamples_end hs hn hph he
  rw [e]
  exact s.onLink_badBundle p _ ((s.port p).withLineOf q) g reason (Link.finishReply_bad s.ctx p _ r reason hr h) hg rfl rfl
    rfl rfl

/-- The end of a call whose reports stand in `l`, in the whole state: what it leaves of the port's own fields to `l`, and how
the round goes on (R56, R58, R59). -/
theorem State.onLink_endCall (s : State) (p : PortId) (op : Link → Link) (l : Link) (hop : op (s.link p) = l.endCall s.ctx p)
    (hround : (s.port p).deadlinePassed = l.port.deadlinePassed ∧ (s.port p).remaining = l.port.remaining ∧
      (s.port p).probeDone = l.port.probeDone ∧ (s.port p).probeCursor = l.port.probeCursor ∧
      (s.port p).pollList = l.port.pollList)
    (hcur : l.port.current.map Figures.listPolls = (s.port p).current.map Figures.listPolls ∧
      l.port.current.map Figures.probe = (s.port p).current.map Figures.probe)
    (hdiv : l.port.divisor = (s.port p).divisor) :
    ((s.onLink p op).port p).check = l.port.check ∧
      (((s.onLink p op).port p).phase = .polling ∨ ((s.onLink p op).port p).phase = .ended) ∧
      CallOver s (s.onLink p op) p l.port.busy ∧ RoundEndsNow s (s.onLink p op) p ∧
      ((s.onLink p op).port p).current.map Figures.good = l.port.current.map Figures.good ∧
      PathIs (s.onLink p op) l.path := by
  have hport := s.onLink_port_of_eq p op (congrArg Link.port hop)
  have hsome : l.port.current.map (fun _ => ()) = (s.port p).current.map (fun _ => ()) := by
    simpa only [Option.map_map] using congrArg (Option.map fun _ => ()) hcur.1
  obtain ⟨_, _, _, _, _, _, _, _, _, _, _, eport, hphase, hgood⟩ := l.endCall_port s.ctx p
  refine ⟨?_, ?_, Link.endCall_callOver s _ p l hround hcur hport (s.onLink_path_of_eq p op (congrArg Link.path hop)),
    Link.endCall_roundEndsNow s _ p l hport hsome hdiv, ?_, s.onLink_pathIs p op l.path ?_⟩
  · rw [hport, eport]
  · rw [hport, eport]; exact hphase
  · rw [hport, eport]; exact hgood
  · rw [hop]; exact l.endCall_path s.ctx p

/-- R63: a good bundle counted and handed to its station, before the call is over. -/
def Link.handGood (x : Ctx) (p : PortId) (t : Target) (b : Bundle) (l : Link) : Link :=
  ({ l with port := l.port.figure fun g => { g with good := g.good + 1 } } : Link).hand x p t.probe (.good b) t.addr

theorem Link.goodBundle_eq (x : Ctx) (p : PortId) (t : Target) (b : Bundle) (l : Link) :
    l.goodBundle x p t b = (l.handGood x p t b).endCall x p := rfl

/-- R63: an END in RECEIVING of a reply without a fault that passes every check: how the state then stands. -/
theorem lineSamples_good (hs : (s.port p).state = .running) (hn : (s.port p).sending = [])
    (hph : (s.port p).phase = .receiving) (he : receive samples = some (.control endChar))
    (hg : (s.port p).target = some g) (hr : (s.port p).reply = some r) (hf : (s.port p).fault = none)
    (hb : bundleFault r.data (s.timer.boundary.setWidth 8) = none) :
    OnlyLink s (s.lineSamples p samples) p ∧
      ((s.lineSamples p samples).port p).check = (s.port p).check ∧
      (((s.lineSamples p samples).port p).phase = .polling ∨ ((s.lineSamples p samples).port p).phase = .ended) ∧
      CallOver s (s.lineSamples p samples) p (s.port p).busy ∧ RoundEndsNow s (s.lineSamples p samples) p ∧
      ((s.lineSamples p samples).port p).current.map Figures.good =
        (s.port p).current.map (fun f => f.good + 1) ∧
      PathIs (s.lineSamples p samples)
        (s.path.report s.ctx s.ctx.polled (stationAt p g.addr) g.probe (.good (Bundle.parse r.data))) := by
  obtain ⟨q, e⟩ := State.lineSamples_end hs hn hph he
  rw [e]
  have figures {α : Type} (f : Figures → α) :
      ((s.port p).current.map fun g => { g with good := g.good + 1 }).map f =
        (s.port p).current.map fun g => f { g with good := g.good + 1 } := Option.map_map ..
  obtain ⟨hcheck, hphase, hover, hend, hgood, hpath⟩ := s.onLink_endCall p
    (fun l => Link.finishReply s.ctx p { l with port := (s.port p).withLineOf q })
    (Link.handGood s.ctx p g (Bundle.parse r.data) { port := (s.port p).withLineOf q, path := s.path })
    (Link.finishReply_good s.ctx p _ r g hr hf hb hg) ⟨rfl, rfl, rfl, rfl, rfl⟩
    ⟨figures Figures.listPolls, figures Figures.probe⟩ rfl
  exact ⟨s.onLink_only .., hcheck, hphase, hover, hend, hgood.trans (figures Figures.good), hpath⟩

end

/-- Settles O17: END hands the reply to R62's checks; a bad bundle is `CallEnded`, and a good one is the report of the bundle
read, whose record's part raises STATION and stands first in the bays. -/
theorem finishedReply : Obligations.FinishedReply := by
  unfold Obligations.FinishedReply
  intro s p x g r he hs hn hph hg hr
  have run := exec_characterReceived s p x (by rw [hs]; decide)
  refine ⟨fun hf hb => ?good, fun reason h => ?bad⟩
  case good =>
    obtain ⟨honly, hcheck, hphase, hover, hend, hgood, hpath⟩ := lineSamples_good hs hn hph he hg hr hf hb
    generalize Bundle.parse r.data = b at hpath ⊢
    have record (st : Station) :
        (if g.probe then st.probed b.unit else st.listed b.unit).1.takeBundle b = st.reported g.probe (.good b) := rfl
    have hstations (k : Fin 16) : (s.lineSamples p x).path.stations[k] =
        (s.path.report s.ctx s.ctx.polled (stationAt p g.addr) g.probe (.good b)).stations[k] := by rw [hpath.1]
    refine ⟨_, run, honly, hcheck, hphase, hover, hend, hgood, hpath,
      called_of_report s _ p g.addr g.probe (.good b) _ (by simp) (by simp) (record _) hpath, fun hnews => ?_,
      fun m hset hclear => ?_, fun u => ?_, fun k => ?_⟩
    · exact hpath.2.2 _ (s.path.report_good_raises _ _ _ _ b hnews)
    · refine hpath.2.2 _ (s.path.report_good_drifts _ _ _ _ b m ?_ hclear)
      rwa [hstations, Path.report_stations, if_pos rfl] at hset
    · rw [hpath.1]
      exact (Path.recordReport_keeps ..).bays.items u
    · rw [record, hstations, Path.report_stations]
  case bad =>
    obtain ⟨h, hcheck, hreason⟩ := lineSamples_bad reason hs hn hph he hg hr h
    exact ⟨_, run, h.only, hcheck, hreason, h.phase, h.callOver, h.roundEnd, h.probe,
      fun hp => ⟨h.path hp, h.called rfl hp⟩, h.raised rfl, h.bays, h.stations rfl⟩

end Sys2Proof.Machine
end

