-- ==== Sys2Proof/Proofs/FrameSent.lean ====
section
/-! PROOF. The poll list taken at FRAME_SENT: the first poll or the probe, and what is handed to the list under the supply
warning and after the deadline (R56 to R59, R65, R68, R71, R94, R95). -/
namespace Sys2Proof.Machine

/-! ### The warning's report (R68, R95) -/

/-- R95: what the warning's report leaves of a channel with no run pending. -/
theorem Path.report_supply (x : Ctx) (f : Nat) (k : Fin 16) (p : Path) (m : Fin 2) (sn : Snapshot) (asked : Bool)
    (hsn : p.channels[channelOf k m].snapshot f = some sn) (hon : sn.onRecord = true)
    (hse : p.channels[channelOf k m].seated = true) (hun : p.channels[channelOf k m].settled = false)
    (hwi : x.sitting.within f = true) (hrun : p.channels[channelOf k m].run = none)
    (ha : asked = ((p.stations[k].mics[m].button || sn.settings.privacy) && !sn.settings.bar)) :
    (p.report x (some f) k false .supply).channels[channelOf k m].settled = true ∧
      (p.report x (some f) k false .supply).channels[channelOf k m].outcome =
        some (.void (if asked then .privacy else .power)) := by
  obtain ⟨q, q1, _, q3, q4⟩ := p.report_settles x f k false .supply m
  rw [← q1] at hsn hse hun hrun
  rw [q4, q.settle_void x f (.report .supply) (channelOf k m) k m (stationOf_channelOf k m).symm (micOf_channelOf k m).symm
    sn p.stations[k] asked (if asked then .privacy else .power) hsn hon hse hun hwi hrun q3 ha
    (by cases asked <;> simp [causeOf])]
  exact ⟨rfl, rfl⟩

/-- R68, R95: the warning's report handed to several stations, for a channel of one of them. -/
theorem Path.reports_supply (x : Ctx) (p : PortId) (as : List (Fin 8)) (a : Fin 8) (ha : a ∈ as) (m : Fin 2) (f : Nat)
    (sn : Snapshot) (asked : Bool) (path : Path) (hx : x.polled = some f)
    (hsn : path.channels[channelOf (stationAt p a) m].snapshot f = some sn) (hon : sn.onRecord = true)
    (hse : path.channels[channelOf (stationAt p a) m].seated = true)
    (hun : path.channels[channelOf (stationAt p a) m].settled = false)
    (hrun : path.channels[channelOf (stationAt p a) m].run = none) (hwi : x.sitting.within f = true)
    (hasked : asked = ((path.stations[stationAt p a].mics[m].button || sn.settings.privacy) && !sn.settings.bar)) :
    let after := as.foldl (fun q a => q.report x x.polled (stationAt p a) false .supply) path
    after.channels[channelOf (stationAt p a) m].settled = true ∧
      after.channels[channelOf (stationAt p a) m].outcome = some (.void (if asked then .privacy else .power)) := by
  obtain ⟨q, q1, _, q3, q4⟩ := Path.reports_first x p .supply as a ha (channelOf (stationAt p a) m)
    (stationOf_channelOf _ _) path
  rw [← q1] at hsn hse hun hrun
  obtain ⟨settled, outcome⟩ := q.report_supply x f (stationAt p a) m sn asked hsn hon hse hun hwi hrun
    (by rw [q3]; exact hasked)
  rw [← hx] at settled outcome
  dsimp only
  rw [q4 settled]
  exact ⟨settled, outcome⟩

/-- The warning's report for each of several stations, in the terms of the statements (R68, R95). -/
theorem handed_of_reports (s t : State) (p : PortId) (as : List (Fin 8)) (a : Fin 8) (ha : a ∈ as)
    (ht : PathIs t (s.pathAfter p as .supply)) : Handed s t p a .power := by
  intro m c f sn asked hc hf hsn hon hse hun hrun hwi hasked
  subst hc
  rw [ht.2.1]
  exact s.path.reports_supply s.ctx p as a ha m f sn asked hf hsn hon hse hun hrun hwi hasked

/-- R68: the reports of a round stopped by the warning. -/
theorem Link.stopPolling_path (x : Ctx) (p : PortId) (l : Link) :
    (l.stopPolling x p).path =
      l.port.remaining.foldl (fun q a => q.report x x.polled (stationAt p a) false .supply) l.path := by
  rw [← Link.handAll_path]
  unfold Link.stopPolling
  dsimp only
  rw [Link.handAll_port]
  split <;> simp only [Link.handAll_path]

/-! ### The poll list (R57) -/

/-- R57: a station of the list is JOINING, PRESENT or MISSING. -/
theorem Path.mem_pollList (path : Path) (p : PortId) (a : Fin 8) : a ∈ path.pollList p ↔
    path.stations[stationAt p a].state = .joining ∨ path.stations[stationAt p a].state = .present ∨
      path.stations[stationAt p a].state = .missing := by
  unfold Path.pollList
  simp only [List.mem_filter, List.mem_finRange, true_and]
  cases path.stations[stationAt p a].state <;> simp [StationState.isListed]

/-- R57: the list is in ascending order of address. -/
theorem Path.pollList_sorted (path : Path) (p : PortId) : (path.pollList p).Pairwise (· < ·) :=
  (List.pairwise_lt_finRange 8).filter _

/-- R59: with no station on the list the probe goes to the address after the cursor. -/
theorem Path.probeAddress_of_noList (path : Path) (p : PortId) (cursor : Fin 8) (h : path.pollList p = []) :
    path.probeAddress p [] cursor = some (cursor + 1) := by
  refine path.probeAddress_first p [] cursor (cursor + 1) 0 (by decide) (Fin.val_add cursor 1) ?_ nofun
  rw [Path.canProbe_iff]
  refine ⟨?_, List.not_mem_nil⟩
  have out := (path.mem_pollList p (cursor + 1)).not.mp (by rw [h]; exact List.not_mem_nil)
  cases hs : path.stations[stationAt p (cursor + 1)].state <;> simp_all [StationState.isListed]

/-! ### The list taken, and what follows (R57 to R59, R65, R68) -/

section
variable (x : Ctx) (p : PortId) (l : Link)

/-- R57: the list taken, FRAME and its tag sent. -/
def Link.withList : Link :=
  { l with port := { l.port with
      sending := [], pollList := l.path.pollList p, remaining := l.path.pollList p, phase := .polling } }

theorem Link.takeList_eq : l.takeList x p =
    if l.port.suppressed then (l.withList p).stopPolling x p
    else if l.port.deadlinePassed then (l.withList p).deadline x p
    else (l.withList p).nextPoll x p := rfl

/-- R68: of the port a round stopped by the warning changes the calls left and, with none made, the phase and the figures. -/
theorem Link.stopPolling_kept : ∃ phase target current, (l.stopPolling x p).port = { l.port with
    phase := phase, target := target, remaining := [], probeDone := true, current := current } := by
  unfold Link.stopPolling
  dsimp only
  rw [Link.handAll_port]
  split
  · exact ⟨_, _, _, rfl⟩
  · rw [Link.handAll_port]; exact ⟨_, _, _, rfl⟩

/-- R57: the list taken stands, and no counter changes. -/
theorem Link.takeList_kept :
    (l.takeList x p).port.pollList = l.path.pollList p ∧
      ((l.takeList x p).port.framing, (l.takeList x p).port.check, (l.takeList x p).port.noReply,
          (l.takeList x p).port.lateCut, (l.takeList x p).port.stuck) =
        (l.port.framing, l.port.check, l.port.noReply, l.port.lateCut, l.port.stuck) := by
  rw [Link.takeList_eq]
  split
  · obtain ⟨_, _, _, e⟩ := (l.withList p).stopPolling_kept x p
    rw [e]; exact ⟨rfl, rfl⟩
  · split
    · rw [((l.withList p).deadline_spec x p).2.1]; exact ⟨rfl, rfl⟩
    · obtain ⟨_, _, _, _, _, _, _, _, _, _, _, e, _⟩ := (l.withList p).nextPoll_port x p
      rw [e]; exact ⟨rfl, rfl⟩

variable {p l}

/-- R58: with no deadline passed and the line free, the first station of a list left is polled. -/
theorem Link.nextPoll_listed {a : Fin 8} {rest : List (Fin 8)} (h : l.port.remaining = a :: rest)
    (hd : l.port.deadlinePassed = false) (hb : l.port.busy = false) :
    l.nextPoll x p = { l.sendPoll x p a false with
      port := { (l.sendPoll x p a false).port.figure (fun g => { g with listPolls := g.listPolls + 1 }) with
        remaining := rest } } := by
  unfold Link.nextPoll
  rw [h]
  dsimp only
  rw [if_neg (by simp [hd, hb])]

/-- R59: with no station left, no deadline passed and the line free, a probe that is due is made. -/
theorem Link.nextPoll_probe {a : Fin 8} (h : l.port.remaining = []) (hp : l.probeDue p = some a)
    (hd : l.port.deadlinePassed = false) (hb : l.port.busy = false) :
    l.nextPoll x p = { l.sendPoll x p a true with
      port := { (l.sendPoll x p a true).port.figure (fun g => { g with probe := some a }) with
        probeCursor := a, probeDone := true } } := by
  unfold Link.nextPoll
  rw [h]
  dsimp only
  rw [hp]
  dsimp only
  rw [if_neg (by simp [hd, hb])]

theorem Link.takeList_next (hs : l.port.suppressed = false) (hd : l.port.deadlinePassed = false) :
    l.takeList x p = (l.withList p).nextPoll x p := by
  rw [Link.takeList_eq, hs, hd]
  rfl

/-- R58, R59, R94: a poll that the list taken lets begin, the first station's or the probe's, is sent with the lamp states of
its two channels. -/
theorem Link.takeList_polls (hs : l.port.suppressed = false) (hd : l.port.deadlinePassed = false) (hb : l.port.busy = false)
    (hp : l.port.probeDone = false) :
    ∃ a probe, (l.takeList x p).port.target = some { addr := a, probe := probe } ∧ (l.takeList x p).port.phase = .polling ∧
      (l.takeList x p).port.sending = [controlChar (pollChar a),
        dataChar (lampByte (l.path.lampNow x (channelOf (stationAt p a) 0))
          (l.path.lampNow x (channelOf (stationAt p a) 1)))] ∧
      (∀ b rest, l.path.pollList p = b :: rest → a = b ∧ probe = false ∧ (l.takeList x p).port.remaining = rest ∧
        (l.takeList x p).port.current = l.port.current.map fun g => { g with listPolls := g.listPolls + 1 }) ∧
      (l.path.pollList p = [] → a = l.port.probeCursor + 1 ∧ probe = true ∧ (l.takeList x p).port.probeCursor = a ∧
        (l.takeList x p).port.current = l.port.current.map fun g => { g with probe := some a }) := by
  have sent (a : Fin 8) (probe : Bool) := (l.withList p).sendPoll_sending x p a probe
  rw [Link.takeList_next x hs hd]
  cases hl : l.path.pollList p with
  | cons a rest =>
    rw [Link.nextPoll_listed x (show (l.withList p).port.remaining = a :: rest from hl) hd hb]
    refine ⟨a, false, rfl, rfl, sent a false, fun b r h => ?_, nofun⟩
    cases h
    exact ⟨rfl, rfl, rfl, rfl⟩
  | nil =>
    have due : (l.withList p).probeDue p = some (l.port.probeCursor + 1) := by
      show (if l.port.probeDone then none else l.path.probeAddress p (l.path.pollList p) l.port.probeCursor) = _
      rw [hp, hl]
      exact l.path.probeAddress_of_noList p _ hl
    rw [Link.nextPoll_probe x (show (l.withList p).port.remaining = [] from hl) due hd hb]
    exact ⟨_, true, rfl, rfl, sent _ true, nofun, fun _ => ⟨rfl, rfl, rfl, rfl⟩⟩

/-- R68: under the warning the round ends as its list is taken. -/
theorem Link.takeList_suppressed (hs : l.port.suppressed = true) (ht : l.port.target = none) :
    (l.takeList x p).path =
        (l.path.pollList p).foldl (fun q a => q.report x x.polled (stationAt p a) false .supply) l.path ∧
      (l.takeList x p).port = ({ (l.withList p).port with remaining := [], probeDone := true } : Port).endRound x := by
  rw [Link.takeList_eq, if_pos hs]
  exact (l.withList p).stopPolling_spec x p ht

/-- R65: after the deadline each station of the list is handed LATE as it is taken. -/
theorem Link.takeList_late (hs : l.port.suppressed = false) (hd : l.port.deadlinePassed = true) :
    (l.takeList x p).path =
        (l.path.pollList p).foldl (fun q a => q.report x x.polled (stationAt p a) false .late) l.path ∧
      ∃ current, (l.takeList x p).port = { (l.withList p).port with
          remaining := [], deadlinePassed := true, current := current } ∧
        (current = l.port.current ∨
          current = l.port.current.map fun g => { g with roundEnd := l.port.characterTime x }) := by
  rw [Link.takeList_eq, hs, hd]
  obtain ⟨path, port, current⟩ := (l.withList p).deadline_spec x p
  refine ⟨path, _, port, ?_⟩
  rw [current]
  exact ite_eq_or_eq ..

end

theorem exec_frameSent (s : State) (p : PortId) (hs : (s.port p).state = .running) (hph : (s.port p).phase = .framing) :
    exec (.frameSent p) s = .next (s.onLink p (Link.takeList s.ctx p)) := by
  show execFrameSent p s = _
  unfold execFrameSent
  rw [if_pos (by simp [Port.inPhase, hs, hph])]

/-- The figures of a poll made, or none, from the round's figures as a whole (R56, R58). -/
theorem FiguresAre.of_current {s t : State} {p : PortId} (g : Figures → Figures)
    (h : (t.port p).current = (s.port p).current.map g) {polls : Nat → Nat} {probe : Option (Fin 8) → Option (Fin 8)}
    (h1 : ∀ u, (g u).listPolls = polls u.listPolls) (h2 : ∀ u, (g u).probe = probe u.probe) :
    FiguresAre s t p polls probe := by
  unfold FiguresAre
  rw [h, Option.map_map, Option.map_map]
  exact ⟨congrArg (Option.map · _) (funext h1), congrArg (Option.map · _) (funext h2)⟩

/-- Settles O13: the list taken goes on with a poll or the probe, is stopped by the warning, or is handed LATE. -/
theorem frameSentTakesTheListAndPolls : Obligations.FrameSentTakesTheListAndPolls := by
  unfold Obligations.FrameSentTakesTheListAndPolls
  intro s p hs hph
  obtain ⟨hlist, hcounts⟩ := (s.link p).takeList_kept s.ctx p
  refine ⟨_, exec_frameSent s p hs hph, s.onLink_only .., ?_⟩
  have hport : (s.onLink p (Link.takeList s.ctx p)).port p = ((s.link p).takeList s.ctx p).port := s.onLink_port p _
  have hcurrent := congrArg Port.current hport
  rw [hport, hlist]
  refine ⟨s.path.mem_pollList p, s.path.pollList_sorted p, hcounts, fun hsup hd hb hp => ?polls, fun ht h => ?none,
    fun ht hsup => ?warning, fun ht hsup hd => ?late⟩
  case polls =>
    obtain ⟨a, probe, target, phase, sending, listed, probed⟩ :=
      Link.takeList_polls (l := s.link p) (p := p) s.ctx hsup hd hb hp
    obtain ⟨path, channels⟩ := Link.nextPoll_path s.ctx p ((s.link p).withList p)
    rw [← Link.takeList_next s.ctx hsup hd] at path channels
    rw [State.onLink_stations, State.onLink_bays, State.onLink_fcu, State.onLink_channels, path]
    refine ⟨rfl, rfl, rfl, channels, fun b k h => ?_, fun b rest h => ?_, fun h b hb => ?_⟩
    · cases target.symm.trans h
      exact ⟨phase, sending⟩
    · obtain ⟨rfl, rfl, remaining, current⟩ := listed b rest h
      exact ⟨target, remaining, .of_current _ (hcurrent.trans current) (fun _ => rfl) fun _ => rfl⟩
    · obtain ⟨rfl, rfl, cursor, current⟩ := probed h
      subst hb
      exact ⟨target, cursor, .of_current _ (hcurrent.trans current) (fun _ => rfl) fun _ => rfl⟩
  case none =>
    cases hsup : (s.port p).suppressed with
    | true =>
      have port := (Link.takeList_suppressed (l := s.link p) (p := p) s.ctx hsup ht).2
      rw [port]
      exact ⟨rfl, rfl, rfl, rfl, .of_current _ (hcurrent.trans (congrArg Port.current port)) (fun _ => rfl) fun _ => rfl⟩
    | false =>
      obtain ⟨_, current, port, hcur⟩ := Link.takeList_late (l := s.link p) (p := p) s.ctx hsup
        (h.resolve_left (by rw [hsup]; decide))
      rw [port] at hcurrent ⊢
      refine ⟨rfl, ht, rfl, rfl, ?_⟩
      rcases hcur with e | e
      · exact .of_current id (by rw [Option.map_id]; exact hcurrent.trans e) (fun _ => rfl) fun _ => rfl
      · exact .of_current _ (hcurrent.trans e) (fun _ => rfl) fun _ => rfl
  case warning =>
    obtain ⟨path, port⟩ := Link.takeList_suppressed (l := s.link p) (p := p) s.ctx hsup ht
    have his : PathIs (s.onLink p (Link.takeList s.ctx p)) (s.pathAfter p (s.path.pollList p) .supply) :=
      s.onLink_pathIs_of_eq p _ _ path
    refine ⟨by rw [port]; rfl, ?_, his, fun a ha => handed_of_reports s _ p _ a ha his⟩
    refine Vector.ext fun k hk => ?_
    rw [State.onLink_stations, path, ← Link.handAll_path]
    exact Link.handAll_stations_same s.ctx p .supply _ (s.link p) (fun _ => rfl) ⟨k, hk⟩
  case late =>
    obtain ⟨path, current, port, _⟩ := Link.takeList_late (l := s.link p) (p := p) s.ctx hsup hd
    have his : PathIs (s.onLink p (Link.takeList s.ctx p)) (s.pathAfter p (s.path.pollList p) .late) :=
      s.onLink_pathIs_of_eq p _ _ path
    refine ⟨by rw [port]; rfl, his, fun a ha => called_of_reports s _ p _ a ha .late _ (by decide) (by decide) rfl his,
      fun q a => ?_⟩
    obtain ⟨once, other⟩ := s.pathAfter_stations p (s.path.pollList p) .late rfl q a
    rw [his.1]
    split
    · rename_i h
      exact once h.1 (List.count_eq_one_of_mem (s.path.pollList_sorted p).nodup h.2)
    · rename_i h
      exact other (not_and_or.mp h)

end Sys2Proof.Machine
end

