-- ==== Sys2Proof/Proofs/Warning.lean ====
section
/-! PROOF. The onset of the supply warning and the recovery (R68, R143, R162 to R164). -/
namespace Sys2Proof.Machine

/-! ### The onset at one port (R68) -/

section
variable (x : Ctx) (p : PortId) (l : Link)

/-- R68: outside a round, and in one that is over, an onset changes nothing. -/
theorem Link.onset_of_noRound (h : l.port.state ≠ .running ∨ l.port.phase = .idle ∨ l.port.phase = .ended) :
    l.onset x p = l := by
  unfold Link.onset
  split
  · rename_i hs
    rcases h with h | h | h
    · exact absurd hs h
    · rw [h]
    · rw [h]
  · rfl

/-- R68: in FRAMING the round is marked to make no poll. -/
theorem Link.onset_of_framing (hs : l.port.state = .running) (h : l.port.phase = .framing) :
    l.onset x p = { l with port := { l.port with suppressed := true } } := by
  unfold Link.onset
  rw [if_pos hs, h]

/-- R68: with the list taken no further poll is made. -/
theorem Link.onset_of_round (hs : l.port.state = .running)
    (h : l.port.phase = .polling ∨ l.port.phase = .awaiting ∨ l.port.phase = .receiving ∨ l.port.phase = .quieting) :
    l.onset x p = l.stopPolling x p := by
  unfold Link.onset
  rw [if_pos hs]
  rcases h with h | h | h | h <;> rw [h]

/-- R68: with a call under way the round goes on with it alone. -/
theorem Link.stopPolling_called (h : l.port.target ≠ none) :
    (l.stopPolling x p).port = { l.port with remaining := [], probeDone := true } := by
  unfold Link.stopPolling
  dsimp only
  rw [Link.handAll_port, if_neg h, Link.handAll_port]

/-- R56, R68: with no call under way the round is over at this moment. -/
theorem Link.stopPolling_uncalled (h : l.port.target = none) :
    (l.stopPolling x p).port = { l.port with
      remaining := [], probeDone := true, phase := .ended
      current := l.port.current.map fun g => { g with roundEnd := l.port.characterTime x } } := by
  rw [(l.stopPolling_spec x p h).2]
  rcases l with ⟨⟨⟩, path⟩
  cases h
  rfl

/-- R68: an onset hands the warning's report to some stations of its port, and changes nothing else of the path. -/
theorem Link.onset_reports : ∃ as : List (Fin 8), (l.onset x p).path =
    as.foldl (fun q a => q.report x x.polled (stationAt p a) false .supply) l.path := by
  unfold Link.onset
  split
  · split
    · exact ⟨[], rfl⟩
    iterate 4 exact ⟨_, l.stopPolling_path x p⟩
    all_goals exact ⟨[], rfl⟩
  · exact ⟨[], rfl⟩

/-- R68: the port keeps its state and the probe cursor. -/
theorem Link.onset_kept : (l.onset x p).port.state = l.port.state ∧ (l.onset x p).port.probeCursor = l.port.probeCursor := by
  have stopped : (l.stopPolling x p).port.state = l.port.state ∧
      (l.stopPolling x p).port.probeCursor = l.port.probeCursor := by
    obtain ⟨_, _, _, e⟩ := l.stopPolling_kept x p
    rw [e]; exact ⟨rfl, rfl⟩
  unfold Link.onset
  split
  · split
    · exact ⟨rfl, rfl⟩
    iterate 4 exact stopped
    all_goals exact ⟨rfl, rfl⟩
  · exact ⟨rfl, rfl⟩

/-- R68, R71: the warning's report changes no record. -/
theorem Link.onset_stations : (l.onset x p).path.stations = l.path.stations := by
  obtain ⟨as, e⟩ := l.onset_reports x p
  refine Vector.ext fun k hk => ?_
  rw [e, ← Link.handAll_path]
  exact Link.handAll_stations_same x p .supply as l (fun _ => rfl) ⟨k, hk⟩

/-- A cause pending stays pending through an onset's reports. -/
theorem Link.onset_pending (i : Nat) (h : l.path.attn.pending.getLsbD i = true) :
    (l.onset x p).path.attn.pending.getLsbD i = true := by
  obtain ⟨as, e⟩ := l.onset_reports x p
  rw [e]
  exact Path.reports_pending x x.polled p .supply as l.path i h

/-- R68: the channels of the other port's stations stand as they were. -/
theorem Link.onset_other (o : PortId) (h : o ≠ p) (a : Fin 8) (m : Fin 2) :
    (l.onset x p).path.channels[channelOf (stationAt o a) m] = l.path.channels[channelOf (stationAt o a) m] := by
  obtain ⟨as, e⟩ := l.onset_reports x p
  rw [e]
  generalize l.path = q
  clear e
  induction as generalizing q with
  | nil => rfl
  | cons b as ih =>
    have hk : stationAt o a ≠ stationAt p b := fun e => h (stationAt_inj e).1
    rw [List.foldl_cons, ih]
    exact (q.report_other x x.polled _ false .supply _ (by rw [stationOf_channelOf]; exact hk)).1

end

/-! ### The onset in the whole state (R143, R163) -/

section
variable (s : State)

/-- The flag, POWER and the closes that an onset makes due, before the ports' reports (R143, R163; assumption 49). -/
def State.warned : State :=
  { s with supply := { warning := true, dipStart := s.dipStart }, path := s.path.raise .power }.setEmptyCloses

theorem State.warned_eq : ∃ sheets, s.warned = { s with
    supply := { warning := true, dipStart := s.dipStart }, path := s.path.raise .power
    writer := { s.writer with sheets := sheets } } ∧
    ∀ k : Fin 34, sheets[k] = State.emptyClosed
      { s with supply := { warning := true, dipStart := s.dipStart }, path := s.path.raise .power } k :=
  State.setEmptyCloses_eq { s with supply := { warning := true, dipStart := s.dipStart }, path := s.path.raise .power }

theorem State.warned_ctx : s.warned.ctx = { s.ctx with warning := true } := by
  obtain ⟨_, e, _⟩ := s.warned_eq
  rw [e]; rfl

theorem State.warned_link (p : PortId) : s.warned.link p = { port := s.port p, path := s.path.raise .power } := by
  obtain ⟨_, e, _⟩ := s.warned_eq
  rw [e]
  cases p <;> rfl

/-- R143: outside DRAINING each open sheet whose bay is empty and that has no close due has one due with reason POWER. -/
theorem State.warned_sheet (h : s.sitting.draining = false) (k : Fin 34) : s.warned.writer.sheets[k] =
    if s.path.bays.bay[k].items = [] ∧ s.closeDue k = none then s.writer.sheets[k].map fun o => { o with powerDue := true }
    else s.writer.sheets[k] := by
  obtain ⟨sheets, e, each⟩ := s.warned_eq
  rw [e]
  refine (each k).trans ?_
  unfold State.emptyClosed
  dsimp only
  rw [h]
  rfl

/-- Port A's work at an onset. -/
def State.onsetA : Link := (s.warned.link .a).onset s.warned.ctx .a

/-- Port B's work at an onset, after Port A's (assumption 49). -/
def State.onsetB : Link := ({ port := s.portB, path := s.onsetA.path } : Link).onset s.warned.ctx .b

theorem State.onset_eq : s.onset = ({ s.warned with
    portA := s.onsetA.port, portB := s.onsetB.port, path := s.onsetB.path } : State).refresh := by
  have parts (u : State) (la : Link) (g : Ctx → Link → Link) :
      (let v := u.withLink .a la; v.withLink .b (g v.ctx (v.link .b))) =
        { u with
          portA := la.port, portB := (g u.ctx { port := u.portB, path := la.path }).port
          path := (g u.ctx { port := u.portB, path := la.path }).path } := rfl
  have hB : s.warned.portB = s.portB := by
    obtain ⟨_, e, _⟩ := s.warned_eq
    rw [e]
  have e := parts s.warned s.onsetA fun x l => l.onset x .b
  rw [hB] at e
  exact congrArg State.refresh e

theorem State.onset_only : s.onset = { s with
    supply := { warning := true, dipStart := s.dipStart }
    portA := s.onset.portA, portB := s.onset.portB, path := s.onset.path
    writer := { s.writer with sheets := s.onset.writer.sheets, starving := s.onset.writer.starving } } := by
  rw [State.onset_eq]
  generalize s.onsetA = la
  generalize s.onsetB = lb
  obtain ⟨_, e, _⟩ := s.warned_eq
  rw [e]
  generalize hu : ({ s with
    supply := _, path := lb.path, portA := la.port, portB := lb.port, writer := _ } : State) = u
  have h := u.refresh_only
  generalize u.refresh = r at h ⊢
  rw [h, ← hu]

theorem State.onset_sheets : s.onset.writer.sheets = s.warned.writer.sheets := by
  rw [State.onset_eq, State.refresh_sheets]

theorem State.onset_stations : s.onset.path.stations = s.path.stations := by
  rw [State.onset_eq, State.refresh_stations]
  dsimp only
  unfold State.onsetB
  rw [Link.onset_stations]
  unfold State.onsetA
  dsimp only
  rw [Link.onset_stations, State.warned_link]
  rfl

theorem State.onset_raised : Raised s.onset .power := by
  rw [State.onset_eq]
  refine State.refresh_raised _ _ ?_
  unfold Raised State.onsetB
  dsimp only
  refine Link.onset_pending _ _ _ _ ?_
  dsimp only
  unfold State.onsetA
  refine Link.onset_pending _ _ _ _ ?_
  rw [State.warned_link]
  exact Attention.raise_pending_self _ _

/-- A port's work at an onset: its own, on a path whose records and whose channels of its stations are as they were. -/
theorem State.onset_own (p : PortId) : ∃ q : Path, q.stations = s.path.stations ∧
    (∀ (a : Fin 8) (m : Fin 2), q.channels[channelOf (stationAt p a) m] = s.path.channels[channelOf (stationAt p a) m]) ∧
    s.onset.port p = (({ port := s.port p, path := q } : Link).onset s.warned.ctx p).port ∧
    ∀ (a : Fin 8) (m : Fin 2), s.onset.path.channels[channelOf (stationAt p a) m] =
      (({ port := s.port p, path := q } : Link).onset s.warned.ctx p).path.channels[channelOf (stationAt p a) m] := by
  have start := s.warned_link .a
  rw [State.onset_eq, State.refresh_port, State.refresh_channels]
  cases p with
  | a =>
    refine ⟨s.path.raise .power, rfl, fun _ _ => rfl, ?_, fun a m => ?_⟩
    · simp only [State.port]
      unfold State.onsetA
      rw [start]
      rfl
    · refine (Link.onset_other _ .b _ .a nofun a m).trans ?_
      unfold State.onsetA
      rw [start]
  | b =>
    refine ⟨s.onsetA.path, ?_, fun a m => ?_, rfl, fun _ _ => rfl⟩
    · unfold State.onsetA
      rw [Link.onset_stations, start]
      rfl
    · unfold State.onsetA
      rw [Link.onset_other _ .a _ .b nofun, start]
      rfl

end

/-! ### The recovery (R164) -/

section
variable (s : State)

/-- R17, R164: what a recovery leaves of the bays where the dip has a last frame. -/
theorem State.recovered_bays {first last : Nat} (hf : s.supply.dipStart = some first) (hl : s.dipEnd first = some last) :
    s.recovered.path.bays = if s.sitting.marks last then
        s.path.bays.offer { kind := .powerDip first last, frame := last, time := s.timer.tod }
      else s.path.bays := by
  unfold State.recovered
  rw [hf]
  dsimp only
  rw [hl]
  dsimp only
  unfold Path.mark
  split <;> rename_i h
  · exact (if_pos h).symm
  · exact (if_neg h).symm

/-- R164: a dip without a frame leaves no mark. -/
theorem State.recovered_bays_of_none (h : ∀ first, s.supply.dipStart = some first → s.dipEnd first = none) :
    s.recovered.path.bays = s.path.bays := by
  unfold State.recovered
  dsimp only
  split
  · rename_i first hf
    rw [h first hf]
  · rfl

/-- R164: a recovery clears the flag and the dip start frame, and may place a mark. -/
theorem State.recovered_only : s.recovered = { s with
    supply := { warning := false, dipStart := none }, path := { s.path with bays := s.recovered.path.bays } } := by
  have marked (x : Ctx) (k : MarkKind) (f : Nat) (q : Path) : q.mark x k f = { q with bays := (q.mark x k f).bays } := by
    unfold Path.mark; split <;> rfl
  unfold State.recovered
  dsimp only
  split
  · split
    · rw [← marked]
    · rfl
  · rfl

theorem State.recovered_refresh_only : s.recovered.refresh = { s with
    supply := { warning := false, dipStart := none }
    path := { s.path with attn := s.recovered.refresh.path.attn, bays := s.recovered.refresh.path.bays }
    writer := { s.writer with starving := s.recovered.refresh.writer.starving } } := by
  have h := s.recovered.refresh_only
  have hbays := State.refresh_bays s.recovered
  have only := s.recovered_only
  generalize s.recovered.refresh = t at h hbays ⊢
  rw [hbays]
  generalize s.recovered.path.bays = bays at only
  rw [h, only]

/-- R164: the last frame that a dip can have: the frame in computation, in FINISHING the sitting's where that is lower. -/
def State.dipLast : Nat :=
  match s.sitting.close with
  | some g => min (s.frame - 1) g.last
  | none => s.frame - 1

/-- R164: a dip has no last frame where no frame is in computation or the dip would begin after it. -/
theorem State.dipEnd_eq (first : Nat) :
    s.dipEnd first = if s.frame = 0 ∨ s.dipLast < first then none else some s.dipLast := rfl

/-- R164: a dip without a frame leaves no mark. -/
theorem State.recovered_unmarked {first : Nat} (hf : s.supply.dipStart = some first)
    (h : s.frame = 0 ∨ s.dipLast < first) : s.recovered.path.bays = s.path.bays :=
  s.recovered_bays_of_none fun u hu => by cases hf.symm.trans hu; rw [State.dipEnd_eq, if_pos h]

/-- R17, R164: a dip with a frame is marked at its last frame where a mark may be created. -/
theorem State.recovered_marked {first : Nat} (hf : s.supply.dipStart = some first) (h0 : 0 < s.frame)
    (hl : first ≤ s.dipLast) : s.recovered.path.bays = if s.sitting.marks s.dipLast then
        s.path.bays.offer { kind := .powerDip first s.dipLast, frame := s.dipLast, time := s.timer.tod }
      else s.path.bays :=
  s.recovered_bays hf ((s.dipEnd_eq first).trans (if_neg (by omega)))

theorem State.frame_of_not_counting (h : s.sitting.counting = false) : s.frame = 0 := by
  unfold State.frame Sitting.frameAt
  rw [h]; rfl

/-- R17: an open sitting marks every frame. -/
theorem Sitting.marks_of_open {st : Sitting} (h : st.isOpen = true) (f : Nat) : st.marks f = true := by
  unfold Sitting.marks
  rcases st.isOpen_iff.mp h with hs | hs <;> rw [hs]

/-- R17: a closing sitting marks its frames up to the last, until it drains. -/
theorem Sitting.marks_of_closing {st : Sitting} (h : st.state = .closing) {g : CloseTarget} (hg : st.close = some g) (f : Nat) :
    st.marks f = (!g.draining && decide (f ≤ g.last)) := by
  unfold Sitting.marks
  rw [h, hg]

end

theorem exec_supplyWarning (s : State) : exec .supplyWarning s = .next (if s.supply.warning then s else s.onset) := rfl

theorem exec_supplyRecovery (s : State) :
    exec .supplyRecovery s = .next (if s.supply.warning then s.recovered.refresh else s) := rfl

/-- Settles O6: an onset is the flag and the closes, then each port's own work; a recovery places a mark where R17 allows it. -/
theorem warningAndRecovery : Obligations.WarningAndRecovery := by
  unfold Obligations.WarningAndRecovery
  intro s
  refine ⟨fun h => ?stands, fun h => ?clear, fun h => ?onset, fun h => ?recovery⟩
  case stands =>
    rw [exec_supplyWarning, if_pos h]
  case clear =>
    rw [exec_supplyRecovery, h, if_neg (by decide)]
  case onset =>
    refine ⟨s.onset, by rw [exec_supplyWarning, h, if_neg (by decide)], s.onset_only, fun hd k => ?_, s.onset_raised,
      s.onset_stations, fun p => ?_⟩
    · rw [State.onset_sheets]; exact s.warned_sheet hd k
    obtain ⟨q, qstations, qchannels, hport, hchannels⟩ := s.onset_own p
    generalize hl : ({ port := s.port p, path := q } : Link) = l at hport hchannels
    have lport : s.port p = l.port := by rw [← hl]
    have lpath : q = l.path := by rw [← hl]
    rw [hport, lport]
    obtain ⟨state, cursor⟩ := l.onset_kept s.warned.ctx p
    refine ⟨state, cursor, fun hn => by rw [l.onset_of_noRound _ _ hn], fun hs hf => by rw [l.onset_of_framing _ _ hs hf],
      fun hs hr => ?_⟩
    have stopped := l.onset_of_round s.warned.ctx p hs hr
    rw [stopped]
    refine ⟨l.stopPolling_called _ p, fun ht => ?_, fun a ha m c f sn asked hc hf hsn hon hse hun hrun hwi hasked => ?_⟩
    · rw [l.stopPolling_uncalled _ p ht, State.warned_ctx]; rfl
    · subst hc
      rw [← qchannels] at hsn hse hun hrun
      rw [hchannels, stopped, l.stopPolling_path, ← lpath, State.warned_ctx]
      exact q.reports_supply { s.ctx with warning := true } p l.port.remaining a ha m f sn asked hf hsn hon hse hun hrun hwi
        (by rw [qstations]; exact hasked)
  case recovery =>
    have bays : s.recovered.refresh.path.bays = s.recovered.path.bays := State.refresh_bays _
    refine ⟨s.recovered.refresh, by rw [exec_supplyRecovery, h, if_pos rfl], s.recovered_refresh_only, ?_⟩
    rw [bays]
    refine ⟨fun hn => ?_, fun first hf ho hc => ?_, fun first last g hf hs hg hlast => ?_⟩
    · refine s.recovered_bays_of_none fun first hf => ?_
      rcases hn with hn | hn
      · rw [hn] at hf; cases hf
      · rw [State.dipEnd_eq, if_pos (.inl (s.frame_of_not_counting hn))]
    · have hdip : s.dipLast = s.frame - 1 := by unfold State.dipLast; rw [hc]
      rw [← hdip]
      exact ⟨s.recovered_unmarked hf, fun h0 hl => (s.recovered_marked hf h0 hl).trans (if_pos (Sitting.marks_of_open ho _))⟩
    · have hdip : s.dipLast = last := by unfold State.dipLast; rw [hg, hlast]
      have within : last ≤ g.last := by omega
      rw [← hdip] at within ⊢
      have marks := Sitting.marks_of_closing hs hg s.dipLast
      refine ⟨fun hl => ?_, fun h0 hl hd => ?_⟩
      · by_cases he : s.frame = 0 ∨ s.dipLast < first
        · exact s.recovered_unmarked hf he
        · have drains : g.draining = true := (or_assoc.mpr hl).resolve_left he
          rw [s.recovered_marked hf (by omega) (by omega), marks, drains]
          rfl
      · rw [s.recovered_marked hf h0 hl, marks, hd, decide_eq_true within]
        rfl

end Sys2Proof.Machine
end

