-- ==== Sys2Proof/Proofs/Bundles.lean ====
section
/-! PROOF. The data characters of a bundle: what a station sends reads back, and what R62's checks 5 to 9 accept and refuse
(R54, R55, R62, R171). -/
namespace Sys2Proof.Machine

/-! ### The control characters (R171) -/

/-- R171: only the eight values from 0x90 lead a bundle. -/
theorem toNat_of_bundleAddress {v : Byte} {a : Fin 8} (h : bundleAddress v = some a) : v.toNat = 0x90 + a.val := by
  unfold bundleAddress at h
  split at h
  · cases h
    show v.toNat = 0x90 + v.toNat % 8
    omega
  · cases h

/-- R171: the check of the nine characters 1 to 9. -/
theorem crc16_of_nine :
    crc16 [0x31#8, 0x32#8, 0x33#8, 0x34#8, 0x35#8, 0x36#8, 0x37#8, 0x38#8, 0x39#8] = 0x29B1#16 := by
  simp [crc16, crcByte, crcShifts, crcShift]

/-! ### The checks (R62) -/

theorem readLE_lt (bs : List Byte) (off n : Nat) : readLE bs off n < 256 ^ n := by
  induction n generalizing off with
  | zero => exact Nat.one_pos
  | succ n ih =>
    have byte := (bs.getD off 0).isLt
    have rest := ih (off + 1)
    rw [readLE, Nat.pow_succ]
    omega

/-- R55: the check as a register and as the number that its two characters make. -/
theorem toNat_eq_readLE_iff (c : BitVec 16) (bs : List Byte) (off : Nat) :
    c.toNat = readLE bs off 2 ↔ c = BitVec.ofNat 16 (readLE bs off 2) := by
  rw [← BitVec.toNat_inj, BitVec.toNat_ofNat, Nat.mod_eq_of_lt (show _ < 2 ^ 16 from readLE_lt bs off 2)]

/-- R171: the four high positions of a byte are 0 where it is below 16. -/
theorem highBits_zero_iff (v : Byte) : v.toNat / 16 = 0 ↔ ∀ i, 4 ≤ i → i < 8 → v.getLsbD i = false := by
  rw [Nat.div_eq_zero_iff_lt (by decide)]
  constructor
  · intro h i hi _
    exact Nat.testBit_lt_two_pow (h.trans_le (Nat.pow_le_pow_right (n := 2) (by decide) hi))
  · intro h
    refine Nat.lt_pow_two_of_testBit (n := 4) _ fun i hi => ?_
    by_cases hi' : i < 8
    · exact h i hi hi'
    · exact v.getLsbD_of_ge i (by omega)

/-- R54, R62: the counts of both microphones are in their range. -/
def countsRight (data : List Byte) : Prop := ∀ m : Fin 2, 60 ≤ bundleCount data m ∧ bundleCount data m ≤ 68

theorem not_countsRight_iff (data : List Byte) :
    ¬countsRight data ↔ ∃ m : Fin 2, bundleCount data m < 60 ∨ 68 < bundleCount data m := by
  unfold countsRight
  simp only [not_forall, not_and_or, not_le]

section
variable {data : List Byte} {tag : Byte}

/-- R62, check 5: the number of characters. -/
theorem bundleFault_length (h : data.length ≠ 9 + 2 * (bundleCount data 0 + bundleCount data 1)) :
    bundleFault data tag = some .length := if_pos (.inr (by omega))

variable (hlen : data.length = 9 + 2 * (bundleCount data 0 + bundleCount data 1))
include hlen

/-- R62, check 6: the counts. -/
theorem bundleFault_count (h : ¬countsRight data) : bundleFault data tag = some .count := by
  rw [not_countsRight_iff, Fin.exists_fin_two] at h
  unfold bundleFault
  rw [if_neg (by omega), if_pos (by omega)]

variable (hcount : countsRight data)
include hcount

/-- R62: with the number and the counts right the checks 7 to 9 are left. -/
theorem bundleFault_of_counts : bundleFault data tag =
    if (crc16 (data.take (data.length - 2))).toNat ≠ readLE data (data.length - 2) 2 then some .crc
    else if data.getD 3 0 ≠ tag then some .tag
    else if (data.getD 4 0).toNat / 16 ≠ 0 then some .format
    else none := by
  have h0 := hcount 0
  have h1 := hcount 1
  unfold bundleFault
  rw [if_neg (by omega), if_neg (by omega)]

/-- R62, check 7: the CRC. -/
theorem bundleFault_crc
    (h : crc16 (data.take (data.length - 2)) ≠ BitVec.ofNat 16 (readLE data (data.length - 2) 2)) :
    bundleFault data tag = some .crc := by
  rw [bundleFault_of_counts hlen hcount, if_pos ((toNat_eq_readLE_iff ..).not.mpr h)]

variable (hcrc : crc16 (data.take (data.length - 2)) = BitVec.ofNat 16 (readLE data (data.length - 2) 2))
include hcrc

/-- R62, check 8: the tag. -/
theorem bundleFault_tag (h : data.getD 3 0 ≠ tag) : bundleFault data tag = some .tag := by
  rw [bundleFault_of_counts hlen hcount, if_neg (not_not.mpr ((toNat_eq_readLE_iff ..).mpr hcrc)), if_pos h]

/-- R62, check 9: the positions of the status that are always 0. -/
theorem bundleFault_format (htag : data.getD 3 0 = tag) : bundleFault data tag =
    if (data.getD 4 0).toNat / 16 ≠ 0 then some .format else none := by
  rw [bundleFault_of_counts hlen hcount, if_neg (not_not.mpr ((toNat_eq_readLE_iff ..).mpr hcrc)),
    if_neg (not_not.mpr htag)]

end

/-- R62: a reply passes the checks 5 to 9 exactly when each of them holds. -/
theorem bundleFault_eq_none_iff (data : List Byte) (tag : Byte) : bundleFault data tag = none ↔
    data.length = 9 + 2 * (bundleCount data 0 + bundleCount data 1) ∧ countsRight data ∧
      crc16 (data.take (data.length - 2)) = BitVec.ofNat 16 (readLE data (data.length - 2) 2) ∧
      data.getD 3 0 = tag ∧ ∀ i, 4 ≤ i → i < 8 → (data.getD 4 0).getLsbD i = false := by
  constructor
  · intro h
    have hlen : data.length = 9 + 2 * (bundleCount data 0 + bundleCount data 1) :=
      not_not.mp fun e => nomatch (bundleFault_length e).symm.trans h
    have hcount : countsRight data := not_not.mp fun e => nomatch (bundleFault_count hlen e).symm.trans h
    have hcrc : crc16 (data.take (data.length - 2)) = _ :=
      not_not.mp fun e => nomatch (bundleFault_crc hlen hcount e).symm.trans h
    have htag : data.getD 3 0 = tag := not_not.mp fun e => nomatch (bundleFault_tag hlen hcount hcrc e).symm.trans h
    rw [bundleFault_format hlen hcount hcrc htag] at h
    refine ⟨hlen, hcount, hcrc, htag, (highBits_zero_iff _).mp (not_not.mp fun e => ?_)⟩
    rw [if_pos e] at h
    cases h
  · rintro ⟨hlen, hcount, hcrc, htag, hformat⟩
    rw [bundleFault_format hlen hcount hcrc htag, if_neg (not_not.mpr ((highBits_zero_iff _).mpr hformat))]

/-! ### A bundle that a station sends (R54, R55, R171) -/

/-- Samples of 16 bits read back, behind whatever stands in front of them (R171). -/
theorem readSamples_flatMap (vs : List Int) (front rest : List Byte) (h : ∀ v ∈ vs, -32768 ≤ v ∧ v ≤ 32767) :
    readSamples (front ++ (vs.flatMap leSigned ++ rest)) front.length vs.length = vs := by
  induction vs generalizing front with
  | nil => rfl
  | cons v vs ih =>
    obtain ⟨h1, h2⟩ := h v List.mem_cons_self
    have first : readSigned (front ++ ((v :: vs).flatMap leSigned ++ rest)) front.length = v := by
      have e := readSigned_leSigned v (vs.flatMap leSigned ++ rest) h1 h2
      unfold readSigned at e ⊢
      rw [List.flatMap_cons, List.append_assoc]
      rwa [← Nat.add_zero front.length, readLE_append_right]
    have others := ih (front ++ leSigned v) fun u hu => h u (List.mem_cons_of_mem _ hu)
    rw [List.length_append, length_leSigned, List.append_assoc, ← List.append_assoc (leSigned v)] at others
    show readSigned _ _ :: readSamples _ (front.length + 2) vs.length = _
    rw [first, List.flatMap_cons, others]

/-- The status character of a bundle (R171). -/
def Bundle.status (b : Bundle) : Byte :=
  BitVec.ofNat 8 (bit b.privacy[0] + 2 * bit b.privacy[1] + 4 * bit b.present[0] + 8 * bit b.present[1])

/-- R171: the status reads back, and its high positions are 0. -/
theorem Bundle.status_readBack (b : Bundle) :
    b.status.getLsbD 0 = b.privacy[0] ∧ b.status.getLsbD 1 = b.privacy[1] ∧ b.status.getLsbD 2 = b.present[0] ∧
      b.status.getLsbD 3 = b.present[1] ∧ b.status.toNat / 16 = 0 := by
  unfold Bundle.status
  generalize b.privacy[0] = p
  generalize b.privacy[1] = q
  generalize b.present[0] = r
  generalize b.present[1] = s
  revert p q r s
  decide

section
variable (b : Bundle)

/-- What stands behind the first seven characters of a bundle: the samples of both microphones and the check. -/
def Bundle.tail : List Byte :=
  b.samples[0].flatMap leSigned ++ (b.samples[1].flatMap leSigned ++ leBytes 2 (crc16 b.body).toNat)

/-- The characters of a bundle in their order (R54, R171). -/
theorem Bundle.encode_eq : b.encode =
    leBytes 3 b.unit.toNat ++
      (b.tag :: b.status :: BitVec.ofNat 8 b.samples[0].length :: BitVec.ofNat 8 b.samples[1].length :: b.tail) := by
  simp [Bundle.encode, Bundle.body, Bundle.tail, Bundle.status, leBytes]

theorem Bundle.encode_tag : b.encode.getD 3 0 = b.tag := by rw [Bundle.encode_eq]; rfl

theorem Bundle.encode_status : b.encode.getD 4 0 = b.status := by rw [Bundle.encode_eq]; rfl

theorem Bundle.encode_unit : readLE b.encode 0 3 = b.unit.toNat := by
  rw [Bundle.encode_eq]
  exact readLE_leBytes 3 _ _ b.unit.isLt

theorem Bundle.encode_crc : crc16 (b.encode.take (b.encode.length - 2)) =
    BitVec.ofNat 16 (readLE b.encode (b.encode.length - 2) 2) := by
  have hlen : b.encode.length - 2 = b.body.length := by
    unfold Bundle.encode
    rw [List.length_append, length_leBytes, Nat.add_sub_cancel]
  have hread : readLE b.encode b.body.length 2 = (crc16 b.body).toNat := by
    unfold Bundle.encode
    rw [← Nat.add_zero b.body.length, readLE_append_right, ← List.append_nil (leBytes 2 _)]
    exact readLE_leBytes 2 _ [] (crc16 b.body).isLt
  rw [hlen, hread, BitVec.ofNat_toNat, BitVec.setWidth_eq]
  unfold Bundle.encode
  rw [List.take_left]

variable {b} (h : b.wf = true)
include h

/-- R54: 60 to 68 samples of 16 bits for each microphone. -/
theorem Bundle.samples_of_wf (m : Fin 2) : (60 ≤ b.samples[m].length ∧ b.samples[m].length ≤ 68) ∧
    ∀ v ∈ b.samples[m], -32768 ≤ v ∧ v ≤ 32767 := by
  unfold Bundle.wf at h
  have hm := List.all_eq_true.mp h m (List.mem_finRange m)
  simpa only [Bool.and_eq_true, decide_eq_true_eq, List.all_eq_true] using hm

theorem Bundle.encode_count (m : Fin 2) : bundleCount b.encode m = b.samples[m].length := by
  obtain ⟨⟨_, h0⟩, _⟩ := Bundle.samples_of_wf h m
  have byte (n : Nat) (hn : n ≤ 68) : (BitVec.ofNat 8 n).toNat + 256 * 0 = n := by
    rw [BitVec.toNat_ofNat]; omega
  unfold bundleCount
  rw [Bundle.encode_eq]
  match m, h0 with
  | 0, h0 => exact byte _ h0
  | 1, h0 => exact byte _ h0

theorem Bundle.encode_samples :
    readSamples b.encode 7 (bundleCount b.encode 0) = b.samples[0] ∧
      readSamples b.encode (7 + 2 * bundleCount b.encode 0) (bundleCount b.encode 1) = b.samples[1] := by
  have shape (front : List Byte) (hf : front = leBytes 3 b.unit.toNat ++
      [b.tag, b.status, BitVec.ofNat 8 b.samples[0].length, BitVec.ofNat 8 b.samples[1].length]) :
      b.encode = front ++ b.tail ∧ front.length = 7 := by
    subst hf
    rw [Bundle.encode_eq]
    exact ⟨by rw [List.append_assoc]; rfl, rfl⟩
  obtain ⟨e, hfront⟩ := shape _ rfl
  rw [Bundle.encode_count h, Bundle.encode_count h, e]
  generalize leBytes 3 b.unit.toNat ++ _ = front at hfront ⊢
  constructor
  · rw [← hfront]
    exact readSamples_flatMap b.samples[0] front _ (Bundle.samples_of_wf h 0).2
  · have second := readSamples_flatMap b.samples[1] (front ++ b.samples[0].flatMap leSigned)
      (leBytes 2 (crc16 b.body).toNat) (Bundle.samples_of_wf h 1).2
    rw [List.length_append, length_flatMap_leSigned, hfront, List.append_assoc] at second
    exact second

/-- R54, R62: a bundle that a station may send is good under the tag it carries. -/
theorem Bundle.encode_good : bundleFault b.encode b.tag = none := by
  refine (bundleFault_eq_none_iff ..).mpr ⟨?_, fun m => ?_, b.encode_crc, b.encode_tag, (highBits_zero_iff _).mp ?_⟩
  · rw [Bundle.encode_count h, Bundle.encode_count h]
    unfold Bundle.encode
    rw [List.length_append, length_body, length_leBytes]
    show 7 + 2 * (b.samples[0].length + b.samples[1].length) + 2 = 9 + 2 * (b.samples[0].length + b.samples[1].length)
    omega
  · rw [Bundle.encode_count h]
    exact (Bundle.samples_of_wf h m).1
  · obtain ⟨_, _, _, _, high⟩ := b.status_readBack
    rw [b.encode_status]
    exact high

/-- R54, R171: a bundle that a station may send reads back item for item. -/
theorem Bundle.parse_encode : Bundle.parse b.encode = b := by
  obtain ⟨s0, s1⟩ := Bundle.encode_samples h
  obtain ⟨p0, p1, p2, p3, _⟩ := b.status_readBack
  rw [← b.encode_status] at p0 p1 p2 p3
  have unit : BitVec.ofNat 24 (readLE b.encode 0 3) = b.unit := by
    rw [b.encode_unit, BitVec.ofNat_toNat, BitVec.setWidth_eq]
  have pair {α : Type} {x y : α} {v : Vector α 2} (h0 : x = v[0]) (h1 : y = v[1]) : #v[x, y] = v := by
    subst h0 h1
    ext i hi
    match i, hi with
    | 0, _ => rfl
    | 1, _ => rfl
  calc Bundle.parse b.encode
      = { unit := BitVec.ofNat 24 (readLE b.encode 0 3), tag := b.encode.getD 3 0
          privacy := #v[(b.encode.getD 4 0).getLsbD 0, (b.encode.getD 4 0).getLsbD 1]
          present := #v[(b.encode.getD 4 0).getLsbD 2, (b.encode.getD 4 0).getLsbD 3]
          samples := #v[readSamples b.encode 7 (bundleCount b.encode 0),
            readSamples b.encode (7 + 2 * bundleCount b.encode 0) (bundleCount b.encode 1)] } := rfl
    _ = b := (Bundle.mk.injEq ..).mpr ⟨unit, b.encode_tag, pair p0 p1, pair p2 p3, pair s0 s1⟩

end

/-- Settles O20: the checks one after another, and a bundle's characters read back one item after another. -/
theorem bundlesReadBackAndAreChecked : Obligations.BundlesReadBackAndAreChecked := by
  unfold Obligations.BundlesReadBackAndAreChecked
  refine ⟨⟨rfl, rfl, rfl, by decide, fun v a => toNat_of_bundleAddress, ?lamp, ?crc⟩,
    fun b h => ⟨b.encode_good h, b.parse_encode h⟩, bundleFault_eq_none_iff, fun data tag => ⟨fun h => ?length,
      fun hlen => ⟨fun h => ?count, fun hcount => ⟨bundleFault_crc hlen hcount,
        fun hcrc => ⟨bundleFault_tag hlen hcount hcrc, fun htag h => ?format⟩⟩⟩⟩⟩
  case lamp =>
    intro l m
    cases l <;> cases m <;> rfl
  case crc => exact crc16_of_nine
  case length => exact bundleFault_length (by omega)
  case count => exact bundleFault_count hlen ((not_countsRight_iff data).mpr h)
  case format =>
    obtain ⟨i, h4, h8, hi⟩ := h
    rw [bundleFault_format hlen hcount hcrc htag, if_pos]
    intro e
    rw [(highBits_zero_iff _).mp e i h4 h8] at hi
    cases hi

end Sys2Proof.Machine
end
